-- ==== Sys2Proof/Word.lean ====
section
/-! DEFINITION. The number types of the part: bytes and 16-bit numbers as they travel on the control port, and the
index types of rows, cells, lanes and controller numbers (00_scope.md sections 4 and 5). -/

namespace Sys2Proof

/-- A cell of a row, a register or a buffer, or a byte of a frame: 8 bits (R1). -/
abbrev Byte := BitVec 8

/-- A 16-bit number: a generation, a ticket, a counter, an attention mask. Arithmetic wraps modulo 65536. -/
abbrev Half := BitVec 16

/-- A row number, 0 to 511 (R1). -/
abbrev RowId := Fin 512

/-- A cell number within a row, a lane register or a port buffer, 0 to 127 (R1). -/
abbrev CellId := Fin 128

/-- A lane number, L0 to L3. -/
abbrev LaneId := Fin 4

/-- A controller number, C0 to C7. -/
abbrev Ctl := Fin 8

/-- A claim id, 0 to 23 (R20). -/
abbrev ClaimId := Fin 24

end Sys2Proof
end

