-- ==== Sys2Proof/Syntax.lean ====
section
/-! DEFINITION. The names the commands use and the commands themselves: one constructor of `Instr` per row of
opcode_table.json. The rows of the Command Engine (R139) carry the fields of the frame they execute (R176): the
controller number, the tag byte and the command's parameters in the order of its rule. -/

namespace Sys2Proof

/-- A holder of claims and a requester of operations: a lane or a controller (5.3 of 00_scope.md). -/
inductive Party where
  | lane (n : LaneId)
  | ctl (c : Ctl)
  deriving DecidableEq, Repr, Inhabited

/-- The last writer of a row record: a requester, or the start-up sweep (R2). -/
inductive Writer where
  | party (p : Party)
  | sweep
  deriving DecidableEq, Repr, Inhabited

/-- The verdict the Control Port gives a frame it delivers (R166). -/
inductive Verdict where
  | good
  | overlong
  | short
  | checkFailed
  deriving DecidableEq, Repr

/-- The two bus conditions (R157). -/
inductive Condition where
  | start
  | stop
  deriving DecidableEq, Repr

/-- What ends a read phase at a byte boundary (R171). -/
inductive ReadEnd where
  | nack
  | stop
  | repeatedStart
  deriving DecidableEq, Repr

/-- The request a REQUEST_REFUSAL concerns: the one in a lane's slot, or a queued one by its ticket (R46). -/
inductive RefusalTarget where
  | slot (n : LaneId)
  | ticket (t : Half)
  deriving DecidableEq, Repr

/-- A row list entry as LIST APPEND carries it: six bytes, not yet range-checked (R111, R181). -/
structure RawEntry where
  row : Half
  tap : Byte
  span : Byte
  repeats : Byte
  pause : Byte
  deriving DecidableEq, Repr

/-- The commands of the part: every row of opcode_table.json, in the table's order. The docstring of each
constructor names the rule the table gives for its row. -/
inductive Instr where
  /-- Power-up, or RESETn going low (R16). -/
  | hardReset
  /-- RESETn rises with these levels on ADR2 to ADR0 (R17, R161). -/
  | resetnRise (straps : Fin 8)
  /-- The sweep operation in progress completes (R17). -/
  | sweepOperationCompletion
  /-- A 15 µs refresh tick (R12). -/
  | refreshTick
  /-- A 1 ms tick (R45). -/
  | millisecondTick
  /-- A request whose blocked time has reached its wait limit is refused (R46). -/
  | requestRefusal (who : RefusalTarget)
  /-- A 10 ms lease tick (R33). -/
  | leaseTick
  /-- The claims whose lease remaining has reached 0 expire (R34). -/
  | claimExpiry
  /-- The LOAD on the array completes (R7). -/
  | loadCompletion
  /-- The STORE on the array completes (R8). -/
  | storeCompletion
  /-- The CSTORE on the array completes (R9). -/
  | cstoreCompletion
  /-- The FILL on the array completes (R10). -/
  | fillCompletion
  /-- The COPY on the array completes (R11). -/
  | copyCompletion
  /-- The REFRESH on the array completes (R13). -/
  | refreshCompletion
  /-- A rising edge of LCK at an OUT lane (R73). -/
  | outLaneClockEdge (n : LaneId)
  /-- A rising edge of LCK at an IN lane, with this byte on LD (R74). -/
  | inLaneClockEdge (n : LaneId) (ld : Byte)
  /-- A rising edge of LCK at a lane that is not RUNNING (R75). -/
  | laneClockEdgeOutsideRunning (n : LaneId)
  /-- 0x01 (R149). -/
  | identify (c : Ctl) (tag : Byte)
  /-- 0x02; the tag byte is the tag requested (R141). -/
  | signOn (c : Ctl) (tag : Byte) (takeover : Byte)
  /-- 0x03 (R145). -/
  | signOff (c : Ctl) (tag : Byte)
  /-- 0x0A (R152). -/
  | resetPart (c : Ctl) (tag : Byte)
  /-- 0x0B (R150). -/
  | groupEnable (c : Ctl) (tag : Byte) (flag : Byte)
  /-- 0x20 (R147). -/
  | putBuffer (c : Ctl) (tag : Byte) (offset : Byte) (data : List Byte)
  /-- 0x21 (R148). -/
  | getBuffer (c : Ctl) (tag : Byte) (offset length : Byte)
  /-- 0x2C (R18). -/
  | rowInfo (c : Ctl) (tag : Byte) (first : Half) (count : Byte)
  /-- 0x30 (R47). -/
  | load (c : Ctl) (tag : Byte) (row : Half) (notify wait : Byte)
  /-- 0x31 (R47). -/
  | store (c : Ctl) (tag : Byte) (row : Half) (tap span notify wait : Byte)
  /-- 0x32 (R47). -/
  | cstore (c : Ctl) (tag : Byte) (row : Half) (tap span : Byte) (expected : Half) (notify wait : Byte)
  /-- 0x33 (R47). -/
  | fill (c : Ctl) (tag : Byte) (row : Half) (tap span value notify wait : Byte)
  /-- 0x34 (R47). -/
  | copy (c : Ctl) (tag : Byte) (source destination : Half) (tap span notify wait : Byte)
  /-- 0x35 (R49). -/
  | cancel (c : Ctl) (tag : Byte) (ticket : Half)
  /-- 0x36 (R50). -/
  | queryTicket (c : Ctl) (tag : Byte) (ticket : Half)
  /-- 0x40 (R27). -/
  | claim (c : Ctl) (tag : Byte) (holder kind : Byte) (first count lease : Half)
  /-- 0x41 (R30). -/
  | release (c : Ctl) (tag : Byte) (id : Byte)
  /-- 0x42 (R31). -/
  | renew (c : Ctl) (tag : Byte) (id : Byte) (lease : Half)
  /-- 0x43 (R32). -/
  | listClaims (c : Ctl) (tag : Byte) (startId maximum : Byte)
  /-- 0x50 (R72). -/
  | laneSetup (c : Ctl) (tag : Byte) (lane direction fill policy mode wait : Byte)
  /-- 0x51 (R86). -/
  | laneStart (c : Ctl) (tag : Byte) (lane mode : Byte)
  /-- 0x52 (R89). -/
  | laneStop (c : Ctl) (tag : Byte) (lane mode : Byte)
  /-- 0x53 (R85). -/
  | laneResume (c : Ctl) (tag : Byte) (lane : Byte)
  /-- 0x54 (R92). -/
  | laneReset (c : Ctl) (tag : Byte) (lane : Byte)
  /-- 0x55 (R96). -/
  | laneStatus (c : Ctl) (tag : Byte) (lane : Byte)
  /-- 0x58 (R111). -/
  | listAppend (c : Ctl) (tag : Byte) (lane : Byte) (entries : List RawEntry)
  /-- 0x59 (R113). -/
  | listTrim (c : Ctl) (tag : Byte) (lane maximum : Byte)
  /-- 0x5A (R115). -/
  | listClear (c : Ctl) (tag : Byte) (lane : Byte)
  /-- 0x5B (R116). -/
  | listRead (c : Ctl) (tag : Byte) (lane start maximum : Byte)
  /-- 0x60 (R127). -/
  | takeEvents (c : Ctl) (tag : Byte) (maximum : Byte)
  /-- 0x61 (R128). -/
  | peekEvents (c : Ctl) (tag : Byte) (maximum : Byte)
  /-- 0x62 (R130). -/
  | setAttention (c : Ctl) (tag : Byte) (mask : Half)
  /-- A delivered frame that admission steps 1 to 4 refuse (R139). -/
  | refusedFrame (verdict : Verdict) (bytes : List Byte)
  /-- A START. `unacknowledged`: it falls after the eighth bit of the byte taken last and before the rising edge of
  its ninth clock (R157, R159). -/
  | start (unacknowledged : Bool)
  /-- The eighth bit of an address byte (R162). -/
  | addressByte (b : Byte)
  /-- A STOP; `unacknowledged` as for START (R167, R159). -/
  | stop (unacknowledged : Bool)
  /-- The read phase ends at a byte boundary (R171). -/
  | readPhaseEnd (how : ReadEnd)
  /-- A START or STOP after `bits` bits of a byte, 1 to 7 (R159). -/
  | busError (condition : Condition) (bits : Nat)
  /-- The lanes of the mask take GROUP START from a taken group frame (R88). -/
  | groupStart (mask : Byte)
  /-- The lanes of the mask take GROUP HALT from a taken group frame (R91). -/
  | groupHalt (mask : Byte)
  /-- The eighth bit of a byte in WRITE (R165). -/
  | writePhaseByte (b : Byte)
  /-- The eighth bit of a byte in GROUP (R172). -/
  | groupPhaseByte (b : Byte)
  /-- The controller acknowledges a byte sent in READ (R171). -/
  | readByteAcknowledge
  deriving DecidableEq, Repr

end Sys2Proof
end

