-- ==== Sys2Proof/Decode.lean ====
section
/-! DEFINITION. Reading commands: the check value of R168, the verdict of R166, the command a delivered frame carries by
the layout of R176, and the frame that carries a command. No row of opcode_table.json has bits, so
`decodeTableWord` answers none. -/

namespace Sys2Proof

/-- The command a word of the opcode table spells: no row of the table gives bits. -/
def decodeTableWord (_nbits _w : Nat) : Option Instr := none

/-! ### Bytes and 16-bit numbers -/

/-- The 16-bit number of two bytes, high byte first (00_scope.md section 5.1). -/
def half (high low : Byte) : Half := high ++ low

/-- The two bytes of a 16-bit number, high byte first. -/
def halfBytes (h : Half) : List Byte := [h.extractLsb' 8 8, h.extractLsb' 0 8]

/-! ### The check value (R168) -/

/-- One shift of the check register. -/
def checkShift (r : Byte) : Byte := if r.msb then (r <<< 1) ^^^ 0x31 else r <<< 1

/-- One byte taken into the check register: exclusive-or, then eight shifts. -/
def checkByte (r b : Byte) : Byte :=
  checkShift (checkShift (checkShift (checkShift (checkShift (checkShift (checkShift (checkShift (r ^^^ b))))))))

/-- The check value of a run of bytes. -/
def checkValue (bytes : List Byte) : Byte := bytes.foldl checkByte 0xFF

/-- The verdict on a frame assembly at the end of its write phase; none when nothing is delivered (R166). -/
def frameVerdict (overlong : Bool) (bytes : List Byte) : Option Verdict :=
  if overlong then some .overlong
  else if bytes.length = 0 then none
  else if bytes.length ≤ 3 then some .short
  else if bytes.getLast? = some (checkValue bytes.dropLast) then some .good
  else some .checkFailed

/-! ### The command of a frame (R176) -/

/-- The codes of the commands at the device address. -/
def knownCodes : List Byte :=
  [0x01, 0x02, 0x03, 0x0A, 0x0B, 0x20, 0x21, 0x2C, 0x30, 0x31, 0x32, 0x33, 0x34, 0x35, 0x36, 0x40, 0x41, 0x42, 0x43,
   0x50, 0x51, 0x52, 0x53, 0x54, 0x55, 0x58, 0x59, 0x5A, 0x5B, 0x60, 0x61, 0x62]

/-- The entries of LIST APPEND, six bytes each (R181); none when the bytes do not divide so. -/
def readEntries : List Byte → Option (List RawEntry)
  | [] => some []
  | rh :: rl :: tap :: span :: repeats :: pause :: rest =>
    (readEntries rest).map ({ row := half rh rl, tap, span, repeats, pause } :: ·)
  | _ => none

/-- The bytes of LIST APPEND's entries (R181). -/
def entryBytes (e : RawEntry) : List Byte := halfBytes e.row ++ [e.tap, e.span, e.repeats, e.pause]

/-- The command of LIST APPEND's parameters: the count k must be 1 to 4 and the parameter bytes 2 + 6 k (R111). -/
def readListAppend (c : Ctl) (tag lane k : Byte) (rest : List Byte) : Option Instr :=
  match readEntries rest with
  | some entries =>
    if 1 ≤ entries.length ∧ entries.length ≤ 4 ∧ k.toNat = entries.length then some (.listAppend c tag lane entries)
    else none
  | none => none

/-- The command of a code and its parameter bytes; none for a code of no command and for a number of parameter bytes
that the command's rule does not allow (admission steps 3 and 4 of R139). -/
def readCommand (c : Ctl) (tag code : Byte) (ps : List Byte) : Option Instr :=
  match code.toNat, ps with
  | 0x01, [] => some (.identify c tag)
  | 0x02, [takeover] => some (.signOn c tag takeover)
  | 0x03, [] => some (.signOff c tag)
  | 0x0A, [] => some (.resetPart c tag)
  | 0x0B, [flag] => some (.groupEnable c tag flag)
  | 0x20, offset :: data =>
    if 1 ≤ data.length ∧ data.length ≤ 32 then some (.putBuffer c tag offset data) else none
  | 0x21, [offset, length] => some (.getBuffer c tag offset length)
  | 0x2C, [h, l, count] => some (.rowInfo c tag (half h l) count)
  | 0x30, [h, l, notify, wait] => some (.load c tag (half h l) notify wait)
  | 0x31, [h, l, tap, span, notify, wait] => some (.store c tag (half h l) tap span notify wait)
  | 0x32, [h, l, tap, span, eh, el, notify, wait] =>
    some (.cstore c tag (half h l) tap span (half eh el) notify wait)
  | 0x33, [h, l, tap, span, value, notify, wait] => some (.fill c tag (half h l) tap span value notify wait)
  | 0x34, [sh, sl, dh, dl, tap, span, notify, wait] =>
    some (.copy c tag (half sh sl) (half dh dl) tap span notify wait)
  | 0x35, [h, l] => some (.cancel c tag (half h l))
  | 0x36, [h, l] => some (.queryTicket c tag (half h l))
  | 0x40, [holder, kind, fh, fl, ch, cl, lh, ll] =>
    some (.claim c tag holder kind (half fh fl) (half ch cl) (half lh ll))
  | 0x41, [id] => some (.release c tag id)
  | 0x42, [id, h, l] => some (.renew c tag id (half h l))
  | 0x43, [startId, maximum] => some (.listClaims c tag startId maximum)
  | 0x50, [lane, direction, fill, policy, mode, wait] =>
    some (.laneSetup c tag lane direction fill policy mode wait)
  | 0x51, [lane, mode] => some (.laneStart c tag lane mode)
  | 0x52, [lane, mode] => some (.laneStop c tag lane mode)
  | 0x53, [lane] => some (.laneResume c tag lane)
  | 0x54, [lane] => some (.laneReset c tag lane)
  | 0x55, [lane] => some (.laneStatus c tag lane)
  | 0x58, lane :: k :: rest => readListAppend c tag lane k rest
  | 0x59, [lane, maximum] => some (.listTrim c tag lane maximum)
  | 0x5A, [lane] => some (.listClear c tag lane)
  | 0x5B, [lane, start, maximum] => some (.listRead c tag lane start maximum)
  | 0x60, [maximum] => some (.takeEvents c tag maximum)
  | 0x61, [maximum] => some (.peekEvents c tag maximum)
  | 0x62, [h, l] => some (.setAttention c tag (half h l))
  | _, _ => none

/-- The command a delivered frame carries: the one its bytes read as, or a frame that admission steps 1 to 4 refuse
(R139). The check byte is the last; the port has judged it. -/
def readFrame (verdict : Verdict) (bytes : List Byte) : Instr :=
  match verdict, bytes.dropLast with
  | .good, cb :: tag :: code :: ps =>
    if h : cb.toNat < 8 then (readCommand ⟨cb.toNat, h⟩ tag code ps).getD (.refusedFrame verdict bytes)
    else .refusedFrame verdict bytes
  | _, _ => .refusedFrame verdict bytes

/-! ### The frame of a command -/

/-- Controller number, tag byte, code and parameter bytes of a command that a frame carries (R176). -/
def commandFields : Instr → Option (Ctl × Byte × Byte × List Byte)
  | .identify c tag => some (c, tag, 0x01, [])
  | .signOn c tag takeover => some (c, tag, 0x02, [takeover])
  | .signOff c tag => some (c, tag, 0x03, [])
  | .resetPart c tag => some (c, tag, 0x0A, [])
  | .groupEnable c tag flag => some (c, tag, 0x0B, [flag])
  | .putBuffer c tag offset data => some (c, tag, 0x20, offset :: data)
  | .getBuffer c tag offset length => some (c, tag, 0x21, [offset, length])
  | .rowInfo c tag first count => some (c, tag, 0x2C, halfBytes first ++ [count])
  | .load c tag row notify wait => some (c, tag, 0x30, halfBytes row ++ [notify, wait])
  | .store c tag row tap span notify wait => some (c, tag, 0x31, halfBytes row ++ [tap, span, notify, wait])
  | .cstore c tag row tap span expected notify wait =>
    some (c, tag, 0x32, halfBytes row ++ [tap, span] ++ halfBytes expected ++ [notify, wait])
  | .fill c tag row tap span value notify wait =>
    some (c, tag, 0x33, halfBytes row ++ [tap, span, value, notify, wait])
  | .copy c tag source destination tap span notify wait =>
    some (c, tag, 0x34, halfBytes source ++ halfBytes destination ++ [tap, span, notify, wait])
  | .cancel c tag ticket => some (c, tag, 0x35, halfBytes ticket)
  | .queryTicket c tag ticket => some (c, tag, 0x36, halfBytes ticket)
  | .claim c tag holder kind first count lease =>
    some (c, tag, 0x40, [holder, kind] ++ halfBytes first ++ halfBytes count ++ halfBytes lease)
  | .release c tag id => some (c, tag, 0x41, [id])
  | .renew c tag id lease => some (c, tag, 0x42, id :: halfBytes lease)
  | .listClaims c tag startId maximum => some (c, tag, 0x43, [startId, maximum])
  | .laneSetup c tag lane direction fill policy mode wait =>
    some (c, tag, 0x50, [lane, direction, fill, policy, mode, wait])
  | .laneStart c tag lane mode => some (c, tag, 0x51, [lane, mode])
  | .laneStop c tag lane mode => some (c, tag, 0x52, [lane, mode])
  | .laneResume c tag lane => some (c, tag, 0x53, [lane])
  | .laneReset c tag lane => some (c, tag, 0x54, [lane])
  | .laneStatus c tag lane => some (c, tag, 0x55, [lane])
  | .listAppend c tag lane entries =>
    some (c, tag, 0x58, lane :: BitVec.ofNat 8 entries.length :: entries.flatMap entryBytes)
  | .listTrim c tag lane maximum => some (c, tag, 0x59, [lane, maximum])
  | .listClear c tag lane => some (c, tag, 0x5A, [lane])
  | .listRead c tag lane start maximum => some (c, tag, 0x5B, [lane, start, maximum])
  | .takeEvents c tag maximum => some (c, tag, 0x60, [maximum])
  | .peekEvents c tag maximum => some (c, tag, 0x61, [maximum])
  | .setAttention c tag mask => some (c, tag, 0x62, halfBytes mask)
  | .hardReset => none
  | .resetnRise _ => none
  | .sweepOperationCompletion => none
  | .refreshTick => none
  | .millisecondTick => none
  | .requestRefusal _ => none
  | .leaseTick => none
  | .claimExpiry => none
  | .loadCompletion => none
  | .storeCompletion => none
  | .cstoreCompletion => none
  | .fillCompletion => none
  | .copyCompletion => none
  | .refreshCompletion => none
  | .outLaneClockEdge _ => none
  | .inLaneClockEdge _ _ => none
  | .laneClockEdgeOutsideRunning _ => none
  | .refusedFrame _ _ => none
  | .start _ => none
  | .addressByte _ => none
  | .stop _ => none
  | .readPhaseEnd _ => none
  | .busError _ _ => none
  | .groupStart _ => none
  | .groupHalt _ => none
  | .writePhaseByte _ => none
  | .groupPhaseByte _ => none
  | .readByteAcknowledge => none

/-- The bytes of the frame that carries a command, check byte last (R176); none for a row no frame carries. -/
def frameOf (i : Instr) : Option (List Byte) :=
  (commandFields i).map fun (c, tag, code, ps) =>
    let body := BitVec.ofNat 8 c.val :: tag :: code :: ps
    body ++ [checkValue body]

/-- A group frame: code, lane mask and check byte (R176). -/
def groupFrameOf (code mask : Byte) : List Byte := [code, mask, checkValue [code, mask]]

end Sys2Proof
end

