-- ==== Sys2Proof/Config.lean ====
section
/-! DEFINITION. What is fixed for every EP612 (section 4 of 00_scope.md) and the values the spec leaves open: the
contents of the array between RESETn going low and the sweep of each row (Table 1-2). -/

namespace Sys2Proof

/-- The controller queue holds at most 12 requests (R42). -/
def Config.queuePlaces : Nat := 12

/-- At most 3 of them belong to one controller number (R42). -/
def Config.queueShare : Nat := 3

/-- The outcome log keeps 16 records (R53). -/
def Config.logPlaces : Nat := 16

/-- A row list holds at most 16 entries (R99). -/
def Config.listPlaces : Nat := 16

/-- The debt at which refresh is urgent (R12). -/
def Config.urgentDebt : Nat := 4

/-- The streak at which a runnable controller request goes before the lanes (R58). -/
def Config.streakLimit : Nat := 8

/-- The longest write phase the part takes, in bytes (R165). -/
def Config.frameLimit : Nat := 40

/-- The most selections the arbiter makes within one step. DESIGN CHOICE (log entry 5): a selection that refuses a
lane's request can bring a new request and with it a new occasion (R46, R56). Four lists of 16 entries with 16 repeats
name 1024 lines, so every such chain that ends of itself ends within this number; of one that does not, the
remaining selections are made by later steps, because the occasion stays in State. -/
def Config.selectionsPerStep : Nat := 1025

/-- What a cell of a row that the sweep has not reached holds: "not defined" (Table 1-2). The arguments are the number
of hard resets so far and the cell's address. A free value (log entry 3). -/
opaque Config.unsweptCell : Nat → Nat → Byte

/-- The generation in the record of a row that the sweep has not reached: "not defined" (Table 1-2, log entry 3). -/
opaque Config.unsweptGeneration : Nat → Nat → Half

/-- The last writer in the record of a row that the sweep has not reached: "not defined" (Table 1-2, log entry 3). -/
opaque Config.unsweptWriter : Nat → Nat → Writer

/-- The refresh pointer from RESETn going low to the end of the sweep: "not defined" (Table 1-2, log entry 3). -/
opaque Config.pointerInReset : Nat → RowId

/-- The refresh debt from RESETn going low to the end of the sweep: "not defined" (Table 1-2), within the range of
R12 (log entry 3). -/
opaque Config.debtInReset : Nat → Fin 5

/-- The millisecond counter while RESETn is low, before its rise sets it to 0 (R15, log entry 3). -/
opaque Config.clockInReset : Nat → Half

end Sys2Proof
end

