-- ==== Sys2Proof/Machine/State.lean ====
section
/-! DEFINITION. The state of the EP612: every register, buffer, queue, table, counter and mode the spec names, as plain
data, and `State.reset`, the moment of power-up. INVENTORY.md lists each field with its rule. -/

namespace Sys2Proof.Machine

/-! ### Memories -/

/-- A table of values under numbered keys: the listed pairs, keys rising; an unlisted key has the table's resting
value. -/
abbrev Table (α : Type) := List (Nat × α)

/-- A RAM of the part (cell store, port buffer, lane register): listed cells, addresses rising; an unlisted cell
reads 0. -/
abbrev Memory := List Host.Cell

/-- A span (tap, span) of cells, counted modulo 128 (00_scope.md section 5.2). -/
structure Span where
  tap : CellId
  len : Nat
  deriving DecidableEq, Repr

/-! ### The Row Array -/

/-- The part state (R16). -/
inductive PartState where
  | starting
  | operating
  deriving DecidableEq, Repr

/-- The record kept for a row (R2). -/
structure RowRecord where
  generation : Half
  lastWriter : Writer
  deriving DecidableEq, Repr

/-- What a request asks of the array: the operation with its rows, span, value and expected generation (R41, R42). -/
inductive Work where
  | load (row : RowId)
  | store (row : RowId) (span : Span)
  | cstore (row : RowId) (span : Span) (expected : Half)
  | fill (row : RowId) (span : Span) (value : Byte)
  | copy (source destination : RowId) (span : Span)
  deriving DecidableEq, Repr

/-- The in-flight record of a lane or controller operation (R4). `latched` holds the source cells of the span,
`discard` that its delivery is DISCARD, `softReset` that its report follows a soft reset (R5). -/
structure Transfer where
  work : Work
  requester : Party
  ticket : Option Half
  latched : List Host.Cell
  startGeneration : Half
  matched : Bool
  discard : Bool
  softReset : Bool
  deriving DecidableEq, Repr

/-- The operation ACTIVE on the array (R3). -/
inductive Operation where
  | refresh (row : RowId)
  | transfer (t : Transfer)
  deriving DecidableEq, Repr

/-! ### The Claim Table -/

/-- SHARED or SOLE (R20). -/
inductive ClaimKind where
  | shared
  | sole
  deriving DecidableEq, Repr

/-- A claim record; its id is its slot (R20). -/
structure Claim where
  holder : Party
  kind : ClaimKind
  first : RowId
  count : Nat
  lease : Option Nat
  deriving DecidableEq, Repr

/-! ### Transfer requests -/

/-- WAITING, BLOCKED with its blocked time, or ACTIVE (R44). -/
inductive RequestState where
  | waiting
  | blocked (time : Nat)
  | active
  deriving DecidableEq, Repr

/-- The request in a lane's slot (R41). -/
structure SlotRequest where
  work : Work
  waitLimit : Nat
  state : RequestState
  deriving DecidableEq, Repr

/-- A request in the controller queue (R42). -/
structure QueueRequest where
  ticket : Half
  ctl : Ctl
  work : Work
  notify : Bool
  waitLimit : Nat
  state : RequestState
  deriving DecidableEq, Repr

/-- The outcomes of a controller request (R52). -/
inductive OutcomeCode where
  | done
  | generationMismatch
  | claimTimeout
  | cancelled
  | withdrawn
  deriving DecidableEq, Repr

/-- The operation of a request or record, without its parameters (Table 9-2). -/
inductive OpCode where
  | load
  | store
  | cstore
  | fill
  | copy
  deriving DecidableEq, Repr

/-- An outcome record (R53). -/
structure OutcomeRecord where
  ticket : Half
  ctl : Ctl
  op : OpCode
  row : RowId
  outcome : OutcomeCode
  generation : Option Half
  finish : Half
  deriving DecidableEq, Repr

/-! ### Lanes and row lists -/

/-- The lane states (Table 4-3). -/
inductive LaneState where
  | off
  | idle
  | priming
  | armed
  | running
  | starved
  | blocked
  | draining
  | paused
  | halted
  deriving DecidableEq, Repr

/-- OUT or IN (R71). -/
inductive Direction where
  | out
  | into
  deriving DecidableEq, Repr

/-- The refusal policy (R71). -/
inductive Policy where
  | skip
  | halt
  deriving DecidableEq, Repr

/-- The list mode (R71, R101). -/
inductive ListMode where
  | once
  | cycle
  deriving DecidableEq, Repr

/-- The start mode of LANE START (R86). -/
inductive StartMode where
  | now
  | armed
  deriving DecidableEq, Repr

/-- The drain cause (R83). -/
inductive DrainCause where
  | stop
  | listEnd
  deriving DecidableEq, Repr

/-- A lane's setup (R71). -/
structure LaneSetup where
  direction : Direction
  fill : Byte
  policy : Policy
  mode : ListMode
  waitLimit : Nat
  deriving DecidableEq, Repr

/-- The default setup (R71). -/
def LaneSetup.default : LaneSetup :=
  { direction := .out, fill := 0, policy := .halt, mode := .once, waitLimit := 0 }

/-- A line reference: entry index, repeat index, row (none for a blank entry), tap and span (R100). -/
structure LineRef where
  entry : Nat
  rep : Nat
  row : Option RowId
  span : Span
  deriving DecidableEq, Repr

/-- The staging tag: EMPTY, PENDING with its line, or FULL with its line and the generation delivered (R68). -/
inductive Staging where
  | empty
  | pending (line : LineRef)
  | full (line : LineRef) (generation : Option Half)
  deriving DecidableEq, Repr

/-- An entry of a row list (R99). -/
structure Entry where
  row : Option RowId
  span : Span
  repeats : Nat
  pause : Bool
  deriving DecidableEq, Repr

/-- A position of a row list: entry index and repeat index (section 5.2). -/
structure Position where
  entry : Nat
  rep : Nat
  deriving DecidableEq, Repr

/-- A row list with its fetch and show positions; `showing` is the show mark, SHOWING when true (R99, R102, R103). -/
structure RowList where
  entries : List Entry
  fetch : Position
  shown : Position
  showing : Bool
  deriving DecidableEq, Repr

/-- The empty list: both positions (0, 0), mark BETWEEN (R118). -/
def RowList.empty : RowList :=
  { entries := [], fetch := { entry := 0, rep := 0 }, shown := { entry := 0, rep := 0 }, showing := false }

/-- A lane engine with its registers, slot and row list (R41, R68 to R71, R99). -/
structure Lane where
  state : LaneState
  setup : LaneSetup
  slot : Option SlotRequest
  active : Memory
  staging : Memory
  tag : Staging
  current : Option LineRef
  pointer : CellId
  count : Nat
  held : Bool
  follow : Option LineRef
  lines : Half
  episode : Half
  stopPending : Bool
  startMode : Option StartMode
  drain : Option DrainCause
  list : RowList
  deriving DecidableEq, Repr

/-- A lane after reset (R98). The cells of its registers are kept by the resets; at power-up the model starts them
at 0 (log entry 1). -/
def Lane.off : Lane :=
  { state := .off, setup := .default, slot := none, active := [], staging := [], tag := .empty, current := none,
    pointer := 0, count := 0, held := false, follow := none, lines := 0, episode := 0, stopPending := false,
    startMode := none, drain := none, list := .empty }

/-! ### Events -/

/-- The eleven event kinds (R122). -/
inductive EventKind where
  | lineStarved
  | lineLost
  | laneDone
  | laneHalted
  | entrySkipped
  | lanePaused
  | transferDone
  | claimEnded
  | sessionEnded
  | partReset
  | eventsLost
  deriving DecidableEq, Repr

/-- The source of an event: a lane, a controller or PART (R120). -/
inductive Source where
  | party (p : Party)
  | part
  deriving DecidableEq, Repr

/-- The values of the cause field (R123). -/
inductive Cause where
  | done
  | generationMismatch
  | claimTimeout
  | expired
  | signOff
  | takeover
  | laneReset
  | hard
  | soft
  deriving DecidableEq, Repr

/-- What a block posts: kind, source and optional fields (R120). -/
structure Post where
  kind : EventKind
  source : Source
  row : Option RowId := none
  ticket : Option Half := none
  claimId : Option ClaimId := none
  count : Option Half := none
  cause : Option Cause := none
  deriving DecidableEq, Repr

/-- An event record: a post with its sequence number and time (R120). -/
structure Event where
  seq : Half
  time : Half
  post : Post
  deriving DecidableEq, Repr

/-! ### The Command Engine -/

/-- The status codes (R140). -/
inductive Status where
  | ok
  | accepted
  | badFrame
  | checkError
  | unknownCommand
  | badParameter
  | noSession
  | wrongTag
  | sessionHeld
  | wrongState
  | queueFull
  | listFull
  | tableFull
  | conflict
  | notHolder
  | notFound
  deriving DecidableEq, Repr

/-- A frame as the Control Port delivers it (R166). -/
structure Frame where
  verdict : Verdict
  bytes : List Byte
  deriving DecidableEq, Repr

/-- A result: status and body (R138). -/
structure Result where
  status : Status
  body : List Byte
  deriving DecidableEq, Repr

/-- The Command Engine: IDLE, EXECUTING a frame (with a discard noted or not) or HOLDING a result (R136). -/
inductive Engine where
  | idle
  | executing (f : Frame) (discard : Bool)
  | holding (r : Result)
  deriving DecidableEq, Repr

/-! ### The Control Port -/

/-- The port phases (R160). -/
inductive Phase where
  | watching
  | address
  | write
  | read
  | group
  | passed
  deriving DecidableEq, Repr

/-- The port sequencer (R160) with the sampled straps (R161) and the acknowledge it drives (R158). -/
structure Port where
  phase : Phase
  isOpen : Bool
  bitCount : Nat
  frameBytes : List Byte
  overlong : Bool
  groupBytes : List Byte
  groupOverlong : Bool
  frameInTx : Bool
  record : Option (List Byte)
  nextByte : Nat
  strap : Fin 8
  ack : Bool
  deriving DecidableEq, Repr

/-- The port after reset with a sampled strap value (R175). -/
def Port.fresh (strap : Fin 8) : Port :=
  { phase := .watching, isOpen := false, bitCount := 0, frameBytes := [], overlong := false, groupBytes := [],
    groupOverlong := false, frameInTx := false, record := none, nextByte := 0, strap := strap, ack := false }

/-! ### The tick chain -/

/-- Where the 10 ms lease tick of a tenth 1 ms tick stands (R15): taken together with it, due at the Claim Table once
the 1 ms tick has been taken first, or taken early, before its 1 ms tick (R45 lets the two come in either order). -/
inductive LeaseTick where
  | settled
  | due
  | early
  deriving DecidableEq, Repr

/-! ### The whole part -/

/-- The state of the EP612. INVENTORY.md names the rule of each field. -/
structure State where
  resetnLow : Bool
  partState : PartState
  swept : Nat
  hardResets : Nat
  clock : Half
  tickPhase : Fin 10
  leaseTick : LeaseTick
  cells : Memory
  records : Table RowRecord
  refreshPointer : RowId
  refreshDebt : Nat
  array : Option Operation
  claims : Vector (Option Claim) 24
  queue : List QueueRequest
  nextTicket : Half
  orphan : Option Half
  log : List OutcomeRecord
  lastLane : LaneId
  streak : Nat
  occasion : Bool
  lanes : Vector Lane 4
  events : List Event
  eventCounter : Half
  mask : Half
  sessions : Vector (Option Byte) 8
  buffers : Vector Memory 8
  engine : Engine
  groupEnable : Bool
  port : Port
  pending : List Instr
  deriving DecidableEq, Repr

/-- The attention mask of all kinds (R130). -/
def allKinds : Half := 0x0FFE

/-- The part at power-up: RESETn low, STARTING, every block at its hard-reset value (R16, R40, R64, R98, R118, R132,
R156, R175). Where the spec gives no value the model's is in log entry 1. -/
def State.reset : State :=
  { resetnLow := true, partState := .starting, swept := 0, hardResets := 0, clock := 0, tickPhase := 0,
    leaseTick := .settled, cells := [], records := [], refreshPointer := 0, refreshDebt := 0, array := none,
    claims := .replicate 24 none, queue := [], nextTicket := 1, orphan := none, log := [], lastLane := 3, streak := 0,
    occasion := false, lanes := .replicate 4 .off, events := [], eventCounter := 0, mask := allKinds,
    sessions := .replicate 8 none, buffers := .replicate 8 [], engine := .idle, groupEnable := false,
    port := .fresh 0, pending := [] }

/-- Why the machine stops: the command names an event that cannot happen in the state, so the spec gives it no effect
(log entry 6). Every constructor is safe: the model stops, and no claim about the hardware follows. -/
inductive Fault where
  /-- RESETN_RISE while RESETn is high: a line that is high cannot rise (R17). Safe. -/
  | resetnNotLow
  /-- SWEEP_OPERATION_COMPLETION while no sweep is running (R17). Safe. -/
  | noSweepOperation
  /-- A tick while RESETn is low: the tick chain starts when RESETn rises (R15). Safe. -/
  | tickChainStopped
  /-- LEASE_TICK where no tenth 1 ms tick brings one: every tenth 1 ms tick is one lease tick (R15). Safe. -/
  | noLeaseTick
  /-- MILLISECOND_TICK while the lease tick of the 1 ms tick before is still due: it fell 1 ms ago (R15). Safe. -/
  | leaseTickDue
  /-- A completion of an operation that is not the one ACTIVE on the array (R3). Safe. -/
  | operationNotActive
  /-- OUT_LANE_CLOCK_EDGE at an IN lane in RUNNING: the edge captures a byte the command does not carry (R74). Safe. -/
  | inLaneEdgeWithoutByte
  /-- IN_LANE_CLOCK_EDGE at an OUT lane in RUNNING, which drives LD itself (R65). Safe. -/
  | outLaneDrivesData
  /-- LANE_CLOCK_EDGE_OUTSIDE_RUNNING at a lane in RUNNING (R75). Safe. -/
  | laneIsRunning
  /-- The execution of a frame the Command Engine is not EXECUTING (R136). Safe. -/
  | frameNotHeld
  /-- A bus event while the part holds SCK low: "neither condition is made while SCK is low" (R159, R169). Safe. -/
  | clockHeld
  /-- A byte event of another phase than the port's (R160): the bits then on the bus are another row's. Safe. -/
  | otherPhase
  /-- BUS_ERROR with a bit count outside 1 to 7, which is no bus error (R159). Safe. -/
  | notABusError
  deriving DecidableEq, Repr

/-- Why the model has no meaning for a command. -/
inductive Refusal where
  /-- Raised by exec's arm of a command that has no meaning yet. Safe: nothing follows from it. No arm raises it. -/
  | notModelled (mnemonic : String)
  deriving DecidableEq, Repr

/-- The outcome of a command. -/
abbrev Outcome := Host.Outcome State Fault Refusal

end Sys2Proof.Machine
end

