-- ==== Sys2Proof/Machine/Ops.lean ====
section
/-! DEFINITION. The operations over the blocks that the meanings share: memories and spans, the lanes and buffers by
number, posting events (Chapter 6), the claim table (Chapter 2), the transfer queue and its log (Chapter 3). -/

namespace Sys2Proof.Machine

/-! ### Tables and memories -/

/-- The value of a table under a key; `rest` is the table's resting value. -/
def Table.read {α : Type} (rest : α) : List (Nat × α) → Nat → α
  | [], _ => rest
  | (k, v) :: t, a => if k = a then v else Table.read rest t a

/-- A pair put into a table in the order of the keys. -/
def Table.insert {α : Type} (a : Nat) (v : α) : List (Nat × α) → List (Nat × α)
  | [] => [(a, v)]
  | (k, w) :: t => if a < k then (a, v) :: (k, w) :: t else (k, w) :: Table.insert a v t

/-- The table with one value written. An entry equal to the resting value is not listed. -/
def Table.write {α : Type} [DecidableEq α] (rest : α) (t : List (Nat × α)) (a : Nat) (v : α) : List (Nat × α) :=
  let others := t.filter fun p => p.1 ≠ a
  if v = rest then others else Table.insert a v others

/-- The canonical form of a table: keys rising, every key below `size`, no entry at the resting value. -/
def Table.wf {α : Type} [DecidableEq α] (rest : α) (size : Nat) (t : List (Nat × α)) : Bool :=
  decide (t.Pairwise fun p q => p.1 < q.1) && t.all fun p => p.1 < size && p.2 ≠ rest

/-- One cell of a memory; an unlisted cell reads 0. -/
def Memory.read (m : Memory) (a : Nat) : Byte := Table.read 0 m a

/-- A memory with one cell written. -/
def Memory.write (m : Memory) (a : Nat) (v : Byte) : Memory := Table.write 0 m a v

/-- The canonical form of a memory of `size` cells. -/
def Memory.wf (size : Nat) (m : Memory) : Bool := Table.wf 0 size m

/-- A memory whose cells 0 to `size` - 1 are all given. -/
def Memory.ofCells (size : Nat) (f : Nat → Byte) : Memory :=
  (List.range size).filterMap fun k => if f k = 0 then none else some (k, f k)

/-- A memory with several cells written, offset by `base`, in order. -/
def Memory.writeAll (m : Memory) (base : Nat) (cells : List Host.Cell) : Memory :=
  cells.foldl (fun m p => m.write (base + p.1) p.2) m

/-- The cells of a span: tap, tap + 1 and so on, counted modulo 128 (00_scope.md section 5.2). -/
def Span.cells (sp : Span) : List Nat := (List.range sp.len).map fun i => (sp.tap.val + i) % 128

/-- The span (0, 128) of a whole row. -/
def Span.whole : Span := { tap := 0, len := 128 }

/-! ### The cell store and the row records -/

/-- The first cell address of a row: cell k of row r is at 128 r + k. -/
def rowBase (r : RowId) : Nat := 128 * r.val

/-- A cell of the array by its address (R1). A row that the sweep has not reached is not defined (Table 1-2). -/
def State.readCell (s : State) (a : Nat) : Byte :=
  if a / 128 < s.swept then Memory.read s.cells a else Config.unsweptCell s.hardResets a

/-- The record a row has after the sweep (R17). -/
def sweptRecord : RowRecord := { generation := 0, lastWriter := .sweep }

/-- The record of a row (R2). That of a row the sweep has not reached is not defined (Table 1-2). -/
def State.rowRecord (s : State) (r : RowId) : RowRecord :=
  if r.val < s.swept then Table.read sweptRecord s.records r.val
  else { generation := Config.unsweptGeneration s.hardResets r.val,
         lastWriter := Config.unsweptWriter s.hardResets r.val }

/-- The array with the record of one row set. -/
def State.setRecord (s : State) (r : RowId) (kept : RowRecord) : State :=
  { s with records := Table.write sweptRecord s.records r.val kept }

/-- The array with cells of one row written. -/
def State.writeRow (s : State) (r : RowId) (cells : List Host.Cell) : State :=
  { s with cells := Memory.writeAll s.cells (rowBase r) cells }

/-! ### Lanes, sessions and buffers by number -/

/-- Lane n. -/
def State.lane (s : State) (n : LaneId) : Lane := s.lanes.get n

/-- The part with lane n replaced. -/
def State.setLane (s : State) (n : LaneId) (l : Lane) : State := { s with lanes := s.lanes.set n.val l n.isLt }

/-- The session tag of a controller number; none while ABSENT (R134). -/
def State.session (s : State) (c : Ctl) : Option Byte := s.sessions.get c

/-- The part with one session record set. -/
def State.setSession (s : State) (c : Ctl) (tag : Option Byte) : State :=
  { s with sessions := s.sessions.set c.val tag c.isLt }

/-- The port buffer of a controller number (R135). -/
def State.buffer (s : State) (c : Ctl) : Memory := s.buffers.get c

/-- The part with one port buffer replaced. -/
def State.setBuffer (s : State) (c : Ctl) (m : Memory) : State :=
  { s with buffers := s.buffers.set c.val m c.isLt }

/-- The claim in a slot (R20). -/
def State.claim (s : State) (i : ClaimId) : Option Claim := s.claims.get i

/-- The part with one claim slot set. -/
def State.setClaim (s : State) (i : ClaimId) (c : Option Claim) : State :=
  { s with claims := s.claims.set i.val c i.isLt }

/-- An occasion for a selection reaches the arbiter (R56). -/
def State.raise (s : State) : State := { s with occasion := true }

/-! ### Posting events (R121, R124, R125) -/

/-- The kind code of R122. -/
def EventKind.code : EventKind → Byte
  | .lineStarved => 0x01
  | .lineLost => 0x02
  | .laneDone => 0x03
  | .laneHalted => 0x04
  | .entrySkipped => 0x05
  | .lanePaused => 0x06
  | .transferDone => 0x07
  | .claimEnded => 0x08
  | .sessionEnded => 0x09
  | .partReset => 0x0A
  | .eventsLost => 0x0B

/-- A 16-bit count that stays at 65535 once there. -/
def saturatingSucc (h : Half) : Half := if h = 0xFFFF then h else h + 1

/-- The queue with a record appended under the next sequence number and the current time (R121, R124). -/
def State.append (s : State) (p : Post) : State :=
  { s with
    events := s.events ++ [{ seq := s.eventCounter + 1, time := s.clock, post := p }]
    eventCounter := s.eventCounter + 1 }

/-- A marker's count raised by one dropped event (R125). -/
def Event.countOne (e : Event) : Event :=
  { e with post := { e.post with count := some (saturatingSucc (e.post.count.getD 0)) } }

/-- The queue with its newest record counting one more dropped event (R125). -/
def countNewest : List Event → List Event
  | [] => []
  | [e] => [e.countOne]
  | e :: es => e :: countNewest es

/-- A post reaches the Event Queue (R124, R125): appended at 30 records or fewer; at 31 a marker is appended in its
place; at 32 the newest record, a marker, counts it. -/
def State.post (s : State) (p : Post) : State :=
  if s.events.length ≤ 30 then s.append p
  else if s.events.length = 31 then
    s.append { kind := .eventsLost, source := .part, count := some 1 }
  else { s with events := countNewest s.events }

/-- The reset of the Event Queue and the PART RESET it posts (R132, R133). -/
def State.resetEvents (s : State) (cause : Cause) : State :=
  ({ s with events := [], eventCounter := 0, mask := allKinds }).post
    { kind := .partReset, source := .part, cause := some cause }

/-! ### Operations and rows -/

/-- The operation a request asks for. -/
def Work.op : Work → OpCode
  | .load _ => .load
  | .store _ _ => .store
  | .cstore _ _ _ => .cstore
  | .fill _ _ _ => .fill
  | .copy _ _ _ => .copy

/-- The row read (LOAD) or written (others); for COPY the destination (R4). -/
def Work.row : Work → RowId
  | .load r => r
  | .store r _ => r
  | .cstore r _ _ => r
  | .fill r _ _ => r
  | .copy _ r _ => r

/-- The rows an operation reads (R23). -/
def Work.reads : Work → List RowId
  | .load r => [r]
  | .copy r _ _ => [r]
  | _ => []

/-- The rows an operation writes (R23). -/
def Work.writes : Work → List RowId
  | .load _ => []
  | w => [w.row]

/-- The rows an operation opens, in the order they are tested for refresh credit (R14). -/
def Work.opens : Work → List RowId
  | .copy a b _ => [a, b]
  | w => [w.row]

/-! ### The Claim Table -/

/-- A claim covers a row (R20). -/
def Claim.covers (c : Claim) (r : RowId) : Bool := c.first.val ≤ r.val && r.val < c.first.val + c.count

/-- Two claims overlap when at least one row is covered by both (R20). -/
def Claim.overlaps (a b : Claim) : Bool :=
  a.first.val < b.first.val + b.count && b.first.val < a.first.val + a.count && 0 < a.count && 0 < b.count

/-- An operation of requester `p` conflicts with one claim (R23). -/
def Claim.blocks (c : Claim) (p : Party) (w : Work) : Bool :=
  c.holder ≠ p && ((c.kind = .sole && w.reads.any c.covers) || w.writes.any c.covers)

/-- The claim test (R23, R25): whether an operation of requester `p` conflicts with the table. -/
def State.conflicts (s : State) (p : Party) (w : Work) : Bool :=
  s.claims.toList.any fun slot => slot.any fun c => c.blocks p w

/-- A claim in the table conflicts with a new claim (R24). -/
def Claim.excludes (old new : Claim) : Bool :=
  old.overlaps new && (old.holder = new.holder || new.kind = .sole || old.kind = .sole)

/-- The lowest claim id whose claim conflicts with a new claim (R24). -/
def State.conflictingClaim (s : State) (new : Claim) : Option ClaimId :=
  (List.finRange 24).find? fun i => (s.claim i).any fun c => c.excludes new

/-- The lowest-numbered empty slot (R29). -/
def State.freeClaim (s : State) : Option ClaimId :=
  (List.finRange 24).find? fun i => (s.claim i).isNone

/-- The CLAIM ENDED event of a removed claim (R36). -/
def Claim.ended (c : Claim) (i : ClaimId) (cause : Cause) : Post :=
  { kind := .claimEnded, source := .party c.holder, row := some c.first, claimId := some i,
    count := some (BitVec.ofNat 16 c.count), cause := some cause }

/-- One slot is emptied with CLAIM ENDED when its claim is of those to be removed (R36). -/
def State.endClaim (which : Claim → Bool) (cause : Cause) (s : State) (i : ClaimId) : State :=
  match s.claim i with
  | some c => if which c then (s.setClaim i none).post (c.ended i cause) else s
  | none => s

/-- How many claims of the table a removal concerns. -/
def State.claimCount (s : State) (which : Claim → Bool) : Nat :=
  (s.claims.toList.filter fun slot => slot.any which).length

/-- The removal of claims by one event: ascending claim id, a CLAIM ENDED each, then one claim-table change when any
was removed (R34, R36). -/
def State.endClaims (s : State) (which : Claim → Bool) (cause : Cause) : State :=
  let removed := (List.finRange 24).foldl (State.endClaim which cause) s
  if s.claimCount which = 0 then removed else removed.raise

/-- The lease of every leased claim one lower (R33). -/
def Claim.countDown (c : Claim) : Claim := { c with lease := c.lease.map (· - 1) }

/-! ### The transfer queue and its log -/

/-- The ticket after one: 1 follows 65535 (R43). -/
def ticketAfter (t : Half) : Half := if t = 0xFFFF then 1 else t + 1

/-- The ticket an admission gives: the counter's value, passing over tickets still in the queue (R43). `fuel` is the
number of queued requests, more than which cannot be passed over. -/
def freshTicket (queue : List QueueRequest) : Nat → Half → Half
  | 0, t => t
  | fuel + 1, t => if queue.any (·.ticket = t) then freshTicket queue fuel (ticketAfter t) else t

/-- The log with one record appended, the oldest dropped when 16 are held (R53). -/
def logAppend (log : List OutcomeRecord) (r : OutcomeRecord) : List OutcomeRecord :=
  (log ++ [r]).drop (log.length + 1 - Config.logPlaces)

/-- An outcome record is written, with the millisecond counter as its finish time (R53). -/
def State.record (s : State) (ticket : Half) (c : Ctl) (w : Work) (o : OutcomeCode) (g : Option Half) : State :=
  { s with log := logAppend s.log { ticket, ctl := c, op := w.op, row := w.row, outcome := o, generation := g,
                                     finish := s.clock } }

/-- The cause by which TRANSFER DONE names an outcome; none for an outcome that posts no event (R54). -/
def OutcomeCode.cause : OutcomeCode → Option Cause
  | .done => some .done
  | .generationMismatch => some .generationMismatch
  | .claimTimeout => some .claimTimeout
  | .cancelled => none
  | .withdrawn => none

/-- A request finishes: its outcome record, then TRANSFER DONE when its notify flag is set and its outcome posts one
(R51, R54). The request has left the queue. -/
def State.finish (s : State) (q : QueueRequest) (o : OutcomeCode) (g : Option Half) : State :=
  let logged := s.record q.ticket q.ctl q.work o g
  match q.notify, o.cause with
  | true, some cause =>
    logged.post { kind := .transferDone, source := .party (.ctl q.ctl), row := some q.work.row,
                  ticket := some q.ticket, cause := some cause }
  | _, _ => logged

/-- The queue without the request of a ticket; those behind it close up (R42). -/
def State.dequeue (s : State) (ticket : Half) : State :=
  { s with queue := s.queue.filter fun q => q.ticket ≠ ticket }

/-- The queued request of a ticket. -/
def State.request (s : State) (ticket : Half) : Option QueueRequest := s.queue.find? fun q => q.ticket = ticket

/-- A queued request is refused with CLAIM TIMEOUT (R46). -/
def State.refuseRequest (s : State) (q : QueueRequest) : State :=
  (s.dequeue q.ticket).finish q .claimTimeout none

/-- A cancellation of delivery naming one requester (R5). -/
def State.cancelDelivery (s : State) (p : Party) : State :=
  match s.array with
  | some (.transfer t) =>
    if t.requester = p then { s with array := some (.transfer { t with discard := true }) } else s
  | _ => s

/-- The cancellation of RESET PART: every requester, and the report marked (R5, R19). -/
def State.cancelAll (s : State) : State :=
  match s.array with
  | some (.transfer t) => { s with array := some (.transfer { t with discard := true, softReset := true }) }
  | _ => s

/-- Whether a request has been started. -/
def RequestState.isActive : RequestState → Bool
  | .active => true
  | _ => false

/-- The withdrawal of a controller number's WAITING and BLOCKED requests, in queue order (R62 step 1). -/
def State.withdrawWaiting (s : State) (c : Ctl) : State :=
  (s.queue.filter fun q => q.ctl = c && !q.state.isActive).foldl
    (fun s q => (s.dequeue q.ticket).finish q .withdrawn none) s

/-- The orphaning of a controller number's ACTIVE request (R62 step 2). -/
def State.orphanActive (s : State) (c : Ctl) : State :=
  match s.queue.find? fun q => q.ctl = c && q.state.isActive with
  | some q => { (s.dequeue q.ticket).cancelDelivery (.ctl c) with orphan := some q.ticket }
  | none => s

/-- What a session end did: claims removed, requests withdrawn, and whether one was orphaned (R141). -/
structure SessionCounts where
  claims : Nat
  withdrawn : Nat
  orphaned : Nat
  deriving DecidableEq, Repr

/-- The counts of a session end, taken before it (R141, R143, R145). -/
def State.sessionCounts (s : State) (c : Ctl) : SessionCounts :=
  { claims := s.claimCount fun k => k.holder = .ctl c
    withdrawn := (s.queue.filter fun q => q.ctl = c && !q.state.isActive).length
    orphaned := if s.queue.any fun q => q.ctl = c && q.state.isActive then 1 else 0 }

/-- Steps 1 and 2 of a session end: the controller number's claims, then its requests (R143, R145). -/
def State.endSession (s : State) (c : Ctl) (cause : Cause) : State :=
  ((s.endClaims (fun k => k.holder = .ctl c) cause).withdrawWaiting c).orphanActive c

end Sys2Proof.Machine
end

