-- ==== Sys2Proof/Machine/Flags.lean ====
section
/-! DEFINITION. The part's output pins and the conditions its state shows outside: READY, MARK and LD of each lane
(R65, R66), ATTN (R131), the SCK hold (R169), the acknowledge and the byte on SDA (R158, R171). Each is a function
of State, so it follows its state in the same event. -/

namespace Sys2Proof.Machine

/-- READY: high exactly while the lane is RUNNING (R65). -/
def Lane.ready (l : Lane) : Bool := l.state = .running

/-- MARK: high while the lane is RUNNING and the cell count of its current line is 0 (R66). -/
def Lane.mark (l : Lane) : Bool := l.state = .running && l.count = 0

/-- What a lane drives on its LD pins: none for high impedance or an input (Table 4-2). -/
def Lane.ldDrive (l : Lane) : Option Byte :=
  match l.setup.direction, l.state with
  | .into, _ => none
  | .out, .off => none
  | .out, .idle => none
  | .out, .running => some (Memory.read l.active l.pointer.val)
  | .out, _ => some l.setup.fill

/-- A kind is in an attention mask (R130). -/
def inMask (mask : Half) (k : EventKind) : Bool := mask.getLsbD k.code.toNat

/-- ATTN is pulled low: the queue holds a record of a kind in the mask (R131). -/
def State.attnLow (s : State) : Bool := s.events.any fun e => inMask s.mask e.post.kind

/-- The part holds SCK low: a read phase has begun and its record is not loaded yet (R169). -/
def State.sckHeld (s : State) : Bool := s.port.phase = .read && s.port.record.isNone

/-- The byte a read phase is sending; 0xFF beyond the check byte (R171). -/
def State.sdaByte (s : State) : Option Byte :=
  match s.port.phase, s.port.record with
  | .read, some record => some (record.getD s.port.nextByte 0xFF)
  | _, _ => none

/-- The acknowledge of the byte the part has taken last, while no later bus event has ended its ninth clock: true pulls
SDA low in that clock (R158, log entry 16). -/
def State.acknowledges (s : State) : Bool := s.port.ack

end Sys2Proof.Machine
end

