-- ==== Sys2Proof/Machine/Operands.lean ====
section
/-! DEFINITION. The operand forms of the commands (their ranges, R18 to R150) and the byte layouts of what the part sends
(Chapter 9). Multi-byte numbers go high byte first. -/

namespace Sys2Proof.Machine

/-! ### Operand ranges -/

/-- A row number, 0 to 511. -/
def rowOf (h : Half) : Option RowId := if k : h.toNat < 512 then some ⟨h.toNat, k⟩ else none

/-- A lane number, 0 to 3. -/
def laneOf (b : Byte) : Option LaneId := if k : b.toNat < 4 then some ⟨b.toNat, k⟩ else none

/-- A claim id, 0 to 23. -/
def claimIdOf (b : Byte) : Option ClaimId := if k : b.toNat < 24 then some ⟨b.toNat, k⟩ else none

/-- A tap of 0 to 127 with a span of 1 to 128 (R47). -/
def spanOf (tap span : Byte) : Option Span :=
  if k : tap.toNat < 128 ∧ 1 ≤ span.toNat ∧ span.toNat ≤ 128 then some { tap := ⟨tap.toNat, k.1⟩, len := span.toNat }
  else none

/-- A flag byte, 0 or 1. -/
def flagOf (b : Byte) : Option Bool := if b = 0 then some false else if b = 1 then some true else none

/-- A row list entry in range; row 0xFFFF is a blank entry (R111). -/
def entryOf (e : RawEntry) : Option Entry :=
  match spanOf e.tap e.span, flagOf e.pause with
  | some span, some pause =>
    if 1 ≤ e.repeats.toNat ∧ e.repeats.toNat ≤ 16 then
      if e.row = 0xFFFF then some { row := none, span, repeats := e.repeats.toNat, pause }
      else (rowOf e.row).map fun r => { row := some r, span, repeats := e.repeats.toNat, pause }
    else none
  | _, _ => none

/-! ### Codes (R140, R178) -/

/-- A status code (R140). -/
def Status.code : Status → Byte
  | .ok => 0x00
  | .accepted => 0x01
  | .badFrame => 0x10
  | .checkError => 0x11
  | .unknownCommand => 0x12
  | .badParameter => 0x13
  | .noSession => 0x20
  | .wrongTag => 0x21
  | .sessionHeld => 0x22
  | .wrongState => 0x30
  | .queueFull => 0x31
  | .listFull => 0x32
  | .tableFull => 0x33
  | .conflict => 0x34
  | .notHolder => 0x35
  | .notFound => 0x36

/-- A party code (Table 9-1). -/
def partyCode : Party → Byte
  | .lane n => BitVec.ofNat 8 n.val
  | .ctl c => BitVec.ofNat 8 (0x10 + c.val)

/-- The code of a last writer (Table 9-1). -/
def writerCode : Writer → Byte
  | .party p => partyCode p
  | .sweep => 0x20

/-- The code of an event source (Table 9-1). -/
def Source.code : Source → Byte
  | .party p => partyCode p
  | .part => 0x21

/-- An operation code (Table 9-2). -/
def OpCode.code : OpCode → Byte
  | .load => 0x01
  | .store => 0x02
  | .cstore => 0x03
  | .fill => 0x04
  | .copy => 0x05

/-- An outcome code (Table 9-3). -/
def OutcomeCode.code : OutcomeCode → Byte
  | .done => 0x01
  | .generationMismatch => 0x02
  | .claimTimeout => 0x03
  | .cancelled => 0x04
  | .withdrawn => 0x05

/-- A cause code (Table 9-3). -/
def Cause.code : Cause → Byte
  | .done => 0x01
  | .generationMismatch => 0x02
  | .claimTimeout => 0x03
  | .expired => 0x10
  | .signOff => 0x11
  | .takeover => 0x12
  | .laneReset => 0x13
  | .hard => 0x20
  | .soft => 0x21

/-- A lane state code (Table 9-4). -/
def LaneState.code : LaneState → Byte
  | .off => 0x00
  | .idle => 0x01
  | .priming => 0x02
  | .armed => 0x03
  | .running => 0x04
  | .starved => 0x05
  | .blocked => 0x06
  | .draining => 0x07
  | .paused => 0x08
  | .halted => 0x09

/-- A request state code (Table 9-4). -/
def RequestState.code : RequestState → Byte
  | .waiting => 0x00
  | .blocked _ => 0x01
  | .active => 0x02

/-- The blocked time of a request, 0 when absent (R50). -/
def RequestState.time : RequestState → Nat
  | .blocked t => t
  | _ => 0

/-- 0 OUT, 1 IN (R72). -/
def Direction.code : Direction → Byte
  | .out => 0
  | .into => 1

/-- 0 SKIP, 1 HALT (R72). -/
def Policy.code : Policy → Byte
  | .skip => 0
  | .halt => 1

/-- 0 ONCE, 1 CYCLE (R72). -/
def ListMode.code : ListMode → Byte
  | .once => 0
  | .cycle => 1

/-- 0 SHARED, 1 SOLE (R27). -/
def ClaimKind.code : ClaimKind → Byte
  | .shared => 0
  | .sole => 1

/-! ### Layouts (Chapter 9) -/

/-- A byte of a small number. -/
def byteOf (n : Nat) : Byte := BitVec.ofNat 8 n

/-- A bit as a byte, 0 or 1. -/
def bitByte (b : Bool) : Byte := if b then 1 else 0

/-- A 16-bit number, high byte first. -/
def word (n : Nat) : List Byte := halfBytes (BitVec.ofNat 16 n)

/-- A row of a fixed body; 0xFFFF when absent (section 9.1). -/
def rowBytes (r : Option RowId) : List Byte :=
  match r with
  | some r => word r.val
  | none => [0xFF, 0xFF]

/-- The presence byte of an event record (R179). -/
def Post.presence (p : Post) : Byte :=
  byteOf ((if p.row.isSome then 1 else 0) + (if p.ticket.isSome then 2 else 0) + (if p.claimId.isSome then 4 else 0) +
    (if p.count.isSome then 8 else 0) + (if p.cause.isSome then 16 else 0))

/-- An event record: seven fixed bytes, then the optional fields present (R179). -/
def Event.layout (e : Event) : List Byte :=
  halfBytes e.seq ++ [e.post.kind.code, e.post.source.code] ++ halfBytes e.time ++ [e.post.presence] ++
    (e.post.row.elim [] fun r => word r.val) ++ (e.post.ticket.elim [] halfBytes) ++
    (e.post.claimId.elim [] fun i => [byteOf i.val]) ++ (e.post.count.elim [] halfBytes) ++
    (e.post.cause.elim [] fun c => [c.code])

/-- The body of TAKE EVENTS and PEEK EVENTS: records returned, records held, the records (R179). -/
def eventsBody (returned : List Event) (held : Nat) : List Byte :=
  byteOf returned.length :: byteOf held :: returned.flatMap Event.layout

/-- A line reference of six bytes; none is all 0xFF (R180). -/
def lineBytes : Option LineRef → List Byte
  | some r => [byteOf r.entry, byteOf r.rep] ++ rowBytes r.row ++ [byteOf r.span.tap.val, byteOf r.span.len]
  | none => [0xFF, 0xFF, 0xFF, 0xFF, 0xFF, 0xFF]

/-- The line of a staging tag, none when EMPTY (R68). -/
def Staging.line : Staging → Option LineRef
  | .empty => none
  | .pending r => some r
  | .full r _ => some r

/-- The generation of a staging tag (R68). -/
def Staging.generation : Staging → Option Half
  | .full _ g => g
  | _ => none

/-- The condition code of a staging tag (R180). -/
def Staging.code : Staging → Byte
  | .empty => 0
  | .pending _ => 1
  | .full _ _ => 2

/-- The body of LANE STATUS, 35 bytes (R180). -/
def Lane.statusBody (l : Lane) : List Byte :=
  [l.state.code, byteOf ((if l.stopPending then 1 else 0) + (if l.held then 2 else 0)), l.setup.direction.code,
   l.setup.fill, l.setup.policy.code, l.setup.mode.code, byteOf l.setup.waitLimit, byteOf l.pointer.val,
   byteOf l.count] ++
  lineBytes l.current ++ lineBytes (if l.state = .blocked then l.follow else none) ++
  [l.tag.code] ++ lineBytes l.tag.line ++ [bitByte l.tag.generation.isSome] ++ halfBytes (l.tag.generation.getD 0) ++
  halfBytes l.lines ++ halfBytes l.episode

/-- A row list entry of six bytes (R181). -/
def Entry.layout (e : Entry) : List Byte :=
  rowBytes e.row ++ [byteOf e.span.tap.val, byteOf e.span.len, byteOf e.repeats, bitByte e.pause]

/-- The body of LIST READ: an eight-byte header, then the entries with their indices (R181). -/
def listBody (mode : ListMode) (l : RowList) (start maximum : Nat) : List Byte :=
  let returned := (l.entries.drop start).take maximum
  [mode.code, byteOf l.entries.length, byteOf l.fetch.entry, byteOf l.fetch.rep, byteOf l.shown.entry,
   byteOf l.shown.rep, bitByte l.showing, byteOf returned.length] ++
  (returned.zipIdx start).flatMap fun (e, i) => byteOf i :: e.layout

/-- A claim record of ten bytes (R181). -/
def Claim.layout (c : Claim) (i : ClaimId) : List Byte :=
  [byteOf i.val, partyCode c.holder, c.kind.code] ++ word c.first.val ++ word c.count ++
  [bitByte c.lease.isSome] ++ word (c.lease.getD 0)

/-- The body of LIST CLAIMS: a count, then the records (R32, R181). -/
def State.claimsBody (s : State) (startId maximum : Nat) : List Byte :=
  let listed := ((List.finRange 24).filterMap fun i =>
    if startId ≤ i.val then (s.claim i).map fun c => c.layout i else none).take maximum
  byteOf listed.length :: listed.flatten

/-- QUERY TICKET's body for a queued request at a place counted from 1 (R181). -/
def QueueRequest.layout (q : QueueRequest) (place : Nat) : List Byte :=
  [0x00, q.work.op.code] ++ word q.work.row.val ++ [q.state.code, byteOf q.state.time, byteOf place]

/-- QUERY TICKET's body for an outcome record (R181). -/
def OutcomeRecord.layout (r : OutcomeRecord) : List Byte :=
  [0x01, r.op.code] ++ word r.row.val ++ [r.outcome.code, bitByte r.generation.isSome] ++
  halfBytes (r.generation.getD 0) ++ halfBytes r.finish

/-- The row records of ROW INFO, three bytes each (R181); the rows asked for are below 512. -/
def State.rowInfoBody (s : State) (first count : Nat) : List Byte :=
  (List.range count).flatMap fun i =>
    let kept := s.rowRecord (Fin.ofNat 512 (first + i))
    halfBytes kept.generation ++ [writerCode kept.lastWriter]

/-- The body of IDENTIFY, 13 bytes (R149). -/
def identifyBody (strap : Fin 8) : List Byte :=
  [0x4A, 0x42] ++ word 612 ++ [0x41, byteOf strap.val] ++ word 512 ++ [128, 4, 8, 24, 12]

/-- The session-present mask: bit n set while Cn is PRESENT (R177). -/
def State.presentMask (s : State) : Byte :=
  byteOf (((List.finRange 8).map fun c => if (s.session c).isSome then 2 ^ c.val else 0).sum)

/-- The body of the summary status, ten bytes (R151, R177). -/
def State.summaryBody (s : State) : List Byte :=
  [0x01, byteOf s.events.length, bitByte s.attnLow] ++ ((List.finRange 4).map fun n => (s.lane n).state.code) ++
  [s.presentMask, byteOf s.queue.length, bitByte s.groupEnable]

/-- A result record as it is sent: status, body length, body, check byte (R177). -/
def Result.bytes (r : Result) : List Byte :=
  let front := r.status.code :: byteOf r.body.length :: r.body
  front ++ [checkValue front]

end Sys2Proof.Machine
end

