-- ==== Sys2Proof/Machine/RowList.lean ====
section
/-! DEFINITION. Row lists and their positions: successor, fetch, show position, retirement, boundary report and roll-back
(Chapter 5). The operations that renumber references act on the whole lane, because R106 renumbers the lane's too. -/

namespace Sys2Proof.Machine

/-- The successor of a position (R101). A position that names no line is its own. -/
def RowList.successor (l : RowList) (mode : ListMode) (p : Position) : Position :=
  match l.entries[p.entry]? with
  | none => p
  | some e =>
    if p.rep + 1 < e.repeats then { p with rep := p.rep + 1 }
    else if p.entry + 1 < l.entries.length then { entry := p.entry + 1, rep := 0 }
    else match mode with
      | .cycle => { entry := 0, rep := 0 }
      | .once => { entry := l.entries.length, rep := 0 }

/-- The line a position names, if any (R100, R101). -/
def RowList.lineAt (l : RowList) (p : Position) : Option LineRef :=
  match l.entries[p.entry]? with
  | some e =>
    if p.rep < e.repeats then some { entry := p.entry, rep := p.rep, row := e.row, span := e.span } else none
  | none => none

/-- The line at the fetch position, or none: no line remains (R102). -/
def Lane.nextLine (l : Lane) : Option LineRef := l.list.lineAt l.list.fetch

/-- The fetch position moved past the line just answered (R102). -/
def Lane.advanceFetch (l : Lane) : Lane :=
  { l with list := { l.list with fetch := l.list.successor l.setup.mode l.list.fetch } }

/-- The position of a line reference. -/
def LineRef.position (r : LineRef) : Position := { entry := r.entry, rep := r.rep }

/-- An entry index after `k` entries have left the front: one that named a removed entry keeps its value (R106). -/
def renumber (k e : Nat) : Nat := if k ≤ e then e - k else e

/-- A position renumbered (R106). -/
def Position.renumber (k : Nat) (p : Position) : Position := { p with entry := Machine.renumber k p.entry }

/-- A line reference renumbered (R106). -/
def LineRef.renumber (k : Nat) (r : LineRef) : LineRef := { r with entry := Machine.renumber k r.entry }

/-- A staging tag renumbered (R106). -/
def Staging.renumber (k : Nat) : Staging → Staging
  | .empty => .empty
  | .pending r => .pending (r.renumber k)
  | .full r g => .full (r.renumber k) g

/-- Retirement of the first `k` entries (R106). -/
def Lane.retire (k : Nat) (l : Lane) : Lane :=
  { l with
    tag := l.tag.renumber k
    current := l.current.map (LineRef.renumber k)
    follow := l.follow.map (LineRef.renumber k)
    list := { l.list with entries := l.list.entries.drop k, fetch := l.list.fetch.renumber k,
                          shown := l.list.shown.renumber k } }

/-- The show position and mark set; in ONCE mode a move to a later entry retires those before it (R103, R106). -/
def Lane.moveShow (p : Position) (showing : Bool) (l : Lane) : Lane :=
  let moved := { l with list := { l.list with shown := p, showing := showing } }
  if l.setup.mode = .once ∧ l.list.shown.entry < p.entry then moved.retire p.entry else moved

/-- What the list reports at a boundary: whether the finished line was the last repeat of an entry with the pause
flag, and the index of that entry (R104 step 1). -/
def RowList.boundaryReport (l : RowList) : Bool × Nat :=
  match l.entries[l.shown.entry]? with
  | some e => (decide (e.repeats ≤ l.shown.rep + 1) && e.pause, l.shown.entry)
  | none => (false, l.shown.entry)

/-- The line the lane will show next: the staging line of an OUT lane that holds or awaits one, else the line at the
fetch position (R104 step 2). -/
def Lane.nextShown (l : Lane) : Position :=
  match l.setup.direction, l.tag.line with
  | .out, some r => r.position
  | _, _ => l.list.fetch

/-- The list told that the line at the show position has completed its boundary (R104 steps 2 and 3). -/
def Lane.completeLine (l : Lane) : Lane := l.moveShow l.nextShown false

/-- A refused line passed over: when it was the next to show, the show position moves to the fetch position (R105). -/
def Lane.passOver (refused : Option LineRef) (l : Lane) : Lane :=
  match refused with
  | some r => if l.list.showing = false ∧ l.list.shown = r.position then l.moveShow l.list.fetch false else l
  | none => l

/-- The position the roll-back restarts at (Table of R109). -/
def Lane.restart (l : Lane) : Position :=
  if l.list.showing ∧ 1 ≤ l.count then l.list.successor l.setup.mode l.list.shown else l.list.shown

/-- The roll-back on entry to IDLE (R109). -/
def Lane.rollBack (l : Lane) : Lane :=
  let p := l.restart
  ({ l with list := { l.list with fetch := p } }).moveShow p false

/-- The list at a LANE START from IDLE: show position at the fetch position, earlier entries retired in ONCE mode
(R103, R110). -/
def Lane.startList (l : Lane) : Lane :=
  let begun := { l with list := { l.list with shown := l.list.fetch, showing := false } }
  if l.setup.mode = .once then begun.retire l.list.fetch.entry else begun

/-- A line becomes the current line: pointer at its tap, count 0, the list told that it is shown (R69, R103). -/
def Lane.makeCurrent (r : LineRef) (l : Lane) : Lane :=
  ({ l with current := some r, pointer := r.span.tap, count := 0 }).moveShow r.position true

/-- How many entries LIST TRIM can remove from the end: those that are open (R114). -/
def Lane.openEntries (l : Lane) : Nat :=
  if l.state = .idle then l.list.entries.length
  else l.list.entries.length - (if l.list.fetch.rep = 0 then l.list.fetch.entry else l.list.fetch.entry + 1)

/-- A position of an IDLE lane's list after a trim (R114). -/
def Position.trimmed (n : Nat) (p : Position) : Position := if n ≤ p.entry then { entry := 0, rep := 0 } else p

/-- The list of a lane with `k` entries trimmed from its end (R114). -/
def Lane.trim (k : Nat) (l : Lane) : Lane :=
  let kept := l.list.entries.length - k
  let list := { l.list with entries := l.list.entries.take kept }
  if l.state = .idle then
    { l with list := { list with fetch := list.fetch.trimmed kept, shown := list.shown.trimmed kept } }
  else { l with list }

end Sys2Proof.Machine
end

