-- ==== Sys2Proof/Machine/LaneOps.lean ====
section
/-! DEFINITION. The lane engine's shared operations (Chapter 4): requesting and taking lines, swaps, boundaries,
episodes, drains, stops and refusals. Each acts on lane `n` within one event. -/

namespace Sys2Proof.Machine

/-- Lane n changed by a function. -/
def State.modLane (s : State) (n : LaneId) (f : Lane → Lane) : State := s.setLane n (f (s.lane n))

/-- A lane posts an event (R122). -/
def State.lanePost (s : State) (n : LaneId) (kind : EventKind) (row : Option RowId) (count : Option Half)
    (cause : Option Cause) : State :=
  s.post { kind, source := .party (.lane n), row, count, cause }

/-! ### Entering IDLE and withdrawing -/

/-- A lane enters IDLE, with the roll-back as its last step (R109); a line to follow and a drain are given up. -/
def Lane.enterIdle (l : Lane) : Lane :=
  ({ l with state := .idle, stopPending := false, follow := none, drain := none }).rollBack

/-- The request in the slot is withdrawn, or abandoned with a cancellation of delivery when ACTIVE (R63). -/
def State.withdrawSlot (s : State) (n : LaneId) : State :=
  let emptied := s.modLane n fun l => { l with slot := none }
  match (s.lane n).slot with
  | some q => if q.state.isActive then emptied.cancelDelivery (.lane n) else emptied
  | none => emptied

/-- Both registers are abandoned, the pending stop and the start mode cleared (R90 steps 2 and 3, R95). -/
def Lane.abandon (l : Lane) : Lane :=
  { l with tag := .empty, held := false, stopPending := false, startMode := none, follow := none, drain := none }

/-- The immediate stop (R90). -/
def State.immediateStop (s : State) (n : LaneId) : State :=
  (s.withdrawSlot n).modLane n fun l => l.abandon.enterIdle

/-- The list yields no further line: LANE DONE, then IDLE (R78, R81, R83, R93). -/
def State.laneDone (s : State) (n : LaneId) : State :=
  (s.lanePost n .laneDone none (some (s.lane n).lines) none).modLane n Lane.enterIdle

/-! ### OUT lanes -/

/-- The cells of a blank OUT line: the fill value in all 128 (R68). -/
def blankLine (fill : Byte) : Memory := Memory.ofCells 128 fun _ => fill

/-- An OUT lane requests the next line (R76). -/
def State.requestNext (s : State) (n : LaneId) : State :=
  let l := s.lane n
  match l.nextLine with
  | none => s.setLane n { l with tag := .empty }
  | some r =>
    match r.row with
    | some row =>
      (s.setLane n { l.advanceFetch with
        tag := .pending r
        slot := some { work := .load row, waitLimit := l.setup.waitLimit, state := .waiting } }).raise
    | none => s.setLane n { l.advanceFetch with tag := .full r none, staging := blankLine l.setup.fill }

/-- The swap of an OUT lane: the staging line becomes current and the tag EMPTY (R68, R78). -/
def Lane.swapIn (l : Lane) : Lane :=
  match l.tag with
  | .full r _ => ({ l with active := l.staging, staging := l.active, tag := .empty }).makeCurrent r
  | _ => l

/-- The swap, RUNNING, and the request of the line after (Table 4-4, staging FULL). -/
def State.showStaged (s : State) (n : LaneId) : State :=
  (s.modLane n fun l => { l.swapIn with state := .running }).requestNext n

/-- A STARVED episode begins (R78). -/
def Lane.starve (l : Lane) : Lane := { l with state := .starved, episode := 0 }

/-- The cases of Table 4-4 after the pause case, which LANE RESUME takes too (R78, R85). -/
def State.continueOut (s : State) (n : LaneId) : State :=
  match (s.lane n).tag with
  | .full _ _ => s.showStaged n
  | .pending _ => s.modLane n Lane.starve
  | .empty =>
    let asked := s.requestNext n
    match (asked.lane n).tag with
    | .full _ _ => asked.showStaged n
    | .pending _ => asked.modLane n Lane.starve
    | .empty => asked.laneDone n

/-- A lane pauses after an entry with the pause flag (R84); the count is the entry index before the boundary. -/
def State.pause (s : State) (n : LaneId) (index : Nat) : State :=
  (s.lanePost n .lanePaused none (some (BitVec.ofNat 16 index)) none).modLane n fun l => { l with state := .paused }

/-- The OUT boundary (R78). -/
def State.outBoundary (s : State) (n : LaneId) : State :=
  let l := s.lane n
  let counted := s.setLane n ({ l with lines := l.lines + 1 }).completeLine
  if l.stopPending then counted.immediateStop n
  else if l.list.boundaryReport.1 then counted.pause n l.list.boundaryReport.2
  else counted.continueOut n

/-- The end of a STARVED episode (R79). -/
def State.endStarved (s : State) (n : LaneId) : State :=
  let l := s.lane n
  let row := l.tag.line.bind LineRef.row
  ((s.modLane n fun l => { l.swapIn with state := .running }).lanePost n .lineStarved row (some l.episode)
    none).requestNext n

/-- The priming completion (R87). -/
def State.endPriming (s : State) (n : LaneId) : State :=
  ((s.modLane n Lane.swapIn).requestNext n).modLane n fun l =>
    { l with state := if l.startMode = some .armed then .armed else .running }

/-- Staging has become FULL: what follows by the state (R77). -/
def State.staged (s : State) (n : LaneId) : State :=
  match (s.lane n).state with
  | .priming => s.endPriming n
  | .starved => s.endStarved n
  | _ => s

/-- A refused OUT lane under SKIP asks for the next line and acts on the answer (Table of R93). -/
def State.afterSkip (s : State) (n : LaneId) : State :=
  let asked := s.requestNext n
  match (asked.lane n).tag, (asked.lane n).state with
  | .full _ _, _ => asked.staged n
  | .empty, .priming => asked.laneDone n
  | .empty, .starved => asked.laneDone n
  | _, _ => asked

/-! ### IN lanes -/

/-- The finished line is disposed of: dropped when blank, swapped into staging and its STORE placed when staging is
EMPTY, held otherwise (R81 step 2). -/
def State.dispose (s : State) (n : LaneId) : State :=
  let l := s.lane n
  match l.current with
  | none => s
  | some r =>
    match r.row, l.tag with
    | none, _ => s.setLane n { l with held := false }
    | some row, .empty =>
      (s.setLane n { l with
        active := l.staging
        staging := l.active
        tag := .pending r
        held := false
        slot := some { work := .store row r.span, waitLimit := l.setup.waitLimit, state := .waiting } }).raise
    | some _, _ => s.setLane n { l with held := true }

/-- Whether an IN lane has nothing left to store: staging EMPTY and no line held (R81, R83, R89). -/
def Lane.nothingToStore (l : Lane) : Bool := l.tag = .empty && !l.held

/-- An IN lane drains (R83). -/
def Lane.drainFor (cause : DrainCause) (l : Lane) : Lane :=
  { l with state := .draining, drain := some cause, stopPending := false, follow := none }

/-- The cases of Table 4-5 after the pause case, which LANE RESUME takes too (R81, R85). -/
def State.continueIn (s : State) (n : LaneId) : State :=
  let l := s.lane n
  match l.nextLine with
  | none => if l.nothingToStore then s.laneDone n else s.modLane n (Lane.drainFor .listEnd)
  | some r =>
    if l.held then s.setLane n { l.advanceFetch with follow := some r, state := .blocked, episode := 0 }
    else s.setLane n { l.advanceFetch.makeCurrent r with state := .running }

/-- The IN boundary (R81). -/
def State.inBoundary (s : State) (n : LaneId) : State :=
  let l := s.lane n
  let disposed := (s.setLane n ({ l with lines := l.lines + 1 }).completeLine).dispose n
  if l.stopPending then
    if (disposed.lane n).nothingToStore then disposed.modLane n Lane.enterIdle
    else disposed.modLane n (Lane.drainFor .stop)
  else if l.list.boundaryReport.1 then disposed.pause n l.list.boundaryReport.2
  else disposed.continueIn n

/-- The end of a drain, when nothing is left to store (R83). -/
def State.endDrain (s : State) (n : LaneId) : State :=
  if (s.lane n).nothingToStore then
    if (s.lane n).drain = some .listEnd then s.laneDone n else s.modLane n Lane.enterIdle
  else s

/-- A held line disposed of once staging is EMPTY (R82, R94). -/
def State.disposeHeld (s : State) (n : LaneId) : State := if (s.lane n).held then s.dispose n else s

/-- A BLOCKED episode ends: the held line disposed of, the line to follow current, RUNNING, LINE LOST (R82, R94). -/
def State.endBlocked (s : State) (n : LaneId) (row : RowId) : State :=
  let freed := s.disposeHeld n
  (freed.modLane n fun l =>
    { (l.follow.elim l fun r => l.makeCurrent r) with state := .running, follow := none }).lanePost n .lineLost
      (some row) (some (s.lane n).episode) none

/-- The staging register of an IN lane is free again: what follows by the state (R82, R94). -/
def State.freeStaging (s : State) (n : LaneId) (row : RowId) : State :=
  let freed := s.modLane n fun l => { l with tag := .empty }
  match (s.lane n).state with
  | .blocked => freed.endBlocked n row
  | .draining => (freed.disposeHeld n).endDrain n
  | .paused => freed.disposeHeld n
  | _ => freed

/-! ### Refusals (section 4.12) -/

/-- A lane under HALT whose request is refused (R95). -/
def State.haltLane (s : State) (n : LaneId) (row : RowId) : State :=
  (s.modLane n fun l => { l.abandon with state := .halted }).lanePost n .laneHalted (some row) none
    (some .claimTimeout)

/-- A lane under SKIP whose request is refused (R93, R94). -/
def State.skipLane (s : State) (n : LaneId) (row : RowId) : State :=
  let l := s.lane n
  let skipped := (s.modLane n fun l => { l with tag := .empty }).lanePost n .entrySkipped (some row) none none
  match l.setup.direction with
  | .out => (skipped.modLane n (Lane.passOver l.tag.line)).afterSkip n
  | .into => skipped.freeStaging n row

/-- The request in a lane's slot is refused with CLAIM TIMEOUT: the slot is emptied and the lane's policy decides
(R46, section 4.12). -/
def State.refuseSlot (s : State) (n : LaneId) : State :=
  match (s.lane n).slot with
  | none => s
  | some q =>
    let emptied := s.modLane n fun l => { l with slot := none }
    match (s.lane n).setup.policy with
    | .halt => emptied.haltLane n q.work.row
    | .skip => emptied.skipLane n q.work.row

/-! ### Completion reports (R55) -/

/-- A LOAD report with delivery KEEP at an OUT lane: the slot is empty, the tag FULL with the start generation (R77). -/
def State.loadReport (s : State) (n : LaneId) (generation : Half) : State :=
  (s.modLane n fun l =>
    { l with
      slot := none
      tag := match l.tag with
        | .pending r => .full r (some generation)
        | t => t }).staged n

/-- A STORE report at an IN lane (R82). -/
def State.storeReport (s : State) (n : LaneId) (row : RowId) : State :=
  (s.modLane n fun l => { l with slot := none }).freeStaging n row

/-! ### Starting, stopping and resetting -/

/-- A start from IDLE before the first line (R86, R110). -/
def Lane.beginStart (mode : StartMode) (l : Lane) : Lane :=
  ({ l with lines := 0, stopPending := false, current := none, tag := .empty, held := false, follow := none,
            startMode := some mode }).startList

/-- A start from IDLE (R86): an OUT lane primes, an IN lane takes its first line. -/
def State.startLane (s : State) (n : LaneId) (mode : StartMode) : State :=
  let begun := s.modLane n (Lane.beginStart mode)
  match (s.lane n).setup.direction with
  | .out =>
    let asked := (begun.modLane n fun l => { l with state := .priming }).requestNext n
    match (asked.lane n).tag with
    | .full _ _ => asked.staged n
    | _ => asked
  | .into =>
    begun.modLane n fun l =>
      { (l.nextLine.elim l fun r => l.advanceFetch.makeCurrent r) with
        state := if mode = .armed then .armed else .running }

/-- An ARMED lane enters RUNNING (R88); a lane in any other state does not change. -/
def Lane.release (l : Lane) : Lane := if l.state = .armed then { l with state := .running } else l

/-- LANE STOP BOUNDARY by the lane's state (Table of R89). -/
def State.stopAtBoundary (s : State) (n : LaneId) : State :=
  let l := s.lane n
  match l.state, l.setup.direction with
  | .off, _ => s
  | .idle, _ => s
  | .draining, _ => s
  | .running, _ => s.setLane n { l with stopPending := true }
  | .blocked, _ => s.setLane n (l.drainFor .stop)
  | .paused, .into => s.setLane n (if l.nothingToStore then l.enterIdle else l.drainFor .stop)
  | _, _ => s.immediateStop n

/-- The immediate stop of a lane that is neither OFF nor IDLE (R90, R91). -/
def State.haltIfStreaming (s : State) (n : LaneId) : State :=
  if (s.lane n).state = .off ∨ (s.lane n).state = .idle then s else s.immediateStop n

/-- A lane at its reset values; the cells of its registers are kept, not observable (R98). -/
def Lane.reset (l : Lane) : Lane := { Lane.off with active := l.active, staging := l.staging }

/-- LANE RESET of a lane that is not OFF (R92). -/
def State.resetLane (s : State) (n : LaneId) : State :=
  ((s.withdrawSlot n).modLane n Lane.reset).endClaims (fun k => k.holder = .lane n) .laneReset

/-- The lanes a mask selects, L0 first (R173). -/
def maskedLanes (mask : Byte) : List LaneId := (List.finRange 4).filter fun n => mask.getLsbD n.val

/-- GROUP START at the lanes of a mask (R88, R173). -/
def State.groupStart (s : State) (mask : Byte) : State :=
  (maskedLanes mask).foldl (fun s n => s.modLane n Lane.release) s

/-- GROUP HALT at the lanes of a mask (R91, R173). -/
def State.groupHalt (s : State) (mask : Byte) : State :=
  (maskedLanes mask).foldl State.haltIfStreaming s

end Sys2Proof.Machine
end

