-- ==== Sys2Proof/Machine/Arbiter.lean ====
section
/-! DEFINITION. The Array Arbiter: the claim tests of a selection, the choice, the start of an operation (R56 to R61), the
wait-limit refusals of a tick (R45), and the completion of an operation with its report (R3 to R14, R51, R55, R62). -/

namespace Sys2Proof.Machine

/-! ### The tests of a selection (R57) -/

/-- A request that has not been started. -/
def RequestState.waits (r : RequestState) : Bool := !r.isActive

/-- The slot request of a lane is runnable: it waits and passes the claim test. -/
def State.slotRunnable (s : State) (n : LaneId) : Bool :=
  (s.lane n).slot.any fun q => q.state.waits && !s.conflicts (.lane n) q.work

/-- A queued request is runnable. -/
def State.requestRunnable (s : State) (q : QueueRequest) : Bool :=
  q.state.waits && !s.conflicts (.ctl q.ctl) q.work

/-- The state of a tested request: a WAITING one that conflicts is BLOCKED with blocked time 0 when its wait limit is
not 0 (R44, R57). -/
def testedState (conflict : Bool) (limit : Nat) (r : RequestState) : RequestState :=
  match r with
  | .waiting => if conflict ∧ limit ≠ 0 then .blocked 0 else .waiting
  | r => r

/-- Every request after the tests of a selection. -/
def State.markTested (s : State) : State :=
  { s with
    queue := s.queue.map fun q =>
      { q with state := testedState (s.conflicts (.ctl q.ctl) q.work) q.waitLimit q.state }
    lanes := Vector.ofFn fun n =>
      { s.lane n with slot := (s.lane n).slot.map fun q =>
          { q with state := testedState (s.conflicts (.lane n) q.work) q.waitLimit q.state } } }

/-- A queued request is refused at a selection: WAITING, in conflict, wait limit 0 (R57). -/
def State.refusedAtOnce (s : State) (q : QueueRequest) : Bool :=
  q.state = .waiting && q.waitLimit = 0 && s.conflicts (.ctl q.ctl) q.work

/-- A slot request is refused at a selection (R57). -/
def State.slotRefusedAtOnce (s : State) (n : LaneId) : Bool :=
  (s.lane n).slot.any fun q => q.state = .waiting && q.waitLimit = 0 && s.conflicts (.lane n) q.work

/-- The refusals of one event: the queued requests in queue order, then the slots in lane order (R45). That a
selection's refusals come in the same order is DEDUCED (log entry 5). -/
def State.refuseAll (s : State) (requests : List QueueRequest) (slots : List LaneId) : State :=
  slots.foldl State.refuseSlot (requests.foldl State.refuseRequest s)

/-! ### The start of an operation (R4, R61) -/

/-- The source cells an operation copies at its start: from the source register, or from the source row (R4). -/
def State.latch (s : State) (w : Work) (register : Memory) : List Host.Cell :=
  match w with
  | .store _ sp => sp.cells.map fun k => (k, Memory.read register k)
  | .cstore _ sp _ => sp.cells.map fun k => (k, Memory.read register k)
  | .copy r _ sp => sp.cells.map fun k => (k, s.readCell (rowBase r + k))
  | _ => []

/-- Whether the start generation equals the expected generation; true for an operation that expects none (R9). -/
def Work.matches (w : Work) (generation : Half) : Bool :=
  match w with
  | .cstore _ _ expected => generation = expected
  | _ => true

/-- The in-flight record taken at the start (R4). -/
def State.inFlight (s : State) (w : Work) (p : Party) (ticket : Option Half) (register : Memory) : Transfer :=
  let generation := (s.rowRecord w.row).generation
  { work := w, requester := p, ticket, latched := s.latch w register, startGeneration := generation,
    matched := w.matches generation, discard := false, softReset := false }

/-- A slot request starts (R61); its lane becomes the last lane served (R59). -/
def State.startSlot (s : State) (n : LaneId) : State :=
  match (s.lane n).slot with
  | none => s
  | some q =>
    { s.modLane n (fun l => { l with slot := some { q with state := .active } }) with
      array := some (.transfer (s.inFlight q.work (.lane n) none (s.lane n).staging))
      lastLane := n }

/-- A queued request starts (R61). -/
def State.startRequest (s : State) (q : QueueRequest) : State :=
  { s with
    queue := s.queue.map fun r => if r.ticket = q.ticket then { r with state := .active } else r
    array := some (.transfer (s.inFlight q.work (.ctl q.ctl) (some q.ticket) (s.buffer q.ctl))) }

/-- A REFRESH of the row at the refresh pointer starts (R13, R58). -/
def State.startRefresh (s : State) : State := { s with array := some (.refresh s.refreshPointer) }

/-! ### The choice (R58 to R60) -/

/-- What a selection starts. -/
inductive Choice where
  | refresh
  | slot (n : LaneId)
  | request (q : QueueRequest)
  | nothing
  deriving DecidableEq, Repr

/-- The lanes in rotation, beginning after the last lane served (R59). -/
def laneRotation (last : LaneId) : List LaneId := [last + 1, last + 2, last + 3, last]

/-- The selection order (R58): what is chosen, from the runnable slot requests and queued requests. -/
def choose (debt streak : Nat) (last : LaneId) (slots : LaneId → Bool) (requests : List QueueRequest) : Choice :=
  if Config.urgentDebt ≤ debt then .refresh
  else match (laneRotation last).find? slots, requests with
    | some n, [] => .slot n
    | some n, q :: _ => if Config.streakLimit ≤ streak then .request q else .slot n
    | none, q :: _ => .request q
    | none, [] => if 1 ≤ debt then .refresh else .nothing

/-- The lane streak after a selection (R60). -/
def streakAfter (streak : Nat) (runnable : Bool) (c : Choice) : Nat :=
  match runnable, c with
  | false, _ => 0
  | true, .slot _ => streak + 1
  | true, .request _ => 0
  | true, _ => streak

/-- The chosen candidate starts. -/
def State.start (s : State) : Choice → State
  | .refresh => s.startRefresh
  | .slot n => s.startSlot n
  | .request q => s.startRequest q
  | .nothing => s

/-- One selection (R57 to R61). The tests, the refusals and the choice all see the state the selection finds. -/
def State.select (s : State) : State :=
  let requests := s.queue.filter s.requestRunnable
  let choice := choose s.refreshDebt s.streak s.lastLane s.slotRunnable requests
  let refused := s.markTested.refuseAll (s.queue.filter s.refusedAtOnce)
    ((List.finRange 4).filter s.slotRefusedAtOnce)
  { refused.start choice with streak := streakAfter s.streak (!requests.isEmpty) choice }

/-- The selections of one step: while an occasion stands, the array is idle and the part OPERATING, a selection is
made; otherwise the occasion is not kept (R16, R56). `fuel` bounds those made within one step (log entry 5). -/
def arbitrateFor : Nat → State → State
  | 0, s => s
  | fuel + 1, s =>
    if s.occasion then
      if s.array = none ∧ s.partState = .operating then
        arbitrateFor fuel ({ s with occasion := false }).select
      else { s with occasion := false }
    else s

/-- The arbiter takes the occasions of a step (R56). -/
def State.arbitrate (s : State) : State := arbitrateFor Config.selectionsPerStep s

/-! ### Ticks (R45) -/

/-- The blocked time of a BLOCKED request one higher (R45). -/
def RequestState.tick : RequestState → RequestState
  | .blocked t => .blocked (t + 1)
  | r => r

/-- Every blocked time one higher (R45). -/
def State.tickBlocked (s : State) : State :=
  { s with
    queue := s.queue.map fun q => { q with state := q.state.tick }
    lanes := s.lanes.map fun l => { l with slot := l.slot.map fun q => { q with state := q.state.tick } } }

/-- A BLOCKED request whose blocked time equals its wait limit (R45). -/
def limitReached (limit : Nat) (r : RequestState) : Bool := r = .blocked limit

/-- The slot request of a lane has reached its wait limit. -/
def State.slotLimitReached (s : State) (n : LaneId) : Bool :=
  (s.lane n).slot.any fun q => limitReached q.waitLimit q.state

/-- Every request at its wait limit refused (R45, R46). -/
def State.refuseDue (s : State) : State :=
  s.refuseAll (s.queue.filter fun q => limitReached q.waitLimit q.state)
    ((List.finRange 4).filter s.slotLimitReached)

/-! ### Completion (R3) -/

/-- The cells a completed write puts into its row (R8 to R11). -/
def Transfer.written (t : Transfer) : List Host.Cell :=
  match t.work with
  | .load _ => []
  | .fill _ sp v => sp.cells.map fun k => (k, v)
  | _ => t.latched

/-- Whether a completed operation writes its row (R6). -/
def Transfer.writes (t : Transfer) : Bool :=
  match t.work with
  | .load _ => false
  | _ => t.matched

/-- The cell and row-record effects (R6 to R11). -/
def State.writeEffects (s : State) (t : Transfer) : State :=
  if t.writes then
    (s.writeRow t.work.row t.written).setRecord t.work.row
      { generation := t.startGeneration + 1, lastWriter := .party t.requester }
  else s

/-- One opened row tested for refresh credit (R14). -/
def State.credit (s : State) (r : RowId) : State :=
  if r = s.refreshPointer ∧ 1 ≤ s.refreshDebt then
    { s with refreshPointer := s.refreshPointer + 1, refreshDebt := s.refreshDebt - 1 }
  else s

/-- The refresh credit of an operation's rows, in their order (R14). -/
def State.credits (s : State) (t : Transfer) : State := t.work.opens.foldl State.credit s

/-- The outcome of a completion report (R4). -/
def Transfer.outcome (t : Transfer) : OutcomeCode := if t.matched then .done else .generationMismatch

/-- The 128 cells of a row as a register (R4, R7). -/
def State.rowImage (s : State) (r : RowId) : Memory := Memory.ofCells 128 fun k => s.readCell (rowBase r + k)

/-- The delivery of a LOAD's cells to its destination register, unless discarded (R4, R5). The staging tag takes the
generation with the report. -/
def State.deliver (s : State) (t : Transfer) : State :=
  match t.work, t.discard with
  | .load r, false =>
    match t.requester with
    | .lane n => s.modLane n fun l => { l with staging := s.rowImage r }
    | .ctl c => s.setBuffer c (s.rowImage r)
  | _, _ => s

/-- A completion report at a lane engine (R55, R77, R82). -/
def State.laneReport (s : State) (n : LaneId) (t : Transfer) : State :=
  if t.discard ∨ t.softReset then s
  else match t.work with
    | .load _ => s.loadReport n t.startGeneration
    | w => s.storeReport n w.row

/-- The generation an orphaned operation's record carries: none for a LOAD (R52, R62). -/
def Transfer.orphanGeneration (t : Transfer) : Option Half :=
  match t.work with
  | .load _ => none
  | _ => some t.startGeneration

/-- A completion report at the Transfer Queue (R51, R62, R64). -/
def State.queueReport (s : State) (c : Ctl) (ticket : Half) (t : Transfer) : State :=
  if t.softReset then s
  else if s.orphan = some ticket then
    { s.record ticket c t.work t.outcome t.orphanGeneration with orphan := none }
  else match s.request ticket with
    | some q => (s.dequeue ticket).finish q t.outcome (some t.startGeneration)
    | none => s

/-- The completion report to the block that owns the requester (R4). -/
def State.report (s : State) (t : Transfer) : State :=
  match t.requester, t.ticket with
  | .lane n, _ => s.laneReport n t
  | .ctl c, some ticket => s.queueReport c ticket t
  | .ctl _, none => s

/-- The completion of a lane or controller operation: cell and row-record effects, refresh credit, delivery and
report; then the array is idle, an occasion (R3). -/
def State.completeTransfer (s : State) (t : Transfer) : State :=
  { ((((s.writeEffects t).credits t).deliver t).report t).raise with array := none }

/-- The completion of a REFRESH (R13). -/
def State.completeRefresh (s : State) : State :=
  { s with refreshDebt := s.refreshDebt - 1, refreshPointer := s.refreshPointer + 1, array := none,
           occasion := true }

end Sys2Proof.Machine
end

