-- ==== Sys2Proof/Machine/Array.lean ====
section
/-! DEFINITION. The completions of array operations (R3 to R14): each row of the table is the completion of the
operation of its name, the one ACTIVE on the array. -/

namespace Sys2Proof.Machine

/-- The completion of the ACTIVE transfer when its operation is the one named; then the arbiter's selection (R3). -/
def completeOp (op : OpCode) (s : State) : Outcome :=
  match s.array with
  | some (.transfer t) =>
    if t.work.op = op then .next (s.completeTransfer t).arbitrate else .fault .operationNotActive
  | _ => .fault .operationNotActive

/-- LOAD_COMPLETION (R7). -/
def execLoadCompletion (s : State) : Outcome := completeOp .load s

/-- STORE_COMPLETION (R8). -/
def execStoreCompletion (s : State) : Outcome := completeOp .store s

/-- CSTORE_COMPLETION (R9). -/
def execCstoreCompletion (s : State) : Outcome := completeOp .cstore s

/-- FILL_COMPLETION (R10). -/
def execFillCompletion (s : State) : Outcome := completeOp .fill s

/-- COPY_COMPLETION (R11). -/
def execCopyCompletion (s : State) : Outcome := completeOp .copy s

/-- REFRESH_COMPLETION (R13). -/
def execRefreshCompletion (s : State) : Outcome :=
  match s.array with
  | some (.refresh _) => .next s.completeRefresh.arbitrate
  | _ => .fault .operationNotActive

end Sys2Proof.Machine
end

