-- ==== Sys2Proof/Machine/Edges.lean ====
section
/-! DEFINITION. Lane clock edges (R73 to R75) and the group commands at the lanes (R88, R91, R173). -/

namespace Sys2Proof.Machine

/-- The span of a lane's current line; 0 when no line is current. -/
def Lane.span (l : Lane) : Nat := l.current.elim 0 fun r => r.span.len

/-- The pointer and count after one cell has moved (R73, R74). -/
def Lane.moveCell (l : Lane) : Lane := { l with pointer := l.pointer + 1, count := l.count + 1 }

/-- An edge taken by an OUT lane in RUNNING (R73): a cell moves, and the edge that completes the line is its
boundary. -/
def State.outEdge (s : State) (n : LaneId) : State :=
  let moved := s.modLane n Lane.moveCell
  if (moved.lane n).count = (moved.lane n).span then moved.outBoundary n else moved

/-- An edge taken by an IN lane in RUNNING (R74): the byte on LD is written at the pointer. -/
def State.inEdge (s : State) (n : LaneId) (ld : Byte) : State :=
  let moved := s.modLane n fun l => { l with active := Memory.write l.active l.pointer.val ld }.moveCell
  if (moved.lane n).count = (moved.lane n).span then moved.inBoundary n else moved

/-- An edge taken outside RUNNING: the episode counter of a STARVED or BLOCKED lane rises, and stays at 65535 (R75). -/
def Lane.idleEdge (l : Lane) : Lane :=
  if l.state = .starved ∨ l.state = .blocked then { l with episode := saturatingSucc l.episode } else l

/-- OUT_LANE_CLOCK_EDGE (R73). An edge that finds the lane outside RUNNING is taken as R75 gives (log entry 9). -/
def execOutLaneClockEdge (n : LaneId) (s : State) : Outcome :=
  match (s.lane n).state, (s.lane n).setup.direction with
  | .running, .out => .next (s.outEdge n).arbitrate
  | .running, .into => .fault .inLaneEdgeWithoutByte
  | _, _ => .next (s.modLane n Lane.idleEdge)

/-- IN_LANE_CLOCK_EDGE with the byte on LD (R74). Outside RUNNING the byte is discarded (R75, log entry 9). -/
def execInLaneClockEdge (n : LaneId) (ld : Byte) (s : State) : Outcome :=
  match (s.lane n).state, (s.lane n).setup.direction with
  | .running, .into => .next (s.inEdge n ld).arbitrate
  | .running, .out => .fault .outLaneDrivesData
  | _, _ => .next (s.modLane n Lane.idleEdge)

/-- LANE_CLOCK_EDGE_OUTSIDE_RUNNING (R75). -/
def execLaneClockEdgeOutsideRunning (n : LaneId) (s : State) : Outcome :=
  if (s.lane n).state = .running then .fault .laneIsRunning else .next (s.modLane n Lane.idleEdge)

/-- GROUP_START: what the selected lanes take from a taken group frame (R88, R173). The STOP that closes the frame
takes the same effect (log entry 4). -/
def execGroupStart (mask : Byte) (s : State) : Outcome := .next (s.groupStart mask)

/-- GROUP_HALT: what the selected lanes take from a taken group frame (R91, R173). The STOP that closes the frame takes
the same effect (log entry 4). -/
def execGroupHalt (mask : Byte) (s : State) : Outcome := .next (s.groupHalt mask)

end Sys2Proof.Machine
end

