-- ==== Sys2Proof/Machine/Engine.lean ====
section
/-! DEFINITION. The Command Engine (R136 to R140): a command's reply, the end of an execution, admission, and the rows
that execute the frame the engine holds. -/

namespace Sys2Proof.Machine

/-- What executing a command gives: the part after it, the status and the body of its result (R138). -/
structure Reply where
  state : State
  status : Status
  body : List Byte
  deriving DecidableEq, Repr

/-- A refusal changes nothing in the part and has an empty body (R139, R140). -/
def refuse (s : State) (status : Status) : Reply := { state := s, status, body := [] }

/-- OK with an empty body. -/
def done (s : State) : Reply := { state := s, status := .ok, body := [] }

/-- OK with a body. -/
def answer (s : State) (body : List Byte) : Reply := { state := s, status := .ok, body }

/-- A read phase that waits for this result loads its record, and the clock hold ends (R169). -/
def Port.load (p : Port) (r : Result) : Port :=
  if p.phase = .read ∧ p.frameInTx ∧ p.record = none then { p with record := some r.bytes, nextByte := 0 } else p

/-- Execution ends: the engine holds the result, or is IDLE with it dropped when a discard was noted (R136). -/
def Reply.finish (r : Reply) : State :=
  match r.state.engine with
  | .executing _ true => { r.state with engine := .idle }
  | .executing _ false =>
    { r.state with
      engine := .holding { status := r.status, body := r.body }
      port := r.state.port.load { status := r.status, body := r.body } }
  | _ => r.state

/-- The engine is EXECUTING the frame that carries this command (R136, R176). -/
def State.executes (s : State) (i : Instr) : Bool :=
  match s.engine with
  | .executing f _ => readFrame f.verdict f.bytes = i
  | _ => false

/-- The execution of the frame the engine holds, when it carries this command: the command takes effect and its
result is ready, at one moment (R137). -/
def State.runFrame (s : State) (i : Instr) (command : State → Reply) : Outcome :=
  if s.executes i then .next (command s).finish else .fault .frameNotHeld

/-- The same for a command that can be an occasion for a selection: the arbiter takes it (R56). -/
def State.runOccasion (s : State) (i : Instr) (command : State → Reply) : Outcome :=
  if s.executes i then .next (command s).finish.arbitrate else .fault .frameNotHeld

/-- The session check, admission step 5 (R139). -/
def inSession (c : Ctl) (tag : Byte) (command : State → Reply) (s : State) : Reply :=
  match s.session c with
  | none => refuse s .noSession
  | some t => if t = tag then command s else refuse s .wrongTag

/-- The status of a frame that admission steps 1 to 4 refuse (R139). -/
def admissionStatus (verdict : Verdict) (bytes : List Byte) : Status :=
  match verdict, bytes with
  | .overlong, _ => .badFrame
  | .short, _ => .badFrame
  | .checkFailed, _ => .checkError
  | .good, controller :: _ :: code :: _ =>
    if 8 ≤ controller.toNat then .badFrame
    else if code ∉ knownCodes then .unknownCommand
    else .badParameter
  | .good, _ => .badFrame

/-- REFUSED_FRAME: the frame held is refused at admission steps 1 to 4 and changes nothing (R139). -/
def execRefusedFrame (verdict : Verdict) (bytes : List Byte) (s : State) : Outcome :=
  s.runFrame (.refusedFrame verdict bytes) fun s => refuse s (admissionStatus verdict bytes)

end Sys2Proof.Machine
end

