-- ==== Sys2Proof/Machine/Bus.lean ====
section
/-! DEFINITION. The control port (Chapter 8): frames delivered and left, read phases, group frames, and the rows START,
ADDRESS_BYTE, STOP, READ_PHASE_END, BUS_ERROR, WRITE_PHASE_BYTE, GROUP_PHASE_BYTE and READ_BYTE_ACKNOWLEDGE. While
RESETn is low the part takes no part in the bus (R175). -/

namespace Sys2Proof.Machine

/-- The port changed by a function. -/
def State.modPort (s : State) (f : Port → Port) : State := { s with port := f s.port }

/-! ### The frame of a transaction -/

/-- The transaction leaves without reading the result: a held result is dropped, an execution notes the discard
(R136). -/
def Engine.leave : Engine → Engine
  | .executing f _ => .executing f true
  | .holding _ => .idle
  | .idle => .idle

/-- The port reports the leave and clears the frame in transaction mark, when it is set (R162, R167). -/
def State.leaveFrame (s : State) : State :=
  if s.port.frameInTx then { s with engine := s.engine.leave, port := { s.port with frameInTx := false } } else s

/-- The end of a write phase: the assembly is judged and delivered, or nothing is (R166). -/
def State.deliverFrame (s : State) : State :=
  match frameVerdict s.port.overlong s.port.frameBytes with
  | none => s
  | some v =>
    { s with engine := .executing { verdict := v, bytes := s.port.frameBytes } false
             port := { s.port with frameInTx := true } }

/-- The end of a read phase that sent a frame's result: the result is released, the engine IDLE, the mark cleared.
One that sent the summary status releases nothing (R171). -/
def State.releaseRecord (s : State) : State :=
  if s.port.frameInTx then { s with engine := .idle, port := { s.port with frameInTx := false } } else s

/-- The port with its assemblies empty, nothing being sent and SDA released: the ninth clock of the byte taken last is
over (R158). -/
def Port.clear (p : Port) : Port :=
  { p with frameBytes := [], overlong := false, groupBytes := [], groupOverlong := false, record := none,
           nextByte := 0, ack := false }

/-- An assembly without the byte that a START or STOP leaves unacknowledged: that byte is not taken (R159). One that
was refused was not taken anyway. -/
def Port.dropUnacknowledged (p : Port) : Port :=
  match p.phase with
  | .write => if p.overlong then p else { p with frameBytes := p.frameBytes.dropLast }
  | .group => if p.groupOverlong then p else { p with groupBytes := p.groupBytes.dropLast }
  | _ => p

/-- Whether a START or STOP leaves the byte taken last unacknowledged. -/
def Port.unacknowledged (p : Port) (flag : Bool) : Bool := flag && p.bitCount = 8

/-- The phase as a START or STOP at this point ends it (R159). -/
def State.settleByte (s : State) (flag : Bool) : State :=
  if s.port.unacknowledged flag then s.modPort Port.dropUnacknowledged else s

/-- The read phase's ending by START or STOP: after the unacknowledged read address the phase has not begun, so its
frame stays with the transaction (R159, log entry 8); otherwise the record is released (R171). -/
def State.endRead (s : State) (flag : Bool) : State :=
  if s.port.unacknowledged flag then s else s.releaseRecord

/-! ### Group frames -/

/-- The group frame taken at a STOP: exactly three bytes, not overlong, a valid check byte, a group command code; its
code and mask (R172). -/
def Port.groupFrame (p : Port) : Option (Byte × Byte) :=
  match p.groupOverlong, p.groupBytes with
  | false, [code, mask, check] =>
    if check = checkValue [code, mask] ∧ (code = 0x70 ∨ code = 0x71) then some (code, mask) else none
  | _, _ => none

/-- The group receiver at the STOP: a taken frame acts on the lanes it selects (R172, R173). -/
def State.closeGroup (s : State) : State :=
  match s.port.groupFrame with
  | some (code, mask) => if code = 0x70 then s.groupStart mask else s.groupHalt mask
  | none => s

/-! ### START and STOP -/

/-- No condition and no clock can be made while the part holds SCK low (R159). The hold begins after the ninth clock
of the read address (R169). -/
def State.holdsClock (s : State) (flag : Bool) : Bool := s.sckHeld && !s.port.unacknowledged flag

/-- The phase ended by a repeated START (R166, R171, R172). -/
def State.endPhaseByStart (s : State) (flag : Bool) : State :=
  match s.port.phase with
  | .write => (s.settleByte flag).deliverFrame
  | .read => s.endRead flag
  | _ => s

/-- The phase ended by a STOP (R167, R171, R172). -/
def State.endPhaseByStop (s : State) (flag : Bool) : State :=
  match s.port.phase with
  | .write => (s.settleByte flag).deliverFrame
  | .read => s.endRead flag
  | .group => (s.settleByte flag).closeGroup
  | _ => s

/-- START at a byte boundary, or before the ninth clock of the byte taken last: the phase ends and an address byte
begins (R157, R160). -/
def State.takeStart (s : State) (flag : Bool) : State :=
  (s.endPhaseByStart flag).modPort fun p => { p.clear with phase := .address, isOpen := true, bitCount := 0 }

/-- STOP: the phase ends, a frame still in the transaction is left, the transaction closes (R160, R167). -/
def State.takeStop (s : State) (flag : Bool) : State :=
  (s.endPhaseByStop flag).leaveFrame.modPort fun p =>
    { p.clear with phase := .watching, isOpen := false, bitCount := 0 }

/-- START (R157). -/
def execStart (unacknowledged : Bool) (s : State) : Outcome :=
  if s.resetnLow then .next s
  else if s.holdsClock unacknowledged then .fault .clockHeld
  else .next (s.takeStart unacknowledged)

/-- STOP (R167). -/
def execStop (unacknowledged : Bool) (s : State) : Outcome :=
  if s.resetnLow then .next s
  else if s.holdsClock unacknowledged then .fault .clockHeld
  else .next (s.takeStop unacknowledged)

/-- BUS_ERROR: the byte is discarded and the transaction abandoned; a START then opens a new one (R159). -/
def execBusError (condition : Condition) (bits : Nat) (s : State) : Outcome :=
  if bits = 0 ∨ 7 < bits then .fault .notABusError
  else if s.resetnLow then .next s
  else if s.sckHeld then .fault .clockHeld
  else .next (s.leaveFrame.modPort fun p =>
    match condition with
    | .start => { p.clear with phase := .address, isOpen := true, bitCount := 0 }
    | .stop => { p.clear with phase := .watching, isOpen := false, bitCount := 0 })

/-! ### Addresses (R161 to R164) -/

/-- The 7-bit address of an address byte. -/
def addressOf (b : Byte) : Nat := b.toNat / 2

/-- The direction bit: read when set (R161). -/
def isRead (b : Byte) : Bool := b.toNat % 2 = 1

/-- The device address, 0x68 plus the strap value (R161). -/
def Port.device (p : Port) : Nat := 0x68 + p.strap.val

/-- The group address (R161). -/
def groupAddress : Nat := 0x0E

/-- An address byte refused: SDA released, phase PASSED. -/
def Port.pass (p : Port) : Port := { p.clear with phase := .passed, bitCount := 8 }

/-- An address byte acknowledged, with the phase it opens and the record it sends. -/
def Port.accept (p : Port) (phase : Phase) (record : Option (List Byte)) : Port :=
  { p.clear with phase, record, bitCount := 8, ack := true }

/-- The judgement of the device address (Table of R162). -/
def State.judgeDevice (s : State) (read : Bool) : State :=
  if s.partState = .starting then s.modPort Port.pass
  else match read, s.engine with
    | false, .idle => s.modPort fun p => p.accept .write none
    | false, _ => s.modPort Port.pass
    | true, .idle => s.modPort fun p => p.accept .read (some (Result.bytes { status := .ok, body := s.summaryBody }))
    | true, .holding r =>
      if s.port.frameInTx then s.modPort fun p => p.accept .read (some r.bytes) else s.modPort Port.pass
    | true, .executing _ _ =>
      if s.port.frameInTx then s.modPort fun p => p.accept .read none else s.modPort Port.pass

/-- The judgement of the group address (R163). -/
def State.judgeGroup (s : State) (read : Bool) : State :=
  if read = false ∧ s.groupEnable = true ∧ s.partState = .operating then s.modPort fun p => p.accept .group none
  else s.modPort Port.pass

/-- The eighth bit of an address byte: a frame of this transaction is settled unless this is the device's read
address, then the address is judged (R162 to R164). -/
def State.takeAddress (s : State) (b : Byte) : State :=
  if addressOf b = s.port.device then
    if isRead b then s.judgeDevice true else s.leaveFrame.judgeDevice false
  else if addressOf b = groupAddress then s.leaveFrame.judgeGroup (isRead b)
  else s.leaveFrame.modPort Port.pass

/-- A phase in which the part ignores the bits on the bus (R160). -/
def Phase.ignores : Phase → Bool
  | .watching => true
  | .passed => true
  | _ => false

/-- ADDRESS_BYTE (R162). -/
def execAddressByte (b : Byte) (s : State) : Outcome :=
  if s.resetnLow ∨ s.port.phase.ignores then .next s
  else if s.port.phase = .address then .next (s.takeAddress b)
  else .fault .otherPhase

/-! ### Bytes of a phase -/

/-- A byte of a write phase: taken and acknowledged while fewer than 40 are held, else refused with the overlong
mark (R165). -/
def Port.takeWriteByte (p : Port) (b : Byte) : Port :=
  if p.frameBytes.length < Config.frameLimit then
    { p with frameBytes := p.frameBytes ++ [b], bitCount := 8, ack := true }
  else { p with overlong := true, bitCount := 8, ack := false }

/-- WRITE_PHASE_BYTE (R165). -/
def execWritePhaseByte (b : Byte) (s : State) : Outcome :=
  if s.resetnLow ∨ s.port.phase.ignores then .next s
  else if s.port.phase = .write then .next (s.modPort fun p => p.takeWriteByte b)
  else .fault .otherPhase

/-- A byte of a group frame: taken and acknowledged while fewer than 3 are held (R172). -/
def Port.takeGroupByte (p : Port) (b : Byte) : Port :=
  if p.groupBytes.length < 3 then { p with groupBytes := p.groupBytes ++ [b], bitCount := 8, ack := true }
  else { p with groupOverlong := true, bitCount := 8, ack := false }

/-- GROUP_PHASE_BYTE (R172). -/
def execGroupPhaseByte (b : Byte) (s : State) : Outcome :=
  if s.resetnLow ∨ s.port.phase.ignores then .next s
  else if s.port.phase = .group then .next (s.modPort fun p => p.takeGroupByte b)
  else .fault .otherPhase

/-- READ_BYTE_ACKNOWLEDGE: the part goes on to the next byte (R171). In the ninth clock of a byte it sends it releases
SDA (R158). -/
def execReadByteAcknowledge (s : State) : Outcome :=
  if s.resetnLow ∨ s.port.phase.ignores then .next s
  else if s.port.phase = .read then
    if s.sckHeld then .fault .clockHeld
    else .next (s.modPort fun p => { p with nextByte := p.nextByte + 1, bitCount := 0, ack := false })
  else .fault .otherPhase

/-- READ_PHASE_END: NACK takes the port to PASSED, a STOP to WATCHING, a repeated START to ADDRESS; the result of a
frame is released (R171). -/
def execReadPhaseEnd (how : ReadEnd) (s : State) : Outcome :=
  if s.resetnLow then .next s
  else if s.port.phase = .read then
    if s.sckHeld then .fault .clockHeld
    else match how with
      | .nack => .next (s.releaseRecord.modPort fun p => { p.clear with phase := .passed, bitCount := 0 })
      | .stop => .next (s.takeStop false)
      | .repeatedStart => .next (s.takeStart false)
  else .fault .otherPhase

end Sys2Proof.Machine
end

