-- ==== Sys2Proof/Machine/ClaimCommands.lean ====
section
/-! DEFINITION. CLAIM, RELEASE, RENEW and LIST CLAIMS (R27 to R32). -/

namespace Sys2Proof.Machine

/-- The holder a CLAIM names: the sender, or a lane (R27). -/
def holderOf (c : Ctl) (b : Byte) : Option Party :=
  if b = 0 then some (.ctl c) else (laneOf (b - 1)).map .lane

/-- A claim kind byte (R27). -/
def claimKindOf (b : Byte) : Option ClaimKind := (flagOf b).map fun sole => if sole then .sole else .shared

/-- A lease of 0 is no lease field (R29, R31). -/
def leaseOf (lease : Half) : Option Nat := if lease = 0 then none else some lease.toNat

/-- The claim a CLAIM requests; none when a parameter is out of range (R27). -/
def newClaim (c : Ctl) (holder kind : Byte) (first count lease : Half) : Option Claim :=
  match holderOf c holder, claimKindOf kind, rowOf first with
  | some h, some k, some r =>
    if count.toNat = 0 ∨ 512 < first.toNat + count.toNat ∨ 6000 < lease.toNat ∨ (holder ≠ 0 ∧ lease ≠ 0) then none
    else some { holder := h, kind := k, first := r, count := count.toNat, lease := leaseOf lease }
  | _, _, _ => none

/-- The holder is a lane in OFF (R28 step 1). -/
def State.holderOff (s : State) : Party → Bool
  | .lane n => (s.lane n).state = .off
  | .ctl _ => false

/-- The effect of CLAIM: parameters, the lane's state, conflicts, a free slot, then the grant (R27 to R29). -/
def claimCommand (c : Ctl) (holder kind : Byte) (first count lease : Half) (s : State) : Reply :=
  match newClaim c holder kind first count lease with
  | none => refuse s .badParameter
  | some new =>
    if s.holderOff new.holder then refuse s .wrongState
    else match s.conflictingClaim new, s.freeClaim with
      | some i, _ => { state := s, status := .conflict, body := [byteOf i.val] }
      | none, none => refuse s .tableFull
      | none, some i => answer (s.setClaim i (some new)).raise [byteOf i.val]

/-- CLAIM (R27). -/
def execClaim (c : Ctl) (tag holder kind : Byte) (first count lease : Half) (s : State) : Outcome :=
  s.runOccasion (.claim c tag holder kind first count lease)
    (inSession c tag (claimCommand c holder kind first count lease))

/-- The effect of RELEASE (R30). -/
def releaseCommand (c : Ctl) (id : Byte) (s : State) : Reply :=
  match claimIdOf id with
  | none => refuse s .badParameter
  | some i =>
    match s.claim i with
    | none => refuse s .notFound
    | some k =>
      match k.holder with
      | .lane _ => done (s.setClaim i none).raise
      | .ctl h => if h = c then done (s.setClaim i none).raise else refuse s .notHolder

/-- RELEASE (R30). -/
def execRelease (c : Ctl) (tag id : Byte) (s : State) : Outcome :=
  s.runOccasion (.release c tag id) (inSession c tag (releaseCommand c id))

/-- The effect of RENEW (R31). -/
def renewCommand (c : Ctl) (id : Byte) (lease : Half) (s : State) : Reply :=
  match claimIdOf id with
  | none => refuse s .badParameter
  | some i =>
    if 6000 < lease.toNat then refuse s .badParameter
    else match s.claim i with
      | none => refuse s .notFound
      | some k =>
        match k.holder with
        | .lane _ => refuse s .badParameter
        | .ctl h =>
          if h = c then done (s.setClaim i (some { k with lease := leaseOf lease })) else refuse s .notHolder

/-- RENEW (R31). -/
def execRenew (c : Ctl) (tag id : Byte) (lease : Half) (s : State) : Outcome :=
  s.runFrame (.renew c tag id lease) (inSession c tag (renewCommand c id lease))

/-- The effect of LIST CLAIMS (R32). -/
def listClaimsCommand (startId maximum : Byte) (s : State) : Reply :=
  if 23 < startId.toNat ∨ maximum.toNat = 0 ∨ 4 < maximum.toNat then refuse s .badParameter
  else answer s (s.claimsBody startId.toNat maximum.toNat)

/-- LIST CLAIMS (R32). -/
def execListClaims (c : Ctl) (tag startId maximum : Byte) (s : State) : Outcome :=
  s.runFrame (.listClaims c tag startId maximum) (inSession c tag (listClaimsCommand startId maximum))

end Sys2Proof.Machine
end

