-- ==== Sys2Proof/Machine/EventCommands.lean ====
section
/-! DEFINITION. TAKE EVENTS, PEEK EVENTS and SET ATTENTION (R127 to R130). -/

namespace Sys2Proof.Machine

/-- The effect of TAKE EVENTS: the oldest records removed and returned (R127). -/
def takeEventsCommand (maximum : Byte) (s : State) : Reply :=
  if maximum.toNat = 0 ∨ 4 < maximum.toNat then refuse s .badParameter
  else
    let left := s.events.drop maximum.toNat
    answer { s with events := left } (eventsBody (s.events.take maximum.toNat) left.length)

/-- TAKE EVENTS (R127). -/
def execTakeEvents (c : Ctl) (tag maximum : Byte) (s : State) : Outcome :=
  s.runFrame (.takeEvents c tag maximum) (inSession c tag (takeEventsCommand maximum))

/-- The effect of PEEK EVENTS (R128). -/
def peekEventsCommand (maximum : Byte) (s : State) : Reply :=
  if maximum.toNat = 0 ∨ 4 < maximum.toNat then refuse s .badParameter
  else answer s (eventsBody (s.events.take maximum.toNat) s.events.length)

/-- PEEK EVENTS (R128). -/
def execPeekEvents (c : Ctl) (tag maximum : Byte) (s : State) : Outcome :=
  s.runFrame (.peekEvents c tag maximum) (inSession c tag (peekEventsCommand maximum))

/-- The EVENTS LOST bit of a mask (R130). -/
def eventsLostBit : Half := 0x0800

/-- The effect of SET ATTENTION: bits 0 and 12 to 15 name no kind; EVENTS LOST is always added (R130). -/
def setAttentionCommand (mask : Half) (s : State) : Reply :=
  if mask &&& ~~~allKinds ≠ 0 then refuse s .badParameter
  else answer { s with mask := mask ||| eventsLostBit } (halfBytes (mask ||| eventsLostBit))

/-- SET ATTENTION (R130). -/
def execSetAttention (c : Ctl) (tag : Byte) (mask : Half) (s : State) : Outcome :=
  s.runFrame (.setAttention c tag mask) (inSession c tag (setAttentionCommand mask))

end Sys2Proof.Machine
end

