-- ==== Sys2Proof/Machine/LaneCommands.lean ====
section
/-! DEFINITION. The lane commands LANE SETUP, START, STOP, RESUME, RESET and STATUS (Chapter 4). -/

namespace Sys2Proof.Machine

/-- The setup that LANE SETUP's bytes name; none when one is out of range (R72). -/
def setupOf (direction fill policy mode wait : Byte) : Option LaneSetup :=
  match flagOf direction, flagOf policy, flagOf mode with
  | some d, some p, some m =>
    some { direction := if d then .into else .out, fill, policy := if p then .halt else .skip,
           mode := if m then .cycle else .once, waitLimit := wait.toNat }
  | _, _, _ => none

/-- The effect of LANE SETUP: the setup written, a lane in OFF becomes IDLE (R72). -/
def laneSetupCommand (lane direction fill policy mode wait : Byte) (s : State) : Reply :=
  match laneOf lane, setupOf direction fill policy mode wait with
  | some n, some setup =>
    if (s.lane n).state = .off ∨ (s.lane n).state = .idle then
      done (s.modLane n fun l => { l with setup, state := .idle })
    else refuse s .wrongState
  | _, _ => refuse s .badParameter

/-- LANE SETUP (R72). -/
def execLaneSetup (c : Ctl) (tag lane direction fill policy mode wait : Byte) (s : State) : Outcome :=
  s.runFrame (.laneSetup c tag lane direction fill policy mode wait)
    (inSession c tag (laneSetupCommand lane direction fill policy mode wait))

/-- A start mode byte: 0 NOW, 1 ARMED (R86). -/
def startModeOf (b : Byte) : Option StartMode := (flagOf b).map fun armed => if armed then .armed else .now

/-- The effect of LANE START by the lane's state (Table of R86). -/
def laneStartCommand (lane mode : Byte) (s : State) : Reply :=
  match laneOf lane, startModeOf mode with
  | some n, some m =>
    match (s.lane n).state, m with
    | .idle, m => if (s.lane n).list.entries = [] then refuse s .wrongState else done (s.startLane n m)
    | .armed, .now => done (s.modLane n Lane.release)
    | _, _ => refuse s .wrongState
  | _, _ => refuse s .badParameter

/-- LANE START (R86). -/
def execLaneStart (c : Ctl) (tag lane mode : Byte) (s : State) : Outcome :=
  s.runOccasion (.laneStart c tag lane mode) (inSession c tag (laneStartCommand lane mode))

/-- The effect of LANE STOP: mode 0 BOUNDARY, 1 IMMEDIATE (R89). -/
def laneStopCommand (lane mode : Byte) (s : State) : Reply :=
  match laneOf lane, flagOf mode with
  | some n, some immediate =>
    if (s.lane n).state = .off then refuse s .wrongState
    else if immediate then done (s.haltIfStreaming n)
    else done (s.stopAtBoundary n)
  | _, _ => refuse s .badParameter

/-- LANE STOP (R89). -/
def execLaneStop (c : Ctl) (tag lane mode : Byte) (s : State) : Outcome :=
  s.runFrame (.laneStop c tag lane mode) (inSession c tag (laneStopCommand lane mode))

/-- The effect of LANE RESUME: the deferred part of the boundary (R85). -/
def laneResumeCommand (lane : Byte) (s : State) : Reply :=
  match laneOf lane with
  | some n =>
    if (s.lane n).state = .paused then
      match (s.lane n).setup.direction with
      | .out => done (s.continueOut n)
      | .into => done (s.continueIn n)
    else refuse s .wrongState
  | none => refuse s .badParameter

/-- LANE RESUME (R85). -/
def execLaneResume (c : Ctl) (tag lane : Byte) (s : State) : Outcome :=
  s.runOccasion (.laneResume c tag lane) (inSession c tag (laneResumeCommand lane))

/-- The effect of LANE RESET: a lane in OFF is left as it is (R92). -/
def laneResetCommand (lane : Byte) (s : State) : Reply :=
  match laneOf lane with
  | some n => if (s.lane n).state = .off then done s else done (s.resetLane n)
  | none => refuse s .badParameter

/-- LANE RESET (R92). -/
def execLaneReset (c : Ctl) (tag lane : Byte) (s : State) : Outcome :=
  s.runOccasion (.laneReset c tag lane) (inSession c tag (laneResetCommand lane))

/-- The effect of LANE STATUS (R96). -/
def laneStatusCommand (lane : Byte) (s : State) : Reply :=
  match laneOf lane with
  | some n => answer s (s.lane n).statusBody
  | none => refuse s .badParameter

/-- LANE STATUS (R96). -/
def execLaneStatus (c : Ctl) (tag lane : Byte) (s : State) : Outcome :=
  s.runFrame (.laneStatus c tag lane) (inSession c tag (laneStatusCommand lane))

end Sys2Proof.Machine
end

