-- ==== Sys2Proof/Machine/ListCommands.lean ====
section
/-! DEFINITION. The list commands LIST APPEND, TRIM, CLEAR and READ (R111 to R116). -/

namespace Sys2Proof.Machine

/-- The entries of LIST APPEND, all of them in range (R111). -/
def entriesOf (raw : List RawEntry) : Option (List Entry) := raw.mapM entryOf

/-- The list with entries appended at its end (R111). -/
def Lane.appendEntries (new : List Entry) (l : Lane) : Lane :=
  { l with list := { l.list with entries := l.list.entries ++ new } }

/-- The effect of LIST APPEND (R111). The number of entries is 1 to 4 in every frame that reads as this command. -/
def listAppendCommand (lane : Byte) (raw : List RawEntry) (s : State) : Reply :=
  match laneOf lane, entriesOf raw with
  | some n, some new =>
    let held := (s.lane n).list.entries.length
    if (s.lane n).state = .off then refuse s .wrongState
    else if Config.listPlaces < held + new.length then refuse s .listFull
    else answer (s.modLane n (Lane.appendEntries new)) [byteOf held, byteOf (held + new.length)]
  | _, _ => refuse s .badParameter

/-- LIST APPEND (R111). -/
def execListAppend (c : Ctl) (tag lane : Byte) (entries : List RawEntry) (s : State) : Outcome :=
  s.runFrame (.listAppend c tag lane entries) (inSession c tag (listAppendCommand lane entries))

/-- The effect of LIST TRIM (R113, R114). -/
def listTrimCommand (lane maximum : Byte) (s : State) : Reply :=
  match laneOf lane with
  | none => refuse s .badParameter
  | some n =>
    let l := s.lane n
    if maximum.toNat = 0 ∨ 16 < maximum.toNat then refuse s .badParameter
    else if l.state = .off ∨ (l.setup.mode = .cycle ∧ l.state ≠ .idle) then refuse s .wrongState
    else answer (s.setLane n (l.trim (min maximum.toNat l.openEntries)))
      [byteOf (min maximum.toNat l.openEntries)]

/-- LIST TRIM (R113). -/
def execListTrim (c : Ctl) (tag lane maximum : Byte) (s : State) : Outcome :=
  s.runFrame (.listTrim c tag lane maximum) (inSession c tag (listTrimCommand lane maximum))

/-- The effect of LIST CLEAR (R115). -/
def listClearCommand (lane : Byte) (s : State) : Reply :=
  match laneOf lane with
  | none => refuse s .badParameter
  | some n =>
    if (s.lane n).state = .idle then done (s.modLane n fun l => { l with list := .empty })
    else refuse s .wrongState

/-- LIST CLEAR (R115). -/
def execListClear (c : Ctl) (tag lane : Byte) (s : State) : Outcome :=
  s.runFrame (.listClear c tag lane) (inSession c tag (listClearCommand lane))

/-- The effect of LIST READ (R116). -/
def listReadCommand (lane start maximum : Byte) (s : State) : Reply :=
  match laneOf lane with
  | none => refuse s .badParameter
  | some n =>
    if 15 < start.toNat ∨ maximum.toNat = 0 ∨ 4 < maximum.toNat then refuse s .badParameter
    else answer s (listBody (s.lane n).setup.mode (s.lane n).list start.toNat maximum.toNat)

/-- LIST READ (R116). -/
def execListRead (c : Ctl) (tag lane start maximum : Byte) (s : State) : Outcome :=
  s.runFrame (.listRead c tag lane start maximum) (inSession c tag (listReadCommand lane start maximum))

end Sys2Proof.Machine
end

