-- ==== Sys2Proof/Machine/SessionCommands.lean ====
section
/-! DEFINITION. Sessions, port buffers, IDENTIFY, GROUP ENABLE and RESET PART (Chapter 7), and ROW INFO (R18). -/

namespace Sys2Proof.Machine

/-- IDENTIFY is sessionless and always OK (R149). -/
def execIdentify (c : Ctl) (tag : Byte) (s : State) : Outcome :=
  s.runFrame (.identify c tag) fun s => answer s (identifyBody s.port.strap)

/-- The body of an OK result of SIGN ON or SIGN OFF (R141, R177). -/
def SessionCounts.body (k : SessionCounts) : List Byte := [byteOf k.claims, byteOf k.withdrawn, byteOf k.orphaned]

/-- SESSION ENDED at a takeover (R144). -/
def sessionEnded (c : Ctl) : Post := { kind := .sessionEnded, source := .party (.ctl c), cause := some .takeover }

/-- The takeover (R143). -/
def State.takeover (s : State) (c : Ctl) (tag : Byte) : State :=
  ((((s.endSession c .takeover).post (sessionEnded c)).setSession c (some tag)).setBuffer c []).raise

/-- The effect of SIGN ON by the state of the record (R141 to R143). -/
def signOnCommand (c : Ctl) (tag takeover : Byte) (s : State) : Reply :=
  if tag = 0 then refuse s .badParameter
  else match flagOf takeover, s.session c with
    | none, _ => refuse s .badParameter
    | some _, none => answer ((s.setSession c (some tag)).setBuffer c []).raise [0, 0, 0]
    | some false, some _ => refuse s .sessionHeld
    | some true, some _ => answer (s.takeover c tag) (s.sessionCounts c).body

/-- SIGN ON is sessionless (R141). -/
def execSignOn (c : Ctl) (tag takeover : Byte) (s : State) : Outcome :=
  s.runOccasion (.signOn c tag takeover) (signOnCommand c tag takeover)

/-- The effect of SIGN OFF (R145). -/
def State.signOff (s : State) (c : Ctl) : State :=
  (((s.endSession c .signOff).setBuffer c []).setSession c none).raise

/-- SIGN OFF (R145). -/
def execSignOff (c : Ctl) (tag : Byte) (s : State) : Outcome :=
  s.runOccasion (.signOff c tag) (inSession c tag fun s => answer (s.signOff c) (s.sessionCounts c).body)

/-- The steps of RESET PART in their order (R152): cancellation at the array, claims, lanes, transfer queue and
arbiter, sessions, group enable, events, and the session change. -/
def State.resetPart (s : State) : State :=
  let cancelled := s.cancelAll
  ({ cancelled with
      claims := .replicate 24 none
      lanes := cancelled.lanes.map Lane.reset
      queue := []
      nextTicket := 1
      orphan := none
      log := []
      streak := 0
      lastLane := 3
      sessions := .replicate 8 none
      buffers := .replicate 8 []
      groupEnable := false }.resetEvents .soft).raise

/-- RESET PART (R152). -/
def execResetPart (c : Ctl) (tag : Byte) (s : State) : Outcome :=
  s.runOccasion (.resetPart c tag) (inSession c tag fun s => done s.resetPart)

/-- The effect of GROUP ENABLE (R150). -/
def groupEnableCommand (flag : Byte) (s : State) : Reply :=
  match flagOf flag with
  | some on => done { s with groupEnable := on }
  | none => refuse s .badParameter

/-- GROUP ENABLE (R150). -/
def execGroupEnable (c : Ctl) (tag flag : Byte) (s : State) : Outcome :=
  s.runFrame (.groupEnable c tag flag) (inSession c tag (groupEnableCommand flag))

/-- The effect of PUT BUFFER: cells from the offset on, not wrapping (R147). The number of data bytes is 1 to 32 in
every frame that reads as this command (admission step 4). -/
def putBufferCommand (c : Ctl) (offset : Byte) (data : List Byte) (s : State) : Reply :=
  if 127 < offset.toNat ∨ 128 < offset.toNat + data.length then refuse s .badParameter
  else done (s.setBuffer c (Memory.writeAll (s.buffer c) offset.toNat (data.zipIdx.map fun (b, i) => (i, b))))

/-- PUT BUFFER (R147). -/
def execPutBuffer (c : Ctl) (tag offset : Byte) (data : List Byte) (s : State) : Outcome :=
  s.runFrame (.putBuffer c tag offset data) (inSession c tag (putBufferCommand c offset data))

/-- The effect of GET BUFFER (R148). -/
def getBufferCommand (c : Ctl) (offset length : Byte) (s : State) : Reply :=
  if 127 < offset.toNat ∨ length.toNat = 0 ∨ 32 < length.toNat ∨ 128 < offset.toNat + length.toNat then
    refuse s .badParameter
  else answer s ((List.range length.toNat).map fun i => Memory.read (s.buffer c) (offset.toNat + i))

/-- GET BUFFER (R148). -/
def execGetBuffer (c : Ctl) (tag offset length : Byte) (s : State) : Outcome :=
  s.runFrame (.getBuffer c tag offset length) (inSession c tag (getBufferCommand c offset length))

/-- The effect of ROW INFO (R18). -/
def rowInfoCommand (first : Half) (count : Byte) (s : State) : Reply :=
  if 511 < first.toNat ∨ count.toNat = 0 ∨ 8 < count.toNat ∨ 512 < first.toNat + count.toNat then
    refuse s .badParameter
  else answer s (s.rowInfoBody first.toNat count.toNat)

/-- ROW INFO (R18). -/
def execRowInfo (c : Ctl) (tag : Byte) (first : Half) (count : Byte) (s : State) : Outcome :=
  s.runFrame (.rowInfo c tag first count) (inSession c tag (rowInfoCommand first count))

end Sys2Proof.Machine
end

