-- ==== Sys2Proof/Machine/Time.lean ====
section
/-! DEFINITION. Reset, the start-up sweep, the ticks and what falls due at them (R12, R15 to R17, R33, R34, R45, R46). -/

namespace Sys2Proof.Machine

/-- HARD_RESET: the operation in flight ends, the part is STARTING with RESETn low, every block at its hard-reset
values (R3, R16, R19, R40, R64, R97, R132, R156, R175). What Table 1-2 calls not defined becomes a free value. -/
def execHardReset (s : State) : Outcome :=
  .next { State.reset with
    hardResets := s.hardResets + 1
    clock := Config.clockInReset (s.hardResets + 1)
    refreshPointer := Config.pointerInReset (s.hardResets + 1)
    refreshDebt := (Config.debtInReset (s.hardResets + 1)).val
    cells := s.cells
    records := s.records
    lanes := s.lanes.map Lane.reset
    port := Port.fresh s.port.strap
    pending := s.pending }

/-- RESETN_RISE: the tick chain starts with the millisecond counter at 0 and every tick at the start of its phase, the
straps are sampled, the sweep begins at row 0 and the port at WATCHING (R15, R17, R161, R175). -/
def execResetnRise (straps : Fin 8) (s : State) : Outcome :=
  if s.resetnLow then
    .next { s with resetnLow := false, clock := 0, tickPhase := 0, leaseTick := .settled, partState := .starting,
                   swept := 0, port := Port.fresh straps }
  else .fault .resetnNotLow

/-- One row swept: 0 into its 128 cells, generation 0, last writer SWEEP (R17). -/
def State.sweepRow (s : State) (r : RowId) : State :=
  { (s.writeRow r (Span.whole.cells.map fun k => (k, 0))).setRecord r sweptRecord with swept := s.swept + 1 }

/-- The end of the sweep: pointer and debt 0, OPERATING, the Event Queue reset with PART RESET, cause HARD (R17,
R132). -/
def State.endSweep (s : State) : State :=
  ({ s with refreshPointer := 0, refreshDebt := 0, partState := .operating }).resetEvents .hard

/-- SWEEP_OPERATION_COMPLETION (R17). -/
def execSweepOperationCompletion (s : State) : Outcome :=
  if s.partState = .starting ∧ s.resetnLow = false then
    if h : s.swept < 512 then
      let swept := s.sweepRow ⟨s.swept, h⟩
      .next (if s.swept = 511 then swept.endSweep else swept)
    else .fault .noSweepOperation
  else .fault .noSweepOperation

/-- REFRESH_TICK: one more tick of debt, at most 4, while OPERATING, and an occasion for a selection (R12). -/
def execRefreshTick (s : State) : Outcome :=
  if s.resetnLow then .fault .tickChainStopped
  else if s.partState = .operating then
    .next { s with refreshDebt := min (s.refreshDebt + 1) Config.urgentDebt, occasion := true }.arbitrate
  else .next s

/-- The lease tick after a 1 ms tick: the tenth brings one, unless it has been taken already (R15, log entry 17). -/
def LeaseTick.afterTick (phase : Fin 10) (l : LeaseTick) : LeaseTick :=
  if phase = 9 then (if l = .early then .settled else .due) else l

/-- The tick chain one 1 ms tick on: the counter, and the phase of the lease tick (R15). -/
def State.countTick (s : State) : State :=
  { s with clock := s.clock + 1, tickPhase := s.tickPhase + 1, leaseTick := s.leaseTick.afterTick s.tickPhase }

/-- MILLISECOND_TICK: the counter, then every blocked time, then the refusals that fall due, all one event (R15, R45).
A new request of a lane is an occasion (R46). -/
def execMillisecondTick (s : State) : Outcome :=
  if s.resetnLow then .fault .tickChainStopped
  else if s.leaseTick = .due then .fault .leaseTickDue
  else .next s.countTick.tickBlocked.refuseDue.arbitrate

/-- REQUEST_REFUSAL: the refusal of one request that is BLOCKED with its blocked time at its wait limit (R46). A
request that is not is not refused: the tick that brings it there has refused it already (log entry 4). -/
def execRequestRefusal (who : RefusalTarget) (s : State) : Outcome :=
  match who with
  | .slot n => .next (if s.slotLimitReached n then (s.refuseSlot n).arbitrate else s)
  | .ticket t =>
    match s.request t with
    | some q => .next (if limitReached q.waitLimit q.state then (s.refuseRequest q).arbitrate else s)
    | none => .next s

/-- Claims whose lease remaining is 0. -/
def Claim.expired (c : Claim) : Bool := c.lease = some 0

/-- Every lease one lower (R33). -/
def State.countLeases (s : State) : State := { s with claims := s.claims.map (Option.map Claim.countDown) }

/-- The expiry of the claims whose lease remaining has reached 0 (R34). -/
def State.expireClaims (s : State) : State := s.endClaims Claim.expired .expired

/-- The lease tick taken: the one that is due, or at the tenth 1 ms tick the one that tick would bring (R15, R45). -/
def LeaseTick.take (phase : Fin 10) : LeaseTick → Option LeaseTick
  | .due => some .settled
  | .settled => if phase = 9 then some .early else none
  | .early => none

/-- LEASE_TICK, which falls with every tenth 1 ms tick (R15, log entry 17): one event at the Claim Table, which counts
every lease down and removes the claims that reach 0 (R33, R34). -/
def execLeaseTick (s : State) : Outcome :=
  if s.resetnLow then .fault .tickChainStopped
  else match s.leaseTick.take s.tickPhase with
    | some l => .next ({ s with leaseTick := l }).countLeases.expireClaims.arbitrate
    | none => .fault .noLeaseTick

/-- CLAIM_EXPIRY: the claims at lease remaining 0 are removed. The tick that brings a claim there has removed it
already (R33, R34, log entry 4). -/
def execClaimExpiry (s : State) : Outcome := .next s.expireClaims.arbitrate

/-- The block with no command waiting: it idles, but for a selection the arbiter still owes (log entry 5). -/
def idle (s : State) : Outcome := .next s.arbitrate

end Sys2Proof.Machine
end

