-- ==== Sys2Proof/Machine/TransferCommands.lean ====
section
/-! DEFINITION. The transfer commands LOAD, STORE, CSTORE, FILL and COPY, and CANCEL and QUERY TICKET (R47 to R50). -/

namespace Sys2Proof.Machine

/-- The queue has no place for one more request of a controller number: 12 in all, or 3 of its own (R48). -/
def State.queueFull (s : State) (c : Ctl) : Bool :=
  Config.queuePlaces ≤ s.queue.length || Config.queueShare ≤ (s.queue.filter fun q => q.ctl = c).length

/-- The ticket the next admission gives (R43). -/
def State.ticket (s : State) : Half := freshTicket s.queue s.queue.length s.nextTicket

/-- The admission of a request to the tail of the queue, WAITING; a request arrival (R48). -/
def State.admitRequest (s : State) (c : Ctl) (w : Work) (notify : Bool) (wait : Nat) : State :=
  let q : QueueRequest :=
    { ticket := s.ticket, ctl := c, work := w, notify := notify, waitLimit := wait, state := .waiting }
  { s with queue := s.queue ++ [q], nextTicket := ticketAfter s.ticket, occasion := true }

/-- A transfer command after admission: parameters in range, then a place in the queue, then ACCEPTED with the ticket
(R47, R48). -/
def transferCommand (c : Ctl) (w : Option Work) (notify wait : Byte) (s : State) : Reply :=
  match w, flagOf notify with
  | some w, some notify =>
    if s.queueFull c then refuse s .queueFull
    else { state := s.admitRequest c w notify wait.toNat, status := .accepted, body := halfBytes s.ticket }
  | _, _ => refuse s .badParameter

/-- LOAD's request (R47). -/
def loadWork (row : Half) : Option Work := (rowOf row).map .load

/-- STORE's request (R47). -/
def storeWork (row : Half) (tap span : Byte) : Option Work := do
  let r ← rowOf row
  let sp ← spanOf tap span
  return .store r sp

/-- CSTORE's request (R47). -/
def cstoreWork (row : Half) (tap span : Byte) (expected : Half) : Option Work := do
  let r ← rowOf row
  let sp ← spanOf tap span
  return .cstore r sp expected

/-- FILL's request (R47). -/
def fillWork (row : Half) (tap span value : Byte) : Option Work := do
  let r ← rowOf row
  let sp ← spanOf tap span
  return .fill r sp value

/-- COPY's request (R47). -/
def copyWork (source destination : Half) (tap span : Byte) : Option Work := do
  let a ← rowOf source
  let b ← rowOf destination
  let sp ← spanOf tap span
  return .copy a b sp

/-- LOAD (R47). -/
def execLoad (c : Ctl) (tag : Byte) (row : Half) (notify wait : Byte) (s : State) : Outcome :=
  s.runOccasion (.load c tag row notify wait) (inSession c tag (transferCommand c (loadWork row) notify wait))

/-- STORE (R47). -/
def execStore (c : Ctl) (tag : Byte) (row : Half) (tap span notify wait : Byte) (s : State) : Outcome :=
  s.runOccasion (.store c tag row tap span notify wait)
    (inSession c tag (transferCommand c (storeWork row tap span) notify wait))

/-- CSTORE (R47). -/
def execCstore (c : Ctl) (tag : Byte) (row : Half) (tap span : Byte) (expected : Half) (notify wait : Byte)
    (s : State) : Outcome :=
  s.runOccasion (.cstore c tag row tap span expected notify wait)
    (inSession c tag (transferCommand c (cstoreWork row tap span expected) notify wait))

/-- FILL (R47). -/
def execFill (c : Ctl) (tag : Byte) (row : Half) (tap span value notify wait : Byte) (s : State) : Outcome :=
  s.runOccasion (.fill c tag row tap span value notify wait)
    (inSession c tag (transferCommand c (fillWork row tap span value) notify wait))

/-- COPY (R47). -/
def execCopy (c : Ctl) (tag : Byte) (source destination : Half) (tap span notify wait : Byte) (s : State) : Outcome :=
  s.runOccasion (.copy c tag source destination tap span notify wait)
    (inSession c tag (transferCommand c (copyWork source destination tap span) notify wait))

/-- The effect of CANCEL (R49). -/
def cancelCommand (c : Ctl) (ticket : Half) (s : State) : Reply :=
  if ticket = 0 then refuse s .badParameter
  else match s.request ticket with
    | none => refuse s .notFound
    | some q =>
      if q.ctl ≠ c then refuse s .notFound
      else if q.state.isActive then refuse s .wrongState
      else done ((s.dequeue ticket).finish q .cancelled none)

/-- CANCEL (R49). -/
def execCancel (c : Ctl) (tag : Byte) (ticket : Half) (s : State) : Outcome :=
  s.runFrame (.cancel c tag ticket) (inSession c tag (cancelCommand c ticket))

/-- The place of a ticket in the queue, 1 for the head (R50). -/
def State.place (s : State) (ticket : Half) : Nat := s.queue.findIdx (fun q => q.ticket = ticket) + 1

/-- The newest outcome record of a controller number's ticket (R50). -/
def State.outcomeOf (s : State) (c : Ctl) (ticket : Half) : Option OutcomeRecord :=
  s.log.reverse.find? fun r => r.ticket = ticket && r.ctl = c

/-- The effect of QUERY TICKET: the queue first, then the log from the newest record (R50). -/
def queryCommand (c : Ctl) (ticket : Half) (s : State) : Reply :=
  if ticket = 0 then refuse s .badParameter
  else match s.queue.find? fun q => q.ticket = ticket && q.ctl = c with
    | some q => answer s (q.layout (s.place ticket))
    | none =>
      match s.outcomeOf c ticket with
      | some r => answer s r.layout
      | none => refuse s .notFound

/-- QUERY TICKET (R50). -/
def execQueryTicket (c : Ctl) (tag : Byte) (ticket : Half) (s : State) : Outcome :=
  s.runFrame (.queryTicket c tag ticket) (inSession c tag (queryCommand c ticket))

end Sys2Proof.Machine
end

