-- ==== Sys2Proof/Machine/Dispatch.lean ====
section
/-! DEFINITION. The dispatch: each command of the table, in the table's order, is given to its meaning. -/

namespace Sys2Proof.Machine

/-- The effect of a command on everything but the queue of waiting commands. -/
def exec (i : Instr) (s : State) : Host.Outcome State Fault Refusal :=
  match i with
  | .hardReset => Sys2Proof.Machine.execHardReset s
  | .resetnRise straps => Sys2Proof.Machine.execResetnRise straps s
  | .sweepOperationCompletion => Sys2Proof.Machine.execSweepOperationCompletion s
  | .refreshTick => Sys2Proof.Machine.execRefreshTick s
  | .millisecondTick => Sys2Proof.Machine.execMillisecondTick s
  | .requestRefusal who => Sys2Proof.Machine.execRequestRefusal who s
  | .leaseTick => Sys2Proof.Machine.execLeaseTick s
  | .claimExpiry => Sys2Proof.Machine.execClaimExpiry s
  | .loadCompletion => Sys2Proof.Machine.execLoadCompletion s
  | .storeCompletion => Sys2Proof.Machine.execStoreCompletion s
  | .cstoreCompletion => Sys2Proof.Machine.execCstoreCompletion s
  | .fillCompletion => Sys2Proof.Machine.execFillCompletion s
  | .copyCompletion => Sys2Proof.Machine.execCopyCompletion s
  | .refreshCompletion => Sys2Proof.Machine.execRefreshCompletion s
  | .outLaneClockEdge n => Sys2Proof.Machine.execOutLaneClockEdge n s
  | .inLaneClockEdge n ld => Sys2Proof.Machine.execInLaneClockEdge n ld s
  | .laneClockEdgeOutsideRunning n => Sys2Proof.Machine.execLaneClockEdgeOutsideRunning n s
  | .identify c tag => Sys2Proof.Machine.execIdentify c tag s
  | .signOn c tag takeover => Sys2Proof.Machine.execSignOn c tag takeover s
  | .signOff c tag => Sys2Proof.Machine.execSignOff c tag s
  | .resetPart c tag => Sys2Proof.Machine.execResetPart c tag s
  | .groupEnable c tag flag => Sys2Proof.Machine.execGroupEnable c tag flag s
  | .putBuffer c tag offset data => Sys2Proof.Machine.execPutBuffer c tag offset data s
  | .getBuffer c tag offset length => Sys2Proof.Machine.execGetBuffer c tag offset length s
  | .rowInfo c tag first count => Sys2Proof.Machine.execRowInfo c tag first count s
  | .load c tag row notify wait => Sys2Proof.Machine.execLoad c tag row notify wait s
  | .store c tag row tap span notify wait => Sys2Proof.Machine.execStore c tag row tap span notify wait s
  | .cstore c tag row tap span expected notify wait => Sys2Proof.Machine.execCstore c tag row tap span expected notify wait s
  | .fill c tag row tap span value notify wait => Sys2Proof.Machine.execFill c tag row tap span value notify wait s
  | .copy c tag source destination tap span notify wait => Sys2Proof.Machine.execCopy c tag source destination tap span notify wait s
  | .cancel c tag ticket => Sys2Proof.Machine.execCancel c tag ticket s
  | .queryTicket c tag ticket => Sys2Proof.Machine.execQueryTicket c tag ticket s
  | .claim c tag holder kind first count lease => Sys2Proof.Machine.execClaim c tag holder kind first count lease s
  | .release c tag id => Sys2Proof.Machine.execRelease c tag id s
  | .renew c tag id lease => Sys2Proof.Machine.execRenew c tag id lease s
  | .listClaims c tag startId maximum => Sys2Proof.Machine.execListClaims c tag startId maximum s
  | .laneSetup c tag lane direction fill policy mode wait => Sys2Proof.Machine.execLaneSetup c tag lane direction fill policy mode wait s
  | .laneStart c tag lane mode => Sys2Proof.Machine.execLaneStart c tag lane mode s
  | .laneStop c tag lane mode => Sys2Proof.Machine.execLaneStop c tag lane mode s
  | .laneResume c tag lane => Sys2Proof.Machine.execLaneResume c tag lane s
  | .laneReset c tag lane => Sys2Proof.Machine.execLaneReset c tag lane s
  | .laneStatus c tag lane => Sys2Proof.Machine.execLaneStatus c tag lane s
  | .listAppend c tag lane entries => Sys2Proof.Machine.execListAppend c tag lane entries s
  | .listTrim c tag lane maximum => Sys2Proof.Machine.execListTrim c tag lane maximum s
  | .listClear c tag lane => Sys2Proof.Machine.execListClear c tag lane s
  | .listRead c tag lane start maximum => Sys2Proof.Machine.execListRead c tag lane start maximum s
  | .takeEvents c tag maximum => Sys2Proof.Machine.execTakeEvents c tag maximum s
  | .peekEvents c tag maximum => Sys2Proof.Machine.execPeekEvents c tag maximum s
  | .setAttention c tag mask => Sys2Proof.Machine.execSetAttention c tag mask s
  | .refusedFrame verdict bytes => Sys2Proof.Machine.execRefusedFrame verdict bytes s
  | .start unacknowledged => Sys2Proof.Machine.execStart unacknowledged s
  | .addressByte b => Sys2Proof.Machine.execAddressByte b s
  | .stop unacknowledged => Sys2Proof.Machine.execStop unacknowledged s
  | .readPhaseEnd how => Sys2Proof.Machine.execReadPhaseEnd how s
  | .busError condition bits => Sys2Proof.Machine.execBusError condition bits s
  | .groupStart mask => Sys2Proof.Machine.execGroupStart mask s
  | .groupHalt mask => Sys2Proof.Machine.execGroupHalt mask s
  | .writePhaseByte b => Sys2Proof.Machine.execWritePhaseByte b s
  | .groupPhaseByte b => Sys2Proof.Machine.execGroupPhaseByte b s
  | .readByteAcknowledge => Sys2Proof.Machine.execReadByteAcknowledge s

end Sys2Proof.Machine
end

