-- ==== Sys2Proof/Machine/Step.lean ====
section
/-! DEFINITION. The step: the command at the front of the queue is taken and run on the part with the queue's rest. -/

namespace Sys2Proof.Machine

/-- The part with the command that a word spells put at the front of its queue. No row of the table has bits, so no
word spells a command (log entry 2). -/
def State.withFetchWord (s : State) (nbits w : Nat) : State :=
  match decodeTableWord nbits w with
  | some c => { s with pending := c :: s.pending }
  | none => s

/-- One step: the front command on the part with the rest of the queue; with none waiting, `idle` (log entry 5). -/
def step (s : State) : Host.Outcome State Fault Refusal :=
  match s.pending with
  | [] => idle s
  | c :: rest => exec c { s with pending := rest }

end Sys2Proof.Machine
end

