-- ==== Sys2Proof/WellFormed.lean ====
section
/-! DEFINITION. Well-formed commands: the operands a row of the table can carry. A command of the engine is well-formed
when a frame can spell it (R176); a refused frame when the port can deliver it and admission steps 1 to 4 refuse it. -/

namespace Sys2Proof

/-- A frame the port can deliver with this verdict (R165, R166). -/
def deliverable (verdict : Verdict) (bytes : List Byte) : Bool :=
  bytes.length ≤ 40 &&
    (frameVerdict false bytes == some verdict || (verdict == .overlong && bytes.length == 40))

/-- The operand checks of each row. -/
def Instr.wellFormed : Instr → Bool
  | .putBuffer _ _ _ data => 1 ≤ data.length && data.length ≤ 32
  | .listAppend _ _ _ entries => 1 ≤ entries.length && entries.length ≤ 4
  | .refusedFrame verdict bytes =>
    deliverable verdict bytes && readFrame verdict bytes == .refusedFrame verdict bytes
  | .busError _ bits => 1 ≤ bits && bits ≤ 7
  | .hardReset => true
  | .resetnRise _ => true
  | .sweepOperationCompletion => true
  | .refreshTick => true
  | .millisecondTick => true
  | .requestRefusal _ => true
  | .leaseTick => true
  | .claimExpiry => true
  | .loadCompletion => true
  | .storeCompletion => true
  | .cstoreCompletion => true
  | .fillCompletion => true
  | .copyCompletion => true
  | .refreshCompletion => true
  | .outLaneClockEdge _ => true
  | .inLaneClockEdge _ _ => true
  | .laneClockEdgeOutsideRunning _ => true
  | .identify _ _ => true
  | .signOn _ _ _ => true
  | .signOff _ _ => true
  | .resetPart _ _ => true
  | .groupEnable _ _ _ => true
  | .getBuffer _ _ _ _ => true
  | .rowInfo _ _ _ _ => true
  | .load _ _ _ _ _ => true
  | .store _ _ _ _ _ _ _ => true
  | .cstore _ _ _ _ _ _ _ _ => true
  | .fill _ _ _ _ _ _ _ _ => true
  | .copy _ _ _ _ _ _ _ _ => true
  | .cancel _ _ _ => true
  | .queryTicket _ _ _ => true
  | .claim _ _ _ _ _ _ _ => true
  | .release _ _ _ => true
  | .renew _ _ _ _ => true
  | .listClaims _ _ _ _ => true
  | .laneSetup _ _ _ _ _ _ _ _ => true
  | .laneStart _ _ _ _ => true
  | .laneStop _ _ _ _ => true
  | .laneResume _ _ _ => true
  | .laneReset _ _ _ => true
  | .laneStatus _ _ _ => true
  | .listTrim _ _ _ _ => true
  | .listClear _ _ _ => true
  | .listRead _ _ _ _ _ => true
  | .takeEvents _ _ _ => true
  | .peekEvents _ _ _ => true
  | .setAttention _ _ _ => true
  | .start _ => true
  | .addressByte _ => true
  | .stop _ => true
  | .readPhaseEnd _ => true
  | .groupStart _ => true
  | .groupHalt _ => true
  | .writePhaseByte _ => true
  | .groupPhaseByte _ => true
  | .readByteAcknowledge => true

end Sys2Proof
end

