-- ==== Sys2Proof/Safety.lean ====
section
/-! DEFINITION. What claims about the part speak of: the invariants the spec states of every moment, the end of an
execution as the bus sees it, and a run of several commands. -/

namespace Sys2Proof.Machine

/-! ### Invariants -/

/-- The registers of a lane are in canonical form. -/
def Lane.memoryWf (l : Lane) : Prop := Memory.wf 128 l.active = true ∧ Memory.wf 128 l.staging = true

/-- Every memory of the part is in canonical form, and the operation in flight has copied cells of a row (R1, R68,
R135, R4). -/
structure State.MemoryWf (s : State) : Prop where
  cells : Memory.wf 65536 s.cells = true
  records : Table.wf sweptRecord 512 s.records = true
  lanes : ∀ n, (s.lane n).memoryWf
  buffers : ∀ c, Memory.wf 128 (s.buffer c) = true
  latched : ∀ x, s.array = some (.transfer x) → ∀ p ∈ x.latched, p.1 < 128

/-- At most 32 records, and a newest record that is a marker whenever there are 32 (R125). -/
def eventsBounded (es : List Event) : Prop :=
  es.length ≤ 32 ∧ (es.length = 32 → ∃ e, es.getLast? = some e ∧ e.post.kind = .eventsLost)

/-- Any two claims that overlap have different holders and are both SHARED (R21). -/
def State.ClaimsCompatible (s : State) : Prop :=
  ∀ i j a b, i ≠ j → s.claim i = some a → s.claim j = some b → a.overlaps b = true →
    a.holder ≠ b.holder ∧ a.kind = .shared ∧ b.kind = .shared

/-- A holder is present: a controller in session, a lane that is not OFF (R22). -/
def State.holderPresent (s : State) : Party → Prop
  | .lane n => (s.lane n).state ≠ .off
  | .ctl c => (s.session c).isSome = true

/-- Every claim belongs to a holder that is present (R22). -/
def State.ClaimsHeld (s : State) : Prop := ∀ i k, s.claim i = some k → s.holderPresent k.holder

/-- The controller queue: at most 12 requests, at most 3 of one controller number, each of a session that is PRESENT,
tickets distinct and not 0 (R42, R43); an ACTIVE request is the one in flight, and so is the orphaned one, neither of
them after a soft reset (R3, R4, R62, R64). -/
structure State.QueueBounded (s : State) : Prop where
  total : s.queue.length ≤ 12
  share : ∀ c, (s.queue.filter fun q => q.ctl = c).length ≤ 3
  present : ∀ q ∈ s.queue, (s.session q.ctl).isSome = true
  distinct : (s.queue.map (·.ticket)).Nodup
  issued : (∀ q ∈ s.queue, q.ticket ≠ 0) ∧ s.nextTicket ≠ 0
  active : ∀ q ∈ s.queue, q.state = .active → s.orphan ≠ some q.ticket ∧ ∃ x, s.array = some (.transfer x) ∧
    x.requester = .ctl q.ctl ∧ x.ticket = some q.ticket ∧ x.softReset = false
  orphaned : ∀ t, s.orphan = some t → ∃ x c, s.array = some (.transfer x) ∧ x.requester = .ctl c ∧
    x.ticket = some t ∧ x.softReset = false

/-- The counts the spec bounds: refresh debt (R12), lane streak (R60), outcome log (R53), entries of a list (R99). -/
structure State.CountsBounded (s : State) : Prop where
  debt : s.refreshDebt ≤ 4
  streak : s.streak ≤ 8
  log : s.log.length ≤ 16
  lists : ∀ n, (s.lane n).list.entries.length ≤ 16

/-- Staging is PENDING. -/
def Staging.isPending : Staging → Bool
  | .pending _ => true
  | _ => false

/-- A lane's slot holds a request exactly while its staging tag is PENDING, and a lane that is OFF, IDLE or HALTED has
its tag EMPTY (R67, R90, R95, R98). -/
structure Lane.SlotMatchesTag (l : Lane) : Prop where
  pending : l.slot.isSome = l.tag.isPending
  resting : l.state = .off ∨ l.state = .idle ∨ l.state = .halted → l.tag = .empty

/-- The same for every lane. -/
def State.SlotsMatchTags (s : State) : Prop := ∀ n, (s.lane n).SlotMatchesTag

/-- The part is OPERATING only with RESETn high and every row swept (R16, R17). -/
def State.SweptWhenOperating (s : State) : Prop := s.partState = .operating → s.resetnLow = false ∧ s.swept = 512

/-- The port and the engine agree: the frame in transaction mark is set exactly while the engine holds a result or
executes a frame without a discard noted (R136, R160); the engine is IDLE in a write phase (R166) and while RESETn is
low (R136, R175); a read phase without its record waits for the execution (R169); the assemblies keep their limits
(R165, R172); a transaction is open in every phase but WATCHING (R157, R160); and SDA is pulled low for no byte but one
that the port has taken whole, in a phase that its acknowledge opened or goes on with (R158). -/
structure State.PortMatchesEngine (s : State) : Prop where
  mark : s.port.frameInTx = true ↔ (∃ r, s.engine = .holding r) ∨ ∃ f, s.engine = .executing f false
  write : s.port.phase = .write → s.engine = .idle
  reset : s.resetnLow = true → s.engine = .idle
  hold : s.sckHeld = true → ∃ f, s.engine = .executing f false
  frame : s.port.frameBytes.length ≤ 40
  group : s.port.groupBytes.length ≤ 3
  closed : s.port.isOpen = false ↔ s.port.phase = .watching
  acknowledged : s.acknowledges = true →
    s.port.bitCount = 8 ∧ (s.port.phase = .write ∨ s.port.phase = .read ∨ s.port.phase = .group)

/-! ### The end of an execution -/

/-- The part when the execution of the frame it holds ends with this result (R136, R169): with a discard noted the
engine is IDLE and the result dropped; otherwise the engine holds it, and a read phase that waits for it has its
record. -/
def State.answered (s : State) (status : Status) (body : List Byte) : State :=
  match s.engine with
  | .executing _ true => { s with engine := .idle }
  | .executing _ false =>
    if s.port.phase = .read ∧ s.port.frameInTx = true ∧ s.port.record = none then
      { s with engine := .holding { status, body }
               port := { s.port with record := some (Result.bytes { status, body }), nextByte := 0 } }
    else { s with engine := .holding { status, body } }
  | _ => s

/-! ### Operations of the array -/

/-- The command at which an operation completes. -/
def completionOf : OpCode → Instr
  | .load => .loadCompletion
  | .store => .storeCompletion
  | .cstore => .cstoreCompletion
  | .fill => .fillCompletion
  | .copy => .copyCompletion

/-- Cell k belongs to a span, counted modulo 128 (section 5.2 of 00_scope.md). -/
def inSpan (sp : Span) (k : Nat) : Prop := (k + 128 - sp.tap.val) % 128 < sp.len

/-- The operation in flight writes these cells of this span of this row: a STORE, CSTORE or COPY those it copied at its
start, a FILL one value (R8 to R11). -/
def Transfer.WritesSpan (x : Transfer) (r : RowId) (sp : Span) (f : Nat → Byte) : Prop :=
  (x.latched = sp.cells.map (fun k => (k, f k)) ∧
    (x.work = .store r sp ∨ (∃ e, x.work = .cstore r sp e) ∨ ∃ a, x.work = .copy a r sp)) ∨
  ∃ v, x.work = .fill r sp v ∧ ∀ k, f k = v

/-- A request that waits, of a lane's slot, and passes the claim test (R57). -/
def State.slotReady (s : State) (n : LaneId) : Prop :=
  ∃ q, (s.lane n).slot = some q ∧ q.state ≠ .active ∧ s.conflicts (.lane n) q.work = false

/-- The queued requests that wait and pass the claim test, oldest first (R57). -/
def State.readyRequests (s : State) : List QueueRequest :=
  s.queue.filter fun q => q.state ≠ .active && s.conflicts (.ctl q.ctl) q.work = false

/-- The in-flight record the array takes of a request at its start (R4): the cells of the span copied from the source
register, or for a COPY from the source row; the generation of the row named; whether a CSTORE's expectation is met. -/
def State.recordAtStart (s : State) (w : Work) (p : Party) (ticket : Option Half) (register : Memory) : Transfer :=
  { work := w, requester := p, ticket, startGeneration := (s.rowRecord w.row).generation, discard := false,
    softReset := false
    matched := match w with
      | .cstore r _ expected => (s.rowRecord r).generation = expected
      | _ => true
    latched := match w with
      | .store _ sp => sp.cells.map fun k => (k, register.read k)
      | .cstore _ sp _ => sp.cells.map fun k => (k, register.read k)
      | .copy a _ sp => sp.cells.map fun k => (k, s.readCell (128 * a.val + k))
      | _ => [] }

/-! ### Ticks -/

/-- The state of a request one 1 ms tick later: a BLOCKED request's blocked time is one higher. -/
def afterTick : RequestState → RequestState
  | .blocked t => .blocked (t + 1)
  | .waiting => .waiting
  | .active => .active

/-- What a lease tick leaves of a claim: a claim without lease as it was, a lease one lower, and no claim where the
lease has reached 0. -/
def afterLeaseTick (k : Claim) : Option Claim :=
  match k.lease with
  | none => some k
  | some l => if l ≤ 1 then none else some { k with lease := some (l - 1) }

/-! ### Row lists -/

/-- An entry index after the first k entries have retired: it falls by k, and one of a retired entry stands (R106). -/
def fallen (k e : Nat) : Nat := if k ≤ e then e - k else e

/-- A position after the first k entries have retired (R106). -/
def Position.fallen (k : Nat) (p : Position) : Position := { p with entry := Machine.fallen k p.entry }

/-- A line reference after the first k entries have retired (R106). -/
def LineRef.fallen (k : Nat) (r : LineRef) : LineRef := { r with entry := Machine.fallen k r.entry }

/-- A staging tag after the first k entries have retired (R106). -/
def Staging.fallen (k : Nat) : Staging → Staging
  | .empty => .empty
  | .pending r => .pending (r.fallen k)
  | .full r g => .full (r.fallen k) g

/-- The successor of a position in a list of these entries (R101). -/
def positionAfter (entries : List Entry) (mode : ListMode) (p : Position) : Position :=
  match entries[p.entry]? with
  | none => p
  | some e =>
    if p.rep + 1 < e.repeats then { entry := p.entry, rep := p.rep + 1 }
    else if p.entry + 1 < entries.length then { entry := p.entry + 1, rep := 0 }
    else if mode = .cycle then { entry := 0, rep := 0 }
    else { entry := entries.length, rep := 0 }

/-- How many entries retire when the show position moves to a position: in ONCE mode, at a move to a later entry, those
before it, and otherwise none (R106). -/
def Lane.retires (l : Lane) (p : Position) : Nat :=
  if l.setup.mode = .once ∧ l.list.shown.entry < p.entry then p.entry else 0

/-- A lane's list after the show position has moved to `p` with its mark, while the fetch position was `fetch`: the
entries that the move retires are gone, and both positions are renumbered (R103, R106). -/
def Lane.listAfter (l : Lane) (p fetch : Position) (showing : Bool) : RowList :=
  { entries := l.list.entries.drop (l.retires p), fetch := fetch.fallen (l.retires p),
    shown := p.fallen (l.retires p), showing }

/-- The line an OUT lane will show next at a boundary: its staging line, or with staging EMPTY the one at the fetch
position (R104 step 2). -/
def Lane.showsNext (l : Lane) : Position :=
  match l.tag with
  | .empty => l.list.fetch
  | .pending r => { entry := r.entry, rep := r.rep }
  | .full r _ => { entry := r.entry, rep := r.rep }

/-- The position a lane that goes to IDLE restarts at: after a line of which a cell has moved, its successor, and
otherwise the show position (table of R109). -/
def Lane.restartsAt (l : Lane) : Position :=
  if l.list.showing = true ∧ 1 ≤ l.count then positionAfter l.list.entries l.setup.mode l.list.shown
  else l.list.shown

/-- The list of a lane that goes to IDLE, rolled back to that position (R109). -/
def Lane.rolledBack (l : Lane) : RowList := l.listAfter l.restartsAt l.restartsAt false

/-- A lane that takes the immediate stop: IDLE, slot and staging empty, no line held, no stop pending, no start mode,
no line to follow, no drain, the list rolled back; the rest of the lane stands (R90, R98). -/
def Lane.stopped (l : Lane) : Lane :=
  { l with state := .idle, slot := none, tag := .empty, held := false, stopPending := false, startMode := none,
           follow := none, drain := none, current := l.current.map (LineRef.fallen (l.retires l.restartsAt)),
           list := l.rolledBack }

/-- The operation in flight after a lane has given up its request: an ACTIVE one of the lane has its delivery DISCARD,
and every other stands (R5, R63). -/
def State.givenUp (s : State) (n : LaneId) : Option Operation :=
  match (s.lane n).slot, s.array with
  | some q, some (.transfer x) =>
    if q.state = .active ∧ x.requester = .lane n then some (.transfer { x with discard := true }) else s.array
  | _, a => a

/-- OUT lane n has requested the next line while its fetch position was `f` and its slot was as given (R76, R102): a
line with a row is PENDING with its LOAD placed, an occasion; a blank line is FULL with the fill value in every cell;
with no line, staging is EMPTY. The fetch position is past the line answered. -/
def State.AskedAt (u : State) (n : LaneId) (f : Position) (slot : Option SlotRequest) : Prop :=
  let l := u.lane n
  match l.list.lineAt f with
  | none => l.tag = .empty ∧ l.slot = slot ∧ l.list.fetch = f
  | some x =>
    l.list.fetch = positionAfter l.list.entries l.setup.mode f ∧
    match x.row with
    | some row => l.tag = .pending x ∧ u.occasion = true ∧
        l.slot = some { work := .load row, waitLimit := l.setup.waitLimit, state := .waiting }
    | none => l.tag = .full x none ∧ l.slot = slot ∧ ∀ k, k < 128 → l.staging.read k = l.setup.fill

/-- What IN lane n does once its staging register is free again, by its state (R82, R94). `posted` is the part with the
events already posted, `row` the row that LINE LOST names. In RUNNING and ARMED the slot and staging are empty. In
BLOCKED the held line goes to staging with its STORE placed, or is dropped when blank; the line to follow is current,
RUNNING, and LINE LOST is posted. In DRAINING and PAUSED a held line goes to staging in the same way and the state
stands; with none held, or a blank one, a PAUSED lane stays PAUSED and a drain ends in IDLE, with LANE DONE when its
cause is END. -/
structure State.StagingFreed (s u : State) (n : LaneId) (posted : State) (row : RowId) : Prop where
  streaming : (s.lane n).state = .running ∨ (s.lane n).state = .armed →
    u.lane n = { s.lane n with slot := none, tag := .empty } ∧ u.events = posted.events
  blocked : ∀ c f, (s.lane n).state = .blocked → (s.lane n).held = true → (s.lane n).current = some c →
    (s.lane n).follow = some f →
    let l := s.lane n
    let p : Position := { entry := f.entry, rep := f.rep }
    (u.lane n).state = .running ∧ (u.lane n).held = false ∧ (u.lane n).current = some (f.fallen (l.retires p)) ∧
    (u.lane n).follow = none ∧ (u.lane n).pointer = f.span.tap ∧ (u.lane n).count = 0 ∧ (u.lane n).mark = true ∧
    (u.lane n).setup = l.setup ∧ (u.lane n).lines = l.lines ∧ (u.lane n).list = l.listAfter p l.list.fetch true ∧
    (∀ line, c.row = some line →
      (u.lane n).staging = l.active ∧ (u.lane n).tag = .pending (c.fallen (l.retires p)) ∧ u.occasion = true ∧
      (u.lane n).slot = some { work := .store line c.span, waitLimit := l.setup.waitLimit, state := .waiting }) ∧
    (c.row = none → (u.lane n).tag = .empty ∧ (u.lane n).slot = none) ∧
    u.events = (posted.post { kind := .lineLost, source := .party (.lane n), row := some row,
                              count := some l.episode }).events
  stored : ∀ c line, (s.lane n).state = .draining ∨ (s.lane n).state = .paused → (s.lane n).held = true →
    (s.lane n).current = some c → c.row = some line →
    u.lane n = { s.lane n with
      held := false, active := (s.lane n).staging, staging := (s.lane n).active, tag := .pending c
      slot := some { work := .store line c.span, waitLimit := (s.lane n).setup.waitLimit, state := .waiting } } ∧
    u.occasion = true ∧ u.events = posted.events
  dropped : ∀ c, (s.lane n).state = .paused → (s.lane n).held = true → (s.lane n).current = some c → c.row = none →
    u.lane n = { s.lane n with slot := none, tag := .empty, held := false } ∧ u.events = posted.events
  waiting : (s.lane n).state = .paused → (s.lane n).held = false →
    u.lane n = { s.lane n with slot := none, tag := .empty } ∧ u.events = posted.events
  drained : (s.lane n).state = .draining →
    (s.lane n).held = false ∨ (∃ c, (s.lane n).current = some c ∧ c.row = none) →
    (u.lane n).state = .idle ∧ (u.lane n).slot = none ∧ (u.lane n).tag = .empty ∧
    (u.lane n).list = (s.lane n).rolledBack ∧
    u.events = if (s.lane n).drain = some .listEnd then
      (posted.post { kind := .laneDone, source := .party (.lane n), count := some (s.lane n).lines }).events
      else posted.events

/-! ### Sessions -/

/-- The claims a holder loses, as their CLAIM ENDED events reach the queue: ascending claim id, each with the claim's
holder, first row, id, count and the cause (R36). -/
def State.afterClaimEnded (s : State) (holder : Party) (cause : Cause) : State :=
  (List.finRange 24).foldl (fun v j =>
    match s.claim j with
    | some k => if k.holder = holder then v.post
        { kind := .claimEnded, source := .party holder, row := some k.first, claimId := some j,
          count := some (BitVec.ofNat 16 k.count), cause := some cause } else v
    | none => v) s

/-- What the end of a controller number's session leaves of the claims, the requests and the buffer (R143, R145): its
claims are gone; its WAITING and BLOCKED requests are withdrawn, a WITHDRAWN record each, and its ACTIVE one is
orphaned with its delivery DISCARD; its buffer is zero. The other numbers' claims, requests, sessions and buffers
stand. -/
structure State.SessionEnds (s u : State) (c : Ctl) : Prop where
  claims : ∀ j, u.claim j = (s.claim j).bind fun k => if k.holder = .ctl c then none else some k
  queue : u.queue = s.queue.filter fun q => q.ctl ≠ c
  log : u.log = (s.queue.filter fun q => q.ctl = c && q.state ≠ .active).foldl (fun log q => logAppend log
    { ticket := q.ticket, ctl := c, op := q.work.op, row := q.work.row, outcome := .withdrawn, generation := none,
      finish := s.clock }) s.log
  orphan : ∀ q ∈ s.queue, q.ctl = c → q.state = .active → u.orphan = some q.ticket ∧
    ∀ x, s.array = some (.transfer x) → u.array = some (.transfer { x with discard := true })
  kept : (∀ q ∈ s.queue, q.ctl = c → q.state ≠ .active) → u.orphan = s.orphan ∧ u.array = s.array
  buffer : ∀ k, (u.buffer c).read k = 0
  others : ∀ d, d ≠ c → u.buffer d = s.buffer d ∧ u.session d = s.session d

/-- The three counts that report it (R141): claims removed, requests withdrawn, and 1 for a request orphaned. -/
def State.endedCounts (s : State) (c : Ctl) : List Byte :=
  [BitVec.ofNat 8 ((List.finRange 24).filter fun j => (s.claim j).any fun k => k.holder = .ctl c).length,
   BitVec.ofNat 8 (s.queue.filter fun q => q.ctl = c && q.state ≠ .active).length,
   if s.queue.any fun q => q.ctl = c && q.state = .active then 1 else 0]

/-! ### Runs -/

/-- Several commands one after another, stopping at the first that does not give a next state. -/
def runCommands : List Instr → State → Outcome
  | [], s => .next s
  | c :: cs, s =>
    match exec c s with
    | .next t => runCommands cs t
    | .fault f => .fault f
    | .refused r => .refused r

end Sys2Proof.Machine
end

