-- ==== Sys2Proof/Certificates/Slice0/Obligations.lean ====
section
/-! DEFINITION. What is to be proved about the part, rule by rule. OBLIGATIONS.json says what each statement cites. -/

open Sys2Proof Sys2Proof.Machine

/-! ### The step and its queue -/

/-- A step runs the command at the front of the queue on the part with the queue's rest; with nothing waiting and no
selection owed it idles (the task's queue; idling is the model's choice, log entry 5). -/
def Obligations.StepRunsFrontCommand : Prop :=
  (∀ (s : State) (c : Instr) (rest : List Instr),
    s.pending = c :: rest → step s = exec c { s with pending := rest }) ∧
  ∀ s : State, s.pending = [] → s.occasion = false → step s = .next s

/-- No command touches the queue of commands that wait (the task's queue). -/
def Obligations.CommandsLeaveTheQueue : Prop :=
  ∀ (c : Instr) (s t : State), exec c s = .next t → t.pending = s.pending

/-! ### Frames (R166, R168, R176) -/

/-- The frame of a well-formed command is at most 40 bytes, has the verdict GOOD, and reads as that command. -/
def Obligations.FrameReadsAsItsCommand : Prop :=
  ∀ (i : Instr) (bytes : List Byte), i.wellFormed = true → frameOf i = some bytes →
    bytes.length ≤ 40 ∧ frameVerdict false bytes = some .good ∧ readFrame .good bytes = i

/-- A frame of verdict GOOD that reads as a command of the engine is the frame of that command, byte for byte, and the
command is well-formed. -/
def Obligations.CommandHasOneFrame : Prop :=
  ∀ bytes : List Byte, frameVerdict false bytes = some .good →
    (∀ v b, readFrame .good bytes ≠ .refusedFrame v b) →
    frameOf (readFrame .good bytes) = some bytes ∧ (readFrame .good bytes).wellFormed = true

/-! ### Reset and the start-up sweep -/

/-- HARD_RESET in any state: the part is STARTING with RESETn low, no operation in flight, and every block at its
hard-reset values. -/
def Obligations.HardResetValues : Prop :=
  ∀ s : State, ∃ t : State, exec .hardReset s = .next t ∧
    t.resetnLow = true ∧ t.partState = .starting ∧ t.array = none ∧ t.occasion = false ∧
    (∀ i, t.claim i = none) ∧
    t.queue = [] ∧ t.nextTicket = 1 ∧ t.orphan = none ∧ t.log = [] ∧ t.streak = 0 ∧ t.lastLane = 3 ∧
    (∀ n, (t.lane n).state = .off ∧ (t.lane n).slot = none ∧ (t.lane n).tag = .empty ∧ (t.lane n).current = none ∧
      (t.lane n).pointer = 0 ∧ (t.lane n).count = 0 ∧ (t.lane n).held = false ∧ (t.lane n).stopPending = false ∧
      (t.lane n).lines = 0 ∧ (t.lane n).episode = 0 ∧
      (t.lane n).setup = { direction := .out, fill := 0, policy := .halt, mode := .once, waitLimit := 0 } ∧
      (t.lane n).list = { entries := [], fetch := { entry := 0, rep := 0 }, shown := { entry := 0, rep := 0 },
                          showing := false } ∧
      (t.lane n).ready = false ∧ (t.lane n).mark = false ∧ (t.lane n).ldDrive = none) ∧
    t.events = [] ∧ t.eventCounter = 0 ∧ t.mask = 0x0FFE ∧ t.attnLow = false ∧
    (∀ c, t.session c = none ∧ ∀ a, (t.buffer c).read a = 0) ∧
    t.engine = .idle ∧ t.groupEnable = false ∧
    t.port.phase = .watching ∧ t.port.isOpen = false ∧ t.port.frameInTx = false ∧ t.port.frameBytes = [] ∧
    t.port.groupBytes = [] ∧ t.sckHeld = false ∧ t.sdaByte = none

/-- RESETN_RISE while RESETn is low: the millisecond counter is 0 and the tick chain at its start, the straps are
sampled (device address 0x68 plus the straps), the port is at WATCHING with nothing assembled, and the sweep stands at
row 0; everything else stands. A
sweep operation writes 0 into the 128 cells of its row and sets the row's record to generation 0, SWEEP; no other row
changes. The one of row 511 also sets pointer and debt to 0, makes the part OPERATING and leaves PART RESET, cause
HARD, sequence number 1, as the only event, with ATTN low. -/
def Obligations.StartUpSweep : Prop :=
  (∀ (s : State) (straps : Fin 8), s.resetnLow = true →
    ∃ t : State, exec (.resetnRise straps) s = .next t ∧
      t = { s with resetnLow := false, clock := 0, tickPhase := 0, leaseTick := .settled, partState := .starting,
                   swept := 0
                   port := { phase := .watching, isOpen := false, bitCount := 0, frameBytes := [], overlong := false,
                             groupBytes := [], groupOverlong := false, frameInTx := false, record := none,
                             nextByte := 0, strap := straps, ack := false } } ∧
      t.port.device = 0x68 + straps.val) ∧
  ∀ (s : State) (r : RowId), s.partState = .starting → s.resetnLow = false → s.swept = r.val →
    ∃ t : State, exec .sweepOperationCompletion s = .next t ∧
      (∀ k, k < 128 → t.readCell (128 * r.val + k) = 0) ∧
      t.rowRecord r = { generation := 0, lastWriter := .sweep } ∧
      (∀ a, a / 128 ≠ r.val → t.readCell a = s.readCell a) ∧
      (∀ q, q ≠ r → t.rowRecord q = s.rowRecord q) ∧
      (r.val < 511 → t = { s with cells := t.cells, records := t.records, swept := r.val + 1 }) ∧
      (r.val = 511 →
        t = { s with cells := t.cells, records := t.records, swept := 512, refreshPointer := 0, refreshDebt := 0,
                     partState := .operating, eventCounter := 1, mask := 0x0FFE,
                     events := [{ seq := 1, time := s.clock,
                                  post := { kind := .partReset, source := .part, cause := some .hard } }] } ∧
        t.attnLow = true)

/-- From any state with RESETn low, the rise of RESETn and 512 sweep operations leave an OPERATING part: every cell 0,
every row record generation 0 and SWEEP, pointer and debt 0, and PART RESET, cause HARD, time 0, alone in the event
queue. -/
def Obligations.SweepLeavesOperatingPart : Prop :=
  ∀ (s : State) (straps : Fin 8), s.resetnLow = true →
    ∃ t : State, runCommands (.resetnRise straps :: List.replicate 512 .sweepOperationCompletion) s = .next t ∧
      t.partState = .operating ∧ (∀ a, a < 65536 → t.readCell a = 0) ∧
      (∀ r, t.rowRecord r = { generation := 0, lastWriter := .sweep }) ∧
      t.refreshPointer = 0 ∧ t.refreshDebt = 0 ∧
      t.events = [{ seq := 1, time := 0, post := { kind := .partReset, source := .part, cause := some .hard } }] ∧
      t.attnLow = true

/-! ### Ticks -/

/-- A refresh tick while OPERATING adds one to the debt unless it is 4, and is an occasion for a selection; one while
STARTING is not counted and changes nothing. The completion of a REFRESH lowers the debt by one, moves the pointer on
by one, modulo 512, and changes nothing else before the selection it brings. -/
def Obligations.RefreshDebtCounts : Prop :=
  ∀ s : State,
    (s.resetnLow = false → s.partState = .operating →
      exec .refreshTick s =
        .next { s with refreshDebt := if s.refreshDebt < 4 then s.refreshDebt + 1 else 4,
                       occasion := true }.arbitrate) ∧
    (s.resetnLow = false → s.partState = .starting → exec .refreshTick s = .next s) ∧
    ∀ r, s.array = some (.refresh r) →
      exec .refreshCompletion s =
        .next { s with refreshDebt := s.refreshDebt - 1, refreshPointer := s.refreshPointer + 1, array := none,
                       occasion := true }.arbitrate

/-- A 1 ms tick adds one to the millisecond counter, to the phase of the lease tick and to the blocked time of every
BLOCKED request; the tenth brings a lease tick, unless that one has been taken before it (log entry 17). Then the
requests that stand at their wait limits are refused. The queued ones leave the queue in queue order, each with a
CLAIM TIMEOUT record and, when its notify flag is set, TRANSFER DONE; their finish time is the counter after the tick
(log entry 4). The slot requests at their limits follow, L0 first, each refused as `refuseSlot` refuses one, which
WaitLimitRefusals states. Where nothing reaches its limit and no selection is owed, nothing else changes. -/
def Obligations.MillisecondTick : Prop :=
  ∀ s : State, s.resetnLow = false → s.leaseTick ≠ .due →
    let leaseTick : LeaseTick :=
      if s.tickPhase.val = 9 then (if s.leaseTick = .early then .settled else .due) else s.leaseTick
    let counted : List QueueRequest := s.queue.map fun q => { q with state := afterTick q.state }
    let due : List QueueRequest := counted.filter fun q => q.state = .blocked q.waitLimit
    let lanesDue : List LaneId := (List.finRange 4).filter fun n =>
      (s.lane n).slot.any fun q => afterTick q.state = .blocked q.waitLimit
    (∃ v : State, exec .millisecondTick s = .next (lanesDue.foldl State.refuseSlot v).arbitrate ∧
      v = { s with clock := s.clock + 1, tickPhase := s.tickPhase + 1, leaseTick, lanes := v.lanes, queue := v.queue,
                   log := v.log, events := v.events, eventCounter := v.eventCounter } ∧
      (∀ n, v.lane n =
        { s.lane n with slot := (s.lane n).slot.map fun q => { q with state := afterTick q.state } }) ∧
      ((s.queue.map (·.ticket)).Nodup → v.queue = counted.filter fun q => q.state ≠ .blocked q.waitLimit) ∧
      v.log = due.foldl (fun log q => logAppend log
        { ticket := q.ticket, ctl := q.ctl, op := q.work.op, row := q.work.row, outcome := .claimTimeout,
          generation := none, finish := s.clock + 1 }) s.log ∧
      v.events = (due.foldl (fun (w : State) q => if q.notify = true then w.post
        { kind := .transferDone, source := .party (.ctl q.ctl), row := some q.work.row, ticket := some q.ticket,
          cause := some .claimTimeout } else w) ({ s with clock := s.clock + 1 } : State)).events) ∧
    ((∀ q ∈ s.queue, afterTick q.state ≠ .blocked q.waitLimit) →
      (∀ n q, (s.lane n).slot = some q → afterTick q.state ≠ .blocked q.waitLimit) → s.occasion = false →
      ∃ t : State, exec .millisecondTick s = .next t ∧
        t = { s with clock := s.clock + 1, tickPhase := s.tickPhase + 1, leaseTick, lanes := t.lanes
                     queue := s.queue.map fun q => { q with state := afterTick q.state } } ∧
        ∀ n, t.lane n = { s.lane n with slot := (s.lane n).slot.map fun q => { q with state := afterTick q.state } })

/-- The refusal of a request that is BLOCKED at its wait limit. A queued request leaves the queue, a CLAIM TIMEOUT
record without generation is written, and TRANSFER DONE is posted after it when its notify flag is set. A lane's slot
is emptied, by `refuseSlot`. Under HALT the lane is HALTED with staging empty and posts LANE HALTED with the row; its
list stands. Under SKIP it posts ENTRY SKIPPED with the row. An IN lane then has its staging register free. An OUT lane
passes the line over: when it was the next to show, the show position moves to the fetch position. It asks for the
next line. One with a row is its new request, the state kept. A blank one is FULL in RUNNING, ARMED and PAUSED; from
PRIMING it is shown, RUNNING or ARMED by the start mode, and from STARVED it is shown, RUNNING, with LINE STARVED. With
none it goes on with staging empty from RUNNING, ARMED or PAUSED, and from PRIMING or STARVED it posts LANE DONE and is
IDLE, its list rolled back. A request that is not at its limit is not refused (the row alone, log entry 4). -/
def Obligations.WaitLimitRefusals : Prop :=
  (∀ (s : State) (q : QueueRequest), s.request q.ticket = some q →
    (q.state = .blocked q.waitLimit →
      ∃ u : State, exec (.requestRefusal (.ticket q.ticket)) s = .next u.arbitrate ∧
        u = { s with queue := u.queue, log := u.log, events := u.events, eventCounter := u.eventCounter } ∧
        u.queue = (s.queue.filter fun r => r.ticket ≠ q.ticket) ∧
        u.log = logAppend s.log { ticket := q.ticket, ctl := q.ctl, op := q.work.op, row := q.work.row,
                                  outcome := .claimTimeout, generation := none, finish := s.clock } ∧
        (q.notify = false → u.events = s.events) ∧
        (q.notify = true → u.events = (s.post
          { kind := .transferDone, source := .party (.ctl q.ctl), row := some q.work.row, ticket := some q.ticket,
            cause := some .claimTimeout }).events)) ∧
    (q.state ≠ .blocked q.waitLimit → exec (.requestRefusal (.ticket q.ticket)) s = .next s)) ∧
  (∀ (s : State) (n : LaneId), (∀ q, (s.lane n).slot = some q → q.state ≠ .blocked q.waitLimit) →
    exec (.requestRefusal (.slot n)) s = .next s) ∧
  ∀ (s : State) (n : LaneId) (q : SlotRequest), (s.lane n).slot = some q →
    let l := s.lane n
    let u : State := s.refuseSlot n
    let skipped : State := s.post { kind := .entrySkipped, source := .party (.lane n), row := some q.work.row }
    (q.state = .blocked q.waitLimit → exec (.requestRefusal (.slot n)) s = .next u.arbitrate) ∧
    u = { s with lanes := u.lanes, events := u.events, eventCounter := u.eventCounter, occasion := u.occasion } ∧
    (∀ m, m ≠ n → u.lane m = s.lane m) ∧
    (l.setup.policy = .halt →
      u.lane n = { l with state := .halted, slot := none, tag := .empty, held := false, stopPending := false,
                          startMode := none, follow := none, drain := none } ∧
      u.events = (s.post { kind := .laneHalted, source := .party (.lane n), row := some q.work.row,
                           cause := some .claimTimeout }).events) ∧
    (l.setup.policy = .skip → l.setup.direction = .into → s.StagingFreed u n skipped q.work.row) ∧
    ∀ x, l.setup.policy = .skip → l.setup.direction = .out → l.tag = .pending x →
      let passed : Bool := !l.list.showing && l.list.shown = { entry := x.entry, rep := x.rep }
      let k : Nat := if passed then l.retires l.list.fetch else 0
      let base : RowList := if passed then l.listAfter l.list.fetch l.list.fetch false else l.list
      let b : Lane := { l with list := base }
      (∀ y row, l.nextLine = some y → y.row = some row →
        u.lane n = { l with
          tag := .pending (y.fallen k), current := l.current.map (LineRef.fallen k)
          follow := l.follow.map (LineRef.fallen k)
          slot := some { work := .load row, waitLimit := l.setup.waitLimit, state := .waiting }
          list := { base with fetch := positionAfter base.entries l.setup.mode base.fetch } } ∧
        u.occasion = true ∧ u.events = skipped.events) ∧
      (∀ y, l.nextLine = some y → y.row = none →
        (l.state = .running ∨ l.state = .armed ∨ l.state = .paused →
          (u.lane n).state = l.state ∧ (u.lane n).list = { base with fetch := (u.lane n).list.fetch } ∧
          (u.lane n).current = l.current.map (LineRef.fallen k) ∧ u.AskedAt n base.fetch none ∧
          u.events = skipped.events) ∧
        (l.state = .priming ∨ l.state = .starved →
          let p := base.fetch
          (u.lane n).current = some ((y.fallen k).fallen (b.retires p)) ∧ (u.lane n).pointer = y.span.tap ∧
          (u.lane n).count = 0 ∧ (∀ j, j < 128 → (u.lane n).active.read j = l.setup.fill) ∧
          (u.lane n).lines = l.lines ∧
          (u.lane n).list = { b.listAfter p p true with fetch := (u.lane n).list.fetch } ∧
          u.AskedAt n ((positionAfter base.entries l.setup.mode p).fallen (b.retires p)) none ∧
          (l.state = .priming → u.events = skipped.events ∧
            (u.lane n).state = if l.startMode = some .armed then .armed else .running) ∧
          (l.state = .starved → (u.lane n).state = .running ∧ u.events = (skipped.post
            { kind := .lineStarved, source := .party (.lane n), count := some l.episode }).events))) ∧
      (l.nextLine = none → (u.lane n).slot = none ∧ (u.lane n).tag = .empty ∧
        (l.state = .running ∨ l.state = .armed ∨ l.state = .paused →
          (u.lane n).state = l.state ∧ (u.lane n).list = base ∧ u.events = skipped.events) ∧
        (l.state = .priming ∨ l.state = .starved →
          (u.lane n).state = .idle ∧ (u.lane n).list = b.rolledBack ∧ u.events = (skipped.post
            { kind := .laneDone, source := .party (.lane n), count := some l.lines }).events))

/-- A lease tick, the one that a tenth 1 ms tick has brought or the one taken just before its tenth 1 ms tick (log entry
17), counts every lease down and removes the claims that reach 0, and CLAIM_EXPIRY, as a row of its own
(log entry 4), removes the claims that stand at 0; each removal posts CLAIM ENDED in ascending claim id order with the
claim's holder, first row, count and cause EXPIRED; and nothing but the table and the events changes before the
selection that a removal brings. -/
def Obligations.LeaseTickAndExpiry : Prop :=
  ∀ s : State,
    (s.resetnLow = false → s.leaseTick = .due ∨ (s.leaseTick = .settled ∧ s.tickPhase.val = 9) →
      ∃ u : State, exec .leaseTick s = .next u.arbitrate ∧ (∀ i, u.claim i = (s.claim i).bind afterLeaseTick) ∧
        u = { s with claims := u.claims, events := u.events, eventCounter := u.eventCounter, occasion := u.occasion,
                     leaseTick := if s.leaseTick = .due then .settled else .early } ∧
        (u.occasion = true ↔ s.occasion = true ∨ ∃ i k, s.claim i = some k ∧ afterLeaseTick k = none) ∧
        u.events = ((List.finRange 24).foldl (fun v i =>
          match s.claim i with
          | some k => if afterLeaseTick k = none then v.post
              { kind := .claimEnded, source := .party k.holder, row := some k.first, claimId := some i,
                count := some (BitVec.ofNat 16 k.count), cause := some .expired } else v
          | none => v) s).events) ∧
    ∃ u : State, exec .claimExpiry s = .next u.arbitrate ∧
      (∀ i, u.claim i = (s.claim i).bind fun k => if k.lease = some 0 then none else some k) ∧
      u = { s with claims := u.claims, events := u.events, eventCounter := u.eventCounter, occasion := u.occasion } ∧
      (u.occasion = true ↔ s.occasion = true ∨ ∃ i k, s.claim i = some k ∧ k.lease = some 0) ∧
      u.events = ((List.finRange 24).foldl (fun v i =>
        match s.claim i with
        | some k => if k.lease = some 0 then v.post
            { kind := .claimEnded, source := .party k.holder, row := some k.first, claimId := some i,
              count := some (BitVec.ofNat 16 k.count), cause := some .expired } else v
        | none => v) s).events


/-! ### Completions of array operations -/

/-- The completion of a STORE, CSTORE, FILL or COPY: each cell of the span takes its new value and the other cells of
the row stand; the record takes the start generation plus one, modulo 65536, and the requester. A CSTORE whose match
field is false writes no cell and no record. No other row changes, and the array is idle, an occasion. A controller's
operation changes no lane. A lane's operation changes neither the controller queue nor its log nor the orphan, and no
lane but its own; marked DISCARD, or as following a soft reset, it changes no lane at all and posts no event. -/
def Obligations.WriteCompletions : Prop :=
  ∀ (s : State) (x : Transfer) (r : RowId) (sp : Span) (f : Nat → Byte),
    s.array = some (.transfer x) → s.swept = 512 → x.WritesSpan r sp f →
    ∃ u : State, exec (completionOf x.work.op) s = .next u.arbitrate ∧ u.array = none ∧ u.occasion = true ∧
      (∀ a, a / 128 ≠ r.val → u.readCell a = s.readCell a) ∧ (∀ q, q ≠ r → u.rowRecord q = s.rowRecord q) ∧
      (x.matched = true →
        (∀ k, k < 128 → (inSpan sp k → u.readCell (128 * r.val + k) = f k) ∧
          (¬ inSpan sp k → u.readCell (128 * r.val + k) = s.readCell (128 * r.val + k))) ∧
        u.rowRecord r = { generation := x.startGeneration + 1, lastWriter := .party x.requester }) ∧
      (x.matched = false →
        (∀ a, u.readCell a = s.readCell a) ∧ ∀ q, u.rowRecord q = s.rowRecord q) ∧
      (∀ c, x.requester = .ctl c → u.lanes = s.lanes) ∧
      (∀ n, x.requester = .lane n → u.queue = s.queue ∧ u.log = s.log ∧ u.orphan = s.orphan ∧
        (∀ m, m ≠ n → u.lane m = s.lane m) ∧
        (x.discard = true ∨ x.softReset = true → u.lanes = s.lanes ∧ u.events = s.events)) ∧
      u = { s with cells := u.cells, records := u.records, refreshPointer := u.refreshPointer,
                   refreshDebt := u.refreshDebt, array := none, occasion := true, queue := u.queue,
                   orphan := u.orphan, log := u.log, lanes := u.lanes, events := u.events,
                   eventCounter := u.eventCounter }

/-- The completion of a LOAD. With delivery KEEP the 128 cells of the row are in the requester's register: the port
buffer of a controller, or the staging register of a lane, whose slot is then empty and whose tag is FULL with the
line and the start generation (a lane that waits in neither PRIMING nor STARVED changes no further). With delivery
DISCARD no register, tag, slot or buffer changes. A controller's LOAD changes no lane, and a lane's no buffer, neither
the controller queue nor its log nor the orphan, and with delivery DISCARD posts no event. No cell and no record of the
array changes, and nothing of the rest of the part. -/
def Obligations.LoadCompletion : Prop :=
  ∀ (s : State) (x : Transfer) (r : RowId), s.array = some (.transfer x) → x.work = .load r →
    ∃ u : State, exec .loadCompletion s = .next u.arbitrate ∧ u.array = none ∧ u.occasion = true ∧
      u.cells = s.cells ∧ u.records = s.records ∧
      u = { s with refreshPointer := u.refreshPointer, refreshDebt := u.refreshDebt, array := none, occasion := true,
                   queue := u.queue, orphan := u.orphan, log := u.log, lanes := u.lanes, buffers := u.buffers,
                   events := u.events, eventCounter := u.eventCounter } ∧
      (∀ c, x.requester = .ctl c → u.lanes = s.lanes) ∧
      (∀ n, x.requester = .lane n → u.queue = s.queue ∧ u.log = s.log ∧ u.orphan = s.orphan ∧
        u.buffers = s.buffers ∧ (∀ m, m ≠ n → u.lane m = s.lane m) ∧ (x.discard = true → u.events = s.events)) ∧
      (x.discard = true → u.lanes = s.lanes ∧ u.buffers = s.buffers) ∧
      (x.discard = false → ∀ c, x.requester = .ctl c →
        (∀ k, k < 128 → (u.buffer c).read k = s.readCell (128 * r.val + k)) ∧
        (∀ d, d ≠ c → u.buffer d = s.buffer d) ∧ u.lanes = s.lanes) ∧
      (x.discard = false → x.softReset = false → ∀ n line, x.requester = .lane n → (s.lane n).tag = .pending line →
        (∀ m, m ≠ n → u.lane m = s.lane m) ∧ u.buffers = s.buffers ∧
        ((s.lane n).state ≠ .priming → (s.lane n).state ≠ .starved →
          u.lane n = { s.lane n with staging := (u.lane n).staging, slot := none,
                                     tag := .full line (some x.startGeneration) } ∧
          (∀ k, k < 128 → (u.lane n).staging.read k = s.readCell (128 * r.val + k)) ∧
          u.events = s.events))

/-- Refresh credit. The completion of any lane or controller operation tests the rows it opened, a COPY's source row
before its destination row: a row that equals the pointer while the debt is at least 1 moves the pointer on by one,
modulo 512, and lowers the debt by one; otherwise pointer and debt stand. It is so whatever the delivery field and the
match field hold. -/
def Obligations.RefreshCredit : Prop :=
  ∀ (s : State) (x : Transfer), s.array = some (.transfer x) →
    let credit : RowId → RowId × Nat → RowId × Nat := fun r p =>
      if r = p.1 ∧ 1 ≤ p.2 then (p.1 + 1, p.2 - 1) else p
    ∃ t : State, exec (completionOf x.work.op) s = .next t ∧
      ((∀ a b sp, x.work ≠ .copy a b sp) →
        (t.refreshPointer, t.refreshDebt) = credit x.work.row (s.refreshPointer, s.refreshDebt)) ∧
      ∀ a b sp, x.work = .copy a b sp →
        (t.refreshPointer, t.refreshDebt) = credit b (credit a (s.refreshPointer, s.refreshDebt))

/-- The completion report of a controller operation at the Transfer Queue. Of a request in the queue: it leaves the
queue, a record is written with its outcome and start generation, and TRANSFER DONE is posted after it when its notify
flag is set. Of the orphaned operation: a record, without generation for a LOAD, no event, and the ticket is
forgotten. Of an operation that a soft reset found in flight: nothing. No lane changes, and nothing of the rest of the
part but what the array itself does at the completion. -/
def Obligations.CompletionReports : Prop :=
  ∀ (s : State) (x : Transfer) (c : Ctl) (ticket : Half), s.array = some (.transfer x) →
    x.requester = .ctl c → x.ticket = some ticket →
    ∃ u : State, exec (completionOf x.work.op) s = .next u.arbitrate ∧
      u = { s with cells := u.cells, records := u.records, refreshPointer := u.refreshPointer,
                   refreshDebt := u.refreshDebt, buffers := u.buffers, array := none, occasion := true,
                   queue := u.queue, orphan := u.orphan, log := u.log, events := u.events,
                   eventCounter := u.eventCounter } ∧
      let outcome : OutcomeCode := if x.matched = true then .done else .generationMismatch
      let written : Option Half → OutcomeRecord := fun g =>
        { ticket, ctl := c, op := x.work.op, row := x.work.row, outcome, generation := g, finish := s.clock }
      (x.softReset = true → u.queue = s.queue ∧ u.log = s.log ∧ u.events = s.events ∧ u.orphan = s.orphan) ∧
      (x.softReset = false → s.orphan = some ticket →
        u.queue = s.queue ∧ u.orphan = none ∧ u.events = s.events ∧
        u.log = logAppend s.log (written (if x.work.op = .load then none else some x.startGeneration))) ∧
      (x.softReset = false → s.orphan ≠ some ticket → ∀ q, s.request ticket = some q → q.ctl = c →
        q.work = x.work → u.queue = (s.queue.filter fun p => p.ticket ≠ ticket) ∧ u.orphan = s.orphan ∧
        u.log = logAppend s.log (written (some x.startGeneration)) ∧
        (q.notify = false → u.events = s.events) ∧
        (q.notify = true → u.events = (s.post
          { kind := .transferDone, source := .party (.ctl c), row := some x.work.row, ticket := some ticket,
            cause := some (if x.matched = true then .done else .generationMismatch) }).events))

/-! ### The arbiter -/

/-- The order of a selection, at an idle array: an urgent REFRESH; then, in rotation from the lane after the last lane
served, the first slot whose request is runnable, unless the streak is 8 and a controller request is runnable; then
the runnable controller request nearest the head of the queue; then a REFRESH that is owed; then nothing. The array
takes the in-flight record of what starts, and the last lane served changes only when a slot request starts. -/
def Obligations.SelectionOrder : Prop :=
  ∀ s : State, s.array = none → s.refreshDebt ≤ 4 → s.streak ≤ 8 →
    let t := s.select
    (s.refreshDebt = 4 → t.array = some (.refresh s.refreshPointer) ∧ t.lastLane = s.lastLane) ∧
    (s.refreshDebt < 4 → s.readyRequests = [] ∨ s.streak < 8 → ∀ k : Fin 4, s.slotReady (s.lastLane + 1 + k) →
      (∀ j : Fin 4, j < k → ¬ s.slotReady (s.lastLane + 1 + j)) → ∀ q, (s.lane (s.lastLane + 1 + k)).slot = some q →
        t.array = some (.transfer (s.recordAtStart q.work (.lane (s.lastLane + 1 + k)) none
          (s.lane (s.lastLane + 1 + k)).staging)) ∧
        t.lastLane = s.lastLane + 1 + k ∧
        t.lane (s.lastLane + 1 + k) = { s.lane (s.lastLane + 1 + k) with slot := some { q with state := .active } }) ∧
    (s.refreshDebt < 4 → s.streak = 8 ∨ (∀ n, ¬ s.slotReady n) → ∀ q, s.readyRequests.head? = some q →
        t.array = some (.transfer (s.recordAtStart q.work (.ctl q.ctl) (some q.ticket) (s.buffer q.ctl))) ∧
        t.lastLane = s.lastLane ∧
        ((s.queue.map (·.ticket)).Nodup → { q with state := .active } ∈ t.queue)) ∧
    ((∀ n, ¬ s.slotReady n) → s.readyRequests = [] → s.refreshDebt < 4 → 1 ≤ s.refreshDebt →
      t.array = some (.refresh s.refreshPointer) ∧ t.lastLane = s.lastLane) ∧
    ((∀ n, ¬ s.slotReady n) → s.readyRequests = [] → s.refreshDebt = 0 →
      t.array = none ∧ t.lastLane = s.lastLane)

/-- The lane streak after a selection at an idle array: one more when a slot request starts over a runnable controller
request, 0 when a controller request starts or none was runnable, unchanged when a REFRESH starts over a runnable
controller request; and never above 8. -/
def Obligations.LaneStreak : Prop :=
  ∀ s : State, s.array = none → s.streak ≤ 8 →
    let t := s.select
    t.streak ≤ 8 ∧ (s.readyRequests = [] → t.streak = 0) ∧
    (s.readyRequests ≠ [] →
      (∀ x n, t.array = some (.transfer x) → x.requester = .lane n → t.streak = s.streak + 1) ∧
      (∀ x c, t.array = some (.transfer x) → x.requester = .ctl c → t.streak = 0) ∧
      ∀ r, t.array = some (.refresh r) → t.streak = s.streak)

/-- The tests of a selection, over a queue of distinct tickets. A WAITING request that conflicts is refused when its
wait limit is 0, with a CLAIM TIMEOUT record for each in queue order (deduced, log entry 5), and otherwise becomes
BLOCKED with blocked time 0; a BLOCKED request that conflicts stays as it is; one that passes stays as it is or is
started. A WAITING slot request that conflicts becomes BLOCKED in the same way, and one with wait limit 0 is refused:
under HALT its lane is HALTED. All tests see the state the selection finds. The queued refusals come first, each with
TRANSFER DONE, cause CLAIM TIMEOUT, after its record when its notify flag is set; the slot refusals follow, L0 first
(log entry 5), each as `refuseSlot` refuses one, under HALT with LANE HALTED and under SKIP with ENTRY SKIPPED, which
WaitLimitRefusals states. A selection posts no other event, and then changes nothing but what it starts, which is
ACTIVE, its streak and the last lane served. -/
def Obligations.SelectionTests : Prop :=
  ∀ s : State, (s.queue.map (·.ticket)).Nodup →
    let t := s.select
    (∀ q ∈ s.queue,
      (q.state = .waiting → s.conflicts (.ctl q.ctl) q.work = true → q.waitLimit = 0 →
        ∀ r ∈ t.queue, r.ticket ≠ q.ticket) ∧
      (q.state = .waiting → s.conflicts (.ctl q.ctl) q.work = true → q.waitLimit ≠ 0 →
        { q with state := .blocked 0 } ∈ t.queue) ∧
      (∀ b, q.state = .blocked b → s.conflicts (.ctl q.ctl) q.work = true → q ∈ t.queue) ∧
      (s.conflicts (.ctl q.ctl) q.work = false → q ∈ t.queue ∨ { q with state := .active } ∈ t.queue)) ∧
    t.log = (s.queue.filter fun q => q.state = .waiting && q.waitLimit = 0 && s.conflicts (.ctl q.ctl) q.work).foldl
      (fun log q => logAppend log { ticket := q.ticket, ctl := q.ctl, op := q.work.op, row := q.work.row,
                                    outcome := .claimTimeout, generation := none, finish := s.clock }) s.log ∧
    (∀ n q, (s.lane n).slot = some q → q.state = .waiting → s.conflicts (.lane n) q.work = true →
      (q.waitLimit ≠ 0 → (t.lane n).slot = some { q with state := .blocked 0 }) ∧
      (q.waitLimit = 0 → (s.lane n).setup.policy = .halt →
        (t.lane n).state = .halted ∧ (t.lane n).slot = none ∧ (t.lane n).tag = .empty)) ∧
    let tested : Bool → Nat → RequestState → RequestState := fun conflict limit r =>
      if r = .waiting ∧ conflict = true ∧ limit ≠ 0 then .blocked 0 else r
    let refused : List QueueRequest := s.queue.filter fun q =>
      q.state = .waiting && q.waitLimit = 0 && s.conflicts (.ctl q.ctl) q.work
    let lanesRefused : List LaneId := (List.finRange 4).filter fun n =>
      (s.lane n).slot.any fun q => q.state = .waiting && q.waitLimit = 0 && s.conflicts (.lane n) q.work
    ∃ v : State,
      v = { s with lanes := v.lanes, queue := v.queue, log := t.log, events := v.events,
                   eventCounter := v.eventCounter } ∧
      (∀ n, v.lane n = { s.lane n with slot := (s.lane n).slot.map fun q =>
        { q with state := tested (s.conflicts (.lane n) q.work) q.waitLimit q.state } }) ∧
      v.queue = (s.queue.filter fun q => q ∉ refused).map (fun q =>
        { q with state := tested (s.conflicts (.ctl q.ctl) q.work) q.waitLimit q.state }) ∧
      v.events = (refused.foldl (fun (w : State) q => if q.notify = true then w.post
        { kind := .transferDone, source := .party (.ctl q.ctl), row := some q.work.row, ticket := some q.ticket,
          cause := some .claimTimeout } else w) s).events ∧
      let w : State := lanesRefused.foldl State.refuseSlot v
      t = { w with array := t.array, queue := t.queue, lanes := t.lanes, lastLane := t.lastLane, streak := t.streak } ∧
      (s.array = none →
        (∀ n, (∀ x, t.array = some (.transfer x) → x.requester ≠ .lane n) → t.lane n = w.lane n) ∧
        (∀ n x q, t.array = some (.transfer x) → x.requester = .lane n → (s.lane n).slot = some q →
          t.lane n = { w.lane n with slot := some { q with state := .active } }) ∧
        ((∀ x, t.array = some (.transfer x) → x.ticket = none) → t.queue = w.queue) ∧
        ∀ x k, t.array = some (.transfer x) → x.ticket = some k →
          t.queue = w.queue.map fun q => if q.ticket = k then { q with state := .active } else q)

/-- What the arbiter does with an occasion: nothing without one; while the array is busy or the part STARTING the
occasion is not kept; at an idle array a selection is made, and it is the last of the step when it starts an operation
or brings no new occasion. The arbiter changes only the array, the queue, the log, its two counters, the lanes and the
events. The selections of one step are bounded (log entry 5). -/
def Obligations.ArbiterTakesOccasions : Prop :=
  ∀ s : State,
    (s.occasion = false → s.arbitrate = s) ∧
    (s.array ≠ none ∨ s.partState = .starting → s.arbitrate = { s with occasion := false }) ∧
    (s.occasion = true → s.array = none → s.partState = .operating →
      (({ s with occasion := false } : State).select.array ≠ none →
        s.arbitrate = { ({ s with occasion := false } : State).select with occasion := false }) ∧
      (({ s with occasion := false } : State).select.occasion = false →
        s.arbitrate = ({ s with occasion := false } : State).select)) ∧
    s.arbitrate = { s with array := s.arbitrate.array, queue := s.arbitrate.queue, log := s.arbitrate.log,
                           lastLane := s.arbitrate.lastLane, streak := s.arbitrate.streak,
                           occasion := s.arbitrate.occasion, lanes := s.arbitrate.lanes,
                           events := s.arbitrate.events, eventCounter := s.arbitrate.eventCounter }


/-! ### The claim table -/

/-- The claim test: an operation of a requester conflicts with the table exactly when a claim of another holder that
is SOLE covers a row it reads, or one of either kind covers a row it writes. LOAD reads its row; STORE, CSTORE and
FILL write theirs; COPY reads its source and writes its destination. -/
def Obligations.ClaimTest : Prop :=
  ∀ (s : State) (p : Party) (w : Work),
    let reads : Work → List RowId := fun
      | .load r => [r]
      | .store _ _ => []
      | .cstore _ _ _ => []
      | .fill _ _ _ => []
      | .copy a _ _ => [a]
    let writes : Work → List RowId := fun
      | .load _ => []
      | .store r _ => [r]
      | .cstore r _ _ => [r]
      | .fill r _ _ => [r]
      | .copy _ b _ => [b]
    let covers : Claim → RowId → Prop := fun k r => k.first.val ≤ r.val ∧ r.val < k.first.val + k.count
    s.conflicts p w = true ↔
      ∃ i k, s.claim i = some k ∧ k.holder ≠ p ∧
        ((k.kind = .sole ∧ ∃ r ∈ reads w, covers k r) ∨ ∃ r ∈ writes w, covers k r)

/-- CLAIM in session. Out of range: BAD PARAMETER. A lane that is OFF: WRONG STATE. A conflicting claim in the table:
CONFLICT with the lowest such id. No empty slot: TABLE FULL. Otherwise the claim is in the lowest empty slot, OK with
that id, and nothing else of the part changes before the selection it brings; a refusal changes nothing. -/
def Obligations.ClaimGrantedOrRefused : Prop :=
  ∀ (s : State) (c : Ctl) (tag holder kind : Byte) (first count lease : Half),
    let i : Instr := .claim c tag holder kind first count lease
    s.executes i = true → s.session c = some tag →
    let inRange : Prop := holder.toNat ≤ 4 ∧ kind.toNat ≤ 1 ∧ first.toNat ≤ 511 ∧ 1 ≤ count.toNat ∧
      count.toNat ≤ 512 ∧ first.toNat + count.toNat ≤ 512 ∧ lease.toNat ≤ 6000 ∧ (holder ≠ 0 → lease = 0)
    let touches : Claim → Claim → Prop := fun a b =>
      (∃ r : RowId, a.first.val ≤ r.val ∧ r.val < a.first.val + a.count ∧
        b.first.val ≤ r.val ∧ r.val < b.first.val + b.count) ∧
      (a.holder = b.holder ∨ a.kind = .sole ∨ b.kind = .sole)
    (¬ inRange → exec i s = .next (s.answered .badParameter []).arbitrate) ∧
    ∀ new : Claim, inRange → new.holder = (if h : holder.toNat - 1 < 4 ∧ holder ≠ 0 then
        .lane ⟨holder.toNat - 1, h.1⟩ else .ctl c) →
      new.kind = (if kind = 0 then .shared else .sole) → new.first.val = first.toNat → new.count = count.toNat →
      new.lease = (if lease = 0 then none else some lease.toNat) →
      (∀ n, new.holder = .lane n → (s.lane n).state = .off →
        exec i s = .next (s.answered .wrongState []).arbitrate) ∧
      ((∀ n, new.holder = .lane n → (s.lane n).state ≠ .off) →
        (∀ j old, s.claim j = some old → touches old new →
          (∀ k older, k < j → s.claim k = some older → ¬ touches older new) →
          exec i s = .next (s.answered .conflict [BitVec.ofNat 8 j.val]).arbitrate) ∧
        ((∀ j old, s.claim j = some old → ¬ touches old new) →
          ((∀ j, s.claim j ≠ none) → exec i s = .next (s.answered .tableFull []).arbitrate) ∧
          ∀ j, s.claim j = none → (∀ k, k < j → s.claim k ≠ none) →
            exec i s = .next (({ s.setClaim j (some new) with occasion := true } : State).answered .ok
              [BitVec.ofNat 8 j.val]).arbitrate))

/-- RELEASE and RENEW in session, by the cases of their tables. A removal empties the slot, a claim-table change, and
posts no event; a renewal sets the lease alone, 0 for no lease; a refusal changes nothing. -/
def Obligations.ReleaseAndRenew : Prop :=
  ∀ (s : State) (c : Ctl) (tag id : Byte) (lease : Half), s.session c = some tag →
    (s.executes (.release c tag id) = true →
      (23 < id.toNat → exec (.release c tag id) s = .next (s.answered .badParameter []).arbitrate) ∧
      ∀ j : ClaimId, j.val = id.toNat →
        (s.claim j = none → exec (.release c tag id) s = .next (s.answered .notFound []).arbitrate) ∧
        ∀ k, s.claim j = some k →
          (∀ d, k.holder = .ctl d → d ≠ c →
            exec (.release c tag id) s = .next (s.answered .notHolder []).arbitrate) ∧
          (k.holder = .ctl c ∨ (∃ n, k.holder = .lane n) → exec (.release c tag id) s =
            .next (({ s.setClaim j none with occasion := true } : State).answered .ok []).arbitrate)) ∧
    (s.executes (.renew c tag id lease) = true →
      (23 < id.toNat ∨ 6000 < lease.toNat →
        exec (.renew c tag id lease) s = .next (s.answered .badParameter [])) ∧
      ∀ j : ClaimId, j.val = id.toNat → lease.toNat ≤ 6000 →
        (s.claim j = none → exec (.renew c tag id lease) s = .next (s.answered .notFound [])) ∧
        ∀ k, s.claim j = some k →
          (∀ n, k.holder = .lane n → exec (.renew c tag id lease) s = .next (s.answered .badParameter [])) ∧
          (∀ d, k.holder = .ctl d → d ≠ c →
            exec (.renew c tag id lease) s = .next (s.answered .notHolder [])) ∧
          (k.holder = .ctl c → exec (.renew c tag id lease) s = .next ((s.setClaim j (some
            { k with lease := if lease = 0 then none else some lease.toNat })).answered .ok [])))

/-! ### Lane clock edges -/

/-- What a lane drives: on LD, nothing as an IN lane, and as an OUT lane nothing in OFF and IDLE, the cell at the
pointer in RUNNING and the fill value in PRIMING, ARMED, STARVED, PAUSED and HALTED; READY exactly in RUNNING, and
MARK exactly there with the count at 0. Edges that complete no line. Outside RUNNING no cell moves: only the episode
counter of a lane in STARVED or BLOCKED rises by one, and stays at 65535 once there; an OUT lane in STARVED presents
its fill value (that the edge rows of both directions have this effect outside RUNNING is the model's choice, log
entry 9). In RUNNING one cell moves: pointer and count rise by one, the pointer modulo 128, and MARK is low; an OUT
lane has presented the cell at the pointer and then presents the next; an IN lane has written the byte on LD at the
pointer. Nothing else changes before a selection that is owed. -/
def Obligations.EdgesBeforeBoundary : Prop :=
  (∀ l : Lane,
    (l.setup.direction = .into → l.ldDrive = none) ∧
    (l.setup.direction = .out →
      (l.state = .off ∨ l.state = .idle → l.ldDrive = none) ∧
      (l.state = .running → l.ldDrive = some (l.active.read l.pointer.val)) ∧
      (l.state = .priming ∨ l.state = .armed ∨ l.state = .starved ∨ l.state = .paused ∨ l.state = .halted →
        l.ldDrive = some l.setup.fill)) ∧
    (l.ready = true ↔ l.state = .running) ∧ (l.mark = true ↔ l.state = .running ∧ l.count = 0)) ∧
  (∀ (s : State) (n : LaneId) (ld : Byte), (s.lane n).state ≠ .running →
    ∃ t : State, exec (.laneClockEdgeOutsideRunning n) s = .next t ∧ exec (.outLaneClockEdge n) s = .next t ∧
      exec (.inLaneClockEdge n ld) s = .next t ∧ t = { s with lanes := t.lanes } ∧
      (∀ m, m ≠ n → t.lane m = s.lane m) ∧
      t.lane n = { s.lane n with
        episode := if ((s.lane n).state = .starved ∨ (s.lane n).state = .blocked) ∧ (s.lane n).episode ≠ 65535 then
          (s.lane n).episode + 1 else (s.lane n).episode } ∧
      ((s.lane n).state = .starved → (s.lane n).setup.direction = .out →
        (t.lane n).ldDrive = some (s.lane n).setup.fill)) ∧
  ∀ (s : State) (n : LaneId) (r : LineRef) (ld : Byte), (s.lane n).state = .running →
    (s.lane n).current = some r → (s.lane n).count + 1 ≠ r.span.len →
    ((s.lane n).setup.direction = .out →
      ∃ u : State, exec (.outLaneClockEdge n) s = .next u.arbitrate ∧ u = { s with lanes := u.lanes } ∧
        (∀ m, m ≠ n → u.lane m = s.lane m) ∧
        u.lane n = { s.lane n with pointer := (s.lane n).pointer + 1, count := (s.lane n).count + 1 } ∧
        (s.lane n).ldDrive = some ((s.lane n).active.read (s.lane n).pointer.val) ∧
        (u.lane n).ldDrive = some ((s.lane n).active.read (((s.lane n).pointer.val + 1) % 128)) ∧
        (u.lane n).mark = false ∧ (u.lane n).ready = true) ∧
    ((s.lane n).setup.direction = .into →
      ∃ u : State, exec (.inLaneClockEdge n ld) s = .next u.arbitrate ∧ u = { s with lanes := u.lanes } ∧
        (∀ m, m ≠ n → u.lane m = s.lane m) ∧
        u.lane n = { s.lane n with active := (u.lane n).active, pointer := (s.lane n).pointer + 1,
                                   count := (s.lane n).count + 1 } ∧
        (∀ k, (u.lane n).active.read k =
          if k = (s.lane n).pointer.val then ld else (s.lane n).active.read k) ∧
        (u.lane n).mark = false ∧ (u.lane n).ready = true)

/-- The boundary of an OUT lane: the edge that moves the last cell of the line adds one to lines completed, moves the
show position to the line to show next, retiring the entries before it in ONCE mode, and takes the first case of Table
4-4 that applies. A pending stop: IDLE with slot and staging empty, an ACTIVE operation of the lane marked DISCARD, the
list rolled back. The pause flag of the entry that ends: PAUSED with LANE PAUSED, slot and staging kept. Staging FULL:
the staged line is current and shown from its tap, RUNNING, and the next line is requested. Staging PENDING: STARVED
with episode 0, the request kept. Staging EMPTY: the next line asked for gives STARVED with its LOAD placed, or RUNNING
on a line of fill values with the line after it requested, or LANE DONE and IDLE. -/
def Obligations.OutBoundary : Prop :=
  ∀ (s : State) (n : LaneId) (r : LineRef), (s.lane n).state = .running → (s.lane n).setup.direction = .out →
    (s.lane n).current = some r → (s.lane n).count + 1 = r.span.len →
    let l := s.lane n
    let p := l.showsNext
    let k := l.retires p
    let kept := l.list.entries.drop k
    ∃ u : State, exec (.outLaneClockEdge n) s = .next u.arbitrate ∧
      u = { s with lanes := u.lanes, events := u.events, eventCounter := u.eventCounter, occasion := u.occasion,
                   array := u.array } ∧
      (∀ m, m ≠ n → u.lane m = s.lane m) ∧ (u.lane n).lines = l.lines + 1 ∧ (u.lane n).setup = l.setup ∧
      (l.stopPending = true →
        (u.lane n).state = .idle ∧ (u.lane n).slot = none ∧ (u.lane n).tag = .empty ∧
        (u.lane n).stopPending = false ∧ (u.lane n).list = l.listAfter p p false ∧ u.array = s.givenUp n ∧
        u.events = s.events) ∧
      (l.stopPending = false → u.array = s.array ∧
        let ends : Prop := ∃ e, l.list.entries[l.list.shown.entry]? = some e ∧ e.pause = true ∧
          e.repeats ≤ l.list.shown.rep + 1
        (ends →
          (u.lane n).state = .paused ∧ (u.lane n).slot = l.slot ∧ (u.lane n).staging = l.staging ∧
          (u.lane n).tag = l.tag.fallen k ∧ (u.lane n).list = l.listAfter p l.list.fetch false ∧
          u.events = (s.post { kind := .lanePaused, source := .party (.lane n),
                               count := some (BitVec.ofNat 16 l.list.shown.entry) }).events) ∧
        (¬ ends → ∀ x g, l.tag = .full x g →
          (u.lane n).state = .running ∧ (u.lane n).current = some (x.fallen k) ∧ (u.lane n).active = l.staging ∧
          (u.lane n).pointer = x.span.tap ∧ (u.lane n).count = 0 ∧ (u.lane n).mark = true ∧
          (u.lane n).list = { l.listAfter p l.list.fetch true with fetch := (u.lane n).list.fetch } ∧
          u.AskedAt n (l.list.fetch.fallen k) l.slot ∧
          (u.lane n).ldDrive = some (l.staging.read x.span.tap.val) ∧ u.events = s.events) ∧
        (¬ ends → ∀ x, l.tag = .pending x →
          (u.lane n).state = .starved ∧ (u.lane n).episode = 0 ∧ (u.lane n).slot = l.slot ∧
          (u.lane n).tag = .pending (x.fallen k) ∧ (u.lane n).count = r.span.len ∧
          (u.lane n).list = l.listAfter p l.list.fetch false ∧
          (u.lane n).ldDrive = some l.setup.fill ∧ u.events = s.events) ∧
        (¬ ends → l.tag = .empty →
          (l.nextLine = none →
            (u.lane n).state = .idle ∧ (u.lane n).slot = l.slot ∧ (u.lane n).tag = .empty ∧
            (u.lane n).list = l.listAfter p p false ∧
            u.events = (s.post { kind := .laneDone, source := .party (.lane n), count := some (l.lines + 1) }).events) ∧
          (∀ x row, l.nextLine = some x → x.row = some row →
            (u.lane n).state = .starved ∧ (u.lane n).episode = 0 ∧ u.occasion = true ∧
            (u.lane n).slot = some { work := .load row, waitLimit := l.setup.waitLimit, state := .waiting } ∧
            (u.lane n).tag = .pending (x.fallen k) ∧
            (u.lane n).list = { l.listAfter p p false with
              fetch := positionAfter kept l.setup.mode (p.fallen k) } ∧ u.events = s.events) ∧
          ∀ x, l.nextLine = some x → x.row = none →
            (u.lane n).state = .running ∧ (u.lane n).current = some (x.fallen k) ∧
            (∀ j, j < 128 → (u.lane n).active.read j = l.setup.fill) ∧
            (u.lane n).pointer = x.span.tap ∧ (u.lane n).count = 0 ∧ (u.lane n).mark = true ∧
            (u.lane n).list = { l.listAfter p p true with fetch := (u.lane n).list.fetch } ∧
            u.AskedAt n (positionAfter kept l.setup.mode (p.fallen k)) l.slot ∧ u.events = s.events))

/-- The boundary of an IN lane: the edge that captures the last cell of the line adds one to lines completed, moves the
show position to the fetch position, retiring the entries before it in ONCE mode, disposes of the line and takes the
first case of Table 4-5 that applies. A line with a row goes to staging, PENDING, with its STORE placed when staging is
EMPTY, and is held otherwise; a blank line is dropped. A pending stop: DRAINING with cause STOP, or IDLE with nothing
left to store. The pause flag: PAUSED with LANE PAUSED. No next line: DRAINING with cause END, or LANE DONE and IDLE. A
held line: BLOCKED with the line to follow. Otherwise the next line is current. A line taken moves the fetch position
to its successor. -/
def Obligations.InBoundary : Prop :=
  ∀ (s : State) (n : LaneId) (r : LineRef) (ld : Byte), (s.lane n).state = .running →
    (s.lane n).setup.direction = .into → (s.lane n).current = some r → (s.lane n).count + 1 = r.span.len →
    (s.lane n).held = false →
    let l := s.lane n
    let p := l.list.fetch
    let k := l.retires p
    let next : Position := positionAfter (l.list.entries.drop k) l.setup.mode (p.fallen k)
    ∃ u : State, exec (.inLaneClockEdge n ld) s = .next u.arbitrate ∧
      u = { s with lanes := u.lanes, events := u.events, eventCounter := u.eventCounter, occasion := u.occasion } ∧
      (∀ m, m ≠ n → u.lane m = s.lane m) ∧ (u.lane n).lines = l.lines + 1 ∧ (u.lane n).setup = l.setup ∧
      let ends : Prop := ∃ e, l.list.entries[l.list.shown.entry]? = some e ∧ e.pause = true ∧
        e.repeats ≤ l.list.shown.rep + 1
      let captured : Memory → Prop := fun m => ∀ j, m.read j = if j = l.pointer.val then ld else l.active.read j
      (∀ row, r.row = some row → l.tag = .empty →
        captured (u.lane n).staging ∧ u.occasion = true ∧ (u.lane n).held = false ∧
        (u.lane n).slot = some { work := .store row r.span, waitLimit := l.setup.waitLimit, state := .waiting } ∧
        (u.lane n).tag = .pending (r.fallen k)) ∧
      (∀ row, r.row = some row → l.tag ≠ .empty →
        captured (u.lane n).active ∧ (u.lane n).held = true ∧ (u.lane n).slot = l.slot ∧
        (u.lane n).staging = l.staging ∧ (u.lane n).count = r.span.len ∧ (u.lane n).tag = l.tag.fallen k ∧
        (u.lane n).current = some (r.fallen k)) ∧
      (r.row = none → (u.lane n).slot = l.slot ∧ (u.lane n).staging = l.staging ∧
        (u.lane n).tag = l.tag.fallen k ∧ (u.lane n).held = false) ∧
      (l.stopPending = true → u.events = s.events ∧ (u.lane n).list = l.listAfter p p false ∧
        (r.row = none ∧ l.tag = .empty → (u.lane n).state = .idle) ∧
        (r.row ≠ none ∨ l.tag ≠ .empty → (u.lane n).state = .draining ∧ (u.lane n).drain = some .stop)) ∧
      (l.stopPending = false → ends → (u.lane n).state = .paused ∧ (u.lane n).list = l.listAfter p p false ∧
        u.events = (s.post { kind := .lanePaused, source := .party (.lane n),
                             count := some (BitVec.ofNat 16 l.list.shown.entry) }).events) ∧
      (l.stopPending = false → ¬ ends → l.nextLine = none → (u.lane n).list = l.listAfter p p false ∧
        (r.row = none ∧ l.tag = .empty → (u.lane n).state = .idle ∧
          u.events = (s.post { kind := .laneDone, source := .party (.lane n), count := some (l.lines + 1) }).events) ∧
        (r.row ≠ none ∨ l.tag ≠ .empty → (u.lane n).state = .draining ∧ (u.lane n).drain = some .listEnd ∧
          u.events = s.events)) ∧
      ∀ x, l.stopPending = false → ¬ ends → l.nextLine = some x → u.events = s.events ∧
        (r.row ≠ none ∧ l.tag ≠ .empty → (u.lane n).state = .blocked ∧ (u.lane n).episode = 0 ∧
          (u.lane n).follow = some (x.fallen k) ∧ (u.lane n).list = { l.listAfter p p false with fetch := next }) ∧
        (r.row = none ∨ l.tag = .empty → (u.lane n).state = .running ∧ (u.lane n).current = some (x.fallen k) ∧
          (u.lane n).list = { l.listAfter p p true with fetch := next } ∧
          (u.lane n).pointer = x.span.tap ∧ (u.lane n).count = 0 ∧ (u.lane n).mark = true)

/-! ### Completion reports at a lane -/

/-- A LOAD report with delivery KEEP at a lane in PRIMING or STARVED whose staging is PENDING: the row's 128 cells are
the active register, the line is current at its tap with count 0, the show position names it, SHOWING, and the next
line is requested. From PRIMING the lane is RUNNING or, by its start mode, ARMED, and posts nothing; from STARVED it is
RUNNING and posts LINE STARVED with the row and the episode counter. -/
def Obligations.LoadReportShowsLine : Prop :=
  ∀ (s : State) (x : Transfer) (r : RowId) (n : LaneId) (line : LineRef), s.array = some (.transfer x) →
    x.work = .load r → x.requester = .lane n → x.discard = false → x.softReset = false →
    (s.lane n).tag = .pending line →
    let l := s.lane n
    let p : Position := { entry := line.entry, rep := line.rep }
    let k := l.retires p
    ∃ u : State, exec .loadCompletion s = .next u.arbitrate ∧ (∀ m, m ≠ n → u.lane m = s.lane m) ∧
      u = { s with refreshPointer := u.refreshPointer, refreshDebt := u.refreshDebt, array := none, occasion := true,
                   lanes := u.lanes, events := u.events, eventCounter := u.eventCounter } ∧
      (l.state = .priming ∨ l.state = .starved →
        (∀ j, j < 128 → (u.lane n).active.read j = s.readCell (128 * r.val + j)) ∧
        (u.lane n).current = some (line.fallen k) ∧ (u.lane n).pointer = line.span.tap ∧ (u.lane n).count = 0 ∧
        (u.lane n).lines = l.lines ∧ (u.lane n).setup = l.setup ∧
        (u.lane n).list = { l.listAfter p l.list.fetch true with fetch := (u.lane n).list.fetch } ∧
        u.AskedAt n (l.list.fetch.fallen k) none) ∧
      (l.state = .priming →
        (u.lane n).state = (if l.startMode = some .armed then .armed else .running) ∧ u.events = s.events) ∧
      (l.state = .starved → (u.lane n).state = .running ∧
        u.events = (s.post { kind := .lineStarved, source := .party (.lane n), row := line.row,
                             count := some l.episode }).events)

/-- A STORE report at a lane: its slot and staging are free, and what the lane does then is by its state. In RUNNING or
ARMED nothing else changes. In BLOCKED the held line goes to staging with its STORE placed, or is dropped when blank,
the line to follow is current, shown and RUNNING, and LINE LOST is posted with the stored row and the episode counter.
In DRAINING or PAUSED a held line goes to staging in the same way and the state stands; with no line held a PAUSED lane
stays so, and a DRAINING one is IDLE with its list rolled back, LANE DONE posted exactly when the drain cause is END.
A report marked DISCARD, or as following a soft reset, changes no lane. Nothing of the rest of the part changes but what
the array itself does at the completion. -/
def Obligations.StoreReportFreesStaging : Prop :=
  ∀ (s : State) (x : Transfer) (row : RowId) (sp : Span) (n : LaneId), s.array = some (.transfer x) →
    x.work = .store row sp → x.requester = .lane n →
    ∃ u : State, exec .storeCompletion s = .next u.arbitrate ∧ (∀ m, m ≠ n → u.lane m = s.lane m) ∧
      u = { s with cells := u.cells, records := u.records, refreshPointer := u.refreshPointer,
                   refreshDebt := u.refreshDebt, array := none, occasion := true, lanes := u.lanes,
                   events := u.events, eventCounter := u.eventCounter } ∧
      (x.discard = true ∨ x.softReset = true → u.lane n = s.lane n ∧ u.events = s.events) ∧
      (x.discard = false → x.softReset = false → s.StagingFreed u n s row)

/-! ### Lane commands -/

/-- LANE SETUP in session: a byte out of range, BAD PARAMETER; a lane neither OFF nor IDLE, WRONG STATE; otherwise the
five fields are as given, the lane is IDLE, and everything else of the lane and the part stands. -/
def Obligations.LaneSetupWritesFields : Prop :=
  ∀ (s : State) (c : Ctl) (tag lane direction fill policy mode wait : Byte),
    let i : Instr := .laneSetup c tag lane direction fill policy mode wait
    s.executes i = true → s.session c = some tag →
    (3 < lane.toNat ∨ 1 < direction.toNat ∨ 1 < policy.toNat ∨ 1 < mode.toNat →
      exec i s = .next (s.answered .badParameter [])) ∧
    ∀ n : LaneId, n.val = lane.toNat → direction.toNat ≤ 1 → policy.toNat ≤ 1 → mode.toNat ≤ 1 →
      ((s.lane n).state ≠ .off → (s.lane n).state ≠ .idle → exec i s = .next (s.answered .wrongState [])) ∧
      ((s.lane n).state = .off ∨ (s.lane n).state = .idle →
        exec i s = .next ((s.setLane n { s.lane n with
          state := .idle
          setup := { direction := if direction = 0 then .out else .into, fill, waitLimit := wait.toNat
                     policy := if policy = 0 then .skip else .halt
                     mode := if mode = 0 then .once else .cycle } }).answered .ok []))

/-- LANE START in session: out of range, BAD PARAMETER; an ARMED lane started NOW is RUNNING; an IDLE lane with
entries starts; in every other case WRONG STATE and no change. A start sets lines completed to 0. An OUT lane whose
first line has a row is PRIMING with its LOAD placed; with a blank first line it shows the line of fill values at
once and the next line is requested. An IN lane has its first line current at its tap. NOW leads to RUNNING and ARMED
to ARMED. The show position is the fetch position the start found, earlier entries retired in ONCE mode, and the fetch
position its successor. -/
def Obligations.LaneStartByState : Prop :=
  ∀ (s : State) (c : Ctl) (tag lane mode : Byte),
    let i : Instr := .laneStart c tag lane mode
    s.executes i = true → s.session c = some tag →
    (3 < lane.toNat ∨ 1 < mode.toNat → exec i s = .next (s.answered .badParameter []).arbitrate) ∧
    ∀ n : LaneId, n.val = lane.toNat → mode.toNat ≤ 1 →
      let started : LaneState := if mode = 0 then .running else .armed
      ((s.lane n).state ≠ .idle → (s.lane n).state ≠ .armed ∨ mode = 1 →
        exec i s = .next (s.answered .wrongState []).arbitrate) ∧
      ((s.lane n).state = .armed → mode = 0 →
        exec i s = .next ((s.setLane n { s.lane n with state := .running }).answered .ok []).arbitrate) ∧
      ((s.lane n).state = .idle → (s.lane n).list.entries = [] →
        exec i s = .next (s.answered .wrongState []).arbitrate) ∧
      let l := s.lane n
      let k : Nat := if l.setup.mode = .once then l.list.fetch.entry else 0
      let shown : Position := l.list.fetch.fallen k
      let next : Position := positionAfter (l.list.entries.drop k) l.setup.mode shown
      ∀ x, (s.lane n).state = .idle → (s.lane n).list.entries ≠ [] → (s.lane n).nextLine = some x →
        ∃ u : State, exec i s = .next (u.answered .ok []).arbitrate ∧
          u = { s with lanes := u.lanes, occasion := u.occasion } ∧ (∀ m, m ≠ n → u.lane m = s.lane m) ∧
          (u.lane n).lines = 0 ∧ (u.lane n).stopPending = false ∧ (u.lane n).held = false ∧
          (u.lane n).setup = (s.lane n).setup ∧
          (∀ row, (s.lane n).setup.direction = .out → x.row = some row →
            (u.lane n).state = .priming ∧ (u.lane n).current = none ∧ u.occasion = true ∧
            (u.lane n).startMode = some (if mode = 0 then .now else .armed) ∧
            (u.lane n).tag = .pending (x.fallen k) ∧
            (u.lane n).list = { entries := l.list.entries.drop k, fetch := next, shown, showing := false } ∧
            (u.lane n).slot = some { work := .load row, waitLimit := (s.lane n).setup.waitLimit, state := .waiting } ∧
            (u.lane n).ldDrive = some (s.lane n).setup.fill) ∧
          ((s.lane n).setup.direction = .out → x.row = none →
            (u.lane n).state = started ∧ (∀ k, k < 128 → (u.lane n).active.read k = (s.lane n).setup.fill) ∧
            (u.lane n).current = some (x.fallen k) ∧
            (u.lane n).list = { entries := l.list.entries.drop k, fetch := (u.lane n).list.fetch, shown,
                                showing := true } ∧
            u.AskedAt n next l.slot ∧
            (u.lane n).pointer = x.span.tap ∧ (u.lane n).count = 0) ∧
          ((s.lane n).setup.direction = .into →
            (u.lane n).state = started ∧ (u.lane n).tag = .empty ∧ (u.lane n).slot = (s.lane n).slot ∧
            (u.lane n).current = some (x.fallen k) ∧
            (u.lane n).list = { entries := l.list.entries.drop k, fetch := next, shown, showing := true } ∧
            (u.lane n).pointer = x.span.tap ∧ (u.lane n).count = 0)

/-- LANE STOP in session: out of range, BAD PARAMETER; OFF, WRONG STATE; otherwise OK. IDLE changes nothing. BOUNDARY
makes a stop pending in RUNNING, changes nothing in DRAINING, takes BLOCKED and a PAUSED IN lane with something left
to store to DRAINING with cause STOP, and a PAUSED IN lane with nothing left to IDLE with its list rolled back. In
every other state, and in mode IMMEDIATE, the lane is IDLE at once: slot and staging empty, no held line, no pending
stop, no start mode; setup, lines completed, episode counter, pointer and count stand; the list is rolled back, after
the line last shown; an ACTIVE operation of the lane is marked DISCARD and no other changes. The other lanes stand. -/
def Obligations.LaneStopByState : Prop :=
  ∀ (s : State) (c : Ctl) (tag lane mode : Byte),
    let i : Instr := .laneStop c tag lane mode
    s.executes i = true → s.session c = some tag →
    (3 < lane.toNat ∨ 1 < mode.toNat → exec i s = .next (s.answered .badParameter [])) ∧
    ∀ n : LaneId, n.val = lane.toNat → mode.toNat ≤ 1 →
      let l := s.lane n
      let atBoundary : Prop := mode = 0 ∧ (l.state = .running ∨ l.state = .blocked ∨ l.state = .draining ∨
        (l.state = .paused ∧ l.setup.direction = .into))
      (l.state = .off → exec i s = .next (s.answered .wrongState [])) ∧
      (l.state = .idle → exec i s = .next (s.answered .ok [])) ∧
      (l.state = .running → mode = 0 →
        exec i s = .next ((s.setLane n { l with stopPending := true }).answered .ok [])) ∧
      (l.state = .draining → mode = 0 → exec i s = .next (s.answered .ok [])) ∧
      (l.state = .blocked ∨ (l.state = .paused ∧ l.setup.direction = .into ∧ (l.tag ≠ .empty ∨ l.held = true)) →
        mode = 0 → exec i s = .next ((s.setLane n { l with
          state := .draining, drain := some .stop, stopPending := false, follow := none }).answered .ok [])) ∧
      (l.state = .paused → l.setup.direction = .into → l.tag = .empty → l.held = false → mode = 0 →
        exec i s = .next ((s.setLane n { l with
          state := .idle, stopPending := false, follow := none, drain := none, list := l.rolledBack
          current := l.current.map (LineRef.fallen (l.retires l.restartsAt)) }).answered .ok [])) ∧
      (l.state ≠ .off → l.state ≠ .idle → ¬ atBoundary →
        exec i s = .next (({ s.setLane n l.stopped with array := s.givenUp n } : State).answered .ok []))

/-- LANE RESUME in session: out of range, BAD PARAMETER; a lane that is not PAUSED, WRONG STATE. A PAUSED OUT lane
with staging FULL shows the staged line, RUNNING, and requests the next; with staging PENDING it is STARVED with episode
0. With staging EMPTY it asks for the next line: one with a row gives STARVED with its LOAD placed, a blank one is
shown, RUNNING, with the line after it requested, and with none the lane posts LANE DONE and is IDLE. A PAUSED IN lane
that finds a next line has it current, RUNNING, or with a line held is BLOCKED with it to follow and episode 0; one
that finds none is DRAINING with cause END, or with nothing left to store posts LANE DONE and is IDLE. -/
def Obligations.LaneResumeFromPause : Prop :=
  ∀ (s : State) (c : Ctl) (tag lane : Byte),
    let i : Instr := .laneResume c tag lane
    s.executes i = true → s.session c = some tag →
    (3 < lane.toNat → exec i s = .next (s.answered .badParameter []).arbitrate) ∧
    ∀ n : LaneId, n.val = lane.toNat →
      let l := s.lane n
      let next : Position := positionAfter l.list.entries l.setup.mode l.list.fetch
      (l.state ≠ .paused → exec i s = .next (s.answered .wrongState []).arbitrate) ∧
      (l.state = .paused →
        ∃ u : State, exec i s = .next (u.answered .ok []).arbitrate ∧
          u = { s with lanes := u.lanes, events := u.events, eventCounter := u.eventCounter,
                       occasion := u.occasion } ∧
          (∀ m, m ≠ n → u.lane m = s.lane m) ∧ (u.lane n).lines = l.lines ∧ (u.lane n).setup = l.setup ∧
          (∀ x g, l.setup.direction = .out → l.tag = .full x g →
            let p : Position := { entry := x.entry, rep := x.rep }
            (u.lane n).state = .running ∧ (u.lane n).active = l.staging ∧
            (u.lane n).current = some (x.fallen (l.retires p)) ∧
            (u.lane n).list = { l.listAfter p l.list.fetch true with fetch := (u.lane n).list.fetch } ∧
            u.AskedAt n (l.list.fetch.fallen (l.retires p)) l.slot ∧
            (u.lane n).pointer = x.span.tap ∧ (u.lane n).count = 0 ∧ u.events = s.events) ∧
          (∀ x, l.setup.direction = .out → l.tag = .pending x →
            u.lane n = { l with state := .starved, episode := 0 } ∧ u.events = s.events) ∧
          (l.setup.direction = .out → l.tag = .empty →
            (∀ x row, l.nextLine = some x → x.row = some row →
              u.lane n = { l with
                state := .starved, episode := 0, tag := .pending x, list := { l.list with fetch := next }
                slot := some { work := .load row, waitLimit := l.setup.waitLimit, state := .waiting } } ∧
              u.occasion = true ∧ u.events = s.events) ∧
            (∀ x, l.nextLine = some x → x.row = none →
              let p := l.list.fetch
              (u.lane n).state = .running ∧ (u.lane n).current = some (x.fallen (l.retires p)) ∧
              (∀ j, j < 128 → (u.lane n).active.read j = l.setup.fill) ∧
              (u.lane n).pointer = x.span.tap ∧ (u.lane n).count = 0 ∧
              (u.lane n).list = { l.listAfter p p true with fetch := (u.lane n).list.fetch } ∧
              u.AskedAt n (next.fallen (l.retires p)) l.slot ∧ u.events = s.events) ∧
            (l.nextLine = none →
              (u.lane n).state = .idle ∧ (u.lane n).slot = l.slot ∧ (u.lane n).tag = .empty ∧
              (u.lane n).list = l.rolledBack ∧
              u.events = (s.post { kind := .laneDone, source := .party (.lane n), count := some l.lines }).events)) ∧
          (∀ x, l.setup.direction = .into → l.nextLine = some x →
            u.events = s.events ∧
            (l.held = true →
              u.lane n = { l with state := .blocked, episode := 0, follow := some x
                                  list := { l.list with fetch := next } }) ∧
            (l.held = false → (u.lane n).state = .running ∧
              (u.lane n).current = some (x.fallen (l.retires l.list.fetch)) ∧
              (u.lane n).list = l.listAfter l.list.fetch next true ∧
              (u.lane n).slot = l.slot ∧ (u.lane n).pointer = x.span.tap ∧ (u.lane n).count = 0)) ∧
          (l.setup.direction = .into → l.nextLine = none →
            (l.tag ≠ .empty ∨ l.held = true →
              (u.lane n).state = .draining ∧ (u.lane n).drain = some .listEnd ∧ (u.lane n).list = l.list ∧
              u.events = s.events) ∧
            (l.tag = .empty → l.held = false → (u.lane n).state = .idle ∧ (u.lane n).list = l.rolledBack ∧
              u.events = (s.post { kind := .laneDone, source := .party (.lane n), count := some l.lines }).events)))

/-- LANE RESET in session: out of range, BAD PARAMETER; a lane in OFF stands; any other lane is OFF at its reset
values, its slot empty, an ACTIVE operation of its own marked DISCARD and no other changed, and every claim it held is
removed with CLAIM ENDED, cause LANE RESET, in ascending claim id order. The other claims and lanes stand. -/
def Obligations.LaneResetEndsLane : Prop :=
  ∀ (s : State) (c : Ctl) (tag lane : Byte),
    let i : Instr := .laneReset c tag lane
    s.executes i = true → s.session c = some tag →
    (3 < lane.toNat → exec i s = .next (s.answered .badParameter []).arbitrate) ∧
    ∀ n : LaneId, n.val = lane.toNat →
      ((s.lane n).state = .off → exec i s = .next (s.answered .ok []).arbitrate) ∧
      ((s.lane n).state ≠ .off →
        ∃ u : State, exec i s = .next (u.answered .ok []).arbitrate ∧
          u = { s with lanes := u.lanes, claims := u.claims, events := u.events, eventCounter := u.eventCounter,
                       occasion := u.occasion, array := u.array } ∧
          (∀ m, m ≠ n → u.lane m = s.lane m) ∧
          u.lane n = { Lane.off with active := (u.lane n).active, staging := (u.lane n).staging } ∧
          (u.lane n).ldDrive = none ∧ (u.lane n).ready = false ∧ (u.lane n).mark = false ∧
          u.array = s.givenUp n ∧
          (∀ j, u.claim j = (s.claim j).bind fun k => if k.holder = .lane n then none else some k) ∧
          u.events = ((List.finRange 24).foldl (fun v j =>
            match s.claim j with
            | some k => if k.holder = .lane n then v.post
                { kind := .claimEnded, source := .party (.lane n), row := some k.first, claimId := some j,
                  count := some (BitVec.ofNat 16 k.count), cause := some .laneReset } else v
            | none => v) s).events)

/-- LANE STATUS in session: out of range, BAD PARAMETER; otherwise OK in every state with the 35 bytes of section 9.6,
and nothing else of the part changes. -/
def Obligations.LaneStatusLayout : Prop :=
  ∀ (s : State) (c : Ctl) (tag lane : Byte), s.executes (.laneStatus c tag lane) = true → s.session c = some tag →
    let b : Nat → Byte := BitVec.ofNat 8
    let wide : Half → List Byte := fun h => [b (h.toNat / 256), b h.toNat]
    let stateCode : LaneState → Byte := fun
      | .off => 0
      | .idle => 1
      | .priming => 2
      | .armed => 3
      | .running => 4
      | .starved => 5
      | .blocked => 6
      | .draining => 7
      | .paused => 8
      | .halted => 9
    let ref : Option LineRef → List Byte := fun
      | none => [0xFF, 0xFF, 0xFF, 0xFF, 0xFF, 0xFF]
      | some r => [b r.entry, b r.rep] ++ (match r.row with
          | some x => [b (x.val / 256), b x.val]
          | none => [0xFF, 0xFF]) ++ [b r.span.tap.val, b r.span.len]
    (3 < lane.toNat → exec (.laneStatus c tag lane) s = .next (s.answered .badParameter [])) ∧
    ∀ n : LaneId, n.val = lane.toNat →
      let l := s.lane n
      let body : List Byte :=
        [stateCode l.state, b ((if l.stopPending then 1 else 0) + (if l.held then 2 else 0)),
          if l.setup.direction = .out then 0 else 1, l.setup.fill, if l.setup.policy = .skip then 0 else 1,
          if l.setup.mode = .once then 0 else 1, b l.setup.waitLimit, b l.pointer.val, b l.count] ++
        ref l.current ++ ref (if l.state = .blocked then l.follow else none) ++
        (match l.tag with
          | .empty => [0] ++ ref none ++ [0, 0, 0]
          | .pending r => [1] ++ ref (some r) ++ [0, 0, 0]
          | .full r none => [2] ++ ref (some r) ++ [0, 0, 0]
          | .full r (some g) => [2] ++ ref (some r) ++ [1] ++ wide g) ++
        wide l.lines ++ wide l.episode
      exec (.laneStatus c tag lane) s = .next (s.answered .ok body) ∧ body.length = 35

/-- GROUP START and GROUP HALT at the lanes, as rows of their own (log entry 4), in every state of the part: of the
lanes the mask selects, bit n for lane n, GROUP START makes an ARMED lane RUNNING and changes no other; GROUP HALT
gives every lane that is neither OFF nor IDLE the immediate stop. A lane not selected stands, and nothing of the rest
of the part changes but the operation in flight: it is marked DISCARD when it is the ACTIVE one of a lane so stopped,
and stands otherwise. -/
def Obligations.GroupCommandsAtLanes : Prop :=
  ∀ (s : State) (mask : Byte),
    (∃ t : State, exec (.groupStart mask) s = .next t ∧ t = { s with lanes := t.lanes } ∧
      ∀ n, t.lane n = if mask.getLsbD n.val = true ∧ (s.lane n).state = .armed then
        { s.lane n with state := .running } else s.lane n) ∧
    let stops : LaneId → Prop := fun n =>
      mask.getLsbD n.val = true ∧ (s.lane n).state ≠ .off ∧ (s.lane n).state ≠ .idle
    ∃ t : State, exec (.groupHalt mask) s = .next t ∧ t = { s with lanes := t.lanes, array := t.array } ∧
      (∀ n, (stops n → t.lane n = (s.lane n).stopped) ∧ (¬ stops n → t.lane n = s.lane n)) ∧
      (∀ n x, s.array = some (.transfer x) → x.requester = .lane n → stops n → t.array = s.givenUp n) ∧
      ((∀ n x, s.array = some (.transfer x) → x.requester = .lane n → ¬ stops n) → t.array = s.array)


/-! ### Row lists -/

/-- LIST APPEND in session. A lane byte above 3 or an entry out of range: BAD PARAMETER. A lane in OFF: WRONG STATE.
More than 16 entries: LIST FULL and none appended. Otherwise the entries, with the fields of the frame, stand at the
end of the list in their order, OK with the index of the first and the new count; nothing else changes. -/
def Obligations.ListAppend : Prop :=
  ∀ (s : State) (c : Ctl) (tag lane : Byte) (raw : List RawEntry),
    let i : Instr := .listAppend c tag lane raw
    s.executes i = true → s.session c = some tag →
    let inRange : RawEntry → Prop := fun e =>
      (e.row.toNat ≤ 511 ∨ e.row.toNat = 65535) ∧ e.tap.toNat ≤ 127 ∧ 1 ≤ e.span.toNat ∧ e.span.toNat ≤ 128 ∧
      1 ≤ e.repeats.toNat ∧ e.repeats.toNat ≤ 16 ∧ e.pause.toNat ≤ 1
    let names : RawEntry → Entry → Prop := fun e x =>
      x.row.map (·.val) = (if e.row.toNat = 65535 then none else some e.row.toNat) ∧ x.span.tap.val = e.tap.toNat ∧
      x.span.len = e.span.toNat ∧ x.repeats = e.repeats.toNat ∧ x.pause = decide (e.pause = 1)
    (3 < lane.toNat ∨ (∃ e ∈ raw, ¬ inRange e) → exec i s = .next (s.answered .badParameter [])) ∧
    ∀ n : LaneId, n.val = lane.toNat → (∀ e ∈ raw, inRange e) →
      let held : Nat := (s.lane n).list.entries.length
      ((s.lane n).state = .off → exec i s = .next (s.answered .wrongState [])) ∧
      ((s.lane n).state ≠ .off → 16 < held + raw.length → exec i s = .next (s.answered .listFull [])) ∧
      ((s.lane n).state ≠ .off → held + raw.length ≤ 16 → ∃ new : List Entry, List.Forall₂ names raw new ∧
        exec i s = .next ((s.setLane n { s.lane n with
            list := { (s.lane n).list with entries := (s.lane n).list.entries ++ new } }).answered .ok
          [BitVec.ofNat 8 held, BitVec.ofNat 8 (held + raw.length)]))

/-- LIST TRIM in session. A lane byte above 3, or a maximum of 0 or above 16: BAD PARAMETER. A lane in OFF, or one
with a CYCLE list that is not IDLE: WRONG STATE. Otherwise it removes open entries from the end, up to the maximum,
and stops at the first that is not open; OK with the number removed. The positions of a streaming lane stand; in IDLE
a position at or past the new count becomes (0, 0). Nothing else changes. -/
def Obligations.ListTrim : Prop :=
  ∀ (s : State) (c : Ctl) (tag lane maximum : Byte),
    let i : Instr := .listTrim c tag lane maximum
    s.executes i = true → s.session c = some tag →
    (3 < lane.toNat ∨ maximum.toNat = 0 ∨ 16 < maximum.toNat → exec i s = .next (s.answered .badParameter [])) ∧
    ∀ n : LaneId, n.val = lane.toNat → 1 ≤ maximum.toNat → maximum.toNat ≤ 16 →
      let l := (s.lane n).list
      let isOpen : Nat → Prop := fun e =>
        (s.lane n).state = .idle ∨ l.fetch.entry < e ∨ (e = l.fetch.entry ∧ l.fetch.rep = 0)
      ((s.lane n).state = .off → exec i s = .next (s.answered .wrongState [])) ∧
      ((s.lane n).setup.mode = .cycle → (s.lane n).state ≠ .idle → exec i s = .next (s.answered .wrongState [])) ∧
      ((s.lane n).state ≠ .off → (s.lane n).setup.mode = .once ∨ (s.lane n).state = .idle →
        ∃ (k : Nat) (fetch shown : Position),
          exec i s = .next ((s.setLane n { s.lane n with
            list := { l with entries := l.entries.take (l.entries.length - k), fetch, shown } }).answered .ok
              [BitVec.ofNat 8 k]) ∧
          k ≤ maximum.toNat ∧ k ≤ l.entries.length ∧
          (∀ e, l.entries.length - k ≤ e → e < l.entries.length → isOpen e) ∧
          (k < maximum.toNat → k < l.entries.length → ¬ isOpen (l.entries.length - k - 1)) ∧
          ((s.lane n).state ≠ .idle → fetch = l.fetch ∧ shown = l.shown) ∧
          ((s.lane n).state = .idle →
            fetch = (if l.entries.length - k ≤ l.fetch.entry then { entry := 0, rep := 0 } else l.fetch) ∧
            shown = (if l.entries.length - k ≤ l.shown.entry then { entry := 0, rep := 0 } else l.shown)))

/-- LIST CLEAR and LIST READ in session. A parameter out of range: BAD PARAMETER. LIST CLEAR of a lane that is not
IDLE: WRONG STATE; of an IDLE lane it leaves the empty list with both positions (0, 0), BETWEEN, and nothing else
changed. LIST READ answers OK in every state with the header and the entries of section 9.7 from the start index on,
up to the maximum, and changes nothing. -/
def Obligations.ListClearAndRead : Prop :=
  ∀ (s : State) (c : Ctl) (tag lane start maximum : Byte), s.session c = some tag →
    (s.executes (.listClear c tag lane) = true →
      (3 < lane.toNat → exec (.listClear c tag lane) s = .next (s.answered .badParameter [])) ∧
      ∀ n : LaneId, n.val = lane.toNat →
        ((s.lane n).state ≠ .idle → exec (.listClear c tag lane) s = .next (s.answered .wrongState [])) ∧
        ((s.lane n).state = .idle → exec (.listClear c tag lane) s = .next ((s.setLane n { s.lane n with
          list := { entries := [], fetch := { entry := 0, rep := 0 }, shown := { entry := 0, rep := 0 },
                    showing := false } }).answered .ok []))) ∧
    (s.executes (.listRead c tag lane start maximum) = true →
      (3 < lane.toNat ∨ 15 < start.toNat ∨ maximum.toNat = 0 ∨ 4 < maximum.toNat →
        exec (.listRead c tag lane start maximum) s = .next (s.answered .badParameter [])) ∧
      ∀ n : LaneId, n.val = lane.toNat → start.toNat ≤ 15 → 1 ≤ maximum.toNat → maximum.toNat ≤ 4 →
        let b : Nat → Byte := BitVec.ofNat 8
        let l := (s.lane n).list
        let count := min maximum.toNat (l.entries.length - start.toNat)
        let record : Nat → List Byte := fun k =>
          match l.entries[start.toNat + k]? with
          | some e => [b (start.toNat + k)] ++ (match e.row with
              | some r => [b (r.val / 256), b r.val]
              | none => [0xFF, 0xFF]) ++
            [b e.span.tap.val, b e.span.len, b e.repeats, if e.pause then 1 else 0]
          | none => []
        exec (.listRead c tag lane start maximum) s = .next (s.answered .ok
          ([if (s.lane n).setup.mode = .once then 0 else 1, b l.entries.length, b l.fetch.entry, b l.fetch.rep,
            b l.shown.entry, b l.shown.rep, if l.showing then 1 else 0, b count] ++
            (List.range count).flatMap record)))

/-! ### Events -/

/-- A post to the Event Queue. At 30 records or fewer the event is appended with the next sequence number and the
millisecond counter. At 31 an EVENTS LOST marker, source PART, count 1, is appended in its place. At 32, with a marker
newest, the marker's count rises by one and stays at 65535; its number and time stand, and no number is used. -/
def Obligations.PostingRule : Prop :=
  ∀ (s : State) (p : Post),
    (s.events.length ≤ 30 → s.post p = { s with
      events := s.events ++ [{ seq := s.eventCounter + 1, time := s.clock, post := p }]
      eventCounter := s.eventCounter + 1 }) ∧
    (s.events.length = 31 → s.post p = { s with
      events := s.events ++ [{ seq := s.eventCounter + 1, time := s.clock,
                               post := { kind := .eventsLost, source := .part, count := some 1 } }]
      eventCounter := s.eventCounter + 1 }) ∧
    ∀ (older : List Event) (newest : Event) (k : Half), s.events = older ++ [newest] → s.events.length = 32 →
      newest.post.kind = .eventsLost → newest.post.count = some k →
      s.post p = { s with events := older ++ [{ newest with
        post := { newest.post with count := some (if k = 65535 then 65535 else k + 1) } }] }

/-- TAKE EVENTS and PEEK EVENTS in session. A maximum of 0 or above 4: BAD PARAMETER and no change. Otherwise OK with
the number of records returned, the number held after the command and the oldest records in the layout of section 9.5.
TAKE EVENTS removes the records it returns; PEEK EVENTS removes none; nothing else changes. -/
def Obligations.TakeAndPeekEvents : Prop :=
  ∀ (s : State) (c : Ctl) (tag maximum : Byte), s.session c = some tag →
    let b : Nat → Byte := BitVec.ofNat 8
    let wide : Half → List Byte := fun h => [b (h.toNat / 256), b h.toNat]
    let party : Party → Nat := fun
      | .lane n => n.val
      | .ctl d => 16 + d.val
    let causeCode : Cause → Byte := fun
      | .done => 0x01
      | .generationMismatch => 0x02
      | .claimTimeout => 0x03
      | .expired => 0x10
      | .signOff => 0x11
      | .takeover => 0x12
      | .laneReset => 0x13
      | .hard => 0x20
      | .soft => 0x21
    let kindCode : EventKind → Byte := fun
      | .lineStarved => 0x01
      | .lineLost => 0x02
      | .laneDone => 0x03
      | .laneHalted => 0x04
      | .entrySkipped => 0x05
      | .lanePaused => 0x06
      | .transferDone => 0x07
      | .claimEnded => 0x08
      | .sessionEnded => 0x09
      | .partReset => 0x0A
      | .eventsLost => 0x0B
    let record : Event → List Byte := fun e =>
      wide e.seq ++ [kindCode e.post.kind, match e.post.source with
        | .party p => b (party p)
        | .part => 0x21] ++ wide e.time ++
      [b ((if e.post.row = none then 0 else 1) + (if e.post.ticket = none then 0 else 2) +
        (if e.post.claimId = none then 0 else 4) + (if e.post.count = none then 0 else 8) +
        (if e.post.cause = none then 0 else 16))] ++
      (match e.post.row with
        | some r => [b (r.val / 256), b r.val]
        | none => []) ++
      (e.post.ticket.elim [] wide) ++ (e.post.claimId.elim [] fun i => [b i.val]) ++ (e.post.count.elim [] wide) ++
      (e.post.cause.elim [] fun x => [causeCode x])
    let taken := s.events.take maximum.toNat
    let left := s.events.drop maximum.toNat
    (maximum.toNat = 0 ∨ 4 < maximum.toNat →
      (s.executes (.takeEvents c tag maximum) = true →
        exec (.takeEvents c tag maximum) s = .next (s.answered .badParameter [])) ∧
      (s.executes (.peekEvents c tag maximum) = true →
        exec (.peekEvents c tag maximum) s = .next (s.answered .badParameter []))) ∧
    (1 ≤ maximum.toNat → maximum.toNat ≤ 4 →
      (s.executes (.takeEvents c tag maximum) = true →
        exec (.takeEvents c tag maximum) s = .next (({ s with events := left } : State).answered .ok
          ([b taken.length, b left.length] ++ taken.flatMap record))) ∧
      (s.executes (.peekEvents c tag maximum) = true →
        exec (.peekEvents c tag maximum) s = .next (s.answered .ok
          ([b taken.length, b s.events.length] ++ taken.flatMap record))))

/-- SET ATTENTION in session: a mask with bit 0 or one of bits 12 to 15 set, BAD PARAMETER and the mask unchanged;
otherwise the mask is the one given with the EVENTS LOST bit set, OK with the mask in force, and no record changes.
ATTN is low exactly while the queue holds a record whose kind's bit is set in the mask. -/
def Obligations.AttentionMask : Prop :=
  (∀ (s : State) (c : Ctl) (tag : Byte) (mask : Half),
    let i : Instr := .setAttention c tag mask
    s.executes i = true → s.session c = some tag →
    let named : Prop := ∀ k : Nat, mask.getLsbD k = true → 1 ≤ k ∧ k ≤ 11
    (¬ named → exec i s = .next (s.answered .badParameter [])) ∧
    (named → ∃ m : Half, (∀ k : Nat, m.getLsbD k = true ↔ mask.getLsbD k = true ∨ k = 11) ∧
      exec i s = .next (({ s with mask := m } : State).answered .ok
        [BitVec.ofNat 8 (m.toNat / 256), BitVec.ofNat 8 m.toNat]))) ∧
  ∀ s : State,
    let kindBit : EventKind → Nat := fun
      | .lineStarved => 1
      | .lineLost => 2
      | .laneDone => 3
      | .laneHalted => 4
      | .entrySkipped => 5
      | .lanePaused => 6
      | .transferDone => 7
      | .claimEnded => 8
      | .sessionEnded => 9
      | .partReset => 10
      | .eventsLost => 11
    s.attnLow = true ↔ ∃ e ∈ s.events, s.mask.getLsbD (kindBit e.post.kind) = true


/-! ### Sessions and the engine's own commands -/

/-- Admission. A frame refused at steps 1 to 4 changes nothing and gives BAD FRAME for OVERLONG, SHORT or a controller
byte above 7, CHECK ERROR for CHECK FAILED, UNKNOWN COMMAND for a code of no command, and BAD PARAMETER for a number
of parameter bytes that its command does not allow. Of every command but IDENTIFY and SIGN ON: with no session of the
controller number NO SESSION, with another tag WRONG TAG, and nothing changes before a selection that is owed. -/
def Obligations.Admission : Prop :=
  (∀ (s : State) (verdict : Verdict) (bytes : List Byte), s.executes (.refusedFrame verdict bytes) = true →
    ∃ status : Status, exec (.refusedFrame verdict bytes) s = .next (s.answered status []) ∧
      (verdict = .overlong ∨ verdict = .short → status = .badFrame) ∧ (verdict = .checkFailed → status = .checkError) ∧
      ∀ (controller tag code check : Byte) (ps : List Byte), verdict = .good →
        bytes = controller :: tag :: code :: (ps ++ [check]) →
        (8 ≤ controller.toNat → status = .badFrame) ∧
        (controller.toNat < 8 → (∀ i d t x, commandFields i ≠ some (d, t, code, x)) → status = .unknownCommand) ∧
        (controller.toNat < 8 → (∃ i d t x, commandFields i = some (d, t, code, x)) → status = .badParameter)) ∧
  ∀ (s : State) (i : Instr) (c : Ctl) (tag code : Byte) (ps : List Byte),
    commandFields i = some (c, tag, code, ps) → code ≠ 0x01 → code ≠ 0x02 → s.executes i = true →
    ∀ status : Status,
      (s.session c = none ∧ status = .noSession) ∨ ((∃ t, s.session c = some t ∧ t ≠ tag) ∧ status = .wrongTag) →
      ∃ t : State, exec i s = .next t ∧
        (t = s.answered status [] ∨ t = (s.answered status []).arbitrate) ∧
        (s.occasion = false → t = s.answered status [])

/-- IDENTIFY answers OK with its 13 bytes whatever the tag and the session. In session ROW INFO and LIST CLAIMS answer
BAD PARAMETER out of range; otherwise OK: ROW INFO with generation and last writer of each of its rows, ascending,
LIST CLAIMS with the number of records and the ten bytes of each occupied slot from the start id on, ascending, up to
the maximum. None of the three changes anything else of the part. -/
def Obligations.IdentifyRowInfoListClaims : Prop :=
  ∀ (s : State) (c : Ctl) (tag : Byte),
    let b : Nat → Byte := BitVec.ofNat 8
    let party : Party → Nat := fun
      | .lane n => n.val
      | .ctl d => 16 + d.val
    (s.executes (.identify c tag) = true → exec (.identify c tag) s = .next (s.answered .ok
      [0x4A, 0x42, 0x02, 0x64, 0x41, b s.port.strap.val, 0x02, 0x00, 128, 4, 8, 24, 12])) ∧
    (∀ (first : Half) (count : Byte), s.executes (.rowInfo c tag first count) = true → s.session c = some tag →
      (511 < first.toNat ∨ count.toNat = 0 ∨ 8 < count.toNat ∨ 512 < first.toNat + count.toNat →
        exec (.rowInfo c tag first count) s = .next (s.answered .badParameter [])) ∧
      (first.toNat ≤ 511 → 1 ≤ count.toNat → count.toNat ≤ 8 → first.toNat + count.toNat ≤ 512 →
        ∀ info : Nat → List Byte, (∀ r : RowId, info r.val =
            [b ((s.rowRecord r).generation.toNat / 256), b (s.rowRecord r).generation.toNat,
              match (s.rowRecord r).lastWriter with
              | .party p => b (party p)
              | .sweep => 0x20]) →
          exec (.rowInfo c tag first count) s = .next (s.answered .ok
            ((List.range count.toNat).flatMap fun k => info (first.toNat + k))))) ∧
    ∀ (start maximum : Byte), s.executes (.listClaims c tag start maximum) = true → s.session c = some tag →
      let record : ClaimId → Claim → List Byte := fun i k =>
        [b i.val, b (party k.holder), if k.kind = .shared then 0 else 1, b (k.first.val / 256), b k.first.val,
         b (k.count / 256), b k.count, if k.lease = none then 0 else 1, b (k.lease.getD 0 / 256), b (k.lease.getD 0)]
      let records := ((List.finRange 24).filterMap fun i =>
        if start.toNat ≤ i.val then (s.claim i).map (record i) else none).take maximum.toNat
      (23 < start.toNat ∨ maximum.toNat = 0 ∨ 4 < maximum.toNat →
        exec (.listClaims c tag start maximum) s = .next (s.answered .badParameter [])) ∧
      (start.toNat ≤ 23 → 1 ≤ maximum.toNat → maximum.toNat ≤ 4 → exec (.listClaims c tag start maximum) s =
        .next (s.answered .ok (b records.length :: records.flatten)))

/-- SIGN ON. Tag 0 or a flag above 1: BAD PARAMETER. With no session: the session is PRESENT with the tag, its buffer
zero, OK with three zeros. With a session and flag 0: SESSION HELD and no change. With a session and flag 1, the
takeover: the old session ends, SESSION ENDED is posted after the CLAIM ENDED events, the new tag is installed, OK
with the three counts. A session that begins is an occasion; nothing else changes. -/
def Obligations.SignOn : Prop :=
  ∀ (s : State) (c : Ctl) (tag flag : Byte),
    let i : Instr := .signOn c tag flag
    s.executes i = true →
    (tag = 0 ∨ 1 < flag.toNat → exec i s = .next (s.answered .badParameter []).arbitrate) ∧
    (tag ≠ 0 → flag.toNat ≤ 1 → s.session c = none →
      ∃ u : State, exec i s = .next (u.answered .ok [0, 0, 0]).arbitrate ∧
        u = { s with sessions := u.sessions, buffers := u.buffers, occasion := true } ∧ u.session c = some tag ∧
        (∀ k, (u.buffer c).read k = 0) ∧ ∀ d, d ≠ c → u.session d = s.session d ∧ u.buffer d = s.buffer d) ∧
    (tag ≠ 0 → flag = 0 → s.session c ≠ none → exec i s = .next (s.answered .sessionHeld []).arbitrate) ∧
    (tag ≠ 0 → flag = 1 → s.session c ≠ none → s.QueueBounded →
      ∃ u : State, exec i s = .next (u.answered .ok (s.endedCounts c)).arbitrate ∧ s.SessionEnds u c ∧
        u.session c = some tag ∧
        u.events = ((s.afterClaimEnded (.ctl c) .takeover).post
          { kind := .sessionEnded, source := .party (.ctl c), cause := some .takeover }).events ∧
        u = { s with claims := u.claims, queue := u.queue, log := u.log, orphan := u.orphan, array := u.array,
                     sessions := u.sessions, buffers := u.buffers, events := u.events,
                     eventCounter := u.eventCounter, occasion := true })

/-- SIGN OFF in session: the session ends with the CLAIM ENDED events of cause SIGN OFF and no other event, the
controller number is ABSENT, OK with the three counts, an occasion; nothing else changes. -/
def Obligations.SignOff : Prop :=
  ∀ (s : State) (c : Ctl) (tag : Byte), s.executes (.signOff c tag) = true → s.session c = some tag →
    s.QueueBounded →
    ∃ u : State, exec (.signOff c tag) s = .next (u.answered .ok (s.endedCounts c)).arbitrate ∧ s.SessionEnds u c ∧
      u.session c = none ∧ u.events = (s.afterClaimEnded (.ctl c) .signOff).events ∧
      u = { s with claims := u.claims, queue := u.queue, log := u.log, orphan := u.orphan, array := u.array,
                   sessions := u.sessions, buffers := u.buffers, events := u.events,
                   eventCounter := u.eventCounter, occasion := true }

/-- RESET PART in session: claims, queue, log, sessions and buffers are empty, the next ticket is 1, no orphan, streak
0, last lane served L3, every lane OFF at its reset values, group enable off, the mask all kinds, and PART RESET,
cause SOFT, sequence number 1, the only event, with ATTN low. An operation in flight is marked DISCARD and soft reset.
Cells, records, pointer, debt, part state, counter and port stand; OK, an occasion. GROUP ENABLE in session: above 1,
BAD PARAMETER; otherwise the flag alone is set, OK. -/
def Obligations.ResetPartAndGroupEnable : Prop :=
  ∀ (s : State) (c : Ctl) (tag flag : Byte), s.session c = some tag →
    (s.executes (.resetPart c tag) = true →
      ∃ u : State, exec (.resetPart c tag) s = .next (u.answered .ok []).arbitrate ∧
        u = { s with claims := u.claims, queue := [], nextTicket := 1, orphan := none, log := [], streak := 0,
                     lastLane := 3, lanes := u.lanes, sessions := u.sessions, buffers := u.buffers,
                     groupEnable := false, events := u.events, eventCounter := 1, mask := 0x0FFE, array := u.array,
                     occasion := true } ∧
        (∀ j, u.claim j = none) ∧ (∀ d, u.session d = none ∧ ∀ k, (u.buffer d).read k = 0) ∧
        (∀ n, u.lane n = { Lane.off with active := (u.lane n).active, staging := (u.lane n).staging } ∧
          (u.lane n).ldDrive = none ∧ (u.lane n).ready = false ∧ (u.lane n).mark = false) ∧
        u.events = [{ seq := 1, time := s.clock,
                      post := { kind := .partReset, source := .part, cause := some .soft } }] ∧
        u.attnLow = true ∧
        (∀ x, s.array = some (.transfer x) →
          u.array = some (.transfer { x with discard := true, softReset := true })) ∧
        ((∀ x, s.array ≠ some (.transfer x)) → u.array = s.array)) ∧
    (s.executes (.groupEnable c tag flag) = true →
      (1 < flag.toNat → exec (.groupEnable c tag flag) s = .next (s.answered .badParameter [])) ∧
      (flag.toNat ≤ 1 → exec (.groupEnable c tag flag) s =
        .next (({ s with groupEnable := decide (flag = 1) } : State).answered .ok [])))

/-- PUT BUFFER and GET BUFFER in session. Out of range: BAD PARAMETER and no change. PUT BUFFER writes its data bytes
into the sender's buffer from the offset on, in order, and no other cell, OK; GET BUFFER answers OK with the cells
from the offset on and changes nothing. -/
def Obligations.BufferCommands : Prop :=
  ∀ (s : State) (c : Ctl) (tag offset length : Byte) (data : List Byte), s.session c = some tag →
    (s.executes (.putBuffer c tag offset data) = true →
      (127 < offset.toNat ∨ 128 < offset.toNat + data.length →
        exec (.putBuffer c tag offset data) s = .next (s.answered .badParameter [])) ∧
      (offset.toNat ≤ 127 → offset.toNat + data.length ≤ 128 →
        ∃ u : State, exec (.putBuffer c tag offset data) s = .next (u.answered .ok []) ∧
          u = { s with buffers := u.buffers } ∧ (∀ d, d ≠ c → u.buffer d = s.buffer d) ∧
          ∀ k, (u.buffer c).read k = if offset.toNat ≤ k ∧ k < offset.toNat + data.length then
            data.getD (k - offset.toNat) 0 else (s.buffer c).read k)) ∧
    (s.executes (.getBuffer c tag offset length) = true →
      (127 < offset.toNat ∨ length.toNat = 0 ∨ 32 < length.toNat ∨ 128 < offset.toNat + length.toNat →
        exec (.getBuffer c tag offset length) s = .next (s.answered .badParameter [])) ∧
      (offset.toNat ≤ 127 → 1 ≤ length.toNat → length.toNat ≤ 32 → offset.toNat + length.toNat ≤ 128 →
        exec (.getBuffer c tag offset length) s = .next (s.answered .ok
          ((List.range length.toNat).map fun k => (s.buffer c).read (offset.toNat + k)))))

/-! ### Transfer commands -/

/-- LOAD, STORE, CSTORE, FILL and COPY in session. A parameter out of range: BAD PARAMETER. With 12 requests queued,
or 3 of the sender: QUEUE FULL. Otherwise the request, WAITING, with the command's parameters, joins the tail of the
queue under the next ticket, tickets still queued passed over and 1 following 65535; ACCEPTED with the ticket, an
occasion; and nothing else changes. -/
def Obligations.TransferAdmission : Prop :=
  ∀ (s : State) (c : Ctl) (tag tap span value notify wait : Byte) (row target expected : Half),
    s.session c = some tag →
    let refused : Instr → Prop := fun i =>
      s.executes i = true → exec i s = .next (s.answered .badParameter []).arbitrate
    let after : Half → Half := fun t => if t = 65535 then 1 else t + 1
    let full : Prop := 12 ≤ s.queue.length ∨ 3 ≤ (s.queue.filter fun q => q.ctl = c).length
    let judged : Instr → Work → Prop := fun i w =>
      s.executes i = true →
      (full → exec i s = .next (s.answered .queueFull []).arbitrate) ∧
      (¬ full → ∃ m : Nat, let ticket := after^[m] s.nextTicket
        (∀ j, j < m → ∃ q ∈ s.queue, q.ticket = after^[j] s.nextTicket) ∧ (∀ q ∈ s.queue, q.ticket ≠ ticket) ∧
        exec i s = .next (({ s with
          queue := s.queue ++ [{ ticket, ctl := c, work := w, notify := decide (notify = 1),
                                 waitLimit := wait.toNat, state := .waiting }]
          nextTicket := after ticket, occasion := true } : State).answered .accepted
            [BitVec.ofNat 8 (ticket.toNat / 256), BitVec.ofNat 8 ticket.toNat]).arbitrate)
    let noSpan : Prop := 127 < tap.toNat ∨ span.toNat = 0 ∨ 128 < span.toNat
    (511 < row.toNat ∨ 1 < notify.toNat → refused (.load c tag row notify wait)) ∧
    (511 < row.toNat ∨ noSpan ∨ 1 < notify.toNat →
      refused (.store c tag row tap span notify wait) ∧ refused (.cstore c tag row tap span expected notify wait) ∧
      refused (.fill c tag row tap span value notify wait)) ∧
    (511 < row.toNat ∨ 511 < target.toNat ∨ noSpan ∨ 1 < notify.toNat →
      refused (.copy c tag row target tap span notify wait)) ∧
    ∀ r d : RowId, r.val = row.toNat → d.val = target.toNat → notify.toNat ≤ 1 →
      judged (.load c tag row notify wait) (.load r) ∧
      ∀ sp : Span, sp.tap.val = tap.toNat → sp.len = span.toNat → 1 ≤ span.toNat → span.toNat ≤ 128 →
        judged (.store c tag row tap span notify wait) (.store r sp) ∧
        judged (.cstore c tag row tap span expected notify wait) (.cstore r sp expected) ∧
        judged (.fill c tag row tap span value notify wait) (.fill r sp value) ∧
        judged (.copy c tag row target tap span notify wait) (.copy r d sp)

/-- CANCEL and QUERY TICKET in session. Ticket 0: BAD PARAMETER. CANCEL of a ticket that no queued request has, or of
another controller's request: NOT FOUND; of an ACTIVE one: WRONG STATE; otherwise the request is removed with a
CANCELLED record and no event, OK. QUERY TICKET answers OK with the body of the queued request, by its place, else
with that of the newest record of the sender, else NOT FOUND, and changes nothing. -/
def Obligations.CancelAndQuery : Prop :=
  ∀ (s : State) (c : Ctl) (tag : Byte) (ticket : Half), s.session c = some tag →
    let b : Nat → Byte := BitVec.ofNat 8
    let opCode : Work → Byte := fun
      | .load _ => 0x01
      | .store _ _ => 0x02
      | .cstore _ _ _ => 0x03
      | .fill _ _ _ => 0x04
      | .copy _ _ _ => 0x05
    let loggedCode : OpCode → Byte := fun
      | .load => 0x01
      | .store => 0x02
      | .cstore => 0x03
      | .fill => 0x04
      | .copy => 0x05
    let outcomeCode : OutcomeCode → Byte := fun
      | .done => 0x01
      | .generationMismatch => 0x02
      | .claimTimeout => 0x03
      | .cancelled => 0x04
      | .withdrawn => 0x05
    (s.executes (.cancel c tag ticket) = true →
      (ticket = 0 → exec (.cancel c tag ticket) s = .next (s.answered .badParameter [])) ∧
      (ticket ≠ 0 → (∀ q ∈ s.queue, q.ticket ≠ ticket) →
        exec (.cancel c tag ticket) s = .next (s.answered .notFound [])) ∧
      ∀ q, ticket ≠ 0 → s.request ticket = some q →
        (q.ctl ≠ c → exec (.cancel c tag ticket) s = .next (s.answered .notFound [])) ∧
        (q.ctl = c → q.state = .active → exec (.cancel c tag ticket) s = .next (s.answered .wrongState [])) ∧
        (q.ctl = c → q.state ≠ .active → exec (.cancel c tag ticket) s = .next (({ s with
          queue := s.queue.filter fun p => p.ticket ≠ ticket
          log := logAppend s.log { ticket := q.ticket, ctl := c, op := q.work.op, row := q.work.row,
                                   outcome := .cancelled, generation := none, finish := s.clock }
          } : State).answered .ok []))) ∧
    (s.executes (.queryTicket c tag ticket) = true →
      (ticket = 0 → exec (.queryTicket c tag ticket) s = .next (s.answered .badParameter [])) ∧
      (∀ k q, ticket ≠ 0 → (s.queue.map (·.ticket)).Nodup → s.queue[k]? = some q → q.ticket = ticket → q.ctl = c →
        exec (.queryTicket c tag ticket) s = .next (s.answered .ok
          [0x00, opCode q.work, b (q.work.row.val / 256), b q.work.row.val,
            match q.state with
            | .waiting => 0
            | .blocked _ => 1
            | .active => 2,
            match q.state with
            | .blocked t => b t
            | _ => 0, b (k + 1)])) ∧
      (ticket ≠ 0 → (∀ q ∈ s.queue, q.ticket = ticket → q.ctl ≠ c) →
        ((∀ r ∈ s.log, r.ticket = ticket → r.ctl ≠ c) →
          exec (.queryTicket c tag ticket) s = .next (s.answered .notFound [])) ∧
        ∀ older r newer, s.log = older ++ r :: newer → r.ticket = ticket → r.ctl = c →
          (∀ x ∈ newer, x.ticket = ticket → x.ctl ≠ c) →
          exec (.queryTicket c tag ticket) s = .next (s.answered .ok
            ([0x01, loggedCode r.op, b (r.row.val / 256), b r.row.val, outcomeCode r.outcome] ++
              (match r.generation with
                | some g => [1, b (g.toNat / 256), b g.toNat]
                | none => [0, 0, 0]) ++ [b (r.finish.toNat / 256), b r.finish.toNat]))))

/-! ### The control port -/

/-- START and STOP. While the part holds SCK they stop with a fault, for they cannot be made then (the model's choice,
log entry 6). Otherwise a write phase delivers its assembly by its verdict, without the byte left unacknowledged; a
read phase that has begun releases its frame's result, one whose address is left unacknowledged has not begun (log
entry 8); a group phase acts at a STOP alone, as the group command of an intact frame of three bytes, the byte left
unacknowledged not among them. SDA is released. START leads to ADDRESS with the transaction open and keeps a delivered
frame; STOP leads to WATCHING, closed, and a frame still in the transaction is left: a held result is dropped, an
execution notes the discard. All assemblies are then empty. -/
def Obligations.StartAndStop : Prop :=
  ∀ (s : State) (flag : Bool), s.resetnLow = false →
    let p := s.port
    let cut : Prop := flag = true ∧ p.bitCount = 8
    let left : Engine → Engine := fun
      | .executing f _ => .executing f true
      | .holding _ => .idle
      | .idle => .idle
    (s.sckHeld = true → ¬ cut → exec (.start flag) s = .fault .clockHeld ∧ exec (.stop flag) s = .fault .clockHeld) ∧
    (s.sckHeld = false ∨ cut →
      ∃ (t v : State) (kept : Engine) (mark : Bool),
        exec (.start flag) s = .next t ∧ exec (.stop flag) s = .next v ∧
        t = { s with engine := kept
                     port := { phase := .address, isOpen := true, bitCount := 0, frameBytes := [], overlong := false,
                               groupBytes := [], groupOverlong := false, frameInTx := mark, record := none,
                               nextByte := 0, strap := p.strap, ack := false } } ∧
        v = { s with engine := if mark = true then left kept else kept
                     port := { phase := .watching, isOpen := false, bitCount := 0, frameBytes := [],
                               overlong := false, groupBytes := [], groupOverlong := false, frameInTx := false,
                               record := none, nextByte := 0, strap := p.strap, ack := false }
                     lanes := v.lanes, array := v.array } ∧
        (∀ bytes, p.phase = .write → (cut → p.overlong = false → bytes = p.frameBytes.dropLast) →
          (¬ cut ∨ p.overlong = true → bytes = p.frameBytes) →
          (frameVerdict p.overlong bytes = none → kept = s.engine ∧ mark = p.frameInTx) ∧
          ∀ x, frameVerdict p.overlong bytes = some x →
            kept = .executing { verdict := x, bytes } false ∧ mark = true) ∧
        (p.phase = .read → ¬ cut → p.frameInTx = true → kept = .idle ∧ mark = false) ∧
        (p.phase = .read → cut ∨ p.frameInTx = false → kept = s.engine ∧ mark = p.frameInTx) ∧
        (p.phase ≠ .write → p.phase ≠ .read → kept = s.engine ∧ mark = p.frameInTx) ∧
        let taken : List Byte := if flag = true ∧ p.bitCount = 8 ∧ p.groupOverlong = false then p.groupBytes.dropLast
          else p.groupBytes
        (∀ code mask, p.phase = .group → p.groupOverlong = false → taken = [code, mask, checkValue [code, mask]] →
          (code = 0x70 → ∃ g, exec (.groupStart mask) s = .next g ∧ v.lanes = g.lanes ∧ v.array = g.array) ∧
          (code = 0x71 → ∃ g, exec (.groupHalt mask) s = .next g ∧ v.lanes = g.lanes ∧ v.array = g.array)) ∧
        (p.phase ≠ .group ∨ p.groupOverlong = true ∨
            (∀ code mask, code = 0x70 ∨ code = 0x71 → taken ≠ [code, mask, checkValue [code, mask]]) →
          v.lanes = s.lanes ∧ v.array = s.array))

/-- The judgement of an address byte. A frame of the transaction is left first, unless the byte is the device's read
address. The device's write address is acknowledged with phase WRITE while OPERATING with the engine IDLE; its read
address, while OPERATING, with phase READ and the summary status by an IDLE engine, or the result of the transaction's
frame, which is awaited while it is EXECUTING. The group address is acknowledged for a write while OPERATING with
group enable on. Everything else is refused with phase PASSED, and nothing else changes. A result is sent as its status
code, the length of its body, the body and the check byte. -/
def Obligations.AddressJudged : Prop :=
  ∀ (s : State) (byte : Byte), s.resetnLow = false → s.port.phase = .address →
    let b : Nat → Byte := BitVec.ofNat 8
    let statusCode : Status → Byte := fun
      | .ok => 0x00
      | .accepted => 0x01
      | .badFrame => 0x10
      | .checkError => 0x11
      | .unknownCommand => 0x12
      | .badParameter => 0x13
      | .noSession => 0x20
      | .wrongTag => 0x21
      | .sessionHeld => 0x22
      | .wrongState => 0x30
      | .queueFull => 0x31
      | .listFull => 0x32
      | .tableFull => 0x33
      | .conflict => 0x34
      | .notHolder => 0x35
      | .notFound => 0x36
    let laneCode : LaneState → Byte := fun
      | .off => 0
      | .idle => 1
      | .priming => 2
      | .armed => 3
      | .running => 4
      | .starved => 5
      | .blocked => 6
      | .draining => 7
      | .paused => 8
      | .halted => 9
    let named : Nat := byte.toNat / 2
    let read : Prop := byte.toNat % 2 = 1
    let device : Prop := named = 0x68 + s.port.strap.val
    let left : Engine → Engine := fun
      | .executing f _ => .executing f true
      | .holding _ => .idle
      | .idle => .idle
    let leaves : Prop := s.port.frameInTx = true ∧ ¬ (device ∧ read)
    (∀ r : Result, r.bytes = statusCode r.status :: b r.body.length :: r.body ++
      [checkValue (statusCode r.status :: b r.body.length :: r.body)]) ∧
    ∃ (t : State) (phase : Phase) (ack : Bool) (record : Option (List Byte)) (mark : Bool),
      exec (.addressByte byte) s = .next t ∧
      t = { s with engine := t.engine
                   port := { phase, isOpen := s.port.isOpen, bitCount := 8, frameBytes := [], overlong := false,
                             groupBytes := [], groupOverlong := false, frameInTx := mark, record, nextByte := 0,
                             strap := s.port.strap, ack } } ∧
      (leaves → t.engine = left s.engine ∧ mark = false) ∧
      (¬ leaves → t.engine = s.engine ∧ mark = s.port.frameInTx) ∧
      (device → s.partState = .starting → phase = .passed ∧ ack = false) ∧
      (device → s.partState = .operating → ¬ read →
        (t.engine = .idle → phase = .write ∧ ack = true ∧ record = none) ∧
        (t.engine ≠ .idle → phase = .passed ∧ ack = false)) ∧
      (device → s.partState = .operating → read →
        (s.engine = .idle → phase = .read ∧ ack = true ∧ ∃ (m : Byte) (state : LaneId → Byte),
          (∀ c : Ctl, m.getLsbD c.val = (s.session c).isSome) ∧ (∀ n, state n = laneCode (s.lane n).state) ∧
          record = some (Result.bytes { status := .ok, body := [0x01, b s.events.length,
            if s.attnLow then 1 else 0, state 0, state 1, state 2, state 3, m, b s.queue.length,
            if s.groupEnable then 1 else 0] })) ∧
        (∀ r, s.engine = .holding r → s.port.frameInTx = true →
          phase = .read ∧ ack = true ∧ record = some r.bytes) ∧
        (∀ f d, s.engine = .executing f d → s.port.frameInTx = true →
          phase = .read ∧ ack = true ∧ record = none ∧ t.sckHeld = true) ∧
        (s.engine ≠ .idle → s.port.frameInTx = false → phase = .passed ∧ ack = false)) ∧
      (named = 0x0E →
        (¬ read → s.groupEnable = true → s.partState = .operating → phase = .group ∧ ack = true) ∧
        (read ∨ s.groupEnable = false ∨ s.partState = .starting → phase = .passed ∧ ack = false)) ∧
      (named ≠ 0x0E → ¬ device → phase = .passed ∧ ack = false)

/-- Bytes of a phase. A byte of a write phase is appended and acknowledged below 40 held bytes, and otherwise refused
with the overlong mark set; one of a group frame in the same way below 3. An acknowledge of a byte sent makes the next
byte of the record the one on SDA, 0xFF beyond its end. The end of a read phase releases the frame's result, the
engine IDLE and the mark clear, and one that sent the summary releases nothing; NACK leads to PASSED, STOP and
repeated START act as in their own rows. SDA is released at both. A byte offered in WATCHING or PASSED changes nothing
(that such rows are ignored and not impossible is deduced, log entry 13). -/
def Obligations.PhaseBytes : Prop :=
  ∀ (s : State) (byte : Byte), s.resetnLow = false →
    let p := s.port
    (p.phase = .write →
      (p.frameBytes.length < 40 → exec (.writePhaseByte byte) s = .next { s with
        port := { p with frameBytes := p.frameBytes ++ [byte], bitCount := 8, ack := true } }) ∧
      (40 ≤ p.frameBytes.length → exec (.writePhaseByte byte) s = .next { s with
        port := { p with overlong := true, bitCount := 8, ack := false } })) ∧
    (p.phase = .group →
      (p.groupBytes.length < 3 → exec (.groupPhaseByte byte) s = .next { s with
        port := { p with groupBytes := p.groupBytes ++ [byte], bitCount := 8, ack := true } }) ∧
      (3 ≤ p.groupBytes.length → exec (.groupPhaseByte byte) s = .next { s with
        port := { p with groupOverlong := true, bitCount := 8, ack := false } })) ∧
    (∀ record, p.phase = .read → p.record = some record →
      (∃ t : State, exec .readByteAcknowledge s = .next t ∧
        t = { s with port := { p with nextByte := p.nextByte + 1, bitCount := 0, ack := false } } ∧
        t.acknowledges = false ∧
        s.sdaByte = some (record.getD p.nextByte 0xFF) ∧ t.sdaByte = some (record.getD (p.nextByte + 1) 0xFF)) ∧
      exec (.readPhaseEnd .nack) s = .next { s with
        engine := if p.frameInTx = true then .idle else s.engine
        port := { p with phase := .passed, bitCount := 0, frameBytes := [], overlong := false, groupBytes := [],
                         groupOverlong := false, frameInTx := false, record := none, nextByte := 0, ack := false } } ∧
      exec (.readPhaseEnd .stop) s = exec (.stop false) s ∧
      exec (.readPhaseEnd .repeatedStart) s = exec (.start false) s) ∧
    (p.phase = .watching ∨ p.phase = .passed →
      exec (.writePhaseByte byte) s = .next s ∧ exec (.groupPhaseByte byte) s = .next s ∧
      exec (.addressByte byte) s = .next s ∧ exec .readByteAcknowledge s = .next s)

/-- A bus error, a START or STOP after 1 to 7 bits of a byte while SCK is not held: the byte and every assembly are
discarded, nothing is delivered, a frame still in the transaction is left, and a START leads to ADDRESS with the
transaction open, a STOP to WATCHING with it closed; SDA is released; nothing else changes. While RESETn is low no bus
event changes anything (that such rows are ignored and not impossible is the model's choice, log entry 13). -/
def Obligations.BusErrorAndReset : Prop :=
  ∀ (s : State) (bits : Nat) (condition : Condition), 1 ≤ bits → bits ≤ 7 →
    let left : Engine → Engine := fun
      | .executing f _ => .executing f true
      | .holding _ => .idle
      | .idle => .idle
    (s.resetnLow = false → s.sckHeld = false → exec (.busError condition bits) s = .next { s with
      engine := if s.port.frameInTx = true then left s.engine else s.engine
      port := { phase := if condition = .start then .address else .watching, isOpen := decide (condition = .start),
                bitCount := 0, frameBytes := [], overlong := false, groupBytes := [], groupOverlong := false,
                frameInTx := false, record := none, nextByte := 0, strap := s.port.strap, ack := false } }) ∧
    (s.resetnLow = true →
      exec (.busError condition bits) s = .next s ∧ exec .readByteAcknowledge s = .next s ∧
      ∀ (byte : Byte) (flag : Bool) (how : ReadEnd), exec (.start flag) s = .next s ∧ exec (.stop flag) s = .next s ∧
        exec (.addressByte byte) s = .next s ∧ exec (.writePhaseByte byte) s = .next s ∧
        exec (.groupPhaseByte byte) s = .next s ∧ exec (.readPhaseEnd how) s = .next s)


/-! ### Events that cannot happen -/

/-- A command that names an event its state rules out stops with a fault of its own name (the model's choice, log
entry 6): a rise of RESETn while it is high, a sweep operation with no sweep running, a tick while RESETn is low, a
lease tick that no tenth 1 ms tick brings, a 1 ms tick while the lease tick of the one before is due (log entry 17),
the completion of an operation that is not the one on the array, an edge row of the wrong direction or state at a
RUNNING lane, a frame the engine does not execute, a bus event while the part holds SCK, a byte of another phase, a
bus error of no bit count. -/
def Obligations.ImpossibleEventsStop : Prop :=
  ∀ s : State,
    (s.resetnLow = false → ∀ k, exec (.resetnRise k) s = .fault .resetnNotLow) ∧
    (s.partState = .operating ∨ s.resetnLow = true ∨ 512 ≤ s.swept →
      exec .sweepOperationCompletion s = .fault .noSweepOperation) ∧
    (s.resetnLow = true → ∀ i : Instr, i = .refreshTick ∨ i = .millisecondTick ∨ i = .leaseTick →
      exec i s = .fault .tickChainStopped) ∧
    (s.resetnLow = false → s.leaseTick = .early ∨ (s.leaseTick = .settled ∧ s.tickPhase.val ≠ 9) →
      exec .leaseTick s = .fault .noLeaseTick) ∧
    (s.resetnLow = false → s.leaseTick = .due → exec .millisecondTick s = .fault .leaseTickDue) ∧
    (∀ op, (∀ x, s.array = some (.transfer x) → x.work.op ≠ op) →
      exec (completionOf op) s = .fault .operationNotActive) ∧
    ((∀ r, s.array ≠ some (.refresh r)) → exec .refreshCompletion s = .fault .operationNotActive) ∧
    (∀ n ld, (s.lane n).state = .running →
      exec (.laneClockEdgeOutsideRunning n) s = .fault .laneIsRunning ∧
      ((s.lane n).setup.direction = .into → exec (.outLaneClockEdge n) s = .fault .inLaneEdgeWithoutByte) ∧
      ((s.lane n).setup.direction = .out → exec (.inLaneClockEdge n ld) s = .fault .outLaneDrivesData)) ∧
    (∀ i : Instr, (commandFields i).isSome = true ∨ (∃ v bytes, i = .refusedFrame v bytes) → s.executes i = false →
      exec i s = .fault .frameNotHeld) ∧
    (s.resetnLow = false → s.sckHeld = true → ∀ condition bits how, 1 ≤ bits → bits ≤ 7 →
      exec (.busError condition bits) s = .fault .clockHeld ∧ exec .readByteAcknowledge s = .fault .clockHeld ∧
      exec (.readPhaseEnd how) s = .fault .clockHeld) ∧
    (∀ byte how, s.resetnLow = false →
      (s.port.phase = .write ∨ s.port.phase = .read ∨ s.port.phase = .group →
        exec (.addressByte byte) s = .fault .otherPhase) ∧
      (s.port.phase = .address ∨ s.port.phase = .read ∨ s.port.phase = .group →
        exec (.writePhaseByte byte) s = .fault .otherPhase) ∧
      (s.port.phase = .address ∨ s.port.phase = .read ∨ s.port.phase = .write →
        exec (.groupPhaseByte byte) s = .fault .otherPhase) ∧
      (s.port.phase = .address ∨ s.port.phase = .group ∨ s.port.phase = .write →
        exec .readByteAcknowledge s = .fault .otherPhase) ∧
      (s.port.phase ≠ .read → exec (.readPhaseEnd how) s = .fault .otherPhase)) ∧
    ∀ condition bits, bits = 0 ∨ 7 < bits → exec (.busError condition bits) s = .fault .notABusError

/-! ### Invariants that every step keeps -/

/-- The step keeps every memory of the part in canonical form, and the cells copied by an operation in flight within a
row. -/
def Obligations.StepKeepsMemory : Prop :=
  ∀ s t : State, s.MemoryWf → step s = .next t → t.MemoryWf

/-- The step keeps the event queue at 32 records or fewer, a marker the newest of 32; the refresh debt at 4 or less,
the streak at 8, the outcome log at 16 records and each list at 16 entries; and the part OPERATING only with every row
swept. -/
def Obligations.StepKeepsBounds : Prop :=
  (∀ s t : State, eventsBounded s.events → step s = .next t → eventsBounded t.events) ∧
  (∀ s t : State, s.CountsBounded → step s = .next t → t.CountsBounded) ∧
  ∀ s t : State, s.SweptWhenOperating → step s = .next t → t.SweptWhenOperating

/-- The step keeps the claim table: claims that overlap have different holders and are both SHARED, and every claim
belongs to a controller in session or a lane that is not OFF. -/
def Obligations.StepKeepsClaims : Prop :=
  (∀ s t : State, s.ClaimsCompatible → step s = .next t → t.ClaimsCompatible) ∧
  ∀ s t : State, s.ClaimsHeld → step s = .next t → t.ClaimsHeld

/-- The step keeps the controller queue: at most 12 requests, at most 3 of one controller number, each of a session
that is PRESENT, with distinct tickets none of which is 0, and an ACTIVE request or an orphan only for the operation
in flight. -/
def Obligations.StepKeepsQueue : Prop :=
  ∀ s t : State, s.QueueBounded → step s = .next t → t.QueueBounded

/-- The step keeps each lane's slot occupied exactly while its staging tag is PENDING, and the tag EMPTY while the
lane is OFF, IDLE or HALTED. -/
def Obligations.StepKeepsSlots : Prop :=
  ∀ s t : State, s.SlotsMatchTags → step s = .next t → t.SlotsMatchTags

/-- The step keeps the control port and the Command Engine in agreement: the frame in transaction mark is set exactly
while a result is held or a frame executed without a discard, the engine is IDLE in a write phase and while RESETn is
low, SCK is held only for a frame that executes, the assemblies keep their limits, only WATCHING is without an open
transaction, and SDA is pulled low for no byte but one taken whole in a phase that goes on. -/
def Obligations.StepKeepsPort : Prop :=
  ∀ s t : State, s.PortMatchesEngine → step s = .next t → t.PortMatchesEngine

/-- Every invariant that the step keeps holds of the part at reset. -/
def Obligations.ResetHoldsInvariants : Prop :=
  State.reset.MemoryWf ∧ eventsBounded State.reset.events ∧ State.reset.CountsBounded ∧
  State.reset.SweptWhenOperating ∧ State.reset.ClaimsCompatible ∧ State.reset.ClaimsHeld ∧
  State.reset.QueueBounded ∧ State.reset.SlotsMatchTags ∧ State.reset.PortMatchesEngine
end

