-- ==== Sys2Proof/Laws/Memory.lean ====
section
/-! SUPPORT. Tables and memories: a read after a write, and that every operation keeps the canonical form. -/

namespace Sys2Proof.Machine

set_option Elab.async false

section tables

variable {α : Type} (rest : α)

/-! ### Reads -/

/-- A pair put in under a key that is not listed is what that key then reads. -/
theorem Table.read_insert (a : Nat) (v : α) (t : List (Nat × α)) (ha : ∀ p ∈ t, p.1 ≠ a) (b : Nat) :
    Table.read rest (Table.insert a v t) b = if b = a then v else Table.read rest t b := by
  induction t with
  | nil =>
    simp only [Table.insert, Table.read]
    by_cases hb : b = a
    · simp [hb]
    · rw [if_neg (Ne.symm hb), if_neg hb]
  | cons p t ih =>
    obtain ⟨k, w⟩ := p
    have hk : k ≠ a := ha (k, w) (by simp)
    have ih := ih fun q hq => ha q (by simp [hq])
    simp only [Table.insert]
    split
    · simp only [Table.read]
      by_cases hb : b = a
      · simp [hb]
      · rw [if_neg (Ne.symm hb), if_neg hb]
    · simp only [Table.read, ih]
      by_cases hb : k = b
      · subst hb; simp [hk]
      · simp [hb]

/-- Dropping the pairs of one key leaves what every other key reads. -/
theorem Table.read_filter (a : Nat) (t : List (Nat × α)) (b : Nat) :
    Table.read rest (t.filter fun p => p.1 ≠ a) b = if b = a then rest else Table.read rest t b := by
  induction t with
  | nil => simp [Table.read]
  | cons p t ih =>
    obtain ⟨k, w⟩ := p
    by_cases hk : k = a
    · subst hk
      simp only [List.filter_cons]
      simp only [ne_eq, not_true_eq_false, decide_false, Bool.false_eq_true, ↓reduceIte, Table.read]
      rw [show (t.filter fun p => decide (¬p.1 = k)) = t.filter fun p => p.1 ≠ k from rfl, ih]
      by_cases hb : b = k
      · simp [hb]
      · simp [hb, Ne.symm hb]
    · simp only [List.filter_cons]
      simp only [ne_eq, hk, not_false_eq_true, decide_true, ↓reduceIte, Table.read]
      rw [show (t.filter fun p => decide (¬p.1 = a)) = t.filter fun p => p.1 ≠ a from rfl, ih]
      by_cases hb : k = b
      · subst hb; simp [hk]
      · simp [hb]

/-- A read after a write: the value at the key written, what was there at every other. -/
@[simp] theorem Table.read_write [DecidableEq α] (t : List (Nat × α)) (a : Nat) (v : α) (b : Nat) :
    Table.read rest (Table.write rest t a v) b = if b = a then v else Table.read rest t b := by
  unfold Table.write
  by_cases hv : v = rest
  · simp only [hv, ↓reduceIte]; exact Table.read_filter rest a t b
  · simp only [hv, ↓reduceIte]
    rw [Table.read_insert rest a v _ (by intro p hp; simpa using (List.mem_filter.mp hp).2) b]
    by_cases hb : b = a
    · simp [hb]
    · simp only [hb, ↓reduceIte]; rw [Table.read_filter]; simp [hb]

/-! ### The canonical form -/

variable [DecidableEq α]

theorem Table.wf_iff (size : Nat) (t : List (Nat × α)) :
    Table.wf rest size t = true ↔ t.Pairwise (fun p q => p.1 < q.1) ∧ ∀ p ∈ t, p.1 < size ∧ p.2 ≠ rest := by
  simp [Table.wf]

theorem Table.mem_insert {a : Nat} {v : α} {t : List (Nat × α)} {p : Nat × α} :
    p ∈ Table.insert a v t ↔ p = (a, v) ∨ p ∈ t := by
  induction t with
  | nil => simp [Table.insert]
  | cons q t ih =>
    simp only [Table.insert]; split
    · simp
    · simp only [List.mem_cons, ih]; tauto

theorem Table.pairwise_insert (a : Nat) (v : α) (t : List (Nat × α)) (ha : ∀ p ∈ t, p.1 ≠ a)
    (h : t.Pairwise fun p q => p.1 < q.1) : (Table.insert a v t).Pairwise fun p q => p.1 < q.1 := by
  induction t with
  | nil => simp [Table.insert]
  | cons p t ih =>
    obtain ⟨k, w⟩ := p
    rw [List.pairwise_cons] at h
    have hk : k ≠ a := ha (k, w) (by simp)
    simp only [Table.insert]; split
    · rename_i hlt
      refine List.pairwise_cons.mpr ⟨?_, List.pairwise_cons.mpr h⟩
      intro q hq
      rcases List.mem_cons.mp hq with rfl | hq
      · exact hlt
      · exact lt_trans hlt (h.1 q hq)
    · refine List.pairwise_cons.mpr ⟨?_, ih (fun q hq => ha q (by simp [hq])) h.2⟩
      intro q hq
      rcases Table.mem_insert.mp hq with rfl | hq
      · simp only; omega
      · exact h.1 q hq

/-- A write keeps the canonical form. -/
theorem Table.wf_write (size : Nat) (t : List (Nat × α)) (a : Nat) (v : α) (h : Table.wf rest size t = true)
    (ha : a < size) : Table.wf rest size (Table.write rest t a v) = true := by
  rw [Table.wf_iff] at h ⊢
  have hf : (t.filter fun p => p.1 ≠ a).Pairwise fun p q => p.1 < q.1 := h.1.filter _
  have hm : ∀ p ∈ t.filter (fun p => p.1 ≠ a), p.1 < size ∧ p.2 ≠ rest := fun p hp => h.2 p (List.mem_filter.mp hp).1
  unfold Table.write
  by_cases hv : v = rest
  · simp only [hv, ↓reduceIte]; exact ⟨hf, hm⟩
  · simp only [hv, ↓reduceIte]
    refine ⟨Table.pairwise_insert a v _ (by intro p hp; simpa using (List.mem_filter.mp hp).2) hf, ?_⟩
    intro p hp
    rcases Table.mem_insert.mp hp with rfl | hp
    · exact ⟨ha, hv⟩
    · exact hm p hp

end tables

/-! ### Memories -/

@[simp] theorem Memory.read_nil (a : Nat) : Memory.read [] a = 0 := rfl

@[simp] theorem Memory.read_write (m : Memory) (a : Nat) (v : Byte) (b : Nat) :
    (m.write a v).read b = if b = a then v else m.read b := Table.read_write 0 m a v b

theorem Memory.wf_nil (size : Nat) : Memory.wf size [] = true := rfl

theorem Memory.wf_write (size : Nat) (m : Memory) (a : Nat) (v : Byte) (h : m.wf size = true) (ha : a < size) :
    (m.write a v).wf size = true := Table.wf_write 0 size m a v h ha

/-- Writing cells whose addresses are in range keeps the canonical form. -/
theorem Memory.wf_writeAll (size base : Nat) (cells : List Host.Cell) (m : Memory) (h : m.wf size = true)
    (hc : ∀ p ∈ cells, base + p.1 < size) : (m.writeAll base cells).wf size = true := by
  induction cells generalizing m with
  | nil => exact h
  | cons p cells ih =>
    exact ih (m.write (base + p.1) p.2) (Memory.wf_write size m _ _ h (hc p (by simp)))
      fun q hq => hc q (by simp [hq])

/-- What an address reads after several cells are written: the last cell written there, else what it read before. -/
theorem Memory.read_writeAll_of_not_mem (base : Nat) (cells : List Host.Cell) (m : Memory) (a : Nat)
    (h : ∀ p ∈ cells, base + p.1 ≠ a) : (m.writeAll base cells).read a = m.read a := by
  induction cells generalizing m with
  | nil => rfl
  | cons p cells ih =>
    show (Memory.writeAll (m.write (base + p.1) p.2) base cells).read a = m.read a
    rw [ih _ fun q hq => h q (by simp [hq])]
    simp [Ne.symm (h p (by simp))]

/-- The same when every cell written to the address carries one value. -/
theorem Memory.read_writeAll_of_mem (base : Nat) (cells : List Host.Cell) (m : Memory) (a : Nat) (v : Byte)
    (hv : ∀ p ∈ cells, base + p.1 = a → p.2 = v) (h : ∃ p ∈ cells, base + p.1 = a) :
    (m.writeAll base cells).read a = v := by
  induction cells generalizing m with
  | nil => simp at h
  | cons p cells ih =>
    show (Memory.writeAll (m.write (base + p.1) p.2) base cells).read a = v
    by_cases ht : ∃ q ∈ cells, base + q.1 = a
    · exact ih _ (fun q hq => hv q (by simp [hq])) ht
    · have hp : base + p.1 = a := by
        obtain ⟨q, hq, hqa⟩ := h
        rcases List.mem_cons.mp hq with rfl | hq
        · exact hqa
        · exact absurd ⟨q, hq, hqa⟩ ht
      rw [Memory.read_writeAll_of_not_mem base cells _ a (by intro q hq e; exact ht ⟨q, hq, e⟩)]
      simp [hp, hv p (by simp) hp]

/-- Cells given by a function of the cell number: the address of a cell named reads that cell's value. -/
theorem Memory.read_writeAll_map (base : Nat) (ks : List Nat) (f : Nat → Byte) (m : Memory) (k : Nat) :
    (m.writeAll base (ks.map fun k => (k, f k))).read (base + k) = if k ∈ ks then f k else m.read (base + k) := by
  by_cases hk : k ∈ ks
  · rw [if_pos hk]
    refine Memory.read_writeAll_of_mem base _ m _ (f k) ?_ ⟨(k, f k), List.mem_map.mpr ⟨k, hk, rfl⟩, rfl⟩
    intro p hp e
    obtain ⟨j, -, rfl⟩ := List.mem_map.mp hp
    have : j = k := by simpa using e
    rw [this]
  · rw [if_neg hk]
    refine Memory.read_writeAll_of_not_mem base _ m _ ?_
    intro p hp e
    obtain ⟨j, hj, rfl⟩ := List.mem_map.mp hp
    have : j = k := by simpa using e
    exact hk (this ▸ hj)

/-! ### A memory given cell by cell -/

theorem Memory.mem_ofCells (size : Nat) (f : Nat → Byte) (p : Host.Cell) :
    p ∈ Memory.ofCells size f ↔ p.1 < size ∧ p.2 ≠ 0 ∧ p.2 = f p.1 := by
  obtain ⟨a, v⟩ := p
  simp only [Memory.ofCells, List.mem_filterMap, List.mem_range]
  constructor
  · rintro ⟨k, hk, e⟩
    split at e
    · cases e
    · cases e; rename_i hne; exact ⟨hk, hne, rfl⟩
  · rintro ⟨hk, hne, rfl⟩
    exact ⟨a, hk, if_neg hne⟩

theorem Memory.wf_ofCells (size : Nat) (f : Nat → Byte) : (Memory.ofCells size f).wf size = true := by
  refine (Table.wf_iff 0 size _).mpr ⟨?_, fun p hp => ?_⟩
  · refine List.Pairwise.filterMap _ ?_ List.pairwise_lt_range
    intro a b hab p hp q hq
    split at hp
    · cases hp
    · split at hq
      · cases hq
      · cases hp; cases hq; exact hab
  · exact ⟨((Memory.mem_ofCells size f p).mp hp).1, ((Memory.mem_ofCells size f p).mp hp).2.1⟩

theorem Table.read_eq_of_mem {α : Type} (rest : α) (t : List (Nat × α)) (h : t.Pairwise fun p q => p.1 < q.1) (a : Nat) (v : α)
    (hm : (a, v) ∈ t) : Table.read rest t a = v := by
  induction t with
  | nil => simp at hm
  | cons p t ih =>
    obtain ⟨k, w⟩ := p
    rw [List.pairwise_cons] at h
    simp only [Table.read]
    rcases List.mem_cons.mp hm with e | hm
    · cases e; simp
    · have : k < a := h.1 _ hm
      rw [if_neg (by omega)]; exact ih h.2 hm

theorem Table.read_eq_rest {α : Type} (rest : α) (t : List (Nat × α)) (a : Nat) (h : ∀ p ∈ t, p.1 ≠ a) :
    Table.read rest t a = rest := by
  induction t with
  | nil => rfl
  | cons p t ih =>
    obtain ⟨k, w⟩ := p
    simp only [Table.read]
    rw [if_neg (h (k, w) (by simp))]; exact ih fun q hq => h q (by simp [hq])

/-- A memory given cell by cell reads as it was given, and 0 beyond its size. -/
@[simp] theorem Memory.read_ofCells (size : Nat) (f : Nat → Byte) (a : Nat) :
    (Memory.ofCells size f).read a = if a < size then f a else 0 := by
  have hw := (Table.wf_iff 0 size _).mp (Memory.wf_ofCells size f)
  by_cases ha : a < size ∧ f a ≠ 0
  · rw [if_pos ha.1]
    exact Table.read_eq_of_mem 0 _ hw.1 a (f a) ((Memory.mem_ofCells size f (a, f a)).mpr ⟨ha.1, ha.2, rfl⟩)
  · rw [show (Memory.ofCells size f).read a = 0 from Table.read_eq_rest 0 _ a ?_]
    · by_cases hs : a < size
      · rw [if_pos hs]; by_contra hne; exact ha ⟨hs, Ne.symm hne⟩
      · rw [if_neg hs]
    · rintro ⟨b, v⟩ hp rfl
      obtain ⟨h1, h2, h3⟩ := (Memory.mem_ofCells size f (b, v)).mp hp
      exact ha ⟨h1, by simpa [← h3] using h2⟩

/-- Two memories in canonical form that read alike everywhere are the same data. -/
theorem Memory.ext_of_wf (size : Nat) (m k : Memory) (hm : m.wf size = true) (hk : k.wf size = true)
    (h : ∀ a, m.read a = k.read a) : m = k := by
  have key : ∀ x y : Memory, x.wf size = true → y.wf size = true → (∀ a, x.read a = y.read a) → ∀ p ∈ x, p ∈ y := by
    intro x y hx hy hxy p hp
    obtain ⟨a, v⟩ := p
    rw [Memory.wf, Table.wf_iff] at hx hy
    have hv : x.read a = v := Table.read_eq_of_mem 0 x hx.1 a v hp
    by_contra hn
    have hz : y.read a = 0 := Table.read_eq_rest 0 y a (by
      rintro ⟨b, w⟩ hb rfl
      have : y.read b = w := Table.read_eq_of_mem 0 y hy.1 b w hb
      rw [← hxy, hv] at this
      exact hn (this ▸ hb))
    rw [hxy, hz] at hv
    exact (hx.2 _ hp).2 hv.symm
  rw [Memory.wf, Table.wf_iff] at hm hk
  have e : ∀ p, p ∈ m ↔ p ∈ k := fun p =>
    ⟨key m k ((Table.wf_iff 0 size m).mpr hm) ((Table.wf_iff 0 size k).mpr hk) h p,
     key k m ((Table.wf_iff 0 size k).mpr hk) ((Table.wf_iff 0 size m).mpr hm) (fun a => (h a).symm) p⟩
  have nd : ∀ x : Memory, x.Pairwise (fun p q => p.1 < q.1) → x.Nodup := fun x hx => by
    refine List.Pairwise.imp ?_ hx
    rintro p q hpq rfl
    exact lt_irrefl _ hpq
  exact List.Perm.eq_of_pairwise (le := fun p q : Host.Cell => p.1 < q.1)
    (fun p q _ _ h1 h2 => absurd (lt_trans h1 h2) (lt_irrefl _)) hm.1 hk.1
    ((List.perm_ext_iff_of_nodup (nd m hm.1) (nd k hk.1)).mpr e)

/-! ### Spans and rows -/

theorem Span.mem_cells_lt (sp : Span) (k : Nat) (h : k ∈ sp.cells) : k < 128 := by
  simp only [Span.cells, List.mem_map] at h
  obtain ⟨i, -, rfl⟩ := h
  omega

/-- The cells of the span (0, 128) are all cells. -/
theorem Span.mem_whole (k : Nat) : k ∈ Span.whole.cells ↔ k < 128 := by
  simp only [Span.cells, Span.whole, List.mem_map, List.mem_range]
  exact ⟨by rintro ⟨i, hi, rfl⟩; omega, fun h => ⟨k, h, by simp; omega⟩⟩

theorem rowBase_add_lt (r : RowId) (k : Nat) (h : k < 128) : rowBase r + k < 65536 := by
  unfold rowBase; omega

theorem rowBase_div (r : RowId) (k : Nat) (h : k < 128) : (rowBase r + k) / 128 = r.val := by
  unfold rowBase; omega

theorem rowBase_inj (r q : RowId) (j k : Nat) (hj : j < 128) (hk : k < 128) (h : rowBase r + j = rowBase q + k) :
    r = q ∧ j = k := by
  unfold rowBase at h
  exact ⟨Fin.ext (by omega), by omega⟩

end Sys2Proof.Machine
end

