-- ==== Sys2Proof/Laws/State.lean ====
section
/-! SUPPORT. What each update of the state leaves as it was: one lemma per field per update. -/

namespace Sys2Proof.Machine

set_option Elab.async false

variable (s : State)

/-! ### setRecord -/

@[simp] theorem State.setRecord_resetnLow (r : RowId) (k : RowRecord) : (s.setRecord r k).resetnLow = s.resetnLow := rfl
@[simp] theorem State.setRecord_partState (r : RowId) (k : RowRecord) : (s.setRecord r k).partState = s.partState := rfl
@[simp] theorem State.setRecord_swept (r : RowId) (k : RowRecord) : (s.setRecord r k).swept = s.swept := rfl
@[simp] theorem State.setRecord_hardResets (r : RowId) (k : RowRecord) : (s.setRecord r k).hardResets = s.hardResets := rfl
@[simp] theorem State.setRecord_clock (r : RowId) (k : RowRecord) : (s.setRecord r k).clock = s.clock := rfl
@[simp] theorem State.setRecord_tickPhase (r : RowId) (k : RowRecord) : (s.setRecord r k).tickPhase = s.tickPhase := rfl
@[simp] theorem State.setRecord_leaseTick (r : RowId) (k : RowRecord) : (s.setRecord r k).leaseTick = s.leaseTick := rfl
@[simp] theorem State.setRecord_cells (r : RowId) (k : RowRecord) : (s.setRecord r k).cells = s.cells := rfl
@[simp] theorem State.setRecord_refreshPointer (r : RowId) (k : RowRecord) : (s.setRecord r k).refreshPointer = s.refreshPointer := rfl
@[simp] theorem State.setRecord_refreshDebt (r : RowId) (k : RowRecord) : (s.setRecord r k).refreshDebt = s.refreshDebt := rfl
@[simp] theorem State.setRecord_array (r : RowId) (k : RowRecord) : (s.setRecord r k).array = s.array := rfl
@[simp] theorem State.setRecord_claims (r : RowId) (k : RowRecord) : (s.setRecord r k).claims = s.claims := rfl
@[simp] theorem State.setRecord_queue (r : RowId) (k : RowRecord) : (s.setRecord r k).queue = s.queue := rfl
@[simp] theorem State.setRecord_nextTicket (r : RowId) (k : RowRecord) : (s.setRecord r k).nextTicket = s.nextTicket := rfl
@[simp] theorem State.setRecord_orphan (r : RowId) (k : RowRecord) : (s.setRecord r k).orphan = s.orphan := rfl
@[simp] theorem State.setRecord_log (r : RowId) (k : RowRecord) : (s.setRecord r k).log = s.log := rfl
@[simp] theorem State.setRecord_lastLane (r : RowId) (k : RowRecord) : (s.setRecord r k).lastLane = s.lastLane := rfl
@[simp] theorem State.setRecord_streak (r : RowId) (k : RowRecord) : (s.setRecord r k).streak = s.streak := rfl
@[simp] theorem State.setRecord_occasion (r : RowId) (k : RowRecord) : (s.setRecord r k).occasion = s.occasion := rfl
@[simp] theorem State.setRecord_lanes (r : RowId) (k : RowRecord) : (s.setRecord r k).lanes = s.lanes := rfl
@[simp] theorem State.setRecord_events (r : RowId) (k : RowRecord) : (s.setRecord r k).events = s.events := rfl
@[simp] theorem State.setRecord_eventCounter (r : RowId) (k : RowRecord) : (s.setRecord r k).eventCounter = s.eventCounter := rfl
@[simp] theorem State.setRecord_mask (r : RowId) (k : RowRecord) : (s.setRecord r k).mask = s.mask := rfl
@[simp] theorem State.setRecord_sessions (r : RowId) (k : RowRecord) : (s.setRecord r k).sessions = s.sessions := rfl
@[simp] theorem State.setRecord_buffers (r : RowId) (k : RowRecord) : (s.setRecord r k).buffers = s.buffers := rfl
@[simp] theorem State.setRecord_engine (r : RowId) (k : RowRecord) : (s.setRecord r k).engine = s.engine := rfl
@[simp] theorem State.setRecord_groupEnable (r : RowId) (k : RowRecord) : (s.setRecord r k).groupEnable = s.groupEnable := rfl
@[simp] theorem State.setRecord_port (r : RowId) (k : RowRecord) : (s.setRecord r k).port = s.port := rfl
@[simp] theorem State.setRecord_pending (r : RowId) (k : RowRecord) : (s.setRecord r k).pending = s.pending := rfl

/-! ### writeRow -/

@[simp] theorem State.writeRow_resetnLow (r : RowId) (cs : List Host.Cell) : (s.writeRow r cs).resetnLow = s.resetnLow := rfl
@[simp] theorem State.writeRow_partState (r : RowId) (cs : List Host.Cell) : (s.writeRow r cs).partState = s.partState := rfl
@[simp] theorem State.writeRow_swept (r : RowId) (cs : List Host.Cell) : (s.writeRow r cs).swept = s.swept := rfl
@[simp] theorem State.writeRow_hardResets (r : RowId) (cs : List Host.Cell) : (s.writeRow r cs).hardResets = s.hardResets := rfl
@[simp] theorem State.writeRow_clock (r : RowId) (cs : List Host.Cell) : (s.writeRow r cs).clock = s.clock := rfl
@[simp] theorem State.writeRow_tickPhase (r : RowId) (cs : List Host.Cell) : (s.writeRow r cs).tickPhase = s.tickPhase := rfl
@[simp] theorem State.writeRow_leaseTick (r : RowId) (cs : List Host.Cell) : (s.writeRow r cs).leaseTick = s.leaseTick := rfl
@[simp] theorem State.writeRow_records (r : RowId) (cs : List Host.Cell) : (s.writeRow r cs).records = s.records := rfl
@[simp] theorem State.writeRow_refreshPointer (r : RowId) (cs : List Host.Cell) : (s.writeRow r cs).refreshPointer = s.refreshPointer := rfl
@[simp] theorem State.writeRow_refreshDebt (r : RowId) (cs : List Host.Cell) : (s.writeRow r cs).refreshDebt = s.refreshDebt := rfl
@[simp] theorem State.writeRow_array (r : RowId) (cs : List Host.Cell) : (s.writeRow r cs).array = s.array := rfl
@[simp] theorem State.writeRow_claims (r : RowId) (cs : List Host.Cell) : (s.writeRow r cs).claims = s.claims := rfl
@[simp] theorem State.writeRow_queue (r : RowId) (cs : List Host.Cell) : (s.writeRow r cs).queue = s.queue := rfl
@[simp] theorem State.writeRow_nextTicket (r : RowId) (cs : List Host.Cell) : (s.writeRow r cs).nextTicket = s.nextTicket := rfl
@[simp] theorem State.writeRow_orphan (r : RowId) (cs : List Host.Cell) : (s.writeRow r cs).orphan = s.orphan := rfl
@[simp] theorem State.writeRow_log (r : RowId) (cs : List Host.Cell) : (s.writeRow r cs).log = s.log := rfl
@[simp] theorem State.writeRow_lastLane (r : RowId) (cs : List Host.Cell) : (s.writeRow r cs).lastLane = s.lastLane := rfl
@[simp] theorem State.writeRow_streak (r : RowId) (cs : List Host.Cell) : (s.writeRow r cs).streak = s.streak := rfl
@[simp] theorem State.writeRow_occasion (r : RowId) (cs : List Host.Cell) : (s.writeRow r cs).occasion = s.occasion := rfl
@[simp] theorem State.writeRow_lanes (r : RowId) (cs : List Host.Cell) : (s.writeRow r cs).lanes = s.lanes := rfl
@[simp] theorem State.writeRow_events (r : RowId) (cs : List Host.Cell) : (s.writeRow r cs).events = s.events := rfl
@[simp] theorem State.writeRow_eventCounter (r : RowId) (cs : List Host.Cell) : (s.writeRow r cs).eventCounter = s.eventCounter := rfl
@[simp] theorem State.writeRow_mask (r : RowId) (cs : List Host.Cell) : (s.writeRow r cs).mask = s.mask := rfl
@[simp] theorem State.writeRow_sessions (r : RowId) (cs : List Host.Cell) : (s.writeRow r cs).sessions = s.sessions := rfl
@[simp] theorem State.writeRow_buffers (r : RowId) (cs : List Host.Cell) : (s.writeRow r cs).buffers = s.buffers := rfl
@[simp] theorem State.writeRow_engine (r : RowId) (cs : List Host.Cell) : (s.writeRow r cs).engine = s.engine := rfl
@[simp] theorem State.writeRow_groupEnable (r : RowId) (cs : List Host.Cell) : (s.writeRow r cs).groupEnable = s.groupEnable := rfl
@[simp] theorem State.writeRow_port (r : RowId) (cs : List Host.Cell) : (s.writeRow r cs).port = s.port := rfl
@[simp] theorem State.writeRow_pending (r : RowId) (cs : List Host.Cell) : (s.writeRow r cs).pending = s.pending := rfl

/-! ### setLane -/

@[simp] theorem State.setLane_resetnLow (n : LaneId) (l : Lane) : (s.setLane n l).resetnLow = s.resetnLow := rfl
@[simp] theorem State.setLane_partState (n : LaneId) (l : Lane) : (s.setLane n l).partState = s.partState := rfl
@[simp] theorem State.setLane_swept (n : LaneId) (l : Lane) : (s.setLane n l).swept = s.swept := rfl
@[simp] theorem State.setLane_hardResets (n : LaneId) (l : Lane) : (s.setLane n l).hardResets = s.hardResets := rfl
@[simp] theorem State.setLane_clock (n : LaneId) (l : Lane) : (s.setLane n l).clock = s.clock := rfl
@[simp] theorem State.setLane_tickPhase (n : LaneId) (l : Lane) : (s.setLane n l).tickPhase = s.tickPhase := rfl
@[simp] theorem State.setLane_leaseTick (n : LaneId) (l : Lane) : (s.setLane n l).leaseTick = s.leaseTick := rfl
@[simp] theorem State.setLane_cells (n : LaneId) (l : Lane) : (s.setLane n l).cells = s.cells := rfl
@[simp] theorem State.setLane_records (n : LaneId) (l : Lane) : (s.setLane n l).records = s.records := rfl
@[simp] theorem State.setLane_refreshPointer (n : LaneId) (l : Lane) : (s.setLane n l).refreshPointer = s.refreshPointer := rfl
@[simp] theorem State.setLane_refreshDebt (n : LaneId) (l : Lane) : (s.setLane n l).refreshDebt = s.refreshDebt := rfl
@[simp] theorem State.setLane_array (n : LaneId) (l : Lane) : (s.setLane n l).array = s.array := rfl
@[simp] theorem State.setLane_claims (n : LaneId) (l : Lane) : (s.setLane n l).claims = s.claims := rfl
@[simp] theorem State.setLane_queue (n : LaneId) (l : Lane) : (s.setLane n l).queue = s.queue := rfl
@[simp] theorem State.setLane_nextTicket (n : LaneId) (l : Lane) : (s.setLane n l).nextTicket = s.nextTicket := rfl
@[simp] theorem State.setLane_orphan (n : LaneId) (l : Lane) : (s.setLane n l).orphan = s.orphan := rfl
@[simp] theorem State.setLane_log (n : LaneId) (l : Lane) : (s.setLane n l).log = s.log := rfl
@[simp] theorem State.setLane_lastLane (n : LaneId) (l : Lane) : (s.setLane n l).lastLane = s.lastLane := rfl
@[simp] theorem State.setLane_streak (n : LaneId) (l : Lane) : (s.setLane n l).streak = s.streak := rfl
@[simp] theorem State.setLane_occasion (n : LaneId) (l : Lane) : (s.setLane n l).occasion = s.occasion := rfl
@[simp] theorem State.setLane_events (n : LaneId) (l : Lane) : (s.setLane n l).events = s.events := rfl
@[simp] theorem State.setLane_eventCounter (n : LaneId) (l : Lane) : (s.setLane n l).eventCounter = s.eventCounter := rfl
@[simp] theorem State.setLane_mask (n : LaneId) (l : Lane) : (s.setLane n l).mask = s.mask := rfl
@[simp] theorem State.setLane_sessions (n : LaneId) (l : Lane) : (s.setLane n l).sessions = s.sessions := rfl
@[simp] theorem State.setLane_buffers (n : LaneId) (l : Lane) : (s.setLane n l).buffers = s.buffers := rfl
@[simp] theorem State.setLane_engine (n : LaneId) (l : Lane) : (s.setLane n l).engine = s.engine := rfl
@[simp] theorem State.setLane_groupEnable (n : LaneId) (l : Lane) : (s.setLane n l).groupEnable = s.groupEnable := rfl
@[simp] theorem State.setLane_port (n : LaneId) (l : Lane) : (s.setLane n l).port = s.port := rfl
@[simp] theorem State.setLane_pending (n : LaneId) (l : Lane) : (s.setLane n l).pending = s.pending := rfl

/-! ### modLane -/

@[simp] theorem State.modLane_resetnLow (n : LaneId) (f : Lane → Lane) : (s.modLane n f).resetnLow = s.resetnLow := rfl
@[simp] theorem State.modLane_partState (n : LaneId) (f : Lane → Lane) : (s.modLane n f).partState = s.partState := rfl
@[simp] theorem State.modLane_swept (n : LaneId) (f : Lane → Lane) : (s.modLane n f).swept = s.swept := rfl
@[simp] theorem State.modLane_hardResets (n : LaneId) (f : Lane → Lane) : (s.modLane n f).hardResets = s.hardResets := rfl
@[simp] theorem State.modLane_clock (n : LaneId) (f : Lane → Lane) : (s.modLane n f).clock = s.clock := rfl
@[simp] theorem State.modLane_tickPhase (n : LaneId) (f : Lane → Lane) : (s.modLane n f).tickPhase = s.tickPhase := rfl
@[simp] theorem State.modLane_leaseTick (n : LaneId) (f : Lane → Lane) : (s.modLane n f).leaseTick = s.leaseTick := rfl
@[simp] theorem State.modLane_cells (n : LaneId) (f : Lane → Lane) : (s.modLane n f).cells = s.cells := rfl
@[simp] theorem State.modLane_records (n : LaneId) (f : Lane → Lane) : (s.modLane n f).records = s.records := rfl
@[simp] theorem State.modLane_refreshPointer (n : LaneId) (f : Lane → Lane) : (s.modLane n f).refreshPointer = s.refreshPointer := rfl
@[simp] theorem State.modLane_refreshDebt (n : LaneId) (f : Lane → Lane) : (s.modLane n f).refreshDebt = s.refreshDebt := rfl
@[simp] theorem State.modLane_array (n : LaneId) (f : Lane → Lane) : (s.modLane n f).array = s.array := rfl
@[simp] theorem State.modLane_claims (n : LaneId) (f : Lane → Lane) : (s.modLane n f).claims = s.claims := rfl
@[simp] theorem State.modLane_queue (n : LaneId) (f : Lane → Lane) : (s.modLane n f).queue = s.queue := rfl
@[simp] theorem State.modLane_nextTicket (n : LaneId) (f : Lane → Lane) : (s.modLane n f).nextTicket = s.nextTicket := rfl
@[simp] theorem State.modLane_orphan (n : LaneId) (f : Lane → Lane) : (s.modLane n f).orphan = s.orphan := rfl
@[simp] theorem State.modLane_log (n : LaneId) (f : Lane → Lane) : (s.modLane n f).log = s.log := rfl
@[simp] theorem State.modLane_lastLane (n : LaneId) (f : Lane → Lane) : (s.modLane n f).lastLane = s.lastLane := rfl
@[simp] theorem State.modLane_streak (n : LaneId) (f : Lane → Lane) : (s.modLane n f).streak = s.streak := rfl
@[simp] theorem State.modLane_occasion (n : LaneId) (f : Lane → Lane) : (s.modLane n f).occasion = s.occasion := rfl
@[simp] theorem State.modLane_events (n : LaneId) (f : Lane → Lane) : (s.modLane n f).events = s.events := rfl
@[simp] theorem State.modLane_eventCounter (n : LaneId) (f : Lane → Lane) : (s.modLane n f).eventCounter = s.eventCounter := rfl
@[simp] theorem State.modLane_mask (n : LaneId) (f : Lane → Lane) : (s.modLane n f).mask = s.mask := rfl
@[simp] theorem State.modLane_sessions (n : LaneId) (f : Lane → Lane) : (s.modLane n f).sessions = s.sessions := rfl
@[simp] theorem State.modLane_buffers (n : LaneId) (f : Lane → Lane) : (s.modLane n f).buffers = s.buffers := rfl
@[simp] theorem State.modLane_engine (n : LaneId) (f : Lane → Lane) : (s.modLane n f).engine = s.engine := rfl
@[simp] theorem State.modLane_groupEnable (n : LaneId) (f : Lane → Lane) : (s.modLane n f).groupEnable = s.groupEnable := rfl
@[simp] theorem State.modLane_port (n : LaneId) (f : Lane → Lane) : (s.modLane n f).port = s.port := rfl
@[simp] theorem State.modLane_pending (n : LaneId) (f : Lane → Lane) : (s.modLane n f).pending = s.pending := rfl

/-! ### setSession -/

@[simp] theorem State.setSession_resetnLow (c : Ctl) (t : Option Byte) : (s.setSession c t).resetnLow = s.resetnLow := rfl
@[simp] theorem State.setSession_partState (c : Ctl) (t : Option Byte) : (s.setSession c t).partState = s.partState := rfl
@[simp] theorem State.setSession_swept (c : Ctl) (t : Option Byte) : (s.setSession c t).swept = s.swept := rfl
@[simp] theorem State.setSession_hardResets (c : Ctl) (t : Option Byte) : (s.setSession c t).hardResets = s.hardResets := rfl
@[simp] theorem State.setSession_clock (c : Ctl) (t : Option Byte) : (s.setSession c t).clock = s.clock := rfl
@[simp] theorem State.setSession_tickPhase (c : Ctl) (t : Option Byte) : (s.setSession c t).tickPhase = s.tickPhase := rfl
@[simp] theorem State.setSession_leaseTick (c : Ctl) (t : Option Byte) : (s.setSession c t).leaseTick = s.leaseTick := rfl
@[simp] theorem State.setSession_cells (c : Ctl) (t : Option Byte) : (s.setSession c t).cells = s.cells := rfl
@[simp] theorem State.setSession_records (c : Ctl) (t : Option Byte) : (s.setSession c t).records = s.records := rfl
@[simp] theorem State.setSession_refreshPointer (c : Ctl) (t : Option Byte) : (s.setSession c t).refreshPointer = s.refreshPointer := rfl
@[simp] theorem State.setSession_refreshDebt (c : Ctl) (t : Option Byte) : (s.setSession c t).refreshDebt = s.refreshDebt := rfl
@[simp] theorem State.setSession_array (c : Ctl) (t : Option Byte) : (s.setSession c t).array = s.array := rfl
@[simp] theorem State.setSession_claims (c : Ctl) (t : Option Byte) : (s.setSession c t).claims = s.claims := rfl
@[simp] theorem State.setSession_queue (c : Ctl) (t : Option Byte) : (s.setSession c t).queue = s.queue := rfl
@[simp] theorem State.setSession_nextTicket (c : Ctl) (t : Option Byte) : (s.setSession c t).nextTicket = s.nextTicket := rfl
@[simp] theorem State.setSession_orphan (c : Ctl) (t : Option Byte) : (s.setSession c t).orphan = s.orphan := rfl
@[simp] theorem State.setSession_log (c : Ctl) (t : Option Byte) : (s.setSession c t).log = s.log := rfl
@[simp] theorem State.setSession_lastLane (c : Ctl) (t : Option Byte) : (s.setSession c t).lastLane = s.lastLane := rfl
@[simp] theorem State.setSession_streak (c : Ctl) (t : Option Byte) : (s.setSession c t).streak = s.streak := rfl
@[simp] theorem State.setSession_occasion (c : Ctl) (t : Option Byte) : (s.setSession c t).occasion = s.occasion := rfl
@[simp] theorem State.setSession_lanes (c : Ctl) (t : Option Byte) : (s.setSession c t).lanes = s.lanes := rfl
@[simp] theorem State.setSession_events (c : Ctl) (t : Option Byte) : (s.setSession c t).events = s.events := rfl
@[simp] theorem State.setSession_eventCounter (c : Ctl) (t : Option Byte) : (s.setSession c t).eventCounter = s.eventCounter := rfl
@[simp] theorem State.setSession_mask (c : Ctl) (t : Option Byte) : (s.setSession c t).mask = s.mask := rfl
@[simp] theorem State.setSession_buffers (c : Ctl) (t : Option Byte) : (s.setSession c t).buffers = s.buffers := rfl
@[simp] theorem State.setSession_engine (c : Ctl) (t : Option Byte) : (s.setSession c t).engine = s.engine := rfl
@[simp] theorem State.setSession_groupEnable (c : Ctl) (t : Option Byte) : (s.setSession c t).groupEnable = s.groupEnable := rfl
@[simp] theorem State.setSession_port (c : Ctl) (t : Option Byte) : (s.setSession c t).port = s.port := rfl
@[simp] theorem State.setSession_pending (c : Ctl) (t : Option Byte) : (s.setSession c t).pending = s.pending := rfl

/-! ### setBuffer -/

@[simp] theorem State.setBuffer_resetnLow (c : Ctl) (m : Memory) : (s.setBuffer c m).resetnLow = s.resetnLow := rfl
@[simp] theorem State.setBuffer_partState (c : Ctl) (m : Memory) : (s.setBuffer c m).partState = s.partState := rfl
@[simp] theorem State.setBuffer_swept (c : Ctl) (m : Memory) : (s.setBuffer c m).swept = s.swept := rfl
@[simp] theorem State.setBuffer_hardResets (c : Ctl) (m : Memory) : (s.setBuffer c m).hardResets = s.hardResets := rfl
@[simp] theorem State.setBuffer_clock (c : Ctl) (m : Memory) : (s.setBuffer c m).clock = s.clock := rfl
@[simp] theorem State.setBuffer_tickPhase (c : Ctl) (m : Memory) : (s.setBuffer c m).tickPhase = s.tickPhase := rfl
@[simp] theorem State.setBuffer_leaseTick (c : Ctl) (m : Memory) : (s.setBuffer c m).leaseTick = s.leaseTick := rfl
@[simp] theorem State.setBuffer_cells (c : Ctl) (m : Memory) : (s.setBuffer c m).cells = s.cells := rfl
@[simp] theorem State.setBuffer_records (c : Ctl) (m : Memory) : (s.setBuffer c m).records = s.records := rfl
@[simp] theorem State.setBuffer_refreshPointer (c : Ctl) (m : Memory) : (s.setBuffer c m).refreshPointer = s.refreshPointer := rfl
@[simp] theorem State.setBuffer_refreshDebt (c : Ctl) (m : Memory) : (s.setBuffer c m).refreshDebt = s.refreshDebt := rfl
@[simp] theorem State.setBuffer_array (c : Ctl) (m : Memory) : (s.setBuffer c m).array = s.array := rfl
@[simp] theorem State.setBuffer_claims (c : Ctl) (m : Memory) : (s.setBuffer c m).claims = s.claims := rfl
@[simp] theorem State.setBuffer_queue (c : Ctl) (m : Memory) : (s.setBuffer c m).queue = s.queue := rfl
@[simp] theorem State.setBuffer_nextTicket (c : Ctl) (m : Memory) : (s.setBuffer c m).nextTicket = s.nextTicket := rfl
@[simp] theorem State.setBuffer_orphan (c : Ctl) (m : Memory) : (s.setBuffer c m).orphan = s.orphan := rfl
@[simp] theorem State.setBuffer_log (c : Ctl) (m : Memory) : (s.setBuffer c m).log = s.log := rfl
@[simp] theorem State.setBuffer_lastLane (c : Ctl) (m : Memory) : (s.setBuffer c m).lastLane = s.lastLane := rfl
@[simp] theorem State.setBuffer_streak (c : Ctl) (m : Memory) : (s.setBuffer c m).streak = s.streak := rfl
@[simp] theorem State.setBuffer_occasion (c : Ctl) (m : Memory) : (s.setBuffer c m).occasion = s.occasion := rfl
@[simp] theorem State.setBuffer_lanes (c : Ctl) (m : Memory) : (s.setBuffer c m).lanes = s.lanes := rfl
@[simp] theorem State.setBuffer_events (c : Ctl) (m : Memory) : (s.setBuffer c m).events = s.events := rfl
@[simp] theorem State.setBuffer_eventCounter (c : Ctl) (m : Memory) : (s.setBuffer c m).eventCounter = s.eventCounter := rfl
@[simp] theorem State.setBuffer_mask (c : Ctl) (m : Memory) : (s.setBuffer c m).mask = s.mask := rfl
@[simp] theorem State.setBuffer_sessions (c : Ctl) (m : Memory) : (s.setBuffer c m).sessions = s.sessions := rfl
@[simp] theorem State.setBuffer_engine (c : Ctl) (m : Memory) : (s.setBuffer c m).engine = s.engine := rfl
@[simp] theorem State.setBuffer_groupEnable (c : Ctl) (m : Memory) : (s.setBuffer c m).groupEnable = s.groupEnable := rfl
@[simp] theorem State.setBuffer_port (c : Ctl) (m : Memory) : (s.setBuffer c m).port = s.port := rfl
@[simp] theorem State.setBuffer_pending (c : Ctl) (m : Memory) : (s.setBuffer c m).pending = s.pending := rfl

/-! ### setClaim -/

@[simp] theorem State.setClaim_resetnLow (i : ClaimId) (c : Option Claim) : (s.setClaim i c).resetnLow = s.resetnLow := rfl
@[simp] theorem State.setClaim_partState (i : ClaimId) (c : Option Claim) : (s.setClaim i c).partState = s.partState := rfl
@[simp] theorem State.setClaim_swept (i : ClaimId) (c : Option Claim) : (s.setClaim i c).swept = s.swept := rfl
@[simp] theorem State.setClaim_hardResets (i : ClaimId) (c : Option Claim) : (s.setClaim i c).hardResets = s.hardResets := rfl
@[simp] theorem State.setClaim_clock (i : ClaimId) (c : Option Claim) : (s.setClaim i c).clock = s.clock := rfl
@[simp] theorem State.setClaim_tickPhase (i : ClaimId) (c : Option Claim) : (s.setClaim i c).tickPhase = s.tickPhase := rfl
@[simp] theorem State.setClaim_leaseTick (i : ClaimId) (c : Option Claim) : (s.setClaim i c).leaseTick = s.leaseTick := rfl
@[simp] theorem State.setClaim_cells (i : ClaimId) (c : Option Claim) : (s.setClaim i c).cells = s.cells := rfl
@[simp] theorem State.setClaim_records (i : ClaimId) (c : Option Claim) : (s.setClaim i c).records = s.records := rfl
@[simp] theorem State.setClaim_refreshPointer (i : ClaimId) (c : Option Claim) : (s.setClaim i c).refreshPointer = s.refreshPointer := rfl
@[simp] theorem State.setClaim_refreshDebt (i : ClaimId) (c : Option Claim) : (s.setClaim i c).refreshDebt = s.refreshDebt := rfl
@[simp] theorem State.setClaim_array (i : ClaimId) (c : Option Claim) : (s.setClaim i c).array = s.array := rfl
@[simp] theorem State.setClaim_queue (i : ClaimId) (c : Option Claim) : (s.setClaim i c).queue = s.queue := rfl
@[simp] theorem State.setClaim_nextTicket (i : ClaimId) (c : Option Claim) : (s.setClaim i c).nextTicket = s.nextTicket := rfl
@[simp] theorem State.setClaim_orphan (i : ClaimId) (c : Option Claim) : (s.setClaim i c).orphan = s.orphan := rfl
@[simp] theorem State.setClaim_log (i : ClaimId) (c : Option Claim) : (s.setClaim i c).log = s.log := rfl
@[simp] theorem State.setClaim_lastLane (i : ClaimId) (c : Option Claim) : (s.setClaim i c).lastLane = s.lastLane := rfl
@[simp] theorem State.setClaim_streak (i : ClaimId) (c : Option Claim) : (s.setClaim i c).streak = s.streak := rfl
@[simp] theorem State.setClaim_occasion (i : ClaimId) (c : Option Claim) : (s.setClaim i c).occasion = s.occasion := rfl
@[simp] theorem State.setClaim_lanes (i : ClaimId) (c : Option Claim) : (s.setClaim i c).lanes = s.lanes := rfl
@[simp] theorem State.setClaim_events (i : ClaimId) (c : Option Claim) : (s.setClaim i c).events = s.events := rfl
@[simp] theorem State.setClaim_eventCounter (i : ClaimId) (c : Option Claim) : (s.setClaim i c).eventCounter = s.eventCounter := rfl
@[simp] theorem State.setClaim_mask (i : ClaimId) (c : Option Claim) : (s.setClaim i c).mask = s.mask := rfl
@[simp] theorem State.setClaim_sessions (i : ClaimId) (c : Option Claim) : (s.setClaim i c).sessions = s.sessions := rfl
@[simp] theorem State.setClaim_buffers (i : ClaimId) (c : Option Claim) : (s.setClaim i c).buffers = s.buffers := rfl
@[simp] theorem State.setClaim_engine (i : ClaimId) (c : Option Claim) : (s.setClaim i c).engine = s.engine := rfl
@[simp] theorem State.setClaim_groupEnable (i : ClaimId) (c : Option Claim) : (s.setClaim i c).groupEnable = s.groupEnable := rfl
@[simp] theorem State.setClaim_port (i : ClaimId) (c : Option Claim) : (s.setClaim i c).port = s.port := rfl
@[simp] theorem State.setClaim_pending (i : ClaimId) (c : Option Claim) : (s.setClaim i c).pending = s.pending := rfl

/-! ### raise -/

@[simp] theorem State.raise_resetnLow : (s.raise).resetnLow = s.resetnLow := rfl
@[simp] theorem State.raise_partState : (s.raise).partState = s.partState := rfl
@[simp] theorem State.raise_swept : (s.raise).swept = s.swept := rfl
@[simp] theorem State.raise_hardResets : (s.raise).hardResets = s.hardResets := rfl
@[simp] theorem State.raise_clock : (s.raise).clock = s.clock := rfl
@[simp] theorem State.raise_tickPhase : (s.raise).tickPhase = s.tickPhase := rfl
@[simp] theorem State.raise_leaseTick : (s.raise).leaseTick = s.leaseTick := rfl
@[simp] theorem State.raise_cells : (s.raise).cells = s.cells := rfl
@[simp] theorem State.raise_records : (s.raise).records = s.records := rfl
@[simp] theorem State.raise_refreshPointer : (s.raise).refreshPointer = s.refreshPointer := rfl
@[simp] theorem State.raise_refreshDebt : (s.raise).refreshDebt = s.refreshDebt := rfl
@[simp] theorem State.raise_array : (s.raise).array = s.array := rfl
@[simp] theorem State.raise_claims : (s.raise).claims = s.claims := rfl
@[simp] theorem State.raise_queue : (s.raise).queue = s.queue := rfl
@[simp] theorem State.raise_nextTicket : (s.raise).nextTicket = s.nextTicket := rfl
@[simp] theorem State.raise_orphan : (s.raise).orphan = s.orphan := rfl
@[simp] theorem State.raise_log : (s.raise).log = s.log := rfl
@[simp] theorem State.raise_lastLane : (s.raise).lastLane = s.lastLane := rfl
@[simp] theorem State.raise_streak : (s.raise).streak = s.streak := rfl
@[simp] theorem State.raise_lanes : (s.raise).lanes = s.lanes := rfl
@[simp] theorem State.raise_events : (s.raise).events = s.events := rfl
@[simp] theorem State.raise_eventCounter : (s.raise).eventCounter = s.eventCounter := rfl
@[simp] theorem State.raise_mask : (s.raise).mask = s.mask := rfl
@[simp] theorem State.raise_sessions : (s.raise).sessions = s.sessions := rfl
@[simp] theorem State.raise_buffers : (s.raise).buffers = s.buffers := rfl
@[simp] theorem State.raise_engine : (s.raise).engine = s.engine := rfl
@[simp] theorem State.raise_groupEnable : (s.raise).groupEnable = s.groupEnable := rfl
@[simp] theorem State.raise_port : (s.raise).port = s.port := rfl
@[simp] theorem State.raise_pending : (s.raise).pending = s.pending := rfl

/-! ### append -/

@[simp] theorem State.append_resetnLow (p : Post) : (s.append p).resetnLow = s.resetnLow := rfl
@[simp] theorem State.append_partState (p : Post) : (s.append p).partState = s.partState := rfl
@[simp] theorem State.append_swept (p : Post) : (s.append p).swept = s.swept := rfl
@[simp] theorem State.append_hardResets (p : Post) : (s.append p).hardResets = s.hardResets := rfl
@[simp] theorem State.append_clock (p : Post) : (s.append p).clock = s.clock := rfl
@[simp] theorem State.append_tickPhase (p : Post) : (s.append p).tickPhase = s.tickPhase := rfl
@[simp] theorem State.append_leaseTick (p : Post) : (s.append p).leaseTick = s.leaseTick := rfl
@[simp] theorem State.append_cells (p : Post) : (s.append p).cells = s.cells := rfl
@[simp] theorem State.append_records (p : Post) : (s.append p).records = s.records := rfl
@[simp] theorem State.append_refreshPointer (p : Post) : (s.append p).refreshPointer = s.refreshPointer := rfl
@[simp] theorem State.append_refreshDebt (p : Post) : (s.append p).refreshDebt = s.refreshDebt := rfl
@[simp] theorem State.append_array (p : Post) : (s.append p).array = s.array := rfl
@[simp] theorem State.append_claims (p : Post) : (s.append p).claims = s.claims := rfl
@[simp] theorem State.append_queue (p : Post) : (s.append p).queue = s.queue := rfl
@[simp] theorem State.append_nextTicket (p : Post) : (s.append p).nextTicket = s.nextTicket := rfl
@[simp] theorem State.append_orphan (p : Post) : (s.append p).orphan = s.orphan := rfl
@[simp] theorem State.append_log (p : Post) : (s.append p).log = s.log := rfl
@[simp] theorem State.append_lastLane (p : Post) : (s.append p).lastLane = s.lastLane := rfl
@[simp] theorem State.append_streak (p : Post) : (s.append p).streak = s.streak := rfl
@[simp] theorem State.append_occasion (p : Post) : (s.append p).occasion = s.occasion := rfl
@[simp] theorem State.append_lanes (p : Post) : (s.append p).lanes = s.lanes := rfl
@[simp] theorem State.append_mask (p : Post) : (s.append p).mask = s.mask := rfl
@[simp] theorem State.append_sessions (p : Post) : (s.append p).sessions = s.sessions := rfl
@[simp] theorem State.append_buffers (p : Post) : (s.append p).buffers = s.buffers := rfl
@[simp] theorem State.append_engine (p : Post) : (s.append p).engine = s.engine := rfl
@[simp] theorem State.append_groupEnable (p : Post) : (s.append p).groupEnable = s.groupEnable := rfl
@[simp] theorem State.append_port (p : Post) : (s.append p).port = s.port := rfl
@[simp] theorem State.append_pending (p : Post) : (s.append p).pending = s.pending := rfl

/-! ### post -/

@[simp] theorem State.post_resetnLow (p : Post) : (s.post p).resetnLow = s.resetnLow := by
  unfold State.post; split <;> [rfl; (split <;> rfl)]
@[simp] theorem State.post_partState (p : Post) : (s.post p).partState = s.partState := by
  unfold State.post; split <;> [rfl; (split <;> rfl)]
@[simp] theorem State.post_swept (p : Post) : (s.post p).swept = s.swept := by
  unfold State.post; split <;> [rfl; (split <;> rfl)]
@[simp] theorem State.post_hardResets (p : Post) : (s.post p).hardResets = s.hardResets := by
  unfold State.post; split <;> [rfl; (split <;> rfl)]
@[simp] theorem State.post_clock (p : Post) : (s.post p).clock = s.clock := by
  unfold State.post; split <;> [rfl; (split <;> rfl)]
@[simp] theorem State.post_tickPhase (p : Post) : (s.post p).tickPhase = s.tickPhase := by
  unfold State.post; split <;> [rfl; (split <;> rfl)]
@[simp] theorem State.post_leaseTick (p : Post) : (s.post p).leaseTick = s.leaseTick := by
  unfold State.post; split <;> [rfl; (split <;> rfl)]
@[simp] theorem State.post_cells (p : Post) : (s.post p).cells = s.cells := by
  unfold State.post; split <;> [rfl; (split <;> rfl)]
@[simp] theorem State.post_records (p : Post) : (s.post p).records = s.records := by
  unfold State.post; split <;> [rfl; (split <;> rfl)]
@[simp] theorem State.post_refreshPointer (p : Post) : (s.post p).refreshPointer = s.refreshPointer := by
  unfold State.post; split <;> [rfl; (split <;> rfl)]
@[simp] theorem State.post_refreshDebt (p : Post) : (s.post p).refreshDebt = s.refreshDebt := by
  unfold State.post; split <;> [rfl; (split <;> rfl)]
@[simp] theorem State.post_array (p : Post) : (s.post p).array = s.array := by
  unfold State.post; split <;> [rfl; (split <;> rfl)]
@[simp] theorem State.post_claims (p : Post) : (s.post p).claims = s.claims := by
  unfold State.post; split <;> [rfl; (split <;> rfl)]
@[simp] theorem State.post_queue (p : Post) : (s.post p).queue = s.queue := by
  unfold State.post; split <;> [rfl; (split <;> rfl)]
@[simp] theorem State.post_nextTicket (p : Post) : (s.post p).nextTicket = s.nextTicket := by
  unfold State.post; split <;> [rfl; (split <;> rfl)]
@[simp] theorem State.post_orphan (p : Post) : (s.post p).orphan = s.orphan := by
  unfold State.post; split <;> [rfl; (split <;> rfl)]
@[simp] theorem State.post_log (p : Post) : (s.post p).log = s.log := by
  unfold State.post; split <;> [rfl; (split <;> rfl)]
@[simp] theorem State.post_lastLane (p : Post) : (s.post p).lastLane = s.lastLane := by
  unfold State.post; split <;> [rfl; (split <;> rfl)]
@[simp] theorem State.post_streak (p : Post) : (s.post p).streak = s.streak := by
  unfold State.post; split <;> [rfl; (split <;> rfl)]
@[simp] theorem State.post_occasion (p : Post) : (s.post p).occasion = s.occasion := by
  unfold State.post; split <;> [rfl; (split <;> rfl)]
@[simp] theorem State.post_lanes (p : Post) : (s.post p).lanes = s.lanes := by
  unfold State.post; split <;> [rfl; (split <;> rfl)]
@[simp] theorem State.post_mask (p : Post) : (s.post p).mask = s.mask := by
  unfold State.post; split <;> [rfl; (split <;> rfl)]
@[simp] theorem State.post_sessions (p : Post) : (s.post p).sessions = s.sessions := by
  unfold State.post; split <;> [rfl; (split <;> rfl)]
@[simp] theorem State.post_buffers (p : Post) : (s.post p).buffers = s.buffers := by
  unfold State.post; split <;> [rfl; (split <;> rfl)]
@[simp] theorem State.post_engine (p : Post) : (s.post p).engine = s.engine := by
  unfold State.post; split <;> [rfl; (split <;> rfl)]
@[simp] theorem State.post_groupEnable (p : Post) : (s.post p).groupEnable = s.groupEnable := by
  unfold State.post; split <;> [rfl; (split <;> rfl)]
@[simp] theorem State.post_port (p : Post) : (s.post p).port = s.port := by
  unfold State.post; split <;> [rfl; (split <;> rfl)]
@[simp] theorem State.post_pending (p : Post) : (s.post p).pending = s.pending := by
  unfold State.post; split <;> [rfl; (split <;> rfl)]

/-! ### lanePost -/

@[simp] theorem State.lanePost_resetnLow (n : LaneId) (k : EventKind) (r : Option RowId) (c : Option Half) (w : Option Cause) : (s.lanePost n k r c w).resetnLow = s.resetnLow := State.post_resetnLow _ _
@[simp] theorem State.lanePost_partState (n : LaneId) (k : EventKind) (r : Option RowId) (c : Option Half) (w : Option Cause) : (s.lanePost n k r c w).partState = s.partState := State.post_partState _ _
@[simp] theorem State.lanePost_swept (n : LaneId) (k : EventKind) (r : Option RowId) (c : Option Half) (w : Option Cause) : (s.lanePost n k r c w).swept = s.swept := State.post_swept _ _
@[simp] theorem State.lanePost_hardResets (n : LaneId) (k : EventKind) (r : Option RowId) (c : Option Half) (w : Option Cause) : (s.lanePost n k r c w).hardResets = s.hardResets := State.post_hardResets _ _
@[simp] theorem State.lanePost_clock (n : LaneId) (k : EventKind) (r : Option RowId) (c : Option Half) (w : Option Cause) : (s.lanePost n k r c w).clock = s.clock := State.post_clock _ _
@[simp] theorem State.lanePost_tickPhase (n : LaneId) (k : EventKind) (r : Option RowId) (c : Option Half) (w : Option Cause) : (s.lanePost n k r c w).tickPhase = s.tickPhase := State.post_tickPhase _ _
@[simp] theorem State.lanePost_leaseTick (n : LaneId) (k : EventKind) (r : Option RowId) (c : Option Half) (w : Option Cause) : (s.lanePost n k r c w).leaseTick = s.leaseTick := State.post_leaseTick _ _
@[simp] theorem State.lanePost_cells (n : LaneId) (k : EventKind) (r : Option RowId) (c : Option Half) (w : Option Cause) : (s.lanePost n k r c w).cells = s.cells := State.post_cells _ _
@[simp] theorem State.lanePost_records (n : LaneId) (k : EventKind) (r : Option RowId) (c : Option Half) (w : Option Cause) : (s.lanePost n k r c w).records = s.records := State.post_records _ _
@[simp] theorem State.lanePost_refreshPointer (n : LaneId) (k : EventKind) (r : Option RowId) (c : Option Half) (w : Option Cause) : (s.lanePost n k r c w).refreshPointer = s.refreshPointer := State.post_refreshPointer _ _
@[simp] theorem State.lanePost_refreshDebt (n : LaneId) (k : EventKind) (r : Option RowId) (c : Option Half) (w : Option Cause) : (s.lanePost n k r c w).refreshDebt = s.refreshDebt := State.post_refreshDebt _ _
@[simp] theorem State.lanePost_array (n : LaneId) (k : EventKind) (r : Option RowId) (c : Option Half) (w : Option Cause) : (s.lanePost n k r c w).array = s.array := State.post_array _ _
@[simp] theorem State.lanePost_claims (n : LaneId) (k : EventKind) (r : Option RowId) (c : Option Half) (w : Option Cause) : (s.lanePost n k r c w).claims = s.claims := State.post_claims _ _
@[simp] theorem State.lanePost_queue (n : LaneId) (k : EventKind) (r : Option RowId) (c : Option Half) (w : Option Cause) : (s.lanePost n k r c w).queue = s.queue := State.post_queue _ _
@[simp] theorem State.lanePost_nextTicket (n : LaneId) (k : EventKind) (r : Option RowId) (c : Option Half) (w : Option Cause) : (s.lanePost n k r c w).nextTicket = s.nextTicket := State.post_nextTicket _ _
@[simp] theorem State.lanePost_orphan (n : LaneId) (k : EventKind) (r : Option RowId) (c : Option Half) (w : Option Cause) : (s.lanePost n k r c w).orphan = s.orphan := State.post_orphan _ _
@[simp] theorem State.lanePost_log (n : LaneId) (k : EventKind) (r : Option RowId) (c : Option Half) (w : Option Cause) : (s.lanePost n k r c w).log = s.log := State.post_log _ _
@[simp] theorem State.lanePost_lastLane (n : LaneId) (k : EventKind) (r : Option RowId) (c : Option Half) (w : Option Cause) : (s.lanePost n k r c w).lastLane = s.lastLane := State.post_lastLane _ _
@[simp] theorem State.lanePost_streak (n : LaneId) (k : EventKind) (r : Option RowId) (c : Option Half) (w : Option Cause) : (s.lanePost n k r c w).streak = s.streak := State.post_streak _ _
@[simp] theorem State.lanePost_occasion (n : LaneId) (k : EventKind) (r : Option RowId) (c : Option Half) (w : Option Cause) : (s.lanePost n k r c w).occasion = s.occasion := State.post_occasion _ _
@[simp] theorem State.lanePost_lanes (n : LaneId) (k : EventKind) (r : Option RowId) (c : Option Half) (w : Option Cause) : (s.lanePost n k r c w).lanes = s.lanes := State.post_lanes _ _
@[simp] theorem State.lanePost_mask (n : LaneId) (k : EventKind) (r : Option RowId) (c : Option Half) (w : Option Cause) : (s.lanePost n k r c w).mask = s.mask := State.post_mask _ _
@[simp] theorem State.lanePost_sessions (n : LaneId) (k : EventKind) (r : Option RowId) (c : Option Half) (w : Option Cause) : (s.lanePost n k r c w).sessions = s.sessions := State.post_sessions _ _
@[simp] theorem State.lanePost_buffers (n : LaneId) (k : EventKind) (r : Option RowId) (c : Option Half) (w : Option Cause) : (s.lanePost n k r c w).buffers = s.buffers := State.post_buffers _ _
@[simp] theorem State.lanePost_engine (n : LaneId) (k : EventKind) (r : Option RowId) (c : Option Half) (w : Option Cause) : (s.lanePost n k r c w).engine = s.engine := State.post_engine _ _
@[simp] theorem State.lanePost_groupEnable (n : LaneId) (k : EventKind) (r : Option RowId) (c : Option Half) (w : Option Cause) : (s.lanePost n k r c w).groupEnable = s.groupEnable := State.post_groupEnable _ _
@[simp] theorem State.lanePost_port (n : LaneId) (k : EventKind) (r : Option RowId) (c : Option Half) (w : Option Cause) : (s.lanePost n k r c w).port = s.port := State.post_port _ _
@[simp] theorem State.lanePost_pending (n : LaneId) (k : EventKind) (r : Option RowId) (c : Option Half) (w : Option Cause) : (s.lanePost n k r c w).pending = s.pending := State.post_pending _ _

/-! ### record -/

@[simp] theorem State.record_resetnLow (t : Half) (c : Ctl) (w : Work) (o : OutcomeCode) (g : Option Half) : (s.record t c w o g).resetnLow = s.resetnLow := by
  dsimp only [State.record]
@[simp] theorem State.record_partState (t : Half) (c : Ctl) (w : Work) (o : OutcomeCode) (g : Option Half) : (s.record t c w o g).partState = s.partState := by
  dsimp only [State.record]
@[simp] theorem State.record_swept (t : Half) (c : Ctl) (w : Work) (o : OutcomeCode) (g : Option Half) : (s.record t c w o g).swept = s.swept := by
  dsimp only [State.record]
@[simp] theorem State.record_hardResets (t : Half) (c : Ctl) (w : Work) (o : OutcomeCode) (g : Option Half) : (s.record t c w o g).hardResets = s.hardResets := by
  dsimp only [State.record]
@[simp] theorem State.record_clock (t : Half) (c : Ctl) (w : Work) (o : OutcomeCode) (g : Option Half) : (s.record t c w o g).clock = s.clock := by
  dsimp only [State.record]
@[simp] theorem State.record_tickPhase (t : Half) (c : Ctl) (w : Work) (o : OutcomeCode) (g : Option Half) : (s.record t c w o g).tickPhase = s.tickPhase := by
  dsimp only [State.record]
@[simp] theorem State.record_leaseTick (t : Half) (c : Ctl) (w : Work) (o : OutcomeCode) (g : Option Half) : (s.record t c w o g).leaseTick = s.leaseTick := by
  dsimp only [State.record]
@[simp] theorem State.record_cells (t : Half) (c : Ctl) (w : Work) (o : OutcomeCode) (g : Option Half) : (s.record t c w o g).cells = s.cells := by
  dsimp only [State.record]
@[simp] theorem State.record_records (t : Half) (c : Ctl) (w : Work) (o : OutcomeCode) (g : Option Half) : (s.record t c w o g).records = s.records := by
  dsimp only [State.record]
@[simp] theorem State.record_refreshPointer (t : Half) (c : Ctl) (w : Work) (o : OutcomeCode) (g : Option Half) : (s.record t c w o g).refreshPointer = s.refreshPointer := by
  dsimp only [State.record]
@[simp] theorem State.record_refreshDebt (t : Half) (c : Ctl) (w : Work) (o : OutcomeCode) (g : Option Half) : (s.record t c w o g).refreshDebt = s.refreshDebt := by
  dsimp only [State.record]
@[simp] theorem State.record_array (t : Half) (c : Ctl) (w : Work) (o : OutcomeCode) (g : Option Half) : (s.record t c w o g).array = s.array := by
  dsimp only [State.record]
@[simp] theorem State.record_claims (t : Half) (c : Ctl) (w : Work) (o : OutcomeCode) (g : Option Half) : (s.record t c w o g).claims = s.claims := by
  dsimp only [State.record]
@[simp] theorem State.record_queue (t : Half) (c : Ctl) (w : Work) (o : OutcomeCode) (g : Option Half) : (s.record t c w o g).queue = s.queue := by
  dsimp only [State.record]
@[simp] theorem State.record_nextTicket (t : Half) (c : Ctl) (w : Work) (o : OutcomeCode) (g : Option Half) : (s.record t c w o g).nextTicket = s.nextTicket := by
  dsimp only [State.record]
@[simp] theorem State.record_orphan (t : Half) (c : Ctl) (w : Work) (o : OutcomeCode) (g : Option Half) : (s.record t c w o g).orphan = s.orphan := by
  dsimp only [State.record]
@[simp] theorem State.record_lastLane (t : Half) (c : Ctl) (w : Work) (o : OutcomeCode) (g : Option Half) : (s.record t c w o g).lastLane = s.lastLane := by
  dsimp only [State.record]
@[simp] theorem State.record_streak (t : Half) (c : Ctl) (w : Work) (o : OutcomeCode) (g : Option Half) : (s.record t c w o g).streak = s.streak := by
  dsimp only [State.record]
@[simp] theorem State.record_occasion (t : Half) (c : Ctl) (w : Work) (o : OutcomeCode) (g : Option Half) : (s.record t c w o g).occasion = s.occasion := by
  dsimp only [State.record]
@[simp] theorem State.record_lanes (t : Half) (c : Ctl) (w : Work) (o : OutcomeCode) (g : Option Half) : (s.record t c w o g).lanes = s.lanes := by
  dsimp only [State.record]
@[simp] theorem State.record_events (t : Half) (c : Ctl) (w : Work) (o : OutcomeCode) (g : Option Half) : (s.record t c w o g).events = s.events := by
  dsimp only [State.record]
@[simp] theorem State.record_eventCounter (t : Half) (c : Ctl) (w : Work) (o : OutcomeCode) (g : Option Half) : (s.record t c w o g).eventCounter = s.eventCounter := by
  dsimp only [State.record]
@[simp] theorem State.record_mask (t : Half) (c : Ctl) (w : Work) (o : OutcomeCode) (g : Option Half) : (s.record t c w o g).mask = s.mask := by
  dsimp only [State.record]
@[simp] theorem State.record_sessions (t : Half) (c : Ctl) (w : Work) (o : OutcomeCode) (g : Option Half) : (s.record t c w o g).sessions = s.sessions := by
  dsimp only [State.record]
@[simp] theorem State.record_buffers (t : Half) (c : Ctl) (w : Work) (o : OutcomeCode) (g : Option Half) : (s.record t c w o g).buffers = s.buffers := by
  dsimp only [State.record]
@[simp] theorem State.record_engine (t : Half) (c : Ctl) (w : Work) (o : OutcomeCode) (g : Option Half) : (s.record t c w o g).engine = s.engine := by
  dsimp only [State.record]
@[simp] theorem State.record_groupEnable (t : Half) (c : Ctl) (w : Work) (o : OutcomeCode) (g : Option Half) : (s.record t c w o g).groupEnable = s.groupEnable := by
  dsimp only [State.record]
@[simp] theorem State.record_port (t : Half) (c : Ctl) (w : Work) (o : OutcomeCode) (g : Option Half) : (s.record t c w o g).port = s.port := by
  dsimp only [State.record]
@[simp] theorem State.record_pending (t : Half) (c : Ctl) (w : Work) (o : OutcomeCode) (g : Option Half) : (s.record t c w o g).pending = s.pending := by
  dsimp only [State.record]

/-! ### finish -/

@[simp] theorem State.finish_resetnLow (q : QueueRequest) (o : OutcomeCode) (g : Option Half) : (s.finish q o g).resetnLow = s.resetnLow := by
  simp only [State.finish]; split <;> simp
@[simp] theorem State.finish_partState (q : QueueRequest) (o : OutcomeCode) (g : Option Half) : (s.finish q o g).partState = s.partState := by
  simp only [State.finish]; split <;> simp
@[simp] theorem State.finish_swept (q : QueueRequest) (o : OutcomeCode) (g : Option Half) : (s.finish q o g).swept = s.swept := by
  simp only [State.finish]; split <;> simp
@[simp] theorem State.finish_hardResets (q : QueueRequest) (o : OutcomeCode) (g : Option Half) : (s.finish q o g).hardResets = s.hardResets := by
  simp only [State.finish]; split <;> simp
@[simp] theorem State.finish_clock (q : QueueRequest) (o : OutcomeCode) (g : Option Half) : (s.finish q o g).clock = s.clock := by
  simp only [State.finish]; split <;> simp
@[simp] theorem State.finish_tickPhase (q : QueueRequest) (o : OutcomeCode) (g : Option Half) : (s.finish q o g).tickPhase = s.tickPhase := by
  simp only [State.finish]; split <;> simp
@[simp] theorem State.finish_leaseTick (q : QueueRequest) (o : OutcomeCode) (g : Option Half) : (s.finish q o g).leaseTick = s.leaseTick := by
  simp only [State.finish]; split <;> simp
@[simp] theorem State.finish_cells (q : QueueRequest) (o : OutcomeCode) (g : Option Half) : (s.finish q o g).cells = s.cells := by
  simp only [State.finish]; split <;> simp
@[simp] theorem State.finish_records (q : QueueRequest) (o : OutcomeCode) (g : Option Half) : (s.finish q o g).records = s.records := by
  simp only [State.finish]; split <;> simp
@[simp] theorem State.finish_refreshPointer (q : QueueRequest) (o : OutcomeCode) (g : Option Half) : (s.finish q o g).refreshPointer = s.refreshPointer := by
  simp only [State.finish]; split <;> simp
@[simp] theorem State.finish_refreshDebt (q : QueueRequest) (o : OutcomeCode) (g : Option Half) : (s.finish q o g).refreshDebt = s.refreshDebt := by
  simp only [State.finish]; split <;> simp
@[simp] theorem State.finish_array (q : QueueRequest) (o : OutcomeCode) (g : Option Half) : (s.finish q o g).array = s.array := by
  simp only [State.finish]; split <;> simp
@[simp] theorem State.finish_claims (q : QueueRequest) (o : OutcomeCode) (g : Option Half) : (s.finish q o g).claims = s.claims := by
  simp only [State.finish]; split <;> simp
@[simp] theorem State.finish_queue (q : QueueRequest) (o : OutcomeCode) (g : Option Half) : (s.finish q o g).queue = s.queue := by
  simp only [State.finish]; split <;> simp
@[simp] theorem State.finish_nextTicket (q : QueueRequest) (o : OutcomeCode) (g : Option Half) : (s.finish q o g).nextTicket = s.nextTicket := by
  simp only [State.finish]; split <;> simp
@[simp] theorem State.finish_orphan (q : QueueRequest) (o : OutcomeCode) (g : Option Half) : (s.finish q o g).orphan = s.orphan := by
  simp only [State.finish]; split <;> simp
@[simp] theorem State.finish_lastLane (q : QueueRequest) (o : OutcomeCode) (g : Option Half) : (s.finish q o g).lastLane = s.lastLane := by
  simp only [State.finish]; split <;> simp
@[simp] theorem State.finish_streak (q : QueueRequest) (o : OutcomeCode) (g : Option Half) : (s.finish q o g).streak = s.streak := by
  simp only [State.finish]; split <;> simp
@[simp] theorem State.finish_occasion (q : QueueRequest) (o : OutcomeCode) (g : Option Half) : (s.finish q o g).occasion = s.occasion := by
  simp only [State.finish]; split <;> simp
@[simp] theorem State.finish_lanes (q : QueueRequest) (o : OutcomeCode) (g : Option Half) : (s.finish q o g).lanes = s.lanes := by
  simp only [State.finish]; split <;> simp
@[simp] theorem State.finish_mask (q : QueueRequest) (o : OutcomeCode) (g : Option Half) : (s.finish q o g).mask = s.mask := by
  simp only [State.finish]; split <;> simp
@[simp] theorem State.finish_sessions (q : QueueRequest) (o : OutcomeCode) (g : Option Half) : (s.finish q o g).sessions = s.sessions := by
  simp only [State.finish]; split <;> simp
@[simp] theorem State.finish_buffers (q : QueueRequest) (o : OutcomeCode) (g : Option Half) : (s.finish q o g).buffers = s.buffers := by
  simp only [State.finish]; split <;> simp
@[simp] theorem State.finish_engine (q : QueueRequest) (o : OutcomeCode) (g : Option Half) : (s.finish q o g).engine = s.engine := by
  simp only [State.finish]; split <;> simp
@[simp] theorem State.finish_groupEnable (q : QueueRequest) (o : OutcomeCode) (g : Option Half) : (s.finish q o g).groupEnable = s.groupEnable := by
  simp only [State.finish]; split <;> simp
@[simp] theorem State.finish_port (q : QueueRequest) (o : OutcomeCode) (g : Option Half) : (s.finish q o g).port = s.port := by
  simp only [State.finish]; split <;> simp
@[simp] theorem State.finish_pending (q : QueueRequest) (o : OutcomeCode) (g : Option Half) : (s.finish q o g).pending = s.pending := by
  simp only [State.finish]; split <;> simp

/-! ### dequeue -/

@[simp] theorem State.dequeue_resetnLow (t : Half) : (s.dequeue t).resetnLow = s.resetnLow := rfl
@[simp] theorem State.dequeue_partState (t : Half) : (s.dequeue t).partState = s.partState := rfl
@[simp] theorem State.dequeue_swept (t : Half) : (s.dequeue t).swept = s.swept := rfl
@[simp] theorem State.dequeue_hardResets (t : Half) : (s.dequeue t).hardResets = s.hardResets := rfl
@[simp] theorem State.dequeue_clock (t : Half) : (s.dequeue t).clock = s.clock := rfl
@[simp] theorem State.dequeue_tickPhase (t : Half) : (s.dequeue t).tickPhase = s.tickPhase := rfl
@[simp] theorem State.dequeue_leaseTick (t : Half) : (s.dequeue t).leaseTick = s.leaseTick := rfl
@[simp] theorem State.dequeue_cells (t : Half) : (s.dequeue t).cells = s.cells := rfl
@[simp] theorem State.dequeue_records (t : Half) : (s.dequeue t).records = s.records := rfl
@[simp] theorem State.dequeue_refreshPointer (t : Half) : (s.dequeue t).refreshPointer = s.refreshPointer := rfl
@[simp] theorem State.dequeue_refreshDebt (t : Half) : (s.dequeue t).refreshDebt = s.refreshDebt := rfl
@[simp] theorem State.dequeue_array (t : Half) : (s.dequeue t).array = s.array := rfl
@[simp] theorem State.dequeue_claims (t : Half) : (s.dequeue t).claims = s.claims := rfl
@[simp] theorem State.dequeue_nextTicket (t : Half) : (s.dequeue t).nextTicket = s.nextTicket := rfl
@[simp] theorem State.dequeue_orphan (t : Half) : (s.dequeue t).orphan = s.orphan := rfl
@[simp] theorem State.dequeue_log (t : Half) : (s.dequeue t).log = s.log := rfl
@[simp] theorem State.dequeue_lastLane (t : Half) : (s.dequeue t).lastLane = s.lastLane := rfl
@[simp] theorem State.dequeue_streak (t : Half) : (s.dequeue t).streak = s.streak := rfl
@[simp] theorem State.dequeue_occasion (t : Half) : (s.dequeue t).occasion = s.occasion := rfl
@[simp] theorem State.dequeue_lanes (t : Half) : (s.dequeue t).lanes = s.lanes := rfl
@[simp] theorem State.dequeue_events (t : Half) : (s.dequeue t).events = s.events := rfl
@[simp] theorem State.dequeue_eventCounter (t : Half) : (s.dequeue t).eventCounter = s.eventCounter := rfl
@[simp] theorem State.dequeue_mask (t : Half) : (s.dequeue t).mask = s.mask := rfl
@[simp] theorem State.dequeue_sessions (t : Half) : (s.dequeue t).sessions = s.sessions := rfl
@[simp] theorem State.dequeue_buffers (t : Half) : (s.dequeue t).buffers = s.buffers := rfl
@[simp] theorem State.dequeue_engine (t : Half) : (s.dequeue t).engine = s.engine := rfl
@[simp] theorem State.dequeue_groupEnable (t : Half) : (s.dequeue t).groupEnable = s.groupEnable := rfl
@[simp] theorem State.dequeue_port (t : Half) : (s.dequeue t).port = s.port := rfl
@[simp] theorem State.dequeue_pending (t : Half) : (s.dequeue t).pending = s.pending := rfl

/-! ### cancelDelivery -/

@[simp] theorem State.cancelDelivery_resetnLow (p : Party) : (s.cancelDelivery p).resetnLow = s.resetnLow := by
  unfold State.cancelDelivery; split <;> [(split <;> rfl); rfl]
@[simp] theorem State.cancelDelivery_partState (p : Party) : (s.cancelDelivery p).partState = s.partState := by
  unfold State.cancelDelivery; split <;> [(split <;> rfl); rfl]
@[simp] theorem State.cancelDelivery_swept (p : Party) : (s.cancelDelivery p).swept = s.swept := by
  unfold State.cancelDelivery; split <;> [(split <;> rfl); rfl]
@[simp] theorem State.cancelDelivery_hardResets (p : Party) : (s.cancelDelivery p).hardResets = s.hardResets := by
  unfold State.cancelDelivery; split <;> [(split <;> rfl); rfl]
@[simp] theorem State.cancelDelivery_clock (p : Party) : (s.cancelDelivery p).clock = s.clock := by
  unfold State.cancelDelivery; split <;> [(split <;> rfl); rfl]
@[simp] theorem State.cancelDelivery_tickPhase (p : Party) : (s.cancelDelivery p).tickPhase = s.tickPhase := by
  unfold State.cancelDelivery; split <;> [(split <;> rfl); rfl]
@[simp] theorem State.cancelDelivery_leaseTick (p : Party) : (s.cancelDelivery p).leaseTick = s.leaseTick := by
  unfold State.cancelDelivery; split <;> [(split <;> rfl); rfl]
@[simp] theorem State.cancelDelivery_cells (p : Party) : (s.cancelDelivery p).cells = s.cells := by
  unfold State.cancelDelivery; split <;> [(split <;> rfl); rfl]
@[simp] theorem State.cancelDelivery_records (p : Party) : (s.cancelDelivery p).records = s.records := by
  unfold State.cancelDelivery; split <;> [(split <;> rfl); rfl]
@[simp] theorem State.cancelDelivery_refreshPointer (p : Party) : (s.cancelDelivery p).refreshPointer = s.refreshPointer := by
  unfold State.cancelDelivery; split <;> [(split <;> rfl); rfl]
@[simp] theorem State.cancelDelivery_refreshDebt (p : Party) : (s.cancelDelivery p).refreshDebt = s.refreshDebt := by
  unfold State.cancelDelivery; split <;> [(split <;> rfl); rfl]
@[simp] theorem State.cancelDelivery_claims (p : Party) : (s.cancelDelivery p).claims = s.claims := by
  unfold State.cancelDelivery; split <;> [(split <;> rfl); rfl]
@[simp] theorem State.cancelDelivery_queue (p : Party) : (s.cancelDelivery p).queue = s.queue := by
  unfold State.cancelDelivery; split <;> [(split <;> rfl); rfl]
@[simp] theorem State.cancelDelivery_nextTicket (p : Party) : (s.cancelDelivery p).nextTicket = s.nextTicket := by
  unfold State.cancelDelivery; split <;> [(split <;> rfl); rfl]
@[simp] theorem State.cancelDelivery_orphan (p : Party) : (s.cancelDelivery p).orphan = s.orphan := by
  unfold State.cancelDelivery; split <;> [(split <;> rfl); rfl]
@[simp] theorem State.cancelDelivery_log (p : Party) : (s.cancelDelivery p).log = s.log := by
  unfold State.cancelDelivery; split <;> [(split <;> rfl); rfl]
@[simp] theorem State.cancelDelivery_lastLane (p : Party) : (s.cancelDelivery p).lastLane = s.lastLane := by
  unfold State.cancelDelivery; split <;> [(split <;> rfl); rfl]
@[simp] theorem State.cancelDelivery_streak (p : Party) : (s.cancelDelivery p).streak = s.streak := by
  unfold State.cancelDelivery; split <;> [(split <;> rfl); rfl]
@[simp] theorem State.cancelDelivery_occasion (p : Party) : (s.cancelDelivery p).occasion = s.occasion := by
  unfold State.cancelDelivery; split <;> [(split <;> rfl); rfl]
@[simp] theorem State.cancelDelivery_lanes (p : Party) : (s.cancelDelivery p).lanes = s.lanes := by
  unfold State.cancelDelivery; split <;> [(split <;> rfl); rfl]
@[simp] theorem State.cancelDelivery_events (p : Party) : (s.cancelDelivery p).events = s.events := by
  unfold State.cancelDelivery; split <;> [(split <;> rfl); rfl]
@[simp] theorem State.cancelDelivery_eventCounter (p : Party) : (s.cancelDelivery p).eventCounter = s.eventCounter := by
  unfold State.cancelDelivery; split <;> [(split <;> rfl); rfl]
@[simp] theorem State.cancelDelivery_mask (p : Party) : (s.cancelDelivery p).mask = s.mask := by
  unfold State.cancelDelivery; split <;> [(split <;> rfl); rfl]
@[simp] theorem State.cancelDelivery_sessions (p : Party) : (s.cancelDelivery p).sessions = s.sessions := by
  unfold State.cancelDelivery; split <;> [(split <;> rfl); rfl]
@[simp] theorem State.cancelDelivery_buffers (p : Party) : (s.cancelDelivery p).buffers = s.buffers := by
  unfold State.cancelDelivery; split <;> [(split <;> rfl); rfl]
@[simp] theorem State.cancelDelivery_engine (p : Party) : (s.cancelDelivery p).engine = s.engine := by
  unfold State.cancelDelivery; split <;> [(split <;> rfl); rfl]
@[simp] theorem State.cancelDelivery_groupEnable (p : Party) : (s.cancelDelivery p).groupEnable = s.groupEnable := by
  unfold State.cancelDelivery; split <;> [(split <;> rfl); rfl]
@[simp] theorem State.cancelDelivery_port (p : Party) : (s.cancelDelivery p).port = s.port := by
  unfold State.cancelDelivery; split <;> [(split <;> rfl); rfl]
@[simp] theorem State.cancelDelivery_pending (p : Party) : (s.cancelDelivery p).pending = s.pending := by
  unfold State.cancelDelivery; split <;> [(split <;> rfl); rfl]

/-! ### modPort -/

@[simp] theorem State.modPort_resetnLow (f : Port → Port) : (s.modPort f).resetnLow = s.resetnLow := rfl
@[simp] theorem State.modPort_partState (f : Port → Port) : (s.modPort f).partState = s.partState := rfl
@[simp] theorem State.modPort_swept (f : Port → Port) : (s.modPort f).swept = s.swept := rfl
@[simp] theorem State.modPort_hardResets (f : Port → Port) : (s.modPort f).hardResets = s.hardResets := rfl
@[simp] theorem State.modPort_clock (f : Port → Port) : (s.modPort f).clock = s.clock := rfl
@[simp] theorem State.modPort_tickPhase (f : Port → Port) : (s.modPort f).tickPhase = s.tickPhase := rfl
@[simp] theorem State.modPort_leaseTick (f : Port → Port) : (s.modPort f).leaseTick = s.leaseTick := rfl
@[simp] theorem State.modPort_cells (f : Port → Port) : (s.modPort f).cells = s.cells := rfl
@[simp] theorem State.modPort_records (f : Port → Port) : (s.modPort f).records = s.records := rfl
@[simp] theorem State.modPort_refreshPointer (f : Port → Port) : (s.modPort f).refreshPointer = s.refreshPointer := rfl
@[simp] theorem State.modPort_refreshDebt (f : Port → Port) : (s.modPort f).refreshDebt = s.refreshDebt := rfl
@[simp] theorem State.modPort_array (f : Port → Port) : (s.modPort f).array = s.array := rfl
@[simp] theorem State.modPort_claims (f : Port → Port) : (s.modPort f).claims = s.claims := rfl
@[simp] theorem State.modPort_queue (f : Port → Port) : (s.modPort f).queue = s.queue := rfl
@[simp] theorem State.modPort_nextTicket (f : Port → Port) : (s.modPort f).nextTicket = s.nextTicket := rfl
@[simp] theorem State.modPort_orphan (f : Port → Port) : (s.modPort f).orphan = s.orphan := rfl
@[simp] theorem State.modPort_log (f : Port → Port) : (s.modPort f).log = s.log := rfl
@[simp] theorem State.modPort_lastLane (f : Port → Port) : (s.modPort f).lastLane = s.lastLane := rfl
@[simp] theorem State.modPort_streak (f : Port → Port) : (s.modPort f).streak = s.streak := rfl
@[simp] theorem State.modPort_occasion (f : Port → Port) : (s.modPort f).occasion = s.occasion := rfl
@[simp] theorem State.modPort_lanes (f : Port → Port) : (s.modPort f).lanes = s.lanes := rfl
@[simp] theorem State.modPort_events (f : Port → Port) : (s.modPort f).events = s.events := rfl
@[simp] theorem State.modPort_eventCounter (f : Port → Port) : (s.modPort f).eventCounter = s.eventCounter := rfl
@[simp] theorem State.modPort_mask (f : Port → Port) : (s.modPort f).mask = s.mask := rfl
@[simp] theorem State.modPort_sessions (f : Port → Port) : (s.modPort f).sessions = s.sessions := rfl
@[simp] theorem State.modPort_buffers (f : Port → Port) : (s.modPort f).buffers = s.buffers := rfl
@[simp] theorem State.modPort_engine (f : Port → Port) : (s.modPort f).engine = s.engine := rfl
@[simp] theorem State.modPort_groupEnable (f : Port → Port) : (s.modPort f).groupEnable = s.groupEnable := rfl
@[simp] theorem State.modPort_pending (f : Port → Port) : (s.modPort f).pending = s.pending := rfl

/-! ### Numbered parts: what each update leaves of a lane, a session, a buffer, a claim -/

@[simp] theorem State.setLane_lane (n : LaneId) (l : Lane) (m : LaneId) :
    (s.setLane n l).lane m = if m = n then l else s.lane m := by
  show (s.lanes.set n.val l n.isLt)[m.val] = if m = n then l else s.lanes[m.val]
  rw [Vector.getElem_set]
  simp only [Fin.ext_iff, eq_comm]


@[simp] theorem State.modLane_lane (n : LaneId) (f : Lane → Lane) (m : LaneId) :
    (s.modLane n f).lane m = if m = n then f (s.lane n) else s.lane m := State.setLane_lane s n _ m

@[simp] theorem State.setSession_session (c : Ctl) (t : Option Byte) (d : Ctl) :
    (s.setSession c t).session d = if d = c then t else s.session d := by
  show (s.sessions.set c.val t c.isLt)[d.val] = if d = c then t else s.sessions[d.val]
  rw [Vector.getElem_set]
  simp only [Fin.ext_iff, eq_comm]

@[simp] theorem State.setBuffer_buffer (c : Ctl) (m : Memory) (d : Ctl) :
    (s.setBuffer c m).buffer d = if d = c then m else s.buffer d := by
  show (s.buffers.set c.val m c.isLt)[d.val] = if d = c then m else s.buffers[d.val]
  rw [Vector.getElem_set]
  simp only [Fin.ext_iff, eq_comm]

@[simp] theorem State.setClaim_claim (i : ClaimId) (c : Option Claim) (j : ClaimId) :
    (s.setClaim i c).claim j = if j = i then c else s.claim j := by
  show (s.claims.set i.val c i.isLt)[j.val] = if j = i then c else s.claims[j.val]
  rw [Vector.getElem_set]
  simp only [Fin.ext_iff, eq_comm]

@[simp] theorem State.setRecord_lane (r : RowId) (k : RowRecord) (x : LaneId) : (s.setRecord r k).lane x = s.lane x := by
  simp only [State.lane, State.setRecord_lanes]
@[simp] theorem State.setRecord_session (r : RowId) (k : RowRecord) (x : Ctl) : (s.setRecord r k).session x = s.session x := by
  simp only [State.session, State.setRecord_sessions]
@[simp] theorem State.setRecord_buffer (r : RowId) (k : RowRecord) (x : Ctl) : (s.setRecord r k).buffer x = s.buffer x := by
  simp only [State.buffer, State.setRecord_buffers]
@[simp] theorem State.setRecord_claim (r : RowId) (k : RowRecord) (x : ClaimId) : (s.setRecord r k).claim x = s.claim x := by
  simp only [State.claim, State.setRecord_claims]
@[simp] theorem State.writeRow_lane (r : RowId) (cs : List Host.Cell) (x : LaneId) : (s.writeRow r cs).lane x = s.lane x := by
  simp only [State.lane, State.writeRow_lanes]
@[simp] theorem State.writeRow_session (r : RowId) (cs : List Host.Cell) (x : Ctl) : (s.writeRow r cs).session x = s.session x := by
  simp only [State.session, State.writeRow_sessions]
@[simp] theorem State.writeRow_buffer (r : RowId) (cs : List Host.Cell) (x : Ctl) : (s.writeRow r cs).buffer x = s.buffer x := by
  simp only [State.buffer, State.writeRow_buffers]
@[simp] theorem State.writeRow_claim (r : RowId) (cs : List Host.Cell) (x : ClaimId) : (s.writeRow r cs).claim x = s.claim x := by
  simp only [State.claim, State.writeRow_claims]
@[simp] theorem State.setLane_session (n : LaneId) (l : Lane) (x : Ctl) : (s.setLane n l).session x = s.session x := by
  simp only [State.session, State.setLane_sessions]
@[simp] theorem State.setLane_buffer (n : LaneId) (l : Lane) (x : Ctl) : (s.setLane n l).buffer x = s.buffer x := by
  simp only [State.buffer, State.setLane_buffers]
@[simp] theorem State.setLane_claim (n : LaneId) (l : Lane) (x : ClaimId) : (s.setLane n l).claim x = s.claim x := by
  simp only [State.claim, State.setLane_claims]
@[simp] theorem State.modLane_session (n : LaneId) (f : Lane → Lane) (x : Ctl) : (s.modLane n f).session x = s.session x := by
  simp only [State.session, State.modLane_sessions]
@[simp] theorem State.modLane_buffer (n : LaneId) (f : Lane → Lane) (x : Ctl) : (s.modLane n f).buffer x = s.buffer x := by
  simp only [State.buffer, State.modLane_buffers]
@[simp] theorem State.modLane_claim (n : LaneId) (f : Lane → Lane) (x : ClaimId) : (s.modLane n f).claim x = s.claim x := by
  simp only [State.claim, State.modLane_claims]
@[simp] theorem State.setSession_lane (c : Ctl) (t : Option Byte) (x : LaneId) : (s.setSession c t).lane x = s.lane x := by
  simp only [State.lane, State.setSession_lanes]
@[simp] theorem State.setSession_buffer (c : Ctl) (t : Option Byte) (x : Ctl) : (s.setSession c t).buffer x = s.buffer x := by
  simp only [State.buffer, State.setSession_buffers]
@[simp] theorem State.setSession_claim (c : Ctl) (t : Option Byte) (x : ClaimId) : (s.setSession c t).claim x = s.claim x := by
  simp only [State.claim, State.setSession_claims]
@[simp] theorem State.setBuffer_lane (c : Ctl) (m : Memory) (x : LaneId) : (s.setBuffer c m).lane x = s.lane x := by
  simp only [State.lane, State.setBuffer_lanes]
@[simp] theorem State.setBuffer_session (c : Ctl) (m : Memory) (x : Ctl) : (s.setBuffer c m).session x = s.session x := by
  simp only [State.session, State.setBuffer_sessions]
@[simp] theorem State.setBuffer_claim (c : Ctl) (m : Memory) (x : ClaimId) : (s.setBuffer c m).claim x = s.claim x := by
  simp only [State.claim, State.setBuffer_claims]
@[simp] theorem State.setClaim_lane (i : ClaimId) (c : Option Claim) (x : LaneId) : (s.setClaim i c).lane x = s.lane x := by
  simp only [State.lane, State.setClaim_lanes]
@[simp] theorem State.setClaim_session (i : ClaimId) (c : Option Claim) (x : Ctl) : (s.setClaim i c).session x = s.session x := by
  simp only [State.session, State.setClaim_sessions]
@[simp] theorem State.setClaim_buffer (i : ClaimId) (c : Option Claim) (x : Ctl) : (s.setClaim i c).buffer x = s.buffer x := by
  simp only [State.buffer, State.setClaim_buffers]
@[simp] theorem State.raise_lane (x : LaneId) : (s.raise).lane x = s.lane x := by
  simp only [State.lane, State.raise_lanes]
@[simp] theorem State.raise_session (x : Ctl) : (s.raise).session x = s.session x := by
  simp only [State.session, State.raise_sessions]
@[simp] theorem State.raise_buffer (x : Ctl) : (s.raise).buffer x = s.buffer x := by
  simp only [State.buffer, State.raise_buffers]
@[simp] theorem State.raise_claim (x : ClaimId) : (s.raise).claim x = s.claim x := by
  simp only [State.claim, State.raise_claims]
@[simp] theorem State.append_lane (p : Post) (x : LaneId) : (s.append p).lane x = s.lane x := by
  simp only [State.lane, State.append_lanes]
@[simp] theorem State.append_session (p : Post) (x : Ctl) : (s.append p).session x = s.session x := by
  simp only [State.session, State.append_sessions]
@[simp] theorem State.append_buffer (p : Post) (x : Ctl) : (s.append p).buffer x = s.buffer x := by
  simp only [State.buffer, State.append_buffers]
@[simp] theorem State.append_claim (p : Post) (x : ClaimId) : (s.append p).claim x = s.claim x := by
  simp only [State.claim, State.append_claims]
@[simp] theorem State.post_lane (p : Post) (x : LaneId) : (s.post p).lane x = s.lane x := by
  simp only [State.lane, State.post_lanes]
@[simp] theorem State.post_session (p : Post) (x : Ctl) : (s.post p).session x = s.session x := by
  simp only [State.session, State.post_sessions]
@[simp] theorem State.post_buffer (p : Post) (x : Ctl) : (s.post p).buffer x = s.buffer x := by
  simp only [State.buffer, State.post_buffers]
@[simp] theorem State.post_claim (p : Post) (x : ClaimId) : (s.post p).claim x = s.claim x := by
  simp only [State.claim, State.post_claims]
@[simp] theorem State.lanePost_lane (n : LaneId) (k : EventKind) (r : Option RowId) (c : Option Half) (w : Option Cause) (x : LaneId) : (s.lanePost n k r c w).lane x = s.lane x := by
  simp only [State.lane, State.lanePost_lanes]
@[simp] theorem State.lanePost_session (n : LaneId) (k : EventKind) (r : Option RowId) (c : Option Half) (w : Option Cause) (x : Ctl) : (s.lanePost n k r c w).session x = s.session x := by
  simp only [State.session, State.lanePost_sessions]
@[simp] theorem State.lanePost_buffer (n : LaneId) (k : EventKind) (r : Option RowId) (c : Option Half) (w : Option Cause) (x : Ctl) : (s.lanePost n k r c w).buffer x = s.buffer x := by
  simp only [State.buffer, State.lanePost_buffers]
@[simp] theorem State.lanePost_claim (n : LaneId) (k : EventKind) (r : Option RowId) (c : Option Half) (w : Option Cause) (x : ClaimId) : (s.lanePost n k r c w).claim x = s.claim x := by
  simp only [State.claim, State.lanePost_claims]
@[simp] theorem State.record_lane (t : Half) (c : Ctl) (w : Work) (o : OutcomeCode) (g : Option Half) (x : LaneId) : (s.record t c w o g).lane x = s.lane x := by
  simp only [State.lane, State.record_lanes]
@[simp] theorem State.record_session (t : Half) (c : Ctl) (w : Work) (o : OutcomeCode) (g : Option Half) (x : Ctl) : (s.record t c w o g).session x = s.session x := by
  simp only [State.session, State.record_sessions]
@[simp] theorem State.record_buffer (t : Half) (c : Ctl) (w : Work) (o : OutcomeCode) (g : Option Half) (x : Ctl) : (s.record t c w o g).buffer x = s.buffer x := by
  simp only [State.buffer, State.record_buffers]
@[simp] theorem State.record_claim (t : Half) (c : Ctl) (w : Work) (o : OutcomeCode) (g : Option Half) (x : ClaimId) : (s.record t c w o g).claim x = s.claim x := by
  simp only [State.claim, State.record_claims]
@[simp] theorem State.finish_lane (q : QueueRequest) (o : OutcomeCode) (g : Option Half) (x : LaneId) : (s.finish q o g).lane x = s.lane x := by
  simp only [State.lane, State.finish_lanes]
@[simp] theorem State.finish_session (q : QueueRequest) (o : OutcomeCode) (g : Option Half) (x : Ctl) : (s.finish q o g).session x = s.session x := by
  simp only [State.session, State.finish_sessions]
@[simp] theorem State.finish_buffer (q : QueueRequest) (o : OutcomeCode) (g : Option Half) (x : Ctl) : (s.finish q o g).buffer x = s.buffer x := by
  simp only [State.buffer, State.finish_buffers]
@[simp] theorem State.finish_claim (q : QueueRequest) (o : OutcomeCode) (g : Option Half) (x : ClaimId) : (s.finish q o g).claim x = s.claim x := by
  simp only [State.claim, State.finish_claims]
@[simp] theorem State.dequeue_lane (t : Half) (x : LaneId) : (s.dequeue t).lane x = s.lane x := by
  simp only [State.lane, State.dequeue_lanes]
@[simp] theorem State.dequeue_session (t : Half) (x : Ctl) : (s.dequeue t).session x = s.session x := by
  simp only [State.session, State.dequeue_sessions]
@[simp] theorem State.dequeue_buffer (t : Half) (x : Ctl) : (s.dequeue t).buffer x = s.buffer x := by
  simp only [State.buffer, State.dequeue_buffers]
@[simp] theorem State.dequeue_claim (t : Half) (x : ClaimId) : (s.dequeue t).claim x = s.claim x := by
  simp only [State.claim, State.dequeue_claims]
@[simp] theorem State.cancelDelivery_lane (p : Party) (x : LaneId) : (s.cancelDelivery p).lane x = s.lane x := by
  simp only [State.lane, State.cancelDelivery_lanes]
@[simp] theorem State.cancelDelivery_session (p : Party) (x : Ctl) : (s.cancelDelivery p).session x = s.session x := by
  simp only [State.session, State.cancelDelivery_sessions]
@[simp] theorem State.cancelDelivery_buffer (p : Party) (x : Ctl) : (s.cancelDelivery p).buffer x = s.buffer x := by
  simp only [State.buffer, State.cancelDelivery_buffers]
@[simp] theorem State.cancelDelivery_claim (p : Party) (x : ClaimId) : (s.cancelDelivery p).claim x = s.claim x := by
  simp only [State.claim, State.cancelDelivery_claims]
@[simp] theorem State.modPort_lane (f : Port → Port) (x : LaneId) : (s.modPort f).lane x = s.lane x := by
  simp only [State.lane, State.modPort_lanes]
@[simp] theorem State.modPort_session (f : Port → Port) (x : Ctl) : (s.modPort f).session x = s.session x := by
  simp only [State.session, State.modPort_sessions]
@[simp] theorem State.modPort_buffer (f : Port → Port) (x : Ctl) : (s.modPort f).buffer x = s.buffer x := by
  simp only [State.buffer, State.modPort_buffers]
@[simp] theorem State.modPort_claim (f : Port → Port) (x : ClaimId) : (s.modPort f).claim x = s.claim x := by
  simp only [State.claim, State.modPort_claims]

end Sys2Proof.Machine
end

