-- ==== Sys2Proof/Laws/Lanes.lean ====
section
/-! SUPPORT. What a lane operation can do, said once: `LaneActs n s t` says that t comes from s by events of lane n, and
every operation of LaneOps.lean is shown to be so. Frames and invariants follow from it. -/

namespace Sys2Proof.Machine

set_option Elab.async false

/-! ### What an operation on the lane record keeps -/

/-- What an event at a lane keeps of it: it does not go to OFF, its setup stands, its list does not grow, its
registers stay in canonical form. -/
structure Lane.Keeps (l k : Lane) : Prop where
  state : l.state ≠ .off → k.state ≠ .off
  setup : k.setup = l.setup
  list : k.list.entries.length ≤ l.list.entries.length
  memory : l.memoryWf → k.memoryWf

theorem Lane.Keeps.refl (l : Lane) : l.Keeps l := ⟨id, rfl, le_refl _, id⟩

theorem Lane.Keeps.trans {l k j : Lane} (a : l.Keeps k) (b : k.Keeps j) : l.Keeps j :=
  ⟨b.state ∘ a.state, b.setup.trans a.setup, b.list.trans a.list, b.memory ∘ a.memory⟩

/-- The same, the later step first. -/
theorem Lane.Keeps.after {l k j : Lane} (b : k.Keeps j) (a : l.Keeps k) : l.Keeps j := a.trans b

/-- A change of the fields that Keeps does not speak of. -/
theorem Lane.Keeps.of_eq {l k : Lane} (hs : k.state = l.state) (hu : k.setup = l.setup)
    (hl : k.list.entries.length ≤ l.list.entries.length) (ha : k.active = l.active) (hg : k.staging = l.staging) :
    l.Keeps k := ⟨by rw [hs]; exact id, hu, hl, by unfold Lane.memoryWf; rw [ha, hg]; exact id⟩

theorem Lane.keeps_advanceFetch (l : Lane) : l.Keeps l.advanceFetch := .of_eq rfl rfl (le_refl _) rfl rfl

theorem Lane.keeps_retire (k : Nat) (l : Lane) : l.Keeps (l.retire k) :=
  .of_eq rfl rfl (by simp [Lane.retire]) rfl rfl

theorem Lane.keeps_moveShow (p : Position) (b : Bool) (l : Lane) : l.Keeps (l.moveShow p b) := by
  unfold Lane.moveShow
  split
  · exact Lane.Keeps.after (Lane.keeps_retire _ _) (.of_eq rfl rfl (le_refl _) rfl rfl)
  · exact .of_eq rfl rfl (le_refl _) rfl rfl

theorem Lane.keeps_completeLine (l : Lane) : l.Keeps l.completeLine := Lane.keeps_moveShow _ _ _

theorem Lane.keeps_passOver (r : Option LineRef) (l : Lane) : l.Keeps (l.passOver r) := by
  unfold Lane.passOver
  split
  · split
    · exact Lane.keeps_moveShow _ _ _
    · exact .refl l
  · exact .refl l

theorem Lane.keeps_rollBack (l : Lane) : l.Keeps l.rollBack :=
  Lane.Keeps.after (Lane.keeps_moveShow _ _ _) (.of_eq rfl rfl (le_refl _) rfl rfl)

theorem Lane.keeps_startList (l : Lane) : l.Keeps l.startList := by
  unfold Lane.startList
  dsimp only
  split
  · exact Lane.Keeps.after (Lane.keeps_retire _ _) (.of_eq rfl rfl (le_refl _) rfl rfl)
  · exact .of_eq rfl rfl (le_refl _) rfl rfl

theorem Lane.keeps_makeCurrent (r : LineRef) (l : Lane) : l.Keeps (l.makeCurrent r) :=
  Lane.Keeps.after (Lane.keeps_moveShow _ _ _) (.of_eq rfl rfl (le_refl _) rfl rfl)

/-- A lane put in another state than OFF. -/
theorem Lane.Keeps.to_state {l k : Lane} (h : l.Keeps k) (q : LaneState) (hq : q ≠ .off) :
    l.Keeps { k with state := q } := ⟨fun _ => hq, h.setup, h.list, h.memory⟩

theorem Lane.keeps_enterIdle (l : Lane) : l.Keeps l.enterIdle := by
  have h : l.Keeps { l with state := .idle, stopPending := false, follow := none, drain := none } :=
    ⟨fun _ => by simp, rfl, le_refl _, id⟩
  exact Lane.Keeps.after (Lane.keeps_rollBack _) h

theorem Lane.keeps_abandon (l : Lane) : l.Keeps l.abandon := .of_eq rfl rfl (le_refl _) rfl rfl

theorem Lane.keeps_swapIn (l : Lane) : l.Keeps l.swapIn := by
  unfold Lane.swapIn
  split
  · exact Lane.Keeps.after (Lane.keeps_makeCurrent _ _) ⟨id, rfl, le_refl _, fun h => ⟨h.2, h.1⟩⟩
  · exact .refl l

theorem Lane.keeps_starve (l : Lane) : l.Keeps l.starve := ⟨fun _ => by simp [Lane.starve], rfl, le_refl _, id⟩

theorem Lane.keeps_drainFor (c : DrainCause) (l : Lane) : l.Keeps (l.drainFor c) :=
  ⟨fun _ => by simp [Lane.drainFor], rfl, le_refl _, id⟩

theorem Lane.keeps_beginStart (m : StartMode) (l : Lane) : l.Keeps (l.beginStart m) :=
  Lane.Keeps.after (Lane.keeps_startList _) (.of_eq rfl rfl (le_refl _) rfl rfl)

theorem Lane.keeps_release (l : Lane) : l.Keeps l.release := by
  unfold Lane.release
  split
  · exact ⟨fun _ => by simp, rfl, le_refl _, id⟩
  · exact .refl l

/-! ### What an event at a lane does to the part -/

/-- t comes from s by events at lane n: its record changed within `Lane.Keeps`, events posted, an occasion raised, the
delivery of the lane's own operation cancelled. -/
inductive LaneActs (n : LaneId) (s : State) : State → Prop where
  | refl : LaneActs n s s
  | lane {t : State} (h : LaneActs n s t) (l : Lane) (k : (t.lane n).Keeps l) : LaneActs n s (t.setLane n l)
  | post {t : State} (h : LaneActs n s t) (p : Post) : LaneActs n s (t.post p)
  | occasion {t : State} (h : LaneActs n s t) : LaneActs n s t.raise
  | cancel {t : State} (h : LaneActs n s t) : LaneActs n s (t.cancelDelivery (.lane n))

namespace LaneActs

variable {n : LaneId} {s t u : State}

theorem trans (a : LaneActs n s t) (b : LaneActs n t u) : LaneActs n s u := by
  induction b with
  | refl => exact a
  | lane _ l k ih => exact ih.lane l k
  | post _ p ih => exact ih.post p
  | occasion _ ih => exact ih.occasion
  | cancel _ ih => exact ih.cancel

theorem mod (h : LaneActs n s t) {f : Lane → Lane} (k : (t.lane n).Keeps (f (t.lane n))) :
    LaneActs n s (t.modLane n f) := h.lane _ k

theorem report (h : LaneActs n s t) (k : EventKind) (r : Option RowId) (c : Option Half) (w : Option Cause) :
    LaneActs n s (t.lanePost n k r c w) := h.post _

end LaneActs

open LaneActs

variable (s : State) (n : LaneId)

theorem acts_withdrawSlot : LaneActs n s (s.withdrawSlot n) := by
  have h : LaneActs n s (s.modLane n fun l => { l with slot := none }) := mod .refl (.of_eq rfl rfl (le_refl _) rfl rfl)
  unfold State.withdrawSlot
  dsimp only
  split
  · split
    · exact h.cancel
    · exact h
  · exact h

theorem acts_immediateStop : LaneActs n s (s.immediateStop n) :=
  (acts_withdrawSlot s n).mod ((Lane.keeps_abandon _).trans (Lane.keeps_enterIdle _))

theorem acts_laneDone : LaneActs n s (s.laneDone n) := (LaneActs.refl.report ..).mod (Lane.keeps_enterIdle _)

theorem acts_requestNext : LaneActs n s (s.requestNext n) := by
  unfold State.requestNext
  dsimp only
  split
  · exact .lane .refl _ (.of_eq rfl rfl (le_refl _) rfl rfl)
  · split
    · exact .occasion (.lane .refl _ (.of_eq rfl rfl (le_refl _) rfl rfl))
    · exact .lane .refl _ ⟨id, rfl, le_refl _, fun h => ⟨h.1, Memory.wf_ofCells _ _⟩⟩

theorem acts_showStaged : LaneActs n s (s.showStaged n) :=
  (LaneActs.refl.mod ((Lane.keeps_swapIn _).to_state .running (by simp))).trans (acts_requestNext _ n)

theorem acts_continueOut : LaneActs n s (s.continueOut n) := by
  unfold State.continueOut
  split
  · exact acts_showStaged s n
  · exact .mod .refl (Lane.keeps_starve _)
  · dsimp only
    split
    · exact (acts_requestNext s n).trans (acts_showStaged _ n)
    · exact (acts_requestNext s n).mod (Lane.keeps_starve _)
    · exact (acts_requestNext s n).trans (acts_laneDone _ n)

theorem acts_pause (i : Nat) : LaneActs n s (s.pause n i) :=
  (LaneActs.refl.report ..).mod ((Lane.Keeps.refl _).to_state .paused (by simp))

theorem acts_countLine :
    LaneActs n s (s.setLane n (({ s.lane n with lines := (s.lane n).lines + 1 }).completeLine)) :=
  .lane .refl _ (Lane.Keeps.after (Lane.keeps_completeLine _) (.of_eq rfl rfl (le_refl _) rfl rfl))

theorem acts_outBoundary : LaneActs n s (s.outBoundary n) := by
  unfold State.outBoundary
  dsimp only
  split
  · exact (acts_countLine s n).trans (acts_immediateStop _ n)
  · split
    · exact (acts_countLine s n).trans (acts_pause _ n _)
    · exact (acts_countLine s n).trans (acts_continueOut _ n)

theorem acts_endStarved : LaneActs n s (s.endStarved n) :=
  ((LaneActs.refl.mod ((Lane.keeps_swapIn _).to_state .running (by simp))).report ..).trans (acts_requestNext _ n)

theorem acts_endPriming : LaneActs n s (s.endPriming n) := by
  refine ((LaneActs.refl.mod (Lane.keeps_swapIn _)).trans (acts_requestNext _ n)).mod ?_
  exact (Lane.Keeps.refl _).to_state _ (by split <;> simp)

theorem acts_staged : LaneActs n s (s.staged n) := by
  unfold State.staged
  split
  · exact acts_endPriming s n
  · exact acts_endStarved s n
  · exact .refl

theorem acts_afterSkip : LaneActs n s (s.afterSkip n) := by
  unfold State.afterSkip
  dsimp only
  split
  · exact (acts_requestNext s n).trans (acts_staged _ n)
  · exact (acts_requestNext s n).trans (acts_laneDone _ n)
  · exact (acts_requestNext s n).trans (acts_laneDone _ n)
  · exact acts_requestNext s n

theorem acts_dispose : LaneActs n s (s.dispose n) := by
  unfold State.dispose
  dsimp only
  split
  · exact .refl
  · split
    · exact .lane .refl _ (.of_eq rfl rfl (le_refl _) rfl rfl)
    · exact .occasion (.lane .refl _ ⟨id, rfl, le_refl _, fun h => ⟨h.2, h.1⟩⟩)
    · exact .lane .refl _ (.of_eq rfl rfl (le_refl _) rfl rfl)

theorem acts_continueIn : LaneActs n s (s.continueIn n) := by
  unfold State.continueIn
  dsimp only
  split
  · split
    · exact acts_laneDone s n
    · exact .mod .refl (Lane.keeps_drainFor _ _)
  · split
    · exact .lane .refl _ ⟨fun _ => by simp, rfl, le_refl _, id⟩
    · exact .lane .refl _ (((Lane.keeps_advanceFetch _).trans (Lane.keeps_makeCurrent _ _)).to_state _ (by simp))

theorem acts_inBoundary : LaneActs n s (s.inBoundary n) := by
  have h := (acts_countLine s n).trans (acts_dispose _ n)
  unfold State.inBoundary
  dsimp only
  split
  · split
    · exact h.mod (Lane.keeps_enterIdle _)
    · exact h.mod (Lane.keeps_drainFor _ _)
  · split
    · exact h.trans (acts_pause _ n _)
    · exact h.trans (acts_continueIn _ n)

theorem acts_endDrain : LaneActs n s (s.endDrain n) := by
  unfold State.endDrain
  split
  · split
    · exact acts_laneDone s n
    · exact .mod .refl (Lane.keeps_enterIdle _)
  · exact .refl

theorem acts_disposeHeld : LaneActs n s (s.disposeHeld n) := by
  unfold State.disposeHeld
  split
  · exact acts_dispose s n
  · exact .refl

theorem acts_endBlocked (row : RowId) : LaneActs n s (s.endBlocked n row) := by
  refine ((acts_disposeHeld s n).mod ?_).report ..
  set l := (s.disposeHeld n).lane n
  cases l.follow with
  | none => exact ⟨fun _ => by simp, rfl, le_refl _, id⟩
  | some r => exact ⟨fun _ => by simp, (Lane.keeps_makeCurrent r l).setup, (Lane.keeps_makeCurrent r l).list,
      (Lane.keeps_makeCurrent r l).memory⟩

theorem acts_freeStaging (row : RowId) : LaneActs n s (s.freeStaging n row) := by
  have h : LaneActs n s (s.modLane n fun l => { l with tag := .empty }) := mod .refl (.of_eq rfl rfl (le_refl _) rfl rfl)
  unfold State.freeStaging
  dsimp only
  split
  · exact h.trans (acts_endBlocked _ n row)
  · exact (h.trans (acts_disposeHeld _ n)).trans (acts_endDrain _ n)
  · exact h.trans (acts_disposeHeld _ n)
  · exact h

theorem acts_haltLane (row : RowId) : LaneActs n s (s.haltLane n row) :=
  (LaneActs.refl.mod ((Lane.keeps_abandon _).to_state .halted (by simp))).report ..

theorem acts_skipLane (row : RowId) : LaneActs n s (s.skipLane n row) := by
  have h : LaneActs n s ((s.modLane n fun l => { l with tag := .empty }).lanePost n .entrySkipped (some row) none none) :=
    report (mod .refl (.of_eq rfl rfl (le_refl _) rfl rfl)) ..
  unfold State.skipLane
  dsimp only
  split
  · exact (h.mod (Lane.keeps_passOver _ _)).trans (acts_afterSkip _ n)
  · exact h.trans (acts_freeStaging _ n row)

/-- A refusal told to a lane is events of that lane alone (R46, section 4.12). -/
theorem acts_refuseSlot : LaneActs n s (s.refuseSlot n) := by
  have h : LaneActs n s (s.modLane n fun l => { l with slot := none }) := mod .refl (.of_eq rfl rfl (le_refl _) rfl rfl)
  unfold State.refuseSlot
  split
  · exact .refl
  · dsimp only
    split
    · exact h.trans (acts_haltLane _ n _)
    · exact h.trans (acts_skipLane _ n _)

theorem acts_loadReport (g : Half) : LaneActs n s (s.loadReport n g) :=
  (LaneActs.mod .refl (.of_eq rfl rfl (le_refl _) rfl rfl)).trans (acts_staged _ n)

theorem acts_storeReport (row : RowId) : LaneActs n s (s.storeReport n row) :=
  (LaneActs.mod .refl (.of_eq rfl rfl (le_refl _) rfl rfl)).trans (acts_freeStaging _ n row)

/-- A start from IDLE is events of that lane alone (R86). -/
theorem acts_startLane (m : StartMode) : LaneActs n s (s.startLane n m) := by
  have h : LaneActs n s (s.modLane n (Lane.beginStart m)) := .mod .refl (Lane.keeps_beginStart _ _)
  unfold State.startLane
  dsimp only
  split
  · have h' := (h.mod (f := fun l => { l with state := .priming })
      ((Lane.Keeps.refl _).to_state .priming (by simp))).trans (acts_requestNext _ n)
    split
    · exact h'.trans (acts_staged _ n)
    · exact h'
  · refine h.mod (Lane.Keeps.to_state ?_ _ (by split <;> simp))
    set l := (s.modLane n (Lane.beginStart m)).lane n
    cases l.nextLine with
    | none => exact .refl l
    | some r => exact (Lane.keeps_advanceFetch l).trans (Lane.keeps_makeCurrent r _)

theorem acts_release : LaneActs n s (s.modLane n Lane.release) := .mod .refl (Lane.keeps_release _)

/-- LANE STOP BOUNDARY is events of that lane alone (R89). -/
theorem acts_stopAtBoundary : LaneActs n s (s.stopAtBoundary n) := by
  unfold State.stopAtBoundary
  dsimp only
  split
  · exact .refl
  · exact .refl
  · exact .refl
  · exact .lane .refl _ (.of_eq rfl rfl (le_refl _) rfl rfl)
  · exact .lane .refl _ (Lane.keeps_drainFor _ _)
  · refine .lane .refl _ ?_
    split
    · exact Lane.keeps_enterIdle _
    · exact Lane.keeps_drainFor _ _
  · exact acts_immediateStop s n

theorem acts_haltIfStreaming : LaneActs n s (s.haltIfStreaming n) := by
  unfold State.haltIfStreaming
  split
  · exact .refl
  · exact acts_immediateStop s n

/-! ### What follows from it -/

/-- The fields that events at a lane can change, all others standing. -/
def LaneFrame (s t : State) : Prop :=
  t = { s with lanes := t.lanes, events := t.events, eventCounter := t.eventCounter, occasion := t.occasion,
               array := t.array }

theorem LaneFrame.trans {s t u : State} (a : LaneFrame s t) (b : LaneFrame t u) : LaneFrame s u := by
  unfold LaneFrame at *; rw [b]; rw [a]

theorem State.post_frame (p : Post) :
    s.post p = { s with events := (s.post p).events, eventCounter := (s.post p).eventCounter } := by
  unfold State.post
  split
  · rfl
  · split <;> rfl

theorem State.cancelDelivery_frame (p : Party) : s.cancelDelivery p = { s with array := (s.cancelDelivery p).array } := by
  unfold State.cancelDelivery
  split
  · split <;> rfl
  · rfl

theorem LaneActs.frame {n : LaneId} {s t : State} (h : LaneActs n s t) : LaneFrame s t := by
  induction h with
  | refl => rfl
  | lane _ l _ ih => exact ih.trans rfl
  | post _ p ih => exact ih.trans (by unfold LaneFrame; rw [State.post_frame])
  | occasion _ ih => exact ih.trans rfl
  | cancel _ ih => exact ih.trans (by unfold LaneFrame; rw [State.cancelDelivery_frame])

/-- Events at one lane leave every other lane as it stood. -/
theorem LaneActs.other {n m : LaneId} {s t : State} (h : LaneActs n s t) (hm : m ≠ n) : t.lane m = s.lane m := by
  induction h with
  | refl => rfl
  | lane _ l _ ih => rw [State.setLane_lane, if_neg hm, ih]
  | post _ p ih => rw [State.post_lane, ih]
  | occasion _ ih => rw [State.raise_lane, ih]
  | cancel _ ih => rw [State.cancelDelivery_lane, ih]

theorem LaneActs.keeps {n : LaneId} {s t : State} (h : LaneActs n s t) (m : LaneId) : (s.lane m).Keeps (t.lane m) := by
  by_cases hm : m = n
  · subst hm
    induction h with
    | refl => exact .refl _
    | lane _ l k ih => rw [State.setLane_lane, if_pos rfl]; exact ih.trans k
    | post _ p ih => rw [State.post_lane]; exact ih
    | occasion _ ih => rw [State.raise_lane]; exact ih
    | cancel _ ih => rw [State.cancelDelivery_lane]; exact ih
  · rw [h.other hm]; exact .refl _

/-- Events at a lane start no operation. -/
theorem LaneActs.idle {n : LaneId} {s t : State} (h : LaneActs n s t) (hs : s.array = none) : t.array = none := by
  induction h with
  | refl => exact hs
  | lane _ l _ ih => exact ih
  | post _ p ih => rw [State.post_array, ih]
  | occasion _ ih => exact ih
  | cancel _ ih => unfold State.cancelDelivery; rw [ih]; exact ih

end Sys2Proof.Machine
end

