-- ==== Sys2Proof/Laws/Claims.lean ====
section
/-! SUPPORT. The removal of claims (R34, R36) and what a post depends on. -/

namespace Sys2Proof.Machine

set_option Elab.async false

/-- A post sees of the part only its event queue, event counter and millisecond counter (R121, R124, R125). -/
theorem State.post_congr (u v : State) (p : Post) (h : u.events = v.events ∧ u.eventCounter = v.eventCounter ∧ u.clock = v.clock) :
    (u.post p).events = (v.post p).events ∧ (u.post p).eventCounter = (v.post p).eventCounter ∧ (u.post p).clock = (v.post p).clock := by
  obtain ⟨a, b, c⟩ := h
  simp only [State.post_clock, c, and_true]
  unfold State.post
  rw [a]
  split
  · simp [State.append, a, b, c]
  · split
    · simp [State.append, a, b, c]
    · simp [b]

/-- The removal of claims, slot after slot: each claim of those to be removed leaves its slot and is posted as ended, in
the order of the slots; nothing but the table and the events changes (R36). -/
theorem State.endClaim_fold (which : Claim → Bool) (cause : Cause) (is : List ClaimId) (u v : State) (nd : is.Nodup)
    (h : u.events = v.events ∧ u.eventCounter = v.eventCounter ∧ u.clock = v.clock) :
    let t := is.foldl (State.endClaim which cause) u
    (∀ i, t.claim i = if i ∈ is then (u.claim i).filter (fun k => !which k) else u.claim i) ∧
    t = { u with claims := t.claims, events := t.events, eventCounter := t.eventCounter } ∧
    t.events = (is.foldl (fun v i => match u.claim i with
       | some k => if which k then v.post (k.ended i cause) else v
       | none => v) v).events := by
  induction is generalizing u v with
  | nil => exact ⟨fun i => by simp, rfl, h.1⟩
  | cons i is ih =>
    have ndi := (List.nodup_cons.mp nd)
    simp only [List.foldl_cons]
    have hc : ∀ j, (State.endClaim which cause u i).claim j = if j = i then (u.claim i).filter (fun k => !which k) else u.claim j := by
      intro j
      unfold State.endClaim
      cases hk : u.claim i with
      | none => by_cases e : j = i <;> simp [e, hk]
      | some k =>
        by_cases hw : which k
        · simp [hw, Option.filter]
        · by_cases e : j = i <;> simp [e, hk, hw, Option.filter]
    have hf : State.endClaim which cause u i = { u with claims := (State.endClaim which cause u i).claims, events := (State.endClaim which cause u i).events, eventCounter := (State.endClaim which cause u i).eventCounter } := by
      unfold State.endClaim
      split
      · split
        · rw [State.post_frame]; rfl
        · rfl
      · rfl
    have he : let w := (match u.claim i with
       | some k => if which k then v.post (k.ended i cause) else v
       | none => v)
       (State.endClaim which cause u i).events = w.events ∧ (State.endClaim which cause u i).eventCounter = w.eventCounter ∧ (State.endClaim which cause u i).clock = w.clock := by
      unfold State.endClaim
      cases hk : u.claim i with
      | none => exact h
      | some k =>
        by_cases hw : which k
        · simp only [hw, if_true]; exact State.post_congr (u.setClaim i none) v _ h
        · simp only [hw]; exact h
    obtain ⟨a, b, c⟩ := ih (State.endClaim which cause u i) _ ndi.2 he
    refine ⟨fun j => ?_, ?_, ?_⟩
    · rw [a j, hc j]
      by_cases e : j = i
      · subst e; simp [ndi.1]
      · simp [e]
    · rw [b]; rw [hf]
    · rw [c]
      congr 1
      have : ∀ (js : List ClaimId) (x : State), (∀ j ∈ js, j ≠ i) → js.foldl (fun v j => match (State.endClaim which cause u i).claim j with
       | some k => if which k then v.post (k.ended j cause) else v
       | none => v) x = js.foldl (fun v j => match u.claim j with
       | some k => if which k then v.post (k.ended j cause) else v
       | none => v) x := by
        intro js
        induction js with
        | nil => intros; rfl
        | cons j js ihj =>
          intro x hj
          simp only [List.foldl_cons]
          rw [hc j, if_neg (hj j (by simp))]
          exact ihj _ (fun l hl => hj l (by simp [hl]))
      exact this is _ (fun j hj e => ndi.1 (e ▸ hj))

/-- No claim is concerned exactly when none of the table is. -/
theorem State.claimCount_zero (s : State) (which : Claim → Bool) : s.claimCount which = 0 ↔ ∀ i k, s.claim i = some k → which k = false := by
  unfold State.claimCount
  rw [List.length_eq_zero_iff, List.filter_eq_nil_iff]
  constructor
  · intro h i k hk
    have : s.claim i ∈ s.claims.toList := by
      show s.claims[i.val] ∈ _
      exact Vector.mem_toList_iff.mpr (Vector.getElem_mem _)
    have := h _ this
    rw [hk] at this
    simpa using this
  · intro h x hx
    obtain ⟨j, hj, rfl⟩ := Vector.getElem_of_mem (Vector.mem_toList_iff.mp hx)
    have : s.claims[j] = s.claim ⟨j, hj⟩ := rfl
    rw [this]
    cases hk : s.claim ⟨j, hj⟩ with
    | none => simp
    | some k => simp [h _ k hk]

/-- The removal of claims by one event, in full (R34, R36). -/
theorem State.endClaims_spec (which : Claim → Bool) (cause : Cause) (s v : State)
    (h : s.events = v.events ∧ s.eventCounter = v.eventCounter ∧ s.clock = v.clock) :
    (∀ i, (s.endClaims which cause).claim i = (s.claim i).filter fun k => !which k) ∧
    s.endClaims which cause = { s with claims := (s.endClaims which cause).claims
                                       events := (s.endClaims which cause).events
                                       eventCounter := (s.endClaims which cause).eventCounter
                                       occasion := (s.endClaims which cause).occasion } ∧
    ((s.endClaims which cause).occasion = true ↔
      s.occasion = true ∨ ∃ i k, s.claim i = some k ∧ which k = true) ∧
    (s.endClaims which cause).events = ((List.finRange 24).foldl (fun v i => match s.claim i with
      | some k => if which k then v.post (k.ended i cause) else v
      | none => v) v).events := by
  have f := State.endClaim_fold which cause (List.finRange 24) s v (List.nodup_finRange 24) h
  have z := State.claimCount_zero s which
  unfold State.endClaims
  generalize (List.finRange 24).foldl (State.endClaim which cause) s = w at *
  obtain ⟨a, b, c⟩ := f
  have a : ∀ i, w.claim i = (s.claim i).filter fun k => !which k := fun i => by rw [a i, if_pos (List.mem_finRange i)]
  have o : w.occasion = s.occasion := by rw [b]
  dsimp only
  by_cases hz : s.claimCount which = 0
  · rw [if_pos hz]
    refine ⟨a, ?_, ?_, c⟩
    · conv_lhs => rw [b]
      rw [o]
    · rw [o]
      refine ⟨.inl, fun h => h.resolve_right ?_⟩
      rintro ⟨i, k, hk, hw⟩
      rw [z.mp hz i k hk] at hw
      cases hw
  · rw [if_neg hz]
    refine ⟨a, ?_, ?_, c⟩
    · unfold State.raise
      conv_lhs => rw [b]
    · refine ⟨fun _ => .inr ?_, fun _ => rfl⟩
      by_contra hc
      refine hz (z.mpr fun i k hk => ?_)
      by_contra hw
      exact hc ⟨i, k, hk, by simpa using hw⟩

end Sys2Proof.Machine
end

