-- ==== Sys2Proof/Laws/Arbiter.lean ====
section
/-! SUPPORT. What a selection of the arbiter, a refusal and a report can do, said once: `ArbiterKeeps s t`. -/

namespace Sys2Proof.Machine

set_option Elab.async false

/-! ### Events -/

theorem countNewest_length (es : List Event) : (countNewest es).length = es.length := by
  induction es with
  | nil => rfl
  | cons e es ih =>
    cases es with
    | nil => rfl
    | cons f es => simp only [countNewest, List.length_cons] at ih ⊢; omega

/-- The newest record keeps its kind when it counts one more dropped event. -/
theorem countNewest_getLast? (es : List Event) : (countNewest es).getLast? = es.getLast?.map Event.countOne := by
  induction es with
  | nil => rfl
  | cons e es ih =>
    cases es with
    | nil => rfl
    | cons f es =>
      have hne : countNewest (f :: es) ≠ [] := by
        intro h
        have := congrArg List.length h
        rw [countNewest_length] at this
        simp at this
      show (e :: countNewest (f :: es)).getLast? = _
      rw [List.getLast?_cons_of_ne_nil hne, ih, List.getLast?_cons_cons]

/-- A post keeps the bound of the queue (R124, R125). -/
theorem State.post_bounded (s : State) (p : Post) (h : eventsBounded s.events) : eventsBounded (s.post p).events := by
  unfold State.post
  split
  · rename_i hl
    refine ⟨by simp [State.append]; omega, fun e => ?_⟩
    simp [State.append] at e
    omega
  · split
    · rename_i hl
      exact ⟨by simp [State.append]; omega, fun _ => ⟨_, by simp [State.append]; rfl, rfl⟩⟩
    · refine ⟨by simp only [countNewest_length]; exact h.1, fun e => ?_⟩
      simp only [countNewest_length] at e
      obtain ⟨m, hm, hk⟩ := h.2 e
      exact ⟨m.countOne, by simp only [countNewest_getLast?, hm, Option.map_some], hk⟩

theorem LaneActs.events {n : LaneId} {s t : State} (h : LaneActs n s t) (b : eventsBounded s.events) :
    eventsBounded t.events := by
  induction h with
  | refl => exact b
  | lane _ l _ ih => exact ih
  | post _ p ih => exact State.post_bounded _ p ih
  | occasion _ ih => exact ih
  | cancel _ ih => rw [State.cancelDelivery_events]; exact ih

/-! ### The log -/

theorem logAppend_length (log : List OutcomeRecord) (r : OutcomeRecord) (h : log.length ≤ 16) :
    (logAppend log r).length ≤ 16 := by
  simp only [logAppend, List.length_drop, List.length_append, List.length_singleton, Config.logPlaces]; omega

/-! ### The relation -/

/-- What a queued request asked for, whatever has become of it since. -/
def QueueRequest.asked (q : QueueRequest) : QueueRequest := { q with state := .waiting }

/-- What the arbiter, a refusal or a report leaves as it was, and what it keeps: every field but nine stands; lanes are
kept as by their own events; requests only leave the queue; the event queue and the log keep their bounds. -/
structure ArbiterKeeps (s t : State) : Prop where
  frame : t = { s with array := t.array, queue := t.queue, log := t.log, lastLane := t.lastLane, streak := t.streak,
                       occasion := t.occasion, lanes := t.lanes, events := t.events, eventCounter := t.eventCounter }
  lanes : ∀ m, (s.lane m).Keeps (t.lane m)
  queue : (t.queue.map QueueRequest.asked).Sublist (s.queue.map QueueRequest.asked)
  events : eventsBounded s.events → eventsBounded t.events
  log : s.log.length ≤ 16 → t.log.length ≤ 16
  streak : s.streak ≤ 8 → t.streak ≤ 8

namespace ArbiterKeeps

variable {s t u : State}

theorem refl (s : State) : ArbiterKeeps s s := ⟨rfl, fun _ => .refl _, .refl _, id, id, id⟩

theorem trans (a : ArbiterKeeps s t) (b : ArbiterKeeps t u) : ArbiterKeeps s u :=
  ⟨by rw [b.frame]; rw [a.frame], fun m => (a.lanes m).trans (b.lanes m), b.queue.trans a.queue,
   b.events ∘ a.events, b.log ∘ a.log, b.streak ∘ a.streak⟩

/-- Events at a lane are within it. -/
theorem of_acts {n : LaneId} (h : LaneActs n s t) : ArbiterKeeps s t := by
  have f := h.frame
  unfold LaneFrame at f
  exact ⟨by rw [f], h.keeps, by rw [f], h.events, by rw [f]; exact id, by rw [f]; exact id⟩

theorem post (h : ArbiterKeeps s t) (p : Post) : ArbiterKeeps s (t.post p) :=
  h.trans ⟨by rw [State.post_frame], fun m => by rw [State.post_lane]; exact .refl _,
    by rw [State.post_queue], State.post_bounded t p, by rw [State.post_log]; exact id,
    by rw [State.post_streak]; exact id⟩

end ArbiterKeeps

open ArbiterKeeps

variable (s : State)

/-- The fields listed stand. -/
theorem ArbiterKeeps.of_fields {s t : State}
    (frame : t = { s with array := t.array, queue := t.queue, log := t.log, lastLane := t.lastLane,
                          streak := t.streak, occasion := t.occasion, lanes := t.lanes, events := t.events,
                          eventCounter := t.eventCounter })
    (lanes : ∀ m, (s.lane m).Keeps (t.lane m))
    (queue : t.queue.map QueueRequest.asked = s.queue.map QueueRequest.asked) (events : t.events = s.events)
    (log : t.log = s.log) (streak : t.streak = s.streak) : ArbiterKeeps s t :=
  ⟨frame, lanes, by rw [queue], by rw [events]; exact id, by rw [log]; exact id, by rw [streak]; exact id⟩

theorem keeps_dequeue (k : Half) : ArbiterKeeps s (s.dequeue k) :=
  ⟨rfl, fun _ => .refl _, List.Sublist.map _ List.filter_sublist, id, id, id⟩

theorem keeps_record (k : Half) (c : Ctl) (w : Work) (o : OutcomeCode) (g : Option Half) :
    ArbiterKeeps s (s.record k c w o g) := by
  refine ⟨rfl, fun m => ?_, ?_, ?_, ?_, ?_⟩
  · rw [State.record_lane]; exact .refl _
  · rw [State.record_queue]
  · rw [State.record_events]; exact id
  · exact logAppend_length _ _
  · rw [State.record_streak]; exact id

/-- The finish of a request: a record, and an event when its notify flag is set (R51, R54). -/
theorem keeps_finish (q : QueueRequest) (o : OutcomeCode) (g : Option Half) : ArbiterKeeps s (s.finish q o g) := by
  unfold State.finish
  dsimp only
  split
  · exact (keeps_record s _ _ _ _ _).post _
  · exact keeps_record s _ _ _ _ _

theorem keeps_refuseRequest (q : QueueRequest) : ArbiterKeeps s (s.refuseRequest q) :=
  (keeps_dequeue s _).trans (keeps_finish _ _ _ _)

theorem keeps_foldl {α : Type} (f : State → α → State) (h : ∀ s x, ArbiterKeeps s (f s x)) (xs : List α) (s : State) :
    ArbiterKeeps s (xs.foldl f s) := by
  induction xs generalizing s with
  | nil => exact refl s
  | cons x xs ih => exact (h s x).trans (ih _)

theorem keeps_refuseAll (qs : List QueueRequest) (ns : List LaneId) : ArbiterKeeps s (s.refuseAll qs ns) :=
  (keeps_foldl _ keeps_refuseRequest qs s).trans (keeps_foldl _ (fun s n => of_acts (acts_refuseSlot s n)) ns _)

theorem State.markTested_lane (m : LaneId) :
    s.markTested.lane m = { s.lane m with slot := (s.lane m).slot.map fun q =>
        { q with state := testedState (s.conflicts (.lane m) q.work) q.waitLimit q.state } } := by
  show (Vector.ofFn _)[m.val] = _
  rw [Vector.getElem_ofFn]

theorem keeps_markTested : ArbiterKeeps s s.markTested := by
  refine of_fields rfl (fun m => ?_) ?_ rfl rfl rfl
  · rw [State.markTested_lane]; exact .of_eq rfl rfl (le_refl _) rfl rfl
  · simp only [State.markTested, List.map_map]; rfl

theorem keeps_startSlot (n : LaneId) : ArbiterKeeps s (s.startSlot n) := by
  unfold State.startSlot
  split
  · exact refl s
  · refine of_fields rfl (fun m => ?_) rfl rfl rfl rfl
    exact (LaneActs.mod (n := n) (s := s) .refl
      (f := fun l => { l with slot := some { ‹SlotRequest› with state := .active } })
      (.of_eq rfl rfl (le_refl _) rfl rfl)).keeps m

theorem keeps_startRequest (q : QueueRequest) : ArbiterKeeps s (s.startRequest q) := by
  refine of_fields rfl (fun m => .refl _) ?_ rfl rfl rfl
  simp only [State.startRequest, List.map_map]
  refine List.map_congr_left fun r _ => ?_
  simp only [Function.comp]
  split <;> rfl

theorem keeps_start (c : Choice) : ArbiterKeeps s (s.start c) := by
  cases c with
  | refresh => exact of_fields rfl (fun _ => .refl _) rfl rfl rfl rfl
  | slot n => exact keeps_startSlot s n
  | request q => exact keeps_startRequest s q
  | nothing => exact refl s

/-- The streak does not exceed 8 (R60). -/
theorem streakAfter_le (debt streak : Nat) (last : LaneId) (f : LaneId → Bool) (qs : List QueueRequest)
    (h : streak ≤ 8) : streakAfter streak (!qs.isEmpty) (choose debt streak last f qs) ≤ 8 := by
  unfold choose
  by_cases hd : Config.urgentDebt ≤ debt
  · rw [if_pos hd]
    cases qs <;> simp [streakAfter, h]
  · rw [if_neg hd]
    cases (laneRotation last).find? f with
    | none => cases qs <;> simp [streakAfter]
    | some n =>
      cases qs with
      | nil => simp [streakAfter]
      | cons q qs =>
        by_cases hs : Config.streakLimit ≤ streak
        · simp [hs, streakAfter]
        · simp only [Config.streakLimit] at hs
          simp [hs, Config.streakLimit, streakAfter]; omega

/-- One selection keeps what the arbiter keeps (R56 to R61). -/
theorem keeps_select : ArbiterKeeps s s.select := by
  have h := ((keeps_markTested s).trans (keeps_refuseAll _ (s.queue.filter s.refusedAtOnce)
    ((List.finRange 4).filter s.slotRefusedAtOnce))).trans
    (keeps_start _ (choose s.refreshDebt s.streak s.lastLane s.slotRunnable (s.queue.filter s.requestRunnable)))
  have f := h.frame
  refine ⟨?_, h.lanes, h.queue, h.events, h.log, fun b => ?_⟩
  · unfold State.select; dsimp only; rw [f]
  · exact streakAfter_le _ _ _ _ _ b

theorem keeps_arbitrateFor (fuel : Nat) (s : State) : ArbiterKeeps s (arbitrateFor fuel s) := by
  induction fuel generalizing s with
  | zero => exact refl s
  | succ fuel ih =>
    have h0 : ArbiterKeeps s { s with occasion := false } := of_fields rfl (fun _ => .refl _) rfl rfl rfl rfl
    unfold arbitrateFor
    split
    · split
      · exact (h0.trans (keeps_select _)).trans (ih _)
      · exact h0
    · exact refl s

/-- The arbiter keeps what it keeps, over all its selections of a step. -/
theorem keeps_arbitrate : ArbiterKeeps s s.arbitrate := keeps_arbitrateFor _ s

theorem State.without_occasion (t : State) (h : t.occasion = false) : { t with occasion := false } = t := by
  rw [← h]

/-- With no occasion the arbiter does nothing. -/
theorem State.arbitrate_of_no_occasion (h : s.occasion = false) : s.arbitrate = s := by
  show arbitrateFor (1024 + 1) s = s
  simp [arbitrateFor, h]

/-- An occasion that reaches the arbiter while the array is busy, or the part STARTING, is not kept (R56, R16). -/
theorem State.arbitrate_of_busy (h : ¬(s.array = none ∧ s.partState = .operating)) :
    s.arbitrate = { s with occasion := false } := by
  show arbitrateFor (1024 + 1) s = _
  unfold arbitrateFor
  by_cases ho : s.occasion = true
  · rw [if_pos ho, if_neg h]
  · rw [if_neg ho]
    exact (State.without_occasion _ (by simpa using ho)).symm

/-- A selection that starts an operation is the last of its step (R56). -/
theorem State.arbitrate_of_started (h : s.occasion = true) (ha : s.array = none) (hp : s.partState = .operating)
    (hb : (({ s with occasion := false } : State).select).array ≠ none) :
    s.arbitrate = { ({ s with occasion := false } : State).select with occasion := false } := by
  show arbitrateFor (1023 + 1 + 1) s = _
  unfold arbitrateFor
  rw [if_pos h, if_pos ⟨ha, hp⟩]
  unfold arbitrateFor
  by_cases ho : (({ s with occasion := false } : State).select).occasion = true
  · rw [if_pos ho, if_neg (fun e => hb e.1)]
  · rw [if_neg ho]
    exact (State.without_occasion _ (by simpa using ho)).symm

/-! ### Completion reports -/

theorem keeps_laneReport (n : LaneId) (x : Transfer) : ArbiterKeeps s (s.laneReport n x) := by
  unfold State.laneReport
  split
  · exact refl s
  · split
    · exact of_acts (acts_loadReport s n _)
    · exact of_acts (acts_storeReport s n _)

/-- The frame of a report: what the arbiter keeps, but for the remembered ticket. -/
theorem queueReport_keeps (c : Ctl) (k : Half) (x : Transfer) :
    ∃ o, ArbiterKeeps { s with orphan := o } (s.queueReport c k x) := by
  unfold State.queueReport
  split
  · exact ⟨s.orphan, refl s⟩
  · split
    · exact ⟨none, keeps_record { s with orphan := none } k c x.work x.outcome x.orphanGeneration⟩
    · split
      · exact ⟨s.orphan, (keeps_dequeue s _).trans (keeps_finish _ _ _ _)⟩
      · exact ⟨s.orphan, refl s⟩

theorem report_keeps (x : Transfer) : ∃ o, ArbiterKeeps { s with orphan := o } (s.report x) := by
  unfold State.report
  split
  · exact ⟨s.orphan, keeps_laneReport s _ x⟩
  · exact queueReport_keeps s _ _ x
  · exact ⟨s.orphan, refl s⟩

/-! ### Refusals of one event -/

/-- What the refusals of queued requests leave: the records in order, the queue without those requests, the time. -/
theorem State.refuseRequests_fold (qs : List QueueRequest) (s : State) :
    (qs.foldl State.refuseRequest s).log = qs.foldl (fun log q => logAppend log
      { ticket := q.ticket, ctl := q.ctl, op := q.work.op, row := q.work.row, outcome := .claimTimeout,
        generation := none, finish := s.clock }) s.log ∧
    (qs.foldl State.refuseRequest s).clock = s.clock ∧
    (qs.foldl State.refuseRequest s).queue = s.queue.filter (fun r => r.ticket ∉ qs.map (·.ticket)) := by
  induction qs generalizing s with
  | nil => simp
  | cons q qs ih =>
    obtain ⟨a, b, c⟩ := ih (s.refuseRequest q)
    have hl : (s.refuseRequest q).log = logAppend s.log
        { ticket := q.ticket, ctl := q.ctl, op := q.work.op, row := q.work.row, outcome := .claimTimeout,
          generation := none, finish := s.clock } := by
      unfold State.refuseRequest State.finish
      dsimp only
      split <;> simp [State.record]
    have hc : (s.refuseRequest q).clock = s.clock := by
      unfold State.refuseRequest; simp
    have hq : (s.refuseRequest q).queue = s.queue.filter fun r => r.ticket ≠ q.ticket := by
      unfold State.refuseRequest
      simp only [State.finish_queue]
      rfl
    simp only [List.foldl_cons]
    refine ⟨by rw [a, hl, hc], by rw [b, hc], ?_⟩
    rw [c, hq, List.filter_filter]
    congr 1
    funext r
    simp only [List.map_cons, List.mem_cons, not_or, ne_eq, Bool.decide_and, Bool.and_comm]

/-- What the refusal of a queued request changes. -/
theorem State.refuseRequest_frame (q : QueueRequest) (s : State) :
    s.refuseRequest q = { s with queue := (s.refuseRequest q).queue, log := (s.refuseRequest q).log,
                                 events := (s.refuseRequest q).events,
                                 eventCounter := (s.refuseRequest q).eventCounter } := by
  unfold State.refuseRequest State.finish
  dsimp only
  split
  · rw [State.post_frame]; rfl
  · rfl

/-- What the refusals of queued requests change. -/
theorem State.refuseRequests_frame (qs : List QueueRequest) (s : State) :
    qs.foldl State.refuseRequest s =
      { s with queue := (qs.foldl State.refuseRequest s).queue, log := (qs.foldl State.refuseRequest s).log,
               events := (qs.foldl State.refuseRequest s).events,
               eventCounter := (qs.foldl State.refuseRequest s).eventCounter } := by
  induction qs generalizing s with
  | nil => rfl
  | cons q qs ih =>
    rw [List.foldl_cons, ih (s.refuseRequest q)]
    rw [State.refuseRequest_frame q s]

/-- What the refusals of slot requests change. -/
theorem State.refuseSlots_frame (ns : List LaneId) (s : State) : LaneFrame s (ns.foldl State.refuseSlot s) := by
  induction ns generalizing s with
  | nil => rfl
  | cons n ns ih => exact LaneFrame.trans (acts_refuseSlot s n).frame (ih (s.refuseSlot n))

/-- A lane whose own request is not refused stands. -/
theorem State.refuseSlots_other (ns : List LaneId) (s : State) (m : LaneId) (h : m ∉ ns) :
    (ns.foldl State.refuseSlot s).lane m = s.lane m := by
  induction ns generalizing s with
  | nil => rfl
  | cons n ns ih =>
    rw [List.foldl_cons, ih _ (fun e => h (List.mem_cons_of_mem _ e))]
    exact (acts_refuseSlot s n).other (fun e => h (e ▸ List.mem_cons_self))

/-- What the refusals of one event change, and what they leave of the queue, the log and the lanes. -/
theorem State.refuseAll_spec (qs : List QueueRequest) (ns : List LaneId) (s : State) :
    let t := s.refuseAll qs ns
    t = { s with queue := t.queue, log := t.log, lanes := t.lanes, events := t.events,
                 eventCounter := t.eventCounter, occasion := t.occasion, array := t.array } ∧
    t.queue = s.queue.filter (fun r => r.ticket ∉ qs.map (·.ticket)) ∧
    t.log = qs.foldl (fun log q => logAppend log
      { ticket := q.ticket, ctl := q.ctl, op := q.work.op, row := q.work.row, outcome := .claimTimeout,
        generation := none, finish := s.clock }) s.log ∧
    (∀ m, m ∉ ns → t.lane m = s.lane m) ∧ (s.array = none → t.array = none) := by
  have f1 := State.refuseRequests_frame qs s
  obtain ⟨l1, -, q1⟩ := State.refuseRequests_fold qs s
  have f2 := State.refuseSlots_frame ns (qs.foldl State.refuseRequest s)
  have o2 := State.refuseSlots_other ns (qs.foldl State.refuseRequest s)
  have i2 : ∀ (ks : List LaneId) (v : State), v.array = none → (ks.foldl State.refuseSlot v).array = none := by
    intro ks
    induction ks with
    | nil => exact fun v h => h
    | cons k ks ih => exact fun v h => ih _ ((acts_refuseSlot v k).idle h)
  unfold State.refuseAll
  unfold LaneFrame at f2
  refine ⟨by rw [f2]; rw [f1], by rw [f2]; exact q1, by rw [f2]; exact l1, fun m hm => ?_, fun h => ?_⟩
  · rw [o2 m hm]
    unfold State.lane
    rw [f1]
  · exact i2 _ _ (by rw [f1]; exact h)

/-- A queued request's refusal leaves the lanes. -/
theorem State.refuseRequests_lane (qs : List QueueRequest) (s : State) (n : LaneId) :
    (qs.foldl State.refuseRequest s).lane n = s.lane n := by
  unfold State.lane
  rw [State.refuseRequests_frame]

/-- The events that the refusals of queued requests post: TRANSFER DONE, cause CLAIM TIMEOUT, for each whose notify flag
is set (R54). -/
theorem State.refuseRequests_events (qs : List QueueRequest) (s w : State)
    (h : s.events = w.events ∧ s.eventCounter = w.eventCounter ∧ s.clock = w.clock) :
    (qs.foldl State.refuseRequest s).events = (qs.foldl (fun (w : State) q => if q.notify = true then w.post
        { kind := .transferDone, source := .party (.ctl q.ctl), row := some q.work.row, ticket := some q.ticket,
          cause := some .claimTimeout } else w) w).events := by
  induction qs generalizing s w with
  | nil => exact h.1
  | cons q qs ih =>
    simp only [List.foldl_cons]
    refine ih _ _ ?_
    unfold State.refuseRequest State.finish
    cases q.notify with
    | true =>
      simp only [OutcomeCode.cause, if_true]
      exact State.post_congr ((s.dequeue q.ticket).record q.ticket q.ctl q.work .claimTimeout none) w _ h
    | false => exact h

/-! ### What a selection leaves -/

/-- A lane is chosen only when its slot request is runnable (R57, R58). -/
theorem choose_slot (debt streak : Nat) (last : LaneId) (f : LaneId → Bool) (qs : List QueueRequest) (n : LaneId)
    (h : choose debt streak last f qs = .slot n) : f n = true := by
  unfold choose at h
  split at h
  · cases h
  · split at h
    · injection h with h
      exact h ▸ List.find?_some ‹_ = some _›
    · split at h
      · cases h
      · injection h with h
        exact h ▸ List.find?_some ‹_ = some _›
    · cases h
    · split at h <;> cases h

/-- What the start of the chosen candidate changes (R61). -/
theorem State.start_frame (c : Choice) :
    s.start c = { s with array := (s.start c).array, queue := (s.start c).queue, lanes := (s.start c).lanes,
                         lastLane := (s.start c).lastLane } := by
  cases c with
  | slot n => simp only [State.start, State.startSlot]; split <;> rfl
  | _ => rfl

/-- What is started at an idle array is marked ACTIVE, and every other request stands (R61). -/
theorem State.start_marks (c : Choice) (ha : s.array = none) (hs : ∀ n, c = .slot n → ((s.lane n).slot).isSome = true) :
    let t := s.start c
    (∀ n, (∀ x, t.array = some (.transfer x) → x.requester ≠ .lane n) → t.lane n = s.lane n) ∧
    (∀ n x q, t.array = some (.transfer x) → x.requester = .lane n → (s.lane n).slot = some q →
      t.lane n = { s.lane n with slot := some { q with state := .active } }) ∧
    ((∀ x, t.array = some (.transfer x) → x.ticket = none) → t.queue = s.queue) ∧
    ∀ x k, t.array = some (.transfer x) → x.ticket = some k →
      t.queue = s.queue.map fun q => if q.ticket = k then { q with state := .active } else q := by
  cases c with
  | refresh => exact ⟨fun _ _ => rfl, fun _ _ _ h => (by cases h), fun _ => rfl, fun _ _ h => (by cases h)⟩
  | nothing =>
    exact ⟨fun _ _ => rfl, fun _ _ _ h => absurd (ha.symm.trans h) nofun, fun _ => rfl,
      fun _ _ h => absurd (ha.symm.trans h) nofun⟩
  | request p =>
    refine ⟨fun _ _ => rfl, fun n x q h hr => ?_, fun h => ?_, fun x k h hk => ?_⟩
    · cases h; cases hr
    · have := h _ rfl; cases this
    · cases h; cases hk; rfl
  | slot m =>
    obtain ⟨r, hr⟩ := Option.isSome_iff_exists.mp (hs m rfl)
    simp only [State.start, State.startSlot, hr]
    have hu (w : State) (a l) (n) : State.lane { w with array := a, lastLane := l } n = w.lane n := rfl
    refine ⟨fun n h => ?_, fun n x q h hn hq => ?_, fun _ => rfl, fun x k h hk => ?_⟩
    · rw [hu, State.modLane_lane, if_neg]
      intro e
      exact h _ rfl (by rw [e]; rfl)
    · cases h
      cases hn
      rw [hr] at hq
      cases hq
      rw [hu, State.modLane_lane, if_pos rfl]
    · cases h; cases hk

/-- A selection is its tests, its refusals and the start of what it chooses, whose slot is runnable if it is one, and
the streak (R57 to R61). -/
theorem State.select_spec :
    ∃ c, (∀ n, c = .slot n → s.slotRunnable n = true) ∧
      s.select = { (s.markTested.refuseAll (s.queue.filter s.refusedAtOnce)
        ((List.finRange 4).filter s.slotRefusedAtOnce)).start c with streak := s.select.streak } :=
  ⟨_, fun n h => choose_slot _ _ _ _ _ n h, rfl⟩

end Sys2Proof.Machine
end

