-- ==== Sys2Proof/Laws/Array.lean ====
section
/-! SUPPORT. What a completion at the array can change, and the cells, records, credit and register it leaves. -/

namespace Sys2Proof.Machine

set_option Elab.async false

variable (s : State)

/-! ### Cells and records -/

theorem State.writeEffects_frame (x : Transfer) :
    s.writeEffects x = { s with cells := (s.writeEffects x).cells, records := (s.writeEffects x).records } := by
  unfold State.writeEffects
  split <;> rfl

theorem State.credit_frame (r : RowId) :
    s.credit r = { s with refreshPointer := (s.credit r).refreshPointer, refreshDebt := (s.credit r).refreshDebt } := by
  unfold State.credit
  split <;> rfl

theorem State.credits_frame (x : Transfer) :
    s.credits x =
      { s with refreshPointer := (s.credits x).refreshPointer, refreshDebt := (s.credits x).refreshDebt } := by
  have h : ∀ (rs : List RowId) (v : State), rs.foldl State.credit v =
      { v with refreshPointer := (rs.foldl State.credit v).refreshPointer,
               refreshDebt := (rs.foldl State.credit v).refreshDebt } := by
    intro rs
    induction rs with
    | nil => intro v; rfl
    | cons r rs ih =>
      intro v
      rw [List.foldl_cons, ih (v.credit r)]
      rw [State.credit_frame v r]
  exact h _ s

theorem State.deliver_frame (x : Transfer) :
    s.deliver x = { s with lanes := (s.deliver x).lanes, buffers := (s.deliver x).buffers } := by
  unfold State.deliver
  split
  · split <;> rfl
  · rfl

/-- What a report changes: the queue with its log and remembered ticket, the lanes, the events, and what a lane's new
request brings. -/
theorem State.report_frame (x : Transfer) :
    s.report x = { s with array := (s.report x).array, queue := (s.report x).queue, log := (s.report x).log,
                          orphan := (s.report x).orphan, lastLane := (s.report x).lastLane,
                          streak := (s.report x).streak, occasion := (s.report x).occasion,
                          lanes := (s.report x).lanes, events := (s.report x).events,
                          eventCounter := (s.report x).eventCounter } := by
  obtain ⟨o, h⟩ := report_keeps s x
  rw [h.frame]

/-- A report does not serve a lane or count a streak. -/
theorem State.report_counters (x : Transfer) :
    (s.report x).lastLane = s.lastLane ∧ (s.report x).streak = s.streak := by
  unfold State.report
  split
  · unfold State.laneReport
    split
    · exact ⟨rfl, rfl⟩
    · split
      · rw [(acts_loadReport s _ _).frame]; exact ⟨rfl, rfl⟩
      · rw [(acts_storeReport s _ _).frame]; exact ⟨rfl, rfl⟩
  · unfold State.queueReport
    split
    · exact ⟨rfl, rfl⟩
    · split
      · exact ⟨rfl, rfl⟩
      · split
        · simp
        · exact ⟨rfl, rfl⟩
  · exact ⟨rfl, rfl⟩

/-- What a completion can change. -/
theorem State.completeTransfer_frame (x : Transfer) :
    let u := s.completeTransfer x
    u = { s with cells := (s.writeEffects x).cells, records := (s.writeEffects x).records,
                 refreshPointer := (s.credits x).refreshPointer, refreshDebt := (s.credits x).refreshDebt,
                 buffers := u.buffers, array := none, occasion := true, queue := u.queue, orphan := u.orphan,
                 log := u.log, lanes := u.lanes, events := u.events, eventCounter := u.eventCounter } := by
  have hc : ∀ (rs : List RowId) (v w : State), v.refreshPointer = w.refreshPointer → v.refreshDebt = w.refreshDebt →
      (rs.foldl State.credit v).refreshPointer = (rs.foldl State.credit w).refreshPointer ∧
      (rs.foldl State.credit v).refreshDebt = (rs.foldl State.credit w).refreshDebt := by
    intro rs
    induction rs with
    | nil => exact fun v w a b => ⟨a, b⟩
    | cons r rs ih =>
      intro v w a b
      refine ih _ _ ?_ ?_ <;> simp only [State.credit, a, b] <;> split <;> simp [a, b]
  obtain ⟨h1, h2⟩ := hc x.work.opens (s.writeEffects x) s (by rw [State.writeEffects_frame]) (by rw [State.writeEffects_frame])
  change ((s.writeEffects x).credits x).refreshPointer = (s.credits x).refreshPointer at h1
  change ((s.writeEffects x).credits x).refreshDebt = (s.credits x).refreshDebt at h2
  have f1 := State.writeEffects_frame s x
  have f2 := State.credits_frame (s.writeEffects x) x
  have f3 := State.deliver_frame ((s.writeEffects x).credits x) x
  obtain ⟨c1, c2⟩ := State.report_counters (((s.writeEffects x).credits x).deliver x) x
  have f4 := State.report_frame (((s.writeEffects x).credits x).deliver x) x
  rw [c1, c2] at f4
  unfold State.completeTransfer State.raise
  rw [← h1, ← h2]
  generalize (((s.writeEffects x).credits x).deliver x).report x = d at f4 ⊢
  generalize ((s.writeEffects x).credits x).deliver x = c at f3 f4
  generalize (s.writeEffects x).credits x = b at f2 f3 ⊢
  generalize s.writeEffects x = a at f1 f2 ⊢
  dsimp only
  rw [f4]
  dsimp only
  rw [f3]
  dsimp only
  rw [f2]
  dsimp only
  rw [f1]

/-- A controller's completion changes no lane. -/
theorem State.completeTransfer_ctl (x : Transfer) (c : Ctl) (h : x.requester = .ctl c) :
    (s.completeTransfer x).lanes = s.lanes := by
  have hd : ∀ v : State, (v.deliver x).lanes = v.lanes := by
    intro v
    unfold State.deliver
    rw [h]
    split <;> rfl
  have hr : ∀ v : State, (v.report x).lanes = v.lanes := by
    intro v
    unfold State.report State.queueReport
    rw [h]
    split
    · cases ‹_ = _›
    · split
      · rfl
      · split
        · rfl
        · split <;> simp
    · rfl
  unfold State.completeTransfer State.raise
  dsimp only
  rw [hr, hd, State.credits_frame, State.writeEffects_frame]

/-- A lane's completion changes neither the queue, its log, the orphan nor a buffer, and no lane but its own; one marked
DISCARD or as following a soft reset posts nothing and leaves its lane (R5, R55, R64). -/
theorem State.completeTransfer_lane (x : Transfer) (n : LaneId) (h : x.requester = .lane n) :
    let u := s.completeTransfer x
    u.queue = s.queue ∧ u.log = s.log ∧ u.orphan = s.orphan ∧ u.buffers = s.buffers ∧
    (∀ m, m ≠ n → u.lane m = s.lane m) ∧ (x.discard = true ∨ x.softReset = true → u.events = s.events) ∧
    (x.discard = true ∨ (x.softReset = true ∧ ∀ r, x.work ≠ .load r) → u.lanes = s.lanes) := by
  obtain ⟨v, hv⟩ : ∃ v, (s.writeEffects x).credits x = v := ⟨_, rfl⟩
  have fv : v = { s with cells := v.cells, records := v.records, refreshPointer := v.refreshPointer,
                         refreshDebt := v.refreshDebt } := by
    rw [← hv, State.credits_frame, State.writeEffects_frame]
  have hvl : ∀ m, v.lane m = s.lane m := by intro m; unfold State.lane; rw [fv]
  have hl : v.lanes = s.lanes := by rw [fv]
  obtain ⟨d, hd⟩ : ∃ d, v.deliver x = d := ⟨_, rfl⟩
  have fd : d = { v with lanes := d.lanes } := by
    rw [← hd]
    unfold State.deliver
    rw [h]
    split <;> rfl
  have od : ∀ m, m ≠ n → d.lane m = v.lane m := by
    intro m hm
    rw [← hd]
    unfold State.deliver
    rw [h]
    split
    · rw [State.modLane_lane, if_neg hm]
    · rfl
  have kd : x.discard = true ∨ (x.softReset = true ∧ ∀ r, x.work ≠ .load r) → d = v := by
    intro hk
    rw [← hd]
    unfold State.deliver
    split
    · rename_i r hw hx
      rcases hk with hk | ⟨-, hk⟩
      · rw [hx] at hk; cases hk
      · exact absurd hw (hk r)
    · rfl
  have ar : LaneActs n d (d.laneReport n x) := by
    unfold State.laneReport
    split
    · exact .refl
    · split
      · exact acts_loadReport d n _
      · exact acts_storeReport d n _
  have kr : x.discard = true ∨ x.softReset = true → d.laneReport n x = d := fun hk => if_pos hk
  have hc : s.completeTransfer x = { d.laneReport n x with occasion := true, array := none } := by
    unfold State.completeTransfer State.raise State.report
    rw [hv, hd, h]
  have fr : LaneFrame d (d.laneReport n x) := ar.frame
  unfold LaneFrame at fr
  dsimp only
  rw [hc]
  refine ⟨?_, ?_, ?_, ?_, fun m hm => ?_, fun hk => ?_, fun hk => ?_⟩
  · rw [fr, fd, fv]
  · rw [fr, fd, fv]
  · rw [fr, fd, fv]
  · rw [fr, fd, fv]
  · exact (ar.other hm).trans ((od m hm).trans (hvl m))
  · rw [kr hk, fd, fv]
  · have hk' : x.discard = true ∨ x.softReset = true := hk.imp id And.left
    rw [kr hk', kd hk]
    exact hl

/-- The completion of the operation in flight, by the command of its name. -/
theorem exec_completion (x : Transfer) (i : Instr) (h : s.array = some (.transfer x))
    (hi : i = match x.work.op with
      | .load => .loadCompletion
      | .store => .storeCompletion
      | .cstore => .cstoreCompletion
      | .fill => .fillCompletion
      | .copy => .copyCompletion) :
    exec i s = .next (s.completeTransfer x).arbitrate := by
  cases ho : x.work.op <;> rw [ho] at hi <;> subst hi <;>
    simp [exec, execLoadCompletion, execStoreCompletion, execCstoreCompletion, execFillCompletion, execCopyCompletion,
      completeOp, h, ho]

/-- A cell after the write effects of a matched write. -/
theorem State.readCell_writeEffects (x : Transfer) (r : RowId) (sp : Span) (f : Nat → Byte)
    (hr : x.work.row = r) (hw : x.writes = true) (hf : x.written = sp.cells.map fun k => (k, f k))
    (hs : s.swept = 512) :
    (∀ a, a / 128 ≠ r.val → (s.writeEffects x).readCell a = s.readCell a) ∧
    ∀ k, k < 128 → (s.writeEffects x).readCell (128 * r.val + k) =
      if k ∈ sp.cells then f k else s.readCell (128 * r.val + k) := by
  have hc : (s.writeEffects x).cells = Memory.writeAll s.cells (rowBase r) (sp.cells.map fun k => (k, f k)) := by
    unfold State.writeEffects
    rw [if_pos hw, hr, hf]; rfl
  have hsw : (s.writeEffects x).swept = s.swept := by rw [State.writeEffects_frame]
  have hh : (s.writeEffects x).hardResets = s.hardResets := by rw [State.writeEffects_frame]
  refine ⟨fun a ha => ?_, fun k hk => ?_⟩
  · simp only [State.readCell, hsw, hh, hc]
    split
    · refine Memory.read_writeAll_of_not_mem _ _ _ _ ?_
      intro p hp e
      simp only [List.mem_map] at hp
      obtain ⟨k, hk, rfl⟩ := hp
      simp only at e
      rw [← e] at ha
      exact ha (rowBase_div r k (Span.mem_cells_lt sp k hk))
    · rfl
  · have hlt : (128 * r.val + k) / 128 < s.swept := by omega
    simp only [State.readCell, hsw, hc, if_pos hlt]
    rw [show 128 * r.val + k = rowBase r + k from rfl, Memory.read_writeAll_map]

/-- A record after the write effects of a matched write (R6). -/
theorem State.rowRecord_writeEffects (x : Transfer) (hw : x.writes = true) (hs : s.swept = 512) (q : RowId) :
    (s.writeEffects x).rowRecord q =
      if q = x.work.row then { generation := x.startGeneration + 1, lastWriter := .party x.requester }
      else s.rowRecord q := by
  unfold State.writeEffects
  rw [if_pos hw]
  have hq : q.val < s.swept := by omega
  simp only [State.rowRecord, State.writeRow_swept, hq, if_true, State.setRecord, State.writeRow_records,
    Table.read_write, Fin.ext_iff]

/-- Cell k is of the span (tap, span) when it lies that far from the tap, modulo 128. -/
theorem Span.mem_cells (sp : Span) (k : Nat) (h : k < 128) : k ∈ sp.cells ↔ (k + 128 - sp.tap.val) % 128 < sp.len := by
  have ht := sp.tap.isLt
  simp only [Span.cells, List.mem_map, List.mem_range]
  constructor
  · rintro ⟨i, hi, rfl⟩
    have : ((sp.tap.val + i) % 128 + 128 - sp.tap.val) % 128 = i % 128 := by omega
    rw [this]
    exact lt_of_le_of_lt (Nat.mod_le i 128) hi
  · intro hk
    exact ⟨_, hk, by omega⟩

end Sys2Proof.Machine
end

