-- ==== Sys2Proof/Laws/Engine.lean ====
section
/-! SUPPORT. What the execution of a frame answers, by the reply of its command. -/

namespace Sys2Proof.Machine

set_option Elab.async false

variable (s : State)

/-- The end of an execution, by its status and body. -/
theorem Reply.finish_eq (status : Status) (body : List Byte) :
    Reply.finish { state := s, status, body } = s.answered status body := by
  unfold Reply.finish State.answered
  cases s.engine with
  | idle => rfl
  | holding r => rfl
  | executing f d =>
    cases d with
    | true => rfl
    | false =>
      simp only [Port.load]
      split <;> simp_all

/-- A command of the session's owner, without an occasion for a selection. -/
theorem State.runFrame_inSession (i : Instr) (c : Ctl) (tag : Byte) (command : State → Reply)
    (h : s.executes i = true) (hs : s.session c = some tag) :
    s.runFrame i (inSession c tag command) =
      .next ((command s).state.answered (command s).status (command s).body) := by
  simp [State.runFrame, h, inSession, hs, ← Reply.finish_eq]

/-- A command of the session's owner that can be an occasion for a selection. -/
theorem State.runOccasion_inSession (i : Instr) (c : Ctl) (tag : Byte) (command : State → Reply)
    (h : s.executes i = true) (hs : s.session c = some tag) :
    s.runOccasion i (inSession c tag command) =
      .next ((command s).state.answered (command s).status (command s).body).arbitrate := by
  simp [State.runOccasion, h, inSession, hs, ← Reply.finish_eq]

/-- The two bytes of a 16-bit number. -/
theorem halfBytes_ofNat (n : Nat) : halfBytes (BitVec.ofNat 16 n) = [BitVec.ofNat 8 (n / 256), BitVec.ofNat 8 n] := by
  simp only [halfBytes, List.cons.injEq, and_true]
  constructor <;> apply BitVec.eq_of_toNat_eq <;>
    simp [BitVec.extractLsb'_toNat, Nat.shiftRight_eq_div_pow] <;> omega

end Sys2Proof.Machine
end

