-- ==== Sys2Proof/Laws/Lists.lean ====
section
/-! SUPPORT. What the list operations of a lane leave: retirement, the moves of the show position, the line that becomes
current (R103 to R109). -/

namespace Sys2Proof.Machine

set_option Elab.async false

variable (l : Lane) (k : Nat) (p : Position) (b : Bool)

/-! ### Retirement -/

@[simp] theorem Lane.retire_state : (l.retire k).state = l.state := rfl
@[simp] theorem Lane.retire_setup : (l.retire k).setup = l.setup := rfl
@[simp] theorem Lane.retire_slot : (l.retire k).slot = l.slot := rfl
@[simp] theorem Lane.retire_active : (l.retire k).active = l.active := rfl
@[simp] theorem Lane.retire_staging : (l.retire k).staging = l.staging := rfl
@[simp] theorem Lane.retire_tag : (l.retire k).tag = l.tag.renumber k := rfl
@[simp] theorem Lane.retire_current : (l.retire k).current = l.current.map (LineRef.renumber k) := rfl
@[simp] theorem Lane.retire_pointer : (l.retire k).pointer = l.pointer := rfl
@[simp] theorem Lane.retire_count : (l.retire k).count = l.count := rfl
@[simp] theorem Lane.retire_held : (l.retire k).held = l.held := rfl
@[simp] theorem Lane.retire_follow : (l.retire k).follow = l.follow.map (LineRef.renumber k) := rfl
@[simp] theorem Lane.retire_lines : (l.retire k).lines = l.lines := rfl
@[simp] theorem Lane.retire_episode : (l.retire k).episode = l.episode := rfl
@[simp] theorem Lane.retire_stopPending : (l.retire k).stopPending = l.stopPending := rfl
@[simp] theorem Lane.retire_startMode : (l.retire k).startMode = l.startMode := rfl
@[simp] theorem Lane.retire_drain : (l.retire k).drain = l.drain := rfl
@[simp] theorem Lane.retire_entries : (l.retire k).list.entries = l.list.entries.drop k := rfl
@[simp] theorem Lane.retire_fetch : (l.retire k).list.fetch = l.list.fetch.renumber k := rfl
@[simp] theorem Lane.retire_shown : (l.retire k).list.shown = l.list.shown.renumber k := rfl
@[simp] theorem Lane.retire_showing : (l.retire k).list.showing = l.list.showing := rfl

@[simp] theorem LineRef.renumber_row (r : LineRef) : (r.renumber k).row = r.row := rfl
@[simp] theorem LineRef.renumber_span (r : LineRef) : (r.renumber k).span = r.span := rfl
@[simp] theorem LineRef.renumber_rep (r : LineRef) : (r.renumber k).rep = r.rep := rfl
@[simp] theorem Position.renumber_rep : (p.renumber k).rep = p.rep := rfl
@[simp] theorem Staging.renumber_empty : Staging.empty.renumber k = .empty := rfl
@[simp] theorem Staging.renumber_pending (r : LineRef) : (Staging.pending r).renumber k = .pending (r.renumber k) := rfl
@[simp] theorem Staging.renumber_full (r : LineRef) (g : Option Half) :
    (Staging.full r g).renumber k = .full (r.renumber k) g := rfl

theorem Staging.renumber_eq_empty (t : Staging) : t.renumber k = .empty ↔ t = .empty := by
  cases t <;> simp [Staging.renumber]

theorem LineRef.renumber_zero (r : LineRef) : r.renumber 0 = r := rfl

theorem Position.renumber_zero : p.renumber 0 = p := rfl

/-- Retiring nothing changes nothing. -/
theorem Lane.retire_zero : l.retire 0 = l := by
  have h1 : l.tag.renumber 0 = l.tag := by cases l.tag <;> rfl
  have h2 : ∀ o : Option LineRef, o.map (LineRef.renumber 0) = o := by
    intro o
    cases o <;> simp [LineRef.renumber_zero]
  unfold Lane.retire
  rw [h1, h2, h2]
  simp [Position.renumber_zero]

/-- A move of the show position is a retirement, of no entry but in ONCE mode (R106). -/
theorem Lane.moveShow_eq :
    l.moveShow p b = ({ l with list := { l.list with shown := p, showing := b } } : Lane).retire
      (if l.setup.mode = .once ∧ l.list.shown.entry < p.entry then p.entry else 0) := by
  unfold Lane.moveShow
  dsimp only
  split
  · rfl
  · rw [Lane.retire_zero]

/-- The line at the fetch position after entries before it have retired: the same line under its new index. -/
theorem Lane.nextLine_retire (h : k ≤ l.list.fetch.entry) :
    (l.retire k).nextLine = l.nextLine.map (LineRef.renumber k) := by
  have he : k + (l.list.fetch.entry - k) = l.list.fetch.entry := by omega
  simp only [Lane.nextLine, RowList.lineAt, Lane.retire_entries, Lane.retire_fetch, Position.renumber, renumber, h,
    if_true, List.getElem?_drop, he]
  cases l.list.entries[l.list.fetch.entry]? with
  | none => rfl
  | some e => by_cases hr : l.list.fetch.rep < e.repeats <;> simp [hr, LineRef.renumber, renumber, h]

/-- How many entries a boundary retires. -/
def Lane.completed : Nat :=
  if l.setup.mode = .once ∧ l.list.shown.entry < l.nextShown.entry then l.nextShown.entry else 0

/-- What a boundary makes of the lane's list (R104). -/
theorem Lane.completeLine_eq :
    l.completeLine =
      ({ l with list := { l.list with shown := l.nextShown, showing := false } } : Lane).retire l.completed :=
  Lane.moveShow_eq l _ _

/-- The next line after a boundary with nothing staged. -/
theorem Lane.nextLine_completeLine (h : l.nextShown = l.list.fetch) :
    l.completeLine.nextLine = l.nextLine.map (LineRef.renumber l.completed) := by
  rw [Lane.completeLine_eq]
  refine Lane.nextLine_retire _ _ ?_
  unfold Lane.completed
  rw [h]
  split
  · exact le_refl _
  · exact Nat.zero_le _

/-- How many entries a line that becomes current retires. -/
def Lane.passed (r : LineRef) : Nat := if l.setup.mode = .once ∧ l.list.shown.entry < r.entry then r.entry else 0

/-- What a line that becomes current makes of the lane (R69, R103). -/
theorem Lane.makeCurrent_eq (r : LineRef) :
    l.makeCurrent r =
      ({ l with current := some r, pointer := r.span.tap, count := 0,
                list := { l.list with shown := r.position, showing := true } } : Lane).retire (l.passed r) :=
  Lane.moveShow_eq ({ l with current := some r, pointer := r.span.tap, count := 0 } : Lane) _ _

end Sys2Proof.Machine
end

