-- ==== Sys2Proof/Laws/LaneEffects.lean ====
section
/-! SUPPORT. What the shared operations of a lane engine do, case by case, to a part whose lane n is known. -/

namespace Sys2Proof.Machine

set_option Elab.async false

variable (s : State) (n : LaneId)

@[simp] theorem State.setLane_setLane (a b : Lane) : (s.setLane n a).setLane n b = s.setLane n b := by
  simp [State.setLane, Vector.set_set]

@[simp] theorem State.modLane_setLane (a : Lane) (f : Lane → Lane) : (s.setLane n a).modLane n f = s.setLane n (f a) := by
  simp [State.modLane]

@[simp] theorem State.setLane_raise (a : Lane) : s.raise.setLane n a = (s.setLane n a).raise := rfl

theorem State.setLane_self : s.setLane n (s.lane n) = s := by
  have : s.lanes.set n.val (s.lanes.get n) n.isLt = s.lanes := Vector.set_getElem_self n.isLt
  unfold State.setLane State.lane
  rw [this]

/-! ### The next line (R76) -/

variable {s n} {l : Lane}

theorem State.requestNext_none (h : l.nextLine = none) :
    (s.setLane n l).requestNext n = s.setLane n { l with tag := .empty } := by
  simp [State.requestNext, h]

theorem State.requestNext_row {r : LineRef} {row : RowId} (h : l.nextLine = some r) (hr : r.row = some row) :
    (s.setLane n l).requestNext n =
      (s.setLane n { l.advanceFetch with
        tag := .pending r
        slot := some { work := .load row, waitLimit := l.setup.waitLimit, state := .waiting } }).raise := by
  simp [State.requestNext, h, hr]

theorem State.requestNext_blank {r : LineRef} (h : l.nextLine = some r) (hr : r.row = none) :
    (s.setLane n l).requestNext n =
      s.setLane n { l.advanceFetch with tag := .full r none, staging := blankLine l.setup.fill } := by
  simp [State.requestNext, h, hr]

/-- What a request for the next line leaves of its lane, and what follows it. -/
theorem State.requestNext_spec (s : State) (n : LaneId) (l : Lane) :
    ∃ (k : Lane) (o : Bool), (s.setLane n l).requestNext n = { s.setLane n k with occasion := o } ∧
      k.state = l.state ∧ k.setup = l.setup ∧ k.active = l.active ∧ k.current = l.current ∧
      k.pointer = l.pointer ∧ k.count = l.count ∧ k.held = l.held ∧ k.follow = l.follow ∧ k.lines = l.lines ∧
      k.episode = l.episode ∧ k.stopPending = l.stopPending ∧ k.startMode = l.startMode ∧ k.drain = l.drain ∧
      k.list.entries = l.list.entries ∧ k.list.shown = l.list.shown ∧ k.list.showing = l.list.showing := by
  cases h : l.nextLine with
  | none =>
    exact ⟨{ l with tag := .empty }, (s.setLane n l).occasion, by rw [State.requestNext_none h]; rfl,
      rfl, rfl, rfl, rfl, rfl, rfl, rfl, rfl, rfl, rfl, rfl, rfl, rfl, rfl, rfl, rfl⟩
  | some r =>
    cases hr : r.row with
    | some row =>
      exact ⟨_, true, State.requestNext_row h hr,
        rfl, rfl, rfl, rfl, rfl, rfl, rfl, rfl, rfl, rfl, rfl, rfl, rfl, rfl, rfl, rfl⟩
    | none =>
      exact ⟨{ l.advanceFetch with tag := .full r none, staging := blankLine l.setup.fill },
        (s.setLane n l).occasion, by rw [State.requestNext_blank h hr]; rfl,
        rfl, rfl, rfl, rfl, rfl, rfl, rfl, rfl, rfl, rfl, rfl, rfl, rfl, rfl, rfl, rfl⟩

/-- The swap at an OUT lane: the staged line is current, at its tap, and the lane RUNNING (R68, R78). -/
theorem State.showStaged_spec (s : State) (n : LaneId) (c : Lane) (x : LineRef) (g : Option Half)
    (ht : c.tag = .full x g) :
    ∃ (k : Lane) (o : Bool), (s.setLane n c).showStaged n = { s.setLane n k with occasion := o } ∧
      k.state = .running ∧ k.setup = c.setup ∧ k.active = c.staging ∧
      (∃ y, k.current = some y ∧ y.row = x.row ∧ y.span = x.span ∧ y.rep = x.rep) ∧ k.pointer = x.span.tap ∧
      k.count = 0 ∧ k.list.showing = true ∧ k.lines = c.lines := by
  have hsw : c.swapIn = ({ c with active := c.staging, staging := c.active, tag := .empty } : Lane).makeCurrent x := by
    simp [Lane.swapIn, ht]
  obtain ⟨k, o, h, h1, h2, h3, h4, h5, h6, h7, h8, h9, h10, h11, h12, h13, h14, h15, h16⟩ := State.requestNext_spec s n { c.swapIn with state := .running }
  refine ⟨k, o, ?_, h1, ?_, ?_, ?_, ?_, ?_, ?_, ?_⟩
  · simp only [State.showStaged, State.modLane_setLane]; exact h
  · rw [h2, hsw, Lane.makeCurrent_eq]; rfl
  · rw [h3, hsw, Lane.makeCurrent_eq]; rfl
  · rw [h4, hsw, Lane.makeCurrent_eq]; exact ⟨_, rfl, rfl, rfl, rfl⟩
  · rw [h5, hsw, Lane.makeCurrent_eq]; rfl
  · rw [h6, hsw, Lane.makeCurrent_eq]; rfl
  · rw [h16, hsw, Lane.makeCurrent_eq]; rfl
  · rw [h9, hsw, Lane.makeCurrent_eq]; rfl

/-! ### The disposal of a finished line (R81 step 2) -/

theorem State.dispose_blank {r : LineRef} (h : l.current = some r) (hr : r.row = none) :
    (s.setLane n l).dispose n = s.setLane n { l with held := false } := by
  simp [State.dispose, h, hr]

theorem State.dispose_store {r : LineRef} {row : RowId} (h : l.current = some r) (hr : r.row = some row)
    (ht : l.tag = .empty) :
    (s.setLane n l).dispose n = (s.setLane n { l with
        active := l.staging
        staging := l.active
        tag := .pending r
        held := false
        slot := some { work := .store row r.span, waitLimit := l.setup.waitLimit, state := .waiting } }).raise := by
  simp [State.dispose, h, hr, ht]

theorem State.dispose_hold {r : LineRef} {row : RowId} (h : l.current = some r) (hr : r.row = some row)
    (ht : l.tag ≠ .empty) :
    (s.setLane n l).dispose n = s.setLane n { l with held := true } := by
  cases hl : l.tag with
  | empty => exact absurd hl ht
  | pending x => simp [State.dispose, h, hr, hl]
  | full x g => simp [State.dispose, h, hr, hl]

/-! ### Events at a lane -/

theorem State.lanePost_events (s : State) (n : LaneId) (l : Lane) (k : EventKind) (r : Option RowId) (c : Option Half)
    (w : Option Cause) :
    ((s.setLane n l).lanePost n k r c w).events =
      (s.post { kind := k, source := .party (.lane n), row := r, count := c, cause := w }).events := by
  exact (State.post_congr (s.setLane n l) s _ ⟨rfl, rfl, rfl⟩).1

/-- The immediate stop, and what it cancels (R90). -/
theorem State.immediateStop_spec (s : State) (n : LaneId) (l : Lane) :
    let t := (s.setLane n l).immediateStop n
    t.lane n = ({ l with slot := none } : Lane).abandon.enterIdle ∧ t.events = s.events ∧
    t.eventCounter = s.eventCounter ∧ t.occasion = s.occasion ∧
    t.array = match l.slot with
      | some q => if q.state.isActive then (s.cancelDelivery (.lane n)).array else s.array
      | none => s.array := by
  unfold State.immediateStop State.withdrawSlot
  simp only [State.setLane_lane, if_true]
  cases h : l.slot with
  | none => simp
  | some q =>
    by_cases ha : q.state.isActive
    · simp only [ha, if_true]
      have hc : ∀ m : Lane, (s.setLane n m).cancelDelivery (.lane n) = (s.cancelDelivery (.lane n)).setLane n m := by
        intro m
        simp only [State.cancelDelivery]
        have : (s.setLane n m).array = s.array := rfl
        rw [this]
        split
        · split <;> rfl
        · rfl
      have e := State.cancelDelivery_frame s (.lane n)
      simp only [State.modLane_setLane, hc, State.setLane_lane, if_true]
      refine ⟨trivial, ?_, ?_, ?_, rfl⟩
      · show (s.cancelDelivery (.lane n)).events = _
        rw [e]
      · show (s.cancelDelivery (.lane n)).eventCounter = _
        rw [e]
      · show (s.cancelDelivery (.lane n)).occasion = _
        rw [e]
    · simp [ha]

/-! ### The row lists in the words of Safety.lean (R101 to R106, R109) -/

theorem Staging.fallen_eq (k : Nat) (t : Staging) : t.fallen k = t.renumber k := by cases t <;> rfl

theorem positionAfter_eq (l : RowList) (mode : ListMode) (p : Position) :
    positionAfter l.entries mode p = l.successor mode p := by
  unfold positionAfter RowList.successor
  cases l.entries[p.entry]? with
  | none => rfl
  | some e =>
    dsimp only
    split
    · rfl
    · split
      · rfl
      · cases mode <;> rfl

/-- What a move of the show position makes of a lane, in the words of the row lists (R103, R106). -/
theorem Lane.moveShow_listAfter (l : Lane) (p : Position) (b : Bool) :
    l.moveShow p b = { l with
      tag := l.tag.fallen (l.retires p), current := l.current.map (LineRef.fallen (l.retires p))
      follow := l.follow.map (LineRef.fallen (l.retires p)), list := l.listAfter p l.list.fetch b } := by
  rw [Lane.moveShow_eq, Staging.fallen_eq]
  rfl

theorem Lane.restartsAt_eq (l : Lane) : l.restartsAt = l.restart := by
  unfold Lane.restartsAt Lane.restart
  simp only [positionAfter_eq]

theorem Lane.rollBack_eq (l : Lane) : l.rollBack = { l with
      tag := l.tag.fallen (l.retires l.restartsAt), current := l.current.map (LineRef.fallen (l.retires l.restartsAt))
      follow := l.follow.map (LineRef.fallen (l.retires l.restartsAt)), list := l.rolledBack } := by
  unfold Lane.rollBack
  dsimp only
  rw [Lane.moveShow_listAfter, ← Lane.restartsAt_eq]
  rfl

theorem Lane.enterIdle_eq (l : Lane) : l.enterIdle = { l with
      state := .idle, stopPending := false, follow := none, drain := none,
      tag := l.tag.fallen (l.retires l.restartsAt), current := l.current.map (LineRef.fallen (l.retires l.restartsAt))
      list := l.rolledBack } := by
  unfold Lane.enterIdle
  rw [Lane.rollBack_eq]
  rfl

theorem Lane.makeCurrent_listAfter (l : Lane) (r : LineRef) :
    l.makeCurrent r =
      let p : Position := { entry := r.entry, rep := r.rep }
      { l with
        current := some (r.fallen (l.retires p)), pointer := r.span.tap, count := 0
        tag := l.tag.fallen (l.retires p)
        follow := l.follow.map (LineRef.fallen (l.retires p)), list := l.listAfter p l.list.fetch true } := by
  unfold Lane.makeCurrent
  rw [Lane.moveShow_listAfter]
  rfl

theorem Lane.showsNext_eq (l : Lane) (h : l.setup.direction = .out) : l.nextShown = l.showsNext := by
  unfold Lane.nextShown Lane.showsNext
  rw [h]
  cases l.tag <;> rfl

theorem Lane.showsNext_into (l : Lane) (h : l.setup.direction = .into) : l.nextShown = l.list.fetch := by
  unfold Lane.nextShown
  rw [h]

/-! ### Requests and stops, with what they leave -/

/-- What a request for the next line leaves of its lane, and what follows it (R76). -/
theorem State.requestNext_asked (s : State) (n : LaneId) (l : Lane) :
    ∃ (k : Lane) (o : Bool), (s.setLane n l).requestNext n = { s.setLane n k with occasion := o } ∧
      (∀ u : State, u.lane n = k → u.occasion = o → u.AskedAt n l.list.fetch l.slot) ∧
      k = { l with tag := k.tag, slot := k.slot, staging := k.staging, list := { l.list with fetch := k.list.fetch } } ∧
      (s.occasion = true → o = true) := by
  have hline : ∀ r, l.nextLine = r → l.list.lineAt l.list.fetch = r := fun _ h => h
  have hent : ∀ (a b : RowList), a.entries = b.entries → ∀ p, a.lineAt p = b.lineAt p := by
    intro a b h p; unfold RowList.lineAt; rw [h]
  cases h : l.nextLine with
  | none =>
    refine ⟨{ l with tag := .empty }, (s.setLane n l).occasion, by rw [State.requestNext_none h]; rfl, ?_, rfl, id⟩
    rintro u hu ho
    unfold State.AskedAt
    dsimp only
    rw [hu]
    simp only [hline _ h, and_self]
  | some r =>
    cases hr : r.row with
    | some row =>
      refine ⟨_, true, State.requestNext_row h hr, ?_, rfl, fun _ => rfl⟩
      rintro u hu ho
      unfold State.AskedAt
      dsimp only
      rw [hu]
      have : (l.advanceFetch.list).lineAt l.list.fetch = some r := (hent _ l.list rfl _).trans (hline _ h)
      simp only [this, hr, ho, true_and]
      refine ⟨?_, rfl⟩
      show l.list.successor _ _ = _
      exact (positionAfter_eq l.list _ _).symm
    | none =>
      refine ⟨{ l.advanceFetch with tag := .full r none, staging := blankLine l.setup.fill },
        (s.setLane n l).occasion, by rw [State.requestNext_blank h hr]; rfl, ?_, rfl, id⟩
      rintro u hu ho
      unfold State.AskedAt
      dsimp only
      rw [hu]
      have : (l.advanceFetch.list).lineAt l.list.fetch = some r := (hent _ l.list rfl _).trans (hline _ h)
      simp only [this, hr, true_and]
      refine ⟨?_, rfl, fun k hk => by simp [blankLine, hk, Lane.advanceFetch]⟩
      show l.list.successor _ _ = _
      exact (positionAfter_eq l.list _ _).symm

/-- The swap at an OUT lane: the staged line is current, and the next is asked for (R68, R78). -/
theorem State.showStaged_asked (s : State) (n : LaneId) (c : Lane) (x : LineRef) (g : Option Half) (ht : c.tag = .full x g) :
    let p : Position := { entry := x.entry, rep := x.rep }
    let m := c.retires p
    ∃ (k : Lane) (o : Bool), (s.setLane n c).showStaged n = { s.setLane n k with occasion := o } ∧
      (∀ u : State, u.lane n = k → u.occasion = o → u.AskedAt n (c.list.fetch.fallen m) c.slot) ∧
      k = { c with state := .running, active := c.staging, current := some (x.fallen m), pointer := x.span.tap,
                   count := 0, follow := c.follow.map (LineRef.fallen m)
                   list := { c.listAfter p c.list.fetch true with fetch := k.list.fetch }
                   tag := k.tag, slot := k.slot, staging := k.staging } ∧ (s.occasion = true → o = true) := by
  intro p m
  have hsw : c.swapIn = ({ c with active := c.staging, staging := c.active, tag := .empty } : Lane).makeCurrent x := by
    simp [Lane.swapIn, ht]
  rw [Lane.makeCurrent_listAfter] at hsw
  obtain ⟨k, o, h1, h2, h3, h4⟩ := State.requestNext_asked s n { c.swapIn with state := .running }
  refine ⟨k, o, ?_, ?_, ?_, h4⟩
  · simp only [State.showStaged, State.modLane_setLane]; exact h1
  · rw [hsw] at h2; exact h2
  · rw [h3, hsw]; rfl

/-- A post leaves the lanes alone, so that the two commute. -/
theorem State.setLane_post (v : State) (n : LaneId) (w : Lane) (p : Post) : (v.setLane n w).post p = (v.post p).setLane n w := by
  unfold State.post
  have h1 : (v.setLane n w).events = v.events := rfl
  rw [h1]
  split
  · rfl
  · split <;> rfl

/-- The swap of an OUT lane, in the words of the row lists (R68, R78). -/
theorem Lane.swapIn_listAfter (l : Lane) (x : LineRef) (g : Option Half) (ht : l.tag = .full x g) :
    let p : Position := { entry := x.entry, rep := x.rep }
    l.swapIn = { l with
      active := l.staging, staging := l.active, tag := .empty, current := some (x.fallen (l.retires p)), pointer := x.span.tap, count := 0
      follow := l.follow.map (LineRef.fallen (l.retires p)), list := l.listAfter p l.list.fetch true } := by
  intro p
  have : l.swapIn = ({ l with active := l.staging, staging := l.active, tag := .empty } : Lane).makeCurrent x := by
    simp [Lane.swapIn, ht]
  rw [this, Lane.makeCurrent_listAfter]; rfl

/-- The priming completion (R87). -/
theorem State.staged_priming (s : State) (n : LaneId) (l : Lane) (x : LineRef) (g : Option Half) (ht : l.tag = .full x g)
    (hst : l.state = .priming) :
    let p : Position := { entry := x.entry, rep := x.rep }
    let m := l.retires p
    ∃ (k : Lane) (o : Bool), (s.setLane n l).staged n = { s.setLane n k with occasion := o } ∧
      (∀ u : State, u.lane n = k → u.occasion = o → u.AskedAt n (l.list.fetch.fallen m) l.slot) ∧
      k = { l with state := if l.startMode = some .armed then .armed else .running
                   active := l.staging, current := some (x.fallen m), pointer := x.span.tap, count := 0,
                   follow := l.follow.map (LineRef.fallen m)
                   list := { l.listAfter p l.list.fetch true with fetch := k.list.fetch }
                   tag := k.tag, slot := k.slot, staging := k.staging } := by
  intro p m
  obtain ⟨z, o, h1, h2, h3, -⟩ := State.requestNext_asked s n l.swapIn
  rw [Lane.swapIn_listAfter l x g ht] at h2 h3
  have e : (s.setLane n l).staged n = { s.setLane n { z with state := if l.startMode = some .armed then .armed else .running } with occasion := o } := by
    unfold State.staged
    rw [State.setLane_lane, if_pos rfl, hst]
    simp only [State.endPriming, State.modLane_setLane]
    rw [h1]
    have : ({ s.setLane n z with occasion := o } : State).modLane n (fun l => { l with state := if l.startMode = some .armed then .armed else .running }) = { (s.setLane n z).modLane n (fun l => { l with state := if l.startMode = some .armed then .armed else .running }) with occasion := o } := rfl
    rw [this, State.modLane_setLane]
    have : z.startMode = l.startMode := by rw [h3]
    rw [this]
  refine ⟨_, o, e, fun u hu ho => ?_, ?_⟩
  · have := h2 { s.setLane n z with occasion := o } (by show (s.setLane n z).lane n = z; simp) rfl
    have hz : State.lane { s.setLane n z with occasion := o } n = z := by show (s.setLane n z).lane n = z; simp
    unfold State.AskedAt at this ⊢
    rw [hz] at this
    rw [hu, ho]
    exact this
  · conv_lhs => rw [h3]

/-- The end of a STARVED episode (R79). -/
theorem State.staged_starved (s : State) (n : LaneId) (l : Lane) (x : LineRef) (g : Option Half) (ht : l.tag = .full x g)
    (hst : l.state = .starved) :
    let p : Position := { entry := x.entry, rep := x.rep }
    let m := l.retires p
    ∃ (k : Lane) (o : Bool), (s.setLane n l).staged n = { (s.post { kind := .lineStarved, source := .party (.lane n), row := x.row, count := some l.episode }).setLane n k with occasion := o } ∧
      (∀ u : State, u.lane n = k → u.occasion = o → u.AskedAt n (l.list.fetch.fallen m) l.slot) ∧
      k = { l with state := .running
                   active := l.staging, current := some (x.fallen m), pointer := x.span.tap, count := 0,
                   follow := l.follow.map (LineRef.fallen m)
                   list := { l.listAfter p l.list.fetch true with fetch := k.list.fetch }
                   tag := k.tag, slot := k.slot, staging := k.staging } := by
  intro p m
  obtain ⟨z, o, h1, h2, h3, -⟩ := State.requestNext_asked (s.post { kind := .lineStarved, source := .party (.lane n), row := x.row, count := some l.episode }) n { l.swapIn with state := .running }
  rw [Lane.swapIn_listAfter l x g ht] at h2 h3
  refine ⟨z, o, ?_, h2, h3⟩
  unfold State.staged
  rw [State.setLane_lane, if_pos rfl, hst]
  unfold State.endStarved State.lanePost
  simp only [State.modLane_setLane, State.setLane_lane, if_true, ht, Staging.line, Option.bind_some, State.setLane_post]
  exact h1

/-- A lane gives up its request (R63, R5). -/
theorem State.withdrawSlot_eq (s : State) (n : LaneId) :
    s.withdrawSlot n = { s.setLane n { s.lane n with slot := none } with array := s.givenUp n } := by
  unfold State.withdrawSlot State.givenUp State.cancelDelivery
  cases h : (s.lane n).slot with
  | none => rfl
  | some q =>
    cases hq : q.state <;> rcases hs : s.array with _ | r | x <;>
      first
        | (by_cases hx : x.requester = .lane n <;>
            simp [RequestState.isActive, hq, hs, hx, State.modLane] <;> simp [← hs, State.setLane])
        | (simp [RequestState.isActive, hq, hs, State.modLane]; simp [← hs, State.setLane])

/-- The immediate stop in full (R90, R63). -/
theorem State.immediateStop_eq (s : State) (n : LaneId) :
    s.immediateStop n = { s.setLane n (s.lane n).stopped with array := s.givenUp n } := by
  have hs : ({ s.lane n with slot := none } : Lane).abandon.enterIdle = (s.lane n).stopped := by
    rw [Lane.enterIdle_eq]; rfl
  have hm : ∀ (v : State) (o : Option Operation) (f : Lane → Lane),
      ({ v with array := o } : State).modLane n f = { v.modLane n f with array := o } := fun _ _ _ => rfl
  unfold State.immediateStop
  rw [State.withdrawSlot_eq, hm, State.modLane_setLane, hs]

/-! ### Of the events at a lane, a stop and a reset alone touch the operation in flight -/

section

variable (s : State) (n : LaneId)

theorem State.requestNext_array : (s.requestNext n).array = s.array := by
  unfold State.requestNext; dsimp only; split
  · rfl
  · split <;> rfl

theorem State.laneDone_array : (s.laneDone n).array = s.array := State.lanePost_array _ _ _ _ _ _

theorem State.staged_array : (s.staged n).array = s.array := by
  unfold State.staged; split
  · exact State.requestNext_array _ _
  · exact (State.requestNext_array _ _).trans (State.lanePost_array _ _ _ _ _ _)
  · rfl

theorem State.afterSkip_array : (s.afterSkip n).array = s.array := by
  unfold State.afterSkip; dsimp only; split
  · exact (State.staged_array _ _).trans (State.requestNext_array _ _)
  · exact (State.laneDone_array _ _).trans (State.requestNext_array _ _)
  · exact (State.laneDone_array _ _).trans (State.requestNext_array _ _)
  · exact State.requestNext_array _ _

theorem State.dispose_array : (s.dispose n).array = s.array := by
  unfold State.dispose; dsimp only; split
  · rfl
  · split <;> rfl

theorem State.disposeHeld_array : (s.disposeHeld n).array = s.array := by
  unfold State.disposeHeld; split
  · exact State.dispose_array _ _
  · rfl

theorem State.endDrain_array : (s.endDrain n).array = s.array := by
  unfold State.endDrain; split
  · split
    · exact State.laneDone_array _ _
    · rfl
  · rfl

theorem State.freeStaging_array (row : RowId) : (s.freeStaging n row).array = s.array := by
  unfold State.freeStaging; dsimp only; split
  · exact (State.lanePost_array _ _ _ _ _ _).trans (State.disposeHeld_array _ _)
  · exact (State.endDrain_array _ _).trans (State.disposeHeld_array _ _)
  · exact State.disposeHeld_array _ _
  · rfl

theorem State.refuseSlot_array : (s.refuseSlot n).array = s.array := by
  unfold State.refuseSlot; split
  · rfl
  · dsimp only; split
    · exact State.lanePost_array _ _ _ _ _ _
    · unfold State.skipLane; dsimp only; split
      · exact (State.afterSkip_array _ _).trans (State.lanePost_array _ _ _ _ _ _)
      · exact (State.freeStaging_array _ _ _).trans (State.lanePost_array _ _ _ _ _ _)

end

end Sys2Proof.Machine
end

