-- ==== Sys2Proof/Laws/PerInstr.lean ====
section
/-! SUPPORT. What is said of every command, one lemma per constructor: the code of a frame that carries it is one of the
command codes (R139 step 3, R176). -/

namespace Sys2Proof.Laws

set_option Elab.async false

/-- The code a command's frame carries is the code of a command of the manual. -/
def KnownCode.Statement (i : Instr) : Prop := ∀ x, commandFields i = some x → x.2.2.1 ∈ knownCodes

/-- A command that a frame of this code carries. -/
theorem KnownCode.of_code {i : Instr} {c : Ctl} {tag code : Byte} {ps : List Byte}
    (h : commandFields i = some (c, tag, code, ps)) (known : code ∈ knownCodes) : KnownCode.Statement i := by
  intro x hx
  rw [h] at hx
  cases hx
  exact known

/-- A command that no frame carries. -/
theorem KnownCode.of_none {i : Instr} (h : commandFields i = none) : KnownCode.Statement i := by
  intro x hx
  rw [h] at hx
  cases hx

theorem KnownCode.hardReset :
    KnownCode.Statement .hardReset := KnownCode.of_none rfl

theorem KnownCode.resetnRise (straps : Fin 8) :
    KnownCode.Statement (.resetnRise straps) := KnownCode.of_none rfl

theorem KnownCode.sweepOperationCompletion :
    KnownCode.Statement .sweepOperationCompletion := KnownCode.of_none rfl

theorem KnownCode.refreshTick :
    KnownCode.Statement .refreshTick := KnownCode.of_none rfl

theorem KnownCode.millisecondTick :
    KnownCode.Statement .millisecondTick := KnownCode.of_none rfl

theorem KnownCode.requestRefusal (who : RefusalTarget) :
    KnownCode.Statement (.requestRefusal who) := KnownCode.of_none rfl

theorem KnownCode.leaseTick :
    KnownCode.Statement .leaseTick := KnownCode.of_none rfl

theorem KnownCode.claimExpiry :
    KnownCode.Statement .claimExpiry := KnownCode.of_none rfl

theorem KnownCode.loadCompletion :
    KnownCode.Statement .loadCompletion := KnownCode.of_none rfl

theorem KnownCode.storeCompletion :
    KnownCode.Statement .storeCompletion := KnownCode.of_none rfl

theorem KnownCode.cstoreCompletion :
    KnownCode.Statement .cstoreCompletion := KnownCode.of_none rfl

theorem KnownCode.fillCompletion :
    KnownCode.Statement .fillCompletion := KnownCode.of_none rfl

theorem KnownCode.copyCompletion :
    KnownCode.Statement .copyCompletion := KnownCode.of_none rfl

theorem KnownCode.refreshCompletion :
    KnownCode.Statement .refreshCompletion := KnownCode.of_none rfl

theorem KnownCode.outLaneClockEdge (n : LaneId) :
    KnownCode.Statement (.outLaneClockEdge n) := KnownCode.of_none rfl

theorem KnownCode.inLaneClockEdge (n : LaneId) (ld : Byte) :
    KnownCode.Statement (.inLaneClockEdge n ld) := KnownCode.of_none rfl

theorem KnownCode.laneClockEdgeOutsideRunning (n : LaneId) :
    KnownCode.Statement (.laneClockEdgeOutsideRunning n) := KnownCode.of_none rfl

theorem KnownCode.identify (c : Ctl) (tag : Byte) :
    KnownCode.Statement (.identify c tag) := KnownCode.of_code rfl (by decide)

theorem KnownCode.signOn (c : Ctl) (tag : Byte) (takeover : Byte) :
    KnownCode.Statement (.signOn c tag takeover) := KnownCode.of_code rfl (by decide)

theorem KnownCode.signOff (c : Ctl) (tag : Byte) :
    KnownCode.Statement (.signOff c tag) := KnownCode.of_code rfl (by decide)

theorem KnownCode.resetPart (c : Ctl) (tag : Byte) :
    KnownCode.Statement (.resetPart c tag) := KnownCode.of_code rfl (by decide)

theorem KnownCode.groupEnable (c : Ctl) (tag : Byte) (flag : Byte) :
    KnownCode.Statement (.groupEnable c tag flag) := KnownCode.of_code rfl (by decide)

theorem KnownCode.putBuffer (c : Ctl) (tag : Byte) (offset : Byte) (data : List Byte) :
    KnownCode.Statement (.putBuffer c tag offset data) := KnownCode.of_code rfl (by decide)

theorem KnownCode.getBuffer (c : Ctl) (tag : Byte) (offset length : Byte) :
    KnownCode.Statement (.getBuffer c tag offset length) := KnownCode.of_code rfl (by decide)

theorem KnownCode.rowInfo (c : Ctl) (tag : Byte) (first : Half) (count : Byte) :
    KnownCode.Statement (.rowInfo c tag first count) := KnownCode.of_code rfl (by decide)

theorem KnownCode.load (c : Ctl) (tag : Byte) (row : Half) (notify wait : Byte) :
    KnownCode.Statement (.load c tag row notify wait) := KnownCode.of_code rfl (by decide)

theorem KnownCode.store (c : Ctl) (tag : Byte) (row : Half) (tap span notify wait : Byte) :
    KnownCode.Statement (.store c tag row tap span notify wait) := KnownCode.of_code rfl (by decide)

theorem KnownCode.cstore (c : Ctl) (tag : Byte) (row : Half) (tap span : Byte) (expected : Half) (notify wait : Byte) :
    KnownCode.Statement (.cstore c tag row tap span expected notify wait) := KnownCode.of_code rfl (by decide)

theorem KnownCode.fill (c : Ctl) (tag : Byte) (row : Half) (tap span value notify wait : Byte) :
    KnownCode.Statement (.fill c tag row tap span value notify wait) := KnownCode.of_code rfl (by decide)

theorem KnownCode.copy (c : Ctl) (tag : Byte) (source destination : Half) (tap span notify wait : Byte) :
    KnownCode.Statement (.copy c tag source destination tap span notify wait) := KnownCode.of_code rfl (by decide)

theorem KnownCode.cancel (c : Ctl) (tag : Byte) (ticket : Half) :
    KnownCode.Statement (.cancel c tag ticket) := KnownCode.of_code rfl (by decide)

theorem KnownCode.queryTicket (c : Ctl) (tag : Byte) (ticket : Half) :
    KnownCode.Statement (.queryTicket c tag ticket) := KnownCode.of_code rfl (by decide)

theorem KnownCode.claim (c : Ctl) (tag : Byte) (holder kind : Byte) (first count lease : Half) :
    KnownCode.Statement (.claim c tag holder kind first count lease) := KnownCode.of_code rfl (by decide)

theorem KnownCode.release (c : Ctl) (tag : Byte) (id : Byte) :
    KnownCode.Statement (.release c tag id) := KnownCode.of_code rfl (by decide)

theorem KnownCode.renew (c : Ctl) (tag : Byte) (id : Byte) (lease : Half) :
    KnownCode.Statement (.renew c tag id lease) := KnownCode.of_code rfl (by decide)

theorem KnownCode.listClaims (c : Ctl) (tag : Byte) (startId maximum : Byte) :
    KnownCode.Statement (.listClaims c tag startId maximum) := KnownCode.of_code rfl (by decide)

theorem KnownCode.laneSetup (c : Ctl) (tag : Byte) (lane direction fill policy mode wait : Byte) :
    KnownCode.Statement (.laneSetup c tag lane direction fill policy mode wait) := KnownCode.of_code rfl (by decide)

theorem KnownCode.laneStart (c : Ctl) (tag : Byte) (lane mode : Byte) :
    KnownCode.Statement (.laneStart c tag lane mode) := KnownCode.of_code rfl (by decide)

theorem KnownCode.laneStop (c : Ctl) (tag : Byte) (lane mode : Byte) :
    KnownCode.Statement (.laneStop c tag lane mode) := KnownCode.of_code rfl (by decide)

theorem KnownCode.laneResume (c : Ctl) (tag : Byte) (lane : Byte) :
    KnownCode.Statement (.laneResume c tag lane) := KnownCode.of_code rfl (by decide)

theorem KnownCode.laneReset (c : Ctl) (tag : Byte) (lane : Byte) :
    KnownCode.Statement (.laneReset c tag lane) := KnownCode.of_code rfl (by decide)

theorem KnownCode.laneStatus (c : Ctl) (tag : Byte) (lane : Byte) :
    KnownCode.Statement (.laneStatus c tag lane) := KnownCode.of_code rfl (by decide)

theorem KnownCode.listAppend (c : Ctl) (tag : Byte) (lane : Byte) (entries : List RawEntry) :
    KnownCode.Statement (.listAppend c tag lane entries) := KnownCode.of_code rfl (by decide)

theorem KnownCode.listTrim (c : Ctl) (tag : Byte) (lane maximum : Byte) :
    KnownCode.Statement (.listTrim c tag lane maximum) := KnownCode.of_code rfl (by decide)

theorem KnownCode.listClear (c : Ctl) (tag : Byte) (lane : Byte) :
    KnownCode.Statement (.listClear c tag lane) := KnownCode.of_code rfl (by decide)

theorem KnownCode.listRead (c : Ctl) (tag : Byte) (lane start maximum : Byte) :
    KnownCode.Statement (.listRead c tag lane start maximum) := KnownCode.of_code rfl (by decide)

theorem KnownCode.takeEvents (c : Ctl) (tag : Byte) (maximum : Byte) :
    KnownCode.Statement (.takeEvents c tag maximum) := KnownCode.of_code rfl (by decide)

theorem KnownCode.peekEvents (c : Ctl) (tag : Byte) (maximum : Byte) :
    KnownCode.Statement (.peekEvents c tag maximum) := KnownCode.of_code rfl (by decide)

theorem KnownCode.setAttention (c : Ctl) (tag : Byte) (mask : Half) :
    KnownCode.Statement (.setAttention c tag mask) := KnownCode.of_code rfl (by decide)

theorem KnownCode.refusedFrame (verdict : Verdict) (bytes : List Byte) :
    KnownCode.Statement (.refusedFrame verdict bytes) := KnownCode.of_none rfl

theorem KnownCode.start (unacknowledged : Bool) :
    KnownCode.Statement (.start unacknowledged) := KnownCode.of_none rfl

theorem KnownCode.addressByte (b : Byte) :
    KnownCode.Statement (.addressByte b) := KnownCode.of_none rfl

theorem KnownCode.stop (unacknowledged : Bool) :
    KnownCode.Statement (.stop unacknowledged) := KnownCode.of_none rfl

theorem KnownCode.readPhaseEnd (how : ReadEnd) :
    KnownCode.Statement (.readPhaseEnd how) := KnownCode.of_none rfl

theorem KnownCode.busError (condition : Condition) (bits : Nat) :
    KnownCode.Statement (.busError condition bits) := KnownCode.of_none rfl

theorem KnownCode.groupStart (mask : Byte) :
    KnownCode.Statement (.groupStart mask) := KnownCode.of_none rfl

theorem KnownCode.groupHalt (mask : Byte) :
    KnownCode.Statement (.groupHalt mask) := KnownCode.of_none rfl

theorem KnownCode.writePhaseByte (b : Byte) :
    KnownCode.Statement (.writePhaseByte b) := KnownCode.of_none rfl

theorem KnownCode.groupPhaseByte (b : Byte) :
    KnownCode.Statement (.groupPhaseByte b) := KnownCode.of_none rfl

theorem KnownCode.readByteAcknowledge :
    KnownCode.Statement .readByteAcknowledge := KnownCode.of_none rfl

end Sys2Proof.Laws
end

