-- ==== Sys2Proof/Tests/Slice0.lean ====
section
/-! SUPPORT. Tests with expected values from the spec's examples and tables, and for every obligation with hypotheses a
state and operands that meet them. -/

namespace Sys2Proof.Tests

set_option Elab.async false

open Sys2Proof.Machine

/-! ### Helpers -/

/-- An OPERATING part in which C0 holds a session with tag 0x5A. -/
def part : State :=
  { State.reset with resetnLow := false, partState := .operating, swept := 512
                     sessions := (State.reset.setSession 0 (some 0x5A)).sessions }

/-- A part whose engine executes the frame of a command. -/
def frame (i : Instr) (s : State) : State :=
  { s with engine := .executing { verdict := .good, bytes := (frameOf i).getD [] } false }

/-- A command is the one executed, in C0's session. -/
abbrev Ready (i : Instr) (s : State) : Prop := s.executes i = true ∧ s.session 0 = some 0x5A

/-- The next state of an outcome. -/
def after : Outcome → Option State
  | .next t => some t
  | _ => none

/-- The result the engine holds after an outcome. -/
def result (o : Outcome) : Option Result :=
  match after o with
  | some t => match t.engine with
    | .holding r => some r
    | _ => none
  | none => none

/-- The result of a command's frame. -/
def replyTo (i : Instr) (s : State) : Option Result := result (exec i (frame i s))

/-- A whole row of entry index `e`, repeat index 0. -/
def line (e : Nat) (row : Option RowId) (sp : Span) : LineRef := { entry := e, rep := 0, row, span := sp }

/-- An entry of one line. -/
def entry (row : Option RowId) (sp : Span) (pause : Bool) : Entry := { row, span := sp, repeats := 1, pause }

/-- A ONCE list of two rows at its first line. -/
def twoRows : RowList :=
  { entries := [entry (some 40) Span.whole false, entry (some 41) Span.whole false], fetch := { entry := 0, rep := 0 }
    shown := { entry := 0, rep := 0 }, showing := false }

/-- An OUT lane in a state, with its setup at its defaults. -/
def outLane (state : LaneState) : Lane := { Lane.off with state }

/-- An IN lane in a state. -/
def inLane (state : LaneState) : Lane :=
  { Lane.off with state, setup := { LaneSetup.default with direction := .into } }

/-- The part with a lane L0. -/
def withLane (l : Lane) : State := part.setLane 0 l

/-- A request of C0. -/
def queued (ticket : Half) (w : Work) (state : RequestState) : QueueRequest :=
  { ticket, ctl := 0, work := w, notify := true, waitLimit := 1, state }

/-- The part with an operation in flight. -/
def withTransfer (x : Transfer) : State := { part with array := some (.transfer x) }

/-- An operation in flight. -/
def flight (w : Work) (p : Party) (ticket : Option Half) : Transfer :=
  { work := w, requester := p, ticket, latched := [], startGeneration := 65535, matched := true, discard := false,
    softReset := false }

/-! ### Well-formed commands: an ill-formed term for each check -/

theorem test_putBuffer_needs_data : Instr.wellFormed (.putBuffer 0 1 0 []) = false := by decide

theorem test_putBuffer_at_most_32 : Instr.wellFormed (.putBuffer 0 1 0 (List.replicate 33 7)) = false := by decide

theorem test_listAppend_needs_entries : Instr.wellFormed (.listAppend 0 1 0 []) = false := by decide

theorem test_listAppend_at_most_four :
    Instr.wellFormed (.listAppend 0 1 0 (List.replicate 5 ⟨0, 0, 1, 1, 0⟩)) = false := by decide

theorem test_refusedFrame_not_a_command :
    Instr.wellFormed (.refusedFrame .good [0x00, 0x00, 0x01, 0x7A]) = false := by decide +kernel

theorem test_refusedFrame_verdict_fits : Instr.wellFormed (.refusedFrame .good [0x00, 0x00, 0x01]) = false := by
  decide +kernel

theorem test_refusedFrame_short : Instr.wellFormed (.refusedFrame .short [0x00, 0x00, 0x01]) = true := by
  decide +kernel

theorem test_busError_bits_above_0 : Instr.wellFormed (.busError .start 0) = false := by decide

theorem test_busError_bits_below_8 : Instr.wellFormed (.busError .stop 8) = false := by decide

/-! ### Check values and frames (Tables 8-1, R173, R176) -/

/-- Table 8-1. -/
theorem test_check_value_identify : checkValue [0x00, 0x00, 0x01] = 0x7A := by decide +kernel

/-- R173: the check value of 0x70 and 0x03 is 0xE9. -/
theorem test_check_value_group : groupFrameOf 0x70 0x03 = [0x70, 0x03, 0xE9] := by decide +kernel

/-- R176: the frame of IDENTIFY from C0 with tag byte 0x00. -/
theorem test_identify_frame : readFrame .good [0x00, 0x00, 0x01, 0x7A] = .identify 0 0x00 := by decide +kernel

/-- R47, R176: FILL of row 300, tap 120, span 16, value 9, notify set, wait limit 5, by C3; bytes by position. -/
theorem test_fill_frame :
    (frameOf (.fill 3 0x5A 300 120 16 9 1 5)).map List.dropLast =
      some [0x03, 0x5A, 0x33, 0x01, 0x2C, 120, 16, 9, 1, 5] := by decide +kernel

/-- R27: CLAIM of rows 300 to 303, SOLE, lease 500, by C3. -/
theorem test_claim_frame :
    readFrame .good [0x03, 0x5A, 0x40, 0x00, 0x01, 0x01, 0x2C, 0x00, 0x04, 0x01, 0xF4, 0x00] =
      .claim 3 0x5A 0 1 300 4 500 := by decide +kernel

/-- R111: LIST APPEND of one blank entry to L2. -/
theorem test_list_append_frame :
    readFrame .good [0x00, 0x5A, 0x58, 0x02, 0x01, 0xFF, 0xFF, 0x00, 0x80, 0x02, 0x01, 0x00] =
      .listAppend 0 0x5A 2 [{ row := 0xFFFF, tap := 0, span := 128, repeats := 2, pause := 1 }] := by decide +kernel

/-- No row of the table has bits, so no word spells a command. -/
theorem test_no_word_spells_a_command : decodeTableWord 8 0x30 = none ∧ part.withFetchWord 8 0x30 = part := by
  decide +kernel

/-! ### Admission (7.3.1) -/

/-- C3 in session with tag 0x5A, C5 ABSENT. -/
def admissionPart : State := part.setSession 3 (some 0x5A)

/-- The result of a delivered frame. -/
def delivered (v : Verdict) (bytes : List Byte) : Option Result :=
  let i := readFrame v bytes
  result (exec i { admissionPart with engine := .executing { verdict := v, bytes } false })

/-- Frames 1 to 8 of 7.3.1, by their verdicts. -/
theorem test_admission_of_eight_frames :
    (delivered .checkFailed [3, 0x5A, 0x55, 2, 0]).map (·.status) = some .checkError ∧
    (delivered .good [0x0B, 0x5A, 0x55, 2, 0]).map (·.status) = some .badFrame ∧
    (delivered .good [3, 0x5A, 0x7F, 0]).map (·.status) = some .unknownCommand ∧
    (delivered .good [5, 0x10, 0x55, 2, 2, 0]).map (·.status) = some .badParameter ∧
    (delivered .good [5, 0x10, 0x55, 2, 0]).map (·.status) = some .noSession ∧
    (delivered .good [3, 0x5B, 0x55, 2, 0]).map (·.status) = some .wrongTag ∧
    (delivered .good [3, 0x5A, 0x55, 9, 0]).map (·.status) = some .badParameter ∧
    (delivered .good [5, 0x10, 0x01, 0]).map (·.status) = some .ok := by decide +kernel

/-! ### Layouts of Chapter 9 -/

/-- 9.5.1: the CLAIM ENDED record. -/
theorem test_claim_ended_record :
    Event.layout { seq := 19, time := 1000, post := { kind := .claimEnded, source := .party (.ctl 3), row := some 300,
                                                      claimId := some 5, count := some 4, cause := some .expired } } =
      [0x00, 0x13, 0x08, 0x13, 0x03, 0xE8, 0x1D, 0x01, 0x2C, 0x05, 0x00, 0x04, 0x10] := by decide +kernel

/-- 9.7.1: the LIST READ body. -/
theorem test_list_read_body :
    listBody .once { entries := [entry (some 41) Span.whole false], fetch := { entry := 1, rep := 0 },
                     shown := { entry := 0, rep := 0 }, showing := false } 0 4 =
      [0x00, 0x01, 0x01, 0x00, 0x00, 0x00, 0x00, 0x01, 0x00, 0x00, 0x29, 0x00, 0x80, 0x01, 0x00] := by decide +kernel

/-- 9.3.1: the summary status. -/
theorem test_summary_status :
    State.summaryBody { part with
        events := [{ seq := 1, time := 0, post := { kind := .laneDone, source := .party (.lane 0) } },
                   { seq := 2, time := 0, post := { kind := .transferDone, source := .party (.ctl 1) } }]
        lanes := #v[outLane .running, outLane .starved, outLane .armed, .off]
        sessions := #v[none, some 1, none, none, some 2, none, none, none]
        queue := [queued 1 (.load 0) .waiting, queued 2 (.load 0) .waiting, queued 3 (.load 0) .waiting]
        groupEnable := true } =
      [0x01, 0x02, 0x01, 0x04, 0x05, 0x03, 0x00, 0x12, 0x03, 0x01] := by decide +kernel

/-- R149: the body of IDENTIFY on a part with straps 5. -/
theorem test_identify_body :
    replyTo (.identify 0 0) { part with port := Port.fresh 5 } =
      some ⟨.ok, [0x4A, 0x42, 0x02, 0x64, 0x41, 5, 0x02, 0x00, 128, 4, 8, 24, 12]⟩ := by decide +kernel

/-- Section 9.6: a lane in OFF. -/
theorem test_lane_status_off :
    replyTo (.laneStatus 0 0x5A 2) part = some ⟨.ok,
      [0, 0, 0, 0, 1, 0, 0, 0, 0] ++ List.replicate 12 0xFF ++ [0] ++ List.replicate 6 0xFF ++ [0, 0, 0, 0, 0, 0, 0]⟩ := by
  decide +kernel

/-! ### Positions (Table 5-1) -/

/-- Table 5-1: successors in a list of three entries with repeats 2, 1, 1. -/
theorem test_successors :
    let l : RowList := { RowList.empty with entries := [{ entry none Span.whole false with repeats := 2 },
                                                        entry none Span.whole false, entry none Span.whole false] }
    l.successor .once ⟨0, 0⟩ = ⟨0, 1⟩ ∧ l.successor .once ⟨0, 1⟩ = ⟨1, 0⟩ ∧ l.successor .once ⟨2, 0⟩ = ⟨3, 0⟩ ∧
    l.successor .cycle ⟨2, 0⟩ = ⟨0, 0⟩ := by decide +kernel

/-! ### Events (6.4.1, 6.6.1) -/

/-- An event record of a kind. -/
def event (seq : Half) (kind : EventKind) : Event := { seq, time := 0, post := { kind, source := .party (.lane 2) } }

/-- A queue of 30 records, the last with sequence number 130. -/
def thirty : State :=
  { part with events := (List.range 30).map fun k => event (BitVec.ofNat 16 (101 + k)) .lineLost, eventCounter := 130 }

/-- 6.4.1: the first four posts. -/
theorem test_queue_fills :
    let t := (List.replicate 4 { kind := .laneDone, source := .party (.lane 2) : Post }).foldl State.post thirty
    t.events.length = 32 ∧ t.eventCounter = 132 ∧ (t.events.getLast?.map fun e => (e.seq, e.post.kind, e.post.count)) =
      some (132, .eventsLost, some 3) := by decide +kernel

/-- 6.6.1: SET ATTENTION 0x0080 answers 0x0880 and releases ATTN over lane events. -/
theorem test_set_attention :
    let s := { part with events := [event 40 .lineStarved, event 41 .entrySkipped], eventCounter := 41 }
    let i : Instr := .setAttention 0 0x5A 0x0080
    s.attnLow = true ∧ replyTo i s = some ⟨.ok, [0x08, 0x80]⟩ ∧
    (after (exec i (frame i s))).map (·.attnLow) = some false := by decide +kernel

/-- 6.6.1: TAKE EVENTS 2 returns the two oldest records and says how many are held. -/
theorem test_take_events :
    let s := { part with events := [event 40 .lineStarved, event 41 .entrySkipped, event 42 .transferDone,
                                    event 43 .lineStarved] }
    let i : Instr := .takeEvents 0 0x5A 2
    ((replyTo i s).map fun r => r.body.take 4) = some [2, 2, 0, 40] ∧
    (after (exec i (frame i s))).map (fun t => t.events.map (·.seq)) = some [42, 43] := by decide +kernel

/-! ### Lanes (5.5.1) -/

/-- Lane L0 of 5.5.1: two lines of row 40, a blank line with the pause flag, one line of row 41. -/
def exampleList : RowList :=
  { entries := [{ entry (some 40) Span.whole false with repeats := 2 }, entry none Span.whole true,
                entry (some 41) Span.whole false]
    fetch := { entry := 0, rep := 0 }, shown := { entry := 0, rep := 0 }, showing := false }

/-- 5.5.1: LANE START NOW leaves PRIMING with line (0, 0) PENDING and the fetch position at (0, 1). -/
theorem test_lane_start_primes :
    let i : Instr := .laneStart 0 0x5A 0 0
    (after (exec i (frame i (withLane { outLane .idle with list := exampleList })))).map (fun t =>
      ((t.lane 0).state, (t.lane 0).tag, (t.lane 0).list.fetch, t.array.isSome)) =
      some (.priming, .pending { entry := 0, rep := 0, row := some 40, span := Span.whole }, ⟨0, 1⟩, true) := by
  decide +kernel

/-- 5.5.1: the boundary of (0, 1) retires entry 0, shows the blank line and asks for row 41. -/
theorem test_boundary_retires :
    let l := { outLane .running with
      list := { exampleList with fetch := ⟨2, 0⟩, shown := ⟨0, 1⟩, showing := true }
      current := some { entry := 0, rep := 1, row := some 40, span := Span.whole }, pointer := 127, count := 127
      tag := .full (line 1 none Span.whole) none, lines := 1 }
    let t := after (exec (.outLaneClockEdge 0) (withLane l))
    t.map (fun t => ((t.lane 0).list.entries.length, (t.lane 0).list.fetch, (t.lane 0).list.shown)) =
      some (2, ⟨2, 0⟩, ⟨0, 0⟩) ∧
    t.map (fun t => ((t.lane 0).tag.line, (t.lane 0).state, (t.lane 0).lines)) =
      some (some (line 1 (some 41) Span.whole), .running, 2) := by decide +kernel

/-- 5.5.1: the boundary of the blank line pauses and posts LANE PAUSED with count 0. -/
theorem test_boundary_pauses :
    let l := { outLane .running with
      list := { exampleList with entries := exampleList.entries.drop 1, fetch := ⟨2, 0⟩, showing := true }
      current := some (line 0 none Span.whole), pointer := 127, count := 127
      tag := .pending (line 1 (some 41) Span.whole) }
    let t := after (exec (.outLaneClockEdge 0) (withLane l))
    t.map (fun t => ((t.lane 0).state, (t.lane 0).list.fetch, (t.lane 0).tag.line)) =
      some (.paused, ⟨1, 0⟩, some (line 0 (some 41) Span.whole)) ∧
    t.map (fun t => t.events.map fun e => (e.post.kind, e.post.count)) = some [(.lanePaused, some 0)] := by
  decide +kernel

/-- R73: the pointer wraps from cell 127 to cell 0. -/
theorem test_edge_wraps :
    let l := { outLane .running with current := some (line 0 none { tap := 127, len := 2 }), pointer := 127 }
    (after (exec (.outLaneClockEdge 0) (withLane l))).map (fun t => ((t.lane 0).pointer, (t.lane 0).count)) =
      some (0, 1) := by decide +kernel

/-! ### The array -/

/-- R10: a FILL of a span that wraps writes cells 127 and 0; the generation after 65535 is 0. -/
theorem test_fill_wraps :
    (after (exec .fillCompletion (withTransfer (flight (.fill 2 { tap := 127, len := 2 } 7) (.ctl 0) none)))).map
      (fun t => (t.readCell (256 + 127), t.readCell 256, t.readCell 257, (t.rowRecord 2).generation)) =
      some (7, 7, 0, 0) := by decide +kernel

/-- R9: a CSTORE that does not match writes nothing. -/
theorem test_cstore_mismatch :
    (after (exec .cstoreCompletion (withTransfer { flight (.cstore 2 { tap := 0, len := 1 } 4) (.ctl 0) none with
        latched := [(0, 9)], matched := false }))).map (fun t => (t.readCell 256, (t.rowRecord 2).generation)) =
      some (0, 0) := by decide +kernel

/-! ### Sessions (7.5.1) -/

/-- 7.5.1: C2's takeover finds one claim, one request that waits and one on the array. -/
def takeoverPart : State :=
  { ((part.setSession 2 (some 7)).setClaim 3 (some { holder := .ctl 2, kind := .sole, first := 60, count := 4,
                                                     lease := some 500 })) with
    queue := [{ queued 88 (.load 61) .active with ctl := 2 },
              { queued 89 (.store 70 { tap := 0, len := 1 }) (.blocked 0) with ctl := 2 }]
    array := some (.transfer (flight (.load 61) (.ctl 2) (some 88))) }

/-- 7.5.1: the counts 1, 1 and 1, the WITHDRAWN record, the orphan with delivery DISCARD and the two events. -/
theorem test_takeover :
    let i : Instr := .signOn 2 8 1
    replyTo i takeoverPart = some ⟨.ok, [1, 1, 1]⟩ ∧
    (after (exec i (frame i takeoverPart))).map (fun t => (t.session 2, t.queue.length, t.orphan)) =
      some (some 8, 0, some 88) ∧
    (after (exec i (frame i takeoverPart))).map (fun t => (t.log.map (·.outcome), t.events.map (·.post.kind))) =
      some ([.withdrawn], [.claimEnded, .sessionEnded]) := by decide +kernel

/-- R43: ticket 1 follows 65535. -/
theorem test_ticket_wraps :
    let i : Instr := .load 0 0x5A 3 0 5
    replyTo i { part with nextTicket := 0xFFFF } = some ⟨.accepted, [0xFF, 0xFF]⟩ ∧
    (after (exec i (frame i { part with nextTicket := 0xFFFF }))).map (·.nextTicket) = some 1 := by decide +kernel

/-! ### The control port (8.5.1) -/

/-- A part with straps 5, at an address byte. -/
def atAddress : State := { part with port := { Port.fresh 5 with phase := .address, isOpen := true } }

/-- 8.5.1: byte 0xDA opens a write phase, acknowledged. -/
theorem test_write_address :
    (after (exec (.addressByte 0xDA) atAddress)).map (fun t => (t.port.phase, t.acknowledges)) =
      some (.write, true) := by decide +kernel

/-- 8.5.1: a repeated START delivers the frame of IDENTIFY. -/
theorem test_frame_delivered :
    let s := { part with port := { Port.fresh 5 with phase := .write, isOpen := true,
                                                     frameBytes := [0x00, 0x00, 0x01, 0x7A] } }
    (after (exec (.start false) s)).map (fun t => (t.engine, t.port.phase, t.port.frameInTx)) =
      some (.executing ⟨.good, [0x00, 0x00, 0x01, 0x7A]⟩ false, .address, true) := by decide +kernel

/-- 8.5.1: the read address finds the frame executing and the part holds SCK; the end of the execution loads the record,
16 bytes, and releases the clock. -/
theorem test_read_phase_waits :
    let s := frame (.identify 0 0) { atAddress with port := { atAddress.port with frameInTx := true } }
    (after (exec (.addressByte 0xDB) s)).map (fun t => (t.port.phase, t.sckHeld)) = some (.read, true) ∧
    (((after (exec (.addressByte 0xDB) s)).bind fun t => after (exec (.identify 0 0) t)).map fun t =>
      (t.sckHeld, t.sdaByte, (t.port.record.getD []).length)) = some (false, some 0x00, 16) := by decide +kernel

/-- R158: after the ninth clock of an address byte that a read phase acknowledged, and after a NACK, SDA is released. -/
theorem test_sda_released :
    let s := { part with port := { (Port.fresh 5).accept .read (some [0x00, 0x00, 0x57]) with isOpen := true } }
    s.acknowledges = true ∧ (after (exec .readByteAcknowledge s)).map (·.acknowledges) = some false ∧
    (after (exec (.readPhaseEnd .nack) s)).map (fun t => (t.port.phase, t.acknowledges)) = some (.passed, false) := by
  decide +kernel

/-- 8.5.2: the write address of another transaction is refused while a frame executes. -/
theorem test_busy_nack :
    (after (exec (.addressByte 0xDA) { atAddress with engine := .executing ⟨.short, [1]⟩ true })).map (fun t =>
      (t.port.phase, t.acknowledges)) = some (.passed, false) := by decide +kernel

/-- R173: the group frame 0x70, 0x03, 0xE9 starts the ARMED lanes L0 and L1 at its STOP. -/
theorem test_group_frame_at_stop :
    let s := { part with lanes := #v[outLane .armed, outLane .armed, outLane .armed, .off]
                         port := { Port.fresh 5 with phase := .group, isOpen := true
                                                     groupBytes := [0x70, 0x03, 0xE9] } }
    (after (exec (.stop false) s)).map (fun t => t.lanes.toList.map (·.state)) =
      some [.running, .running, .armed, .off] := by decide +kernel

/-! ### States and operands that meet the hypotheses of the obligations

One theorem per obligation with hypotheses, its clauses in their order. -/

theorem witness_StepRunsFrontCommand :
    ({ part with pending := [.refreshTick] } : State).pending = .refreshTick :: [] ∧ part.pending = [] ∧
    part.occasion = false := by decide +kernel

theorem witness_CommandsLeaveTheQueue : ∃ t, exec .hardReset { part with pending := [.leaseTick] } = .next t :=
  ⟨_, rfl⟩

theorem witness_FrameReadsAsItsCommand :
    Instr.wellFormed (.identify 0 0) = true ∧ frameOf (.identify 0 0) = some [0x00, 0x00, 0x01, 0x7A] := by
  decide +kernel

theorem witness_CommandHasOneFrame :
    frameVerdict false [0x00, 0x00, 0x01, 0x7A] = some .good ∧
    ∀ v b, readFrame .good [0x00, 0x00, 0x01, 0x7A] ≠ .refusedFrame v b :=
  ⟨by decide +kernel, fun _ _ => by rw [test_identify_frame]; nofun⟩

/-- A part in its start-up sweep, with this many rows swept. -/
def sweeping (k : Nat) : State := { State.reset with resetnLow := false, swept := k }

theorem witness_StartUpSweep :
    State.reset.resetnLow = true ∧ (sweeping 0).partState = .starting ∧ (sweeping 0).resetnLow = false ∧
    (sweeping 0).swept = (0 : RowId).val ∧ (sweeping 510).swept = (510 : RowId).val ∧
    (sweeping 511).swept = (511 : RowId).val := by decide +kernel

theorem witness_SweepLeavesOperatingPart : State.reset.resetnLow = true := by decide

theorem witness_RefreshDebtCounts :
    part.resetnLow = false ∧ part.partState = .operating ∧ (sweeping 7).partState = .starting ∧
    ({ part with array := some (.refresh 511) } : State).array = some (.refresh 511) := by decide +kernel

theorem part_has_no_slots : ∀ n, (part.lane n).slot = none := by decide +kernel

/-- R15: the tenth 1 ms tick since the rise brings a lease tick, which is then due. -/
theorem test_tenth_tick_brings_lease_tick :
    (after (exec .millisecondTick { part with tickPhase := 8 })).map (fun t => (t.tickPhase, t.leaseTick)) =
      some (9, .settled) ∧
    (after (exec .millisecondTick { part with tickPhase := 9 })).map (fun t => (t.tickPhase, t.leaseTick)) =
      some (0, .due) := by decide +kernel

theorem witness_MillisecondTick :
    let s := { part with queue := [{ queued 1 (.load 0) (.blocked 0) with waitLimit := 2 }] }
    s.resetnLow = false ∧ s.leaseTick ≠ .due ∧ afterTick (.blocked 0) = .blocked (queued 1 (.load 0) .waiting).waitLimit ∧
    ({ part with leaseTick := .early } : State).leaseTick ≠ .due ∧ (s.queue.map (·.ticket)).Nodup ∧ (∀ q ∈ s.queue, afterTick q.state ≠ .blocked q.waitLimit) ∧
    (∀ n q, (s.lane n).slot = some q → afterTick q.state ≠ .blocked q.waitLimit) ∧ s.occasion = false :=
  ⟨rfl, by decide +kernel, by decide +kernel, by decide +kernel, by decide +kernel, by decide +kernel, fun n _ h => absurd ((part_has_no_slots n).symm.trans h) nofun, rfl⟩

/-- A lane's request at its wait limit. -/
def atLimit : SlotRequest := { work := .load 40, waitLimit := 1, state := .blocked 1 }

/-- An OUT lane under SKIP whose request is at its limit, with a list. -/
def skipping (state : LaneState) (l : RowList) : Lane :=
  { outLane state with
    setup := { LaneSetup.default with policy := .skip }, slot := some atLimit, list := l
    tag := .pending (line 0 (some 40) Span.whole) }

/-- A list at its first line, of row 40, whose second line is blank. -/
def blankList : RowList :=
  { twoRows with entries := [entry (some 40) Span.whole false, entry none Span.whole false], fetch := ⟨1, 0⟩ }

/-- An IN lane under SKIP whose request is at its limit, with a held line or none. -/
def skippingIn (state : LaneState) (held : Bool) : Lane :=
  { inLane state with
    setup := { (inLane state).setup with policy := .skip }, slot := some atLimit, held
    tag := .pending (line 0 (some 40) Span.whole), current := some (line 0 (some 4) Span.whole)
    follow := if state = .blocked then some (line 0 (some 5) Span.whole) else none }

theorem witness_WaitLimitRefusals :
    (let q := queued 1 (.load 0) (.blocked 1)
     ({ part with queue := [q] } : State).request q.ticket = some q ∧ q.state = .blocked q.waitLimit ∧
      q.notify = true ∧
      ({ part with queue := [{ q with notify := false }] } : State).request 1 = some { q with notify := false } ∧
      ({ part with queue := [queued 1 (.load 0) .waiting] } : State).request 1 = some (queued 1 (.load 0) .waiting)) ∧
    atLimit.state = .blocked atLimit.waitLimit ∧
    ((withLane { outLane .priming with slot := some atLimit }).lane 0).setup.policy = .halt ∧
    (let l := { inLane .running with slot := some atLimit, setup := { (inLane .running).setup with policy := .skip } }
     ((withLane l).lane 0).slot = some atLimit ∧ l.setup.policy = .skip ∧ l.setup.direction = .into ∧
      l.state = .running) ∧
    (skipping .running twoRows).nextLine = some (line 0 (some 40) Span.whole) ∧
    (skipping .running RowList.empty).nextLine = none ∧ (skipping .paused RowList.empty).nextLine = none ∧
    (skipping .priming RowList.empty).nextLine = none ∧ (skipping .starved RowList.empty).nextLine = none ∧
    ((withLane (skipping .starved RowList.empty)).lane 0).slot = some atLimit ∧
    (skipping .armed twoRows).nextLine = some (line 0 (some 40) Span.whole) ∧
    (skipping .armed RowList.empty).nextLine = none ∧
    (∀ st ∈ [.running, .armed, .paused, .priming, .starved], (skipping st blankList).nextLine = some (line 1 none Span.whole) ∧
      (skipping st blankList).tag = .pending (line 0 (some 40) Span.whole)) ∧
    (∀ st ∈ [.running, .armed, .blocked, .draining, .paused], (skippingIn st true).slot = some atLimit ∧ (skippingIn st true).setup.policy = .skip ∧
      (skippingIn st true).setup.direction = .into ∧ (skippingIn st true).held = true) ∧
    (skippingIn .paused false).held = false ∧
    ((withLane { outLane .priming with slot := some { atLimit with state := .blocked 0 } }).lane 0).slot =
      some { atLimit with state := .blocked 0 } := by decide +kernel

theorem witness_LeaseTickAndExpiry :
    part.resetnLow = false ∧ ({ part with leaseTick := .due } : State).leaseTick = .due ∧
    part.leaseTick = .settled ∧ ({ part with tickPhase := 9 } : State).tickPhase.val = 9 ∧
    afterLeaseTick { holder := .ctl 0, kind := .sole, first := 0, count := 1, lease := some 1 } = none ∧
    afterLeaseTick { holder := .ctl 0, kind := .sole, first := 0, count := 1, lease := some 2 } =
      some { holder := .ctl 0, kind := .sole, first := 0, count := 1, lease := some 1 } := by decide +kernel

/-- A write in flight over a span that wraps. -/
def wrapping : Transfer :=
  { flight (.store 3 { tap := 127, len := 2 }) (.ctl 0) (some 5) with latched := [(127, 1), (0, 1)] }

theorem witness_WriteCompletions :
    (withTransfer wrapping).array = some (.transfer wrapping) ∧ (withTransfer wrapping).swept = 512 ∧
    wrapping.WritesSpan 3 { tap := 127, len := 2 } (fun _ => 1) ∧ wrapping.matched = true ∧
    wrapping.requester = .ctl 0 ∧ ({ wrapping with requester := .lane 3 } : Transfer).WritesSpan 3 { tap := 127, len := 2 }
      (fun _ => 1) ∧ ({ wrapping with requester := .lane 3, softReset := true } : Transfer).softReset = true ∧
    ({ wrapping with work := .cstore 3 { tap := 127, len := 2 } 4, matched := false }).WritesSpan 3
      { tap := 127, len := 2 } (fun _ => 1) ∧
    (flight (.fill 0 Span.whole 7) (.ctl 0) none).WritesSpan 0 Span.whole (fun _ => 7) :=
  ⟨rfl, rfl, .inl ⟨by decide, .inl rfl⟩, rfl, rfl, .inl ⟨by decide, .inl rfl⟩, rfl, .inl ⟨by decide, .inr (.inl ⟨4, rfl⟩)⟩, .inr ⟨7, rfl, fun _ => rfl⟩⟩

/-- A LOAD in flight for lane L0. -/
def laneLoad : Transfer := flight (.load 511) (.lane 0) none

/-- The part with a LOAD of L0 in flight. -/
def loading (state : LaneState) : State :=
  { withLane { outLane state with tag := .pending (line 0 (some 511) Span.whole)
                                  slot := some { work := .load 511, waitLimit := 0, state := .active } } with
    array := some (.transfer laneLoad) }

theorem witness_LoadCompletion :
    (withTransfer (flight (.load 0) (.ctl 7) (some 1))).array = some (.transfer (flight (.load 0) (.ctl 7) (some 1))) ∧
    (flight (.load 0) (.ctl 7) (some 1)).discard = false ∧
    (withTransfer { flight (.load 0) (.ctl 7) (some 1) with discard := true }).array.isSome = true ∧
    (withTransfer { laneLoad with discard := true }).array = some (.transfer { laneLoad with discard := true }) ∧
    ({ laneLoad with discard := true } : Transfer).requester = .lane 0 ∧
    (loading .running).array = some (.transfer laneLoad) ∧ laneLoad.softReset = false ∧
    ((loading .running).lane 0).tag = .pending (line 0 (some 511) Span.whole) ∧
    ((loading .running).lane 0).state = .running := by decide +kernel

theorem witness_RefreshCredit :
    (withTransfer (flight (.load 0) (.ctl 0) none)).array = some (.transfer (flight (.load 0) (.ctl 0) none)) ∧
    (withTransfer (flight (.copy 511 0 Span.whole) (.ctl 0) none)).array =
      some (.transfer (flight (.copy 511 0 Span.whole) (.ctl 0) none)) := by decide +kernel

theorem witness_CompletionReports :
    let x := flight (.load 61) (.ctl 0) (some 88)
    (withTransfer x).array = some (.transfer x) ∧ x.ticket = some 88 ∧ x.softReset = false ∧
    ({ withTransfer x with orphan := some 88 } : State).orphan = some 88 ∧ (withTransfer x).orphan ≠ some 88 ∧
    ({ withTransfer x with queue := [queued 88 (.load 61) .active] } : State).request 88 =
      some (queued 88 (.load 61) .active) ∧ (queued 88 (.load 61) .active).notify = true ∧
    ({ withTransfer x with queue := [{ queued 88 (.load 61) .active with notify := false }] } : State).request 88 =
      some { queued 88 (.load 61) .active with notify := false } := by decide +kernel

/-- The part with a runnable request of L2 and one of C0, after L1 was served. -/
def contended (debt streak : Nat) (slots : Bool) (requests : List QueueRequest) : State :=
  { part.setLane 2 { outLane .priming with
      tag := if slots then .pending (line 0 (some 9) Span.whole) else .empty
      slot := if slots then some { work := .load 9, waitLimit := 0, state := .waiting } else none } with
    lastLane := 1, refreshDebt := debt, streak, queue := requests }

theorem contended_lanes (debt streak : Nat) (requests : List QueueRequest) (n : LaneId) :
    ((contended debt streak false requests).lane n).slot = none := by
  have h : ∀ n, ((contended 0 0 false []).lane n).slot = none := by decide +kernel
  exact h n

theorem witness_SelectionOrder :
    (∀ d k b r, (contended d k b r).array = none) ∧
    (contended 3 7 true [queued 1 (.load 8) .waiting]).slotReady ((contended 3 7 true []).lastLane + 1 + 0) ∧
    (contended 3 7 true [queued 1 (.load 8) .waiting]).streak < 8 ∧
    (contended 3 8 true [queued 1 (.load 8) .waiting]).readyRequests.head? = some (queued 1 (.load 8) .waiting) ∧
    (∀ n, ¬ (contended 1 0 false []).slotReady n) ∧ (contended 1 0 false []).readyRequests = [] ∧
    (contended 0 0 false []).readyRequests = [] ∧ (contended 4 8 true []).refreshDebt = 4 :=
  ⟨fun _ _ _ _ => rfl, ⟨_, rfl, nofun, by decide +kernel⟩, by decide +kernel, by decide +kernel,
    fun n ⟨_, h, _⟩ => absurd ((contended_lanes 1 0 [] n).symm.trans h) nofun, by decide +kernel, by decide +kernel, rfl⟩

theorem witness_LaneStreak :
    (contended 3 7 true [queued 1 (.load 8) .waiting]).streak ≤ 8 ∧
    (contended 3 7 true [queued 1 (.load 8) .waiting]).readyRequests ≠ [] ∧
    (contended 3 7 true [queued 1 (.load 8) .waiting]).select.array =
      some (.transfer (flight (.load 9) (.lane 2) none |> fun x => { x with startGeneration := 0 })) ∧
    ((contended 3 8 true [queued 1 (.load 8) .waiting]).select.array.map fun o =>
      o matches .transfer { requester := .ctl 0, .. }) = some true ∧
    (contended 4 7 true [queued 1 (.load 8) .waiting]).select.array = some (.refresh 0) ∧
    (contended 0 8 true []).readyRequests = [] := by decide +kernel

/-- The part with a SOLE claim of C1 on row 0. -/
def claimed : State :=
  (part.setSession 1 (some 1)).setClaim 0
    (some { holder := .ctl 1, kind := .sole, first := 0, count := 1, lease := none })

theorem witness_SelectionTests :
    let s := { claimed with queue := [{ queued 1 (.load 0) .waiting with waitLimit := 0 },
                                      queued 2 (.load 0) .waiting, queued 3 (.load 0) (.blocked 255)] }
    let l := { outLane .priming with tag := .pending (line 0 (some 0) Span.whole)
                                     slot := some { work := .load 0, waitLimit := 0, state := .waiting } }
    (s.queue.map (·.ticket)).Nodup ∧ s.conflicts (.ctl 0) (.load 0) = true ∧
    s.conflicts (.ctl 0) (.load 1) = false ∧ ((s.setLane 3 l).lane 3).slot = l.slot ∧
    (s.setLane 3 l).conflicts (.lane 3) (.load 0) = true ∧ l.setup.policy = .halt ∧ s.array = none ∧
    (let k := { l with setup := { l.setup with policy := .skip } }
     ((s.setLane 0 k).lane 0).slot = l.slot ∧ ((s.setLane 0 k).setLane 3 l).select.events.map (·.post.kind) =
      [.transferDone, .entrySkipped, .laneDone, .laneHalted]) ∧
    ((contended 3 7 true [queued 1 (.load 8) .waiting]).select.array.map fun o =>
      o matches .transfer { requester := .lane 2, ticket := none, .. }) = some true ∧
    ((contended 3 8 true [queued 1 (.load 8) .waiting]).select.array.map fun o =>
      o matches .transfer { requester := .ctl 0, ticket := some 1, .. }) = some true := by decide +kernel

theorem witness_ArbiterTakesOccasions :
    part.occasion = false ∧ (withTransfer laneLoad).array ≠ none ∧ (sweeping 0).partState = .starting ∧
    ({ part with occasion := true } : State).array = none ∧
    (contended 3 7 true []).select.array ≠ none ∧ (contended 0 0 false []).select.occasion = false := by decide +kernel

/-- CLAIM by C0. -/
def claimBy (holder kind : Byte) (first count lease : Half) : Instr := .claim 0 0x5A holder kind first count lease

theorem witness_ClaimGrantedOrRefused :
    Ready (claimBy 5 0 0 1 0) (frame (claimBy 5 0 0 1 0) part) ∧
    Ready (claimBy 4 1 511 1 0) (frame (claimBy 4 1 511 1 0) part) ∧ (part.lane 3).state = .off ∧
    Ready (claimBy 0 1 0 512 6000) (frame (claimBy 0 1 0 512 6000) claimed) ∧ claimed.claim 0 ≠ none ∧
    (∀ j, ({ claimed with claims := .replicate 24 (some { holder := .ctl 1, kind := .shared, first := 0, count := 1,
                                                           lease := none }) } : State).claim j ≠ none) ∧
    claimed.claim 1 = none := by decide +kernel

theorem witness_ReleaseAndRenew :
    Ready (.release 0 0x5A 24) (frame (.release 0 0x5A 24) part) ∧
    Ready (.release 0 0x5A 23) (frame (.release 0 0x5A 23) part) ∧ part.claim 23 = none ∧
    Ready (.release 0 0x5A 0) (frame (.release 0 0x5A 0) claimed) ∧
    Ready (.renew 0 0x5A 0 6001) (frame (.renew 0 0x5A 0 6001) claimed) ∧
    Ready (.renew 0 0x5A 0 6000) (frame (.renew 0 0x5A 0 6000) claimed) ∧
    (part.setClaim 0 (some { holder := .ctl 0, kind := .sole, first := 0, count := 1, lease := none })).claim 0 =
      some { holder := .ctl 0, kind := .sole, first := 0, count := 1, lease := none } ∧
    (part.setClaim 0 (some { holder := .lane 3, kind := .sole, first := 0, count := 1, lease := none })).claim 0 =
      some { holder := .lane 3, kind := .sole, first := 0, count := 1, lease := none } := by decide +kernel

/-- A RUNNING lane at this count of a line. -/
def atCount (l : Lane) (r : LineRef) (count : Nat) : Lane := { l with current := some r, count }

theorem witness_EdgesBeforeBoundary :
    ((withLane { outLane .starved with episode := 65535 }).lane 0).state ≠ .running ∧
    (let l := atCount (outLane .running) (line 0 none Span.whole) 126
     (l.state = .running ∧ l.setup.direction = .out ∧ l.count + 1 ≠ Span.whole.len)) ∧
    (let l := atCount (inLane .running) (line 0 none Span.whole) 0
     (l.state = .running ∧ l.setup.direction = .into ∧ l.count + 1 ≠ Span.whole.len)) := by decide +kernel

theorem witness_OutBoundary :
    let l := { atCount (outLane .running) (line 0 (some 40) Span.whole) 127 with list := twoRows }
    l.state = .running ∧ l.setup.direction = .out ∧ l.current = some (line 0 (some 40) Span.whole) ∧
    l.count + 1 = Span.whole.len ∧ l.stopPending = false ∧ ({ l with stopPending := true } : Lane).stopPending = true ∧
    l.list.entries[l.list.shown.entry]? = some (entry (some 40) Span.whole false) ∧
    exampleList.entries[(⟨1, 0⟩ : Position).entry]? = some (entry none Span.whole true) ∧
    ({ l with tag := .full (line 1 (some 41) Span.whole) (some 3) } : Lane).tag.line =
      some (line 1 (some 41) Span.whole) ∧
    ({ l with tag := .pending (line 1 (some 41) Span.whole) } : Lane).tag.isPending = true ∧ l.tag = .empty ∧
    ({ l with list := { twoRows with fetch := ⟨2, 0⟩ } } : Lane).nextLine = none ∧
    ({ l with list := { twoRows with fetch := ⟨1, 0⟩ } } : Lane).nextLine = some (line 1 (some 41) Span.whole) ∧
    ({ l with list := { exampleList with fetch := ⟨1, 0⟩ } } : Lane).nextLine = some (line 1 none Span.whole) := by
  decide +kernel

theorem witness_InBoundary :
    let l := { atCount (inLane .running) (line 0 (some 40) Span.whole) 127 with list := { twoRows with fetch := ⟨1, 0⟩ } }
    l.state = .running ∧ l.setup.direction = .into ∧ l.current = some (line 0 (some 40) Span.whole) ∧
    l.count + 1 = Span.whole.len ∧ l.held = false ∧ l.tag = .empty ∧
    ({ l with tag := .pending (line 0 (some 7) Span.whole) } : Lane).tag ≠ .empty ∧
    (line 0 none Span.whole).row = none ∧ l.stopPending = false ∧
    ({ l with stopPending := true } : Lane).stopPending = true ∧
    ({ l with list := { twoRows with fetch := ⟨2, 0⟩ } } : Lane).nextLine = none ∧
    l.nextLine = some (line 1 (some 41) Span.whole) := by decide +kernel

theorem witness_LoadReportShowsLine :
    (loading .priming).array = some (.transfer laneLoad) ∧ laneLoad.work = .load 511 ∧ laneLoad.requester = .lane 0 ∧
    laneLoad.discard = false ∧ laneLoad.softReset = false ∧
    ((loading .priming).lane 0).tag = .pending (line 0 (some 511) Span.whole) ∧
    ((loading .priming).lane 0).state = .priming ∧ ((loading .starved).lane 0).state = .starved := by decide +kernel

/-- An IN lane whose STORE of row 3 is in flight, with a held line. -/
def storing (state : LaneState) (held : Bool) : Lane :=
  { inLane state with
    tag := .pending (line 0 (some 3) Span.whole), held, current := some (line 0 (some 4) Span.whole)
    slot := some { work := .store 3 Span.whole, waitLimit := 0, state := .active }
    follow := if state = .blocked then some (line 0 (some 5) Span.whole) else none }

theorem witness_StoreReportFreesStaging :
    let x := flight (.store 3 Span.whole) (.lane 0) none
    ({ withLane (storing .running false) with array := some (.transfer x) } : State).array = some (.transfer x) ∧
    x.softReset = false ∧ x.discard = false ∧ ({ x with discard := true } : Transfer).discard = true ∧
    ({ x with softReset := true } : Transfer).softReset = true ∧
    (storing .running false).state = .running ∧ (storing .armed false).state = .armed ∧
    (storing .blocked true).held = true ∧ (storing .blocked true).current = some (line 0 (some 4) Span.whole) ∧
    (storing .blocked true).follow = some (line 0 (some 5) Span.whole) ∧ (storing .draining false).held = false ∧
    (storing .paused true).state = .paused ∧ (storing .paused true).held = true ∧
    (storing .paused false).held = false ∧ (storing .draining true).state = .draining ∧
    (storing .draining true).held = true ∧ (line 0 (some 4) Span.whole).row = some 4 ∧
    (∀ st ∈ [.blocked, .draining, .paused], ({ storing st true with current := some (line 0 none Span.whole) } : Lane).held = true) ∧
    (line 0 none Span.whole).row = none ∧ ({ storing .draining true with drain := some .listEnd } : Lane).drain =
      some .listEnd := by decide +kernel

theorem witness_LaneSetupWritesFields :
    Ready (.laneSetup 0 0x5A 4 0 0 0 0 0) (frame (.laneSetup 0 0x5A 4 0 0 0 0 0) part) ∧
    Ready (.laneSetup 0 0x5A 3 1 255 1 1 255) (frame (.laneSetup 0 0x5A 3 1 255 1 1 255) part) ∧
    (part.lane 3).state = .off ∧ ((withLane (outLane .halted)).lane 0).state = .halted := by decide +kernel

/-- LANE START of L0. -/
def startOf (mode : Byte) : Instr := .laneStart 0 0x5A 0 mode

theorem witness_LaneStartByState :
    Ready (.laneStart 0 0x5A 4 0) (frame (.laneStart 0 0x5A 4 0) part) ∧ Ready (startOf 2) (frame (startOf 2) part) ∧
    Ready (startOf 1) (frame (startOf 1) (withLane (outLane .armed))) ∧
    Ready (startOf 0) (frame (startOf 0) (withLane (outLane .armed))) ∧
    ((withLane (outLane .idle)).lane 0).list.entries = [] ∧
    (let l := { outLane .idle with list := twoRows }
     Ready (startOf 1) (frame (startOf 1) (withLane l)) ∧ l.list.entries ≠ [] ∧
      l.nextLine = some (line 0 (some 40) Span.whole)) ∧
    ({ outLane .idle with list := { exampleList with fetch := ⟨1, 0⟩ } } : Lane).nextLine =
      some (line 1 none Span.whole) ∧
    ({ inLane .idle with list := twoRows } : Lane).nextLine = some (line 0 (some 40) Span.whole) := by decide +kernel

/-- LANE STOP of L0. -/
def stopOf (mode : Byte) : Instr := .laneStop 0 0x5A 0 mode

theorem witness_LaneStopByState :
    Ready (.laneStop 0 0x5A 4 0) (frame (.laneStop 0 0x5A 4 0) part) ∧ Ready (stopOf 2) (frame (stopOf 2) part) ∧
    Ready (stopOf 0) (frame (stopOf 0) part) ∧ (part.lane 0).state = .off ∧
    Ready (stopOf 1) (frame (stopOf 1) (withLane (storing .running false))) ∧
    ((withLane (outLane .idle)).lane 0).state = .idle ∧ (storing .draining false).state = .draining ∧
    (storing .blocked true).state = .blocked ∧ (storing .paused false).tag ≠ .empty ∧
    (inLane .paused).tag = .empty ∧ (inLane .paused).held = false ∧
    ((loading .priming).lane 0).slot = some { work := .load 511, waitLimit := 0, state := .active } ∧
    ((withLane (outLane .halted)).lane 0).slot = none := by decide +kernel

/-- LANE RESUME of L0. -/
def resumeOf (s : State) : State := frame (.laneResume 0 0x5A 0) s

theorem witness_LaneResumeFromPause :
    Ready (.laneResume 0 0x5A 4) (frame (.laneResume 0 0x5A 4) part) ∧ Ready (.laneResume 0 0x5A 0) (resumeOf part) ∧
    (part.lane 0).state ≠ .paused ∧
    Ready (.laneResume 0 0x5A 0) (resumeOf (withLane { outLane .paused with
      tag := .full (line 0 (some 40) Span.whole) (some 1) })) ∧
    Ready (.laneResume 0 0x5A 0) (resumeOf (withLane { outLane .paused with
      tag := .pending (line 0 (some 40) Span.whole) })) ∧
    (∀ l : RowList, ({ outLane .paused with list := l } : Lane).tag = .empty) ∧
    ({ outLane .paused with list := twoRows } : Lane).nextLine = some (line 0 (some 40) Span.whole) ∧
    ({ outLane .paused with list := blankList } : Lane).nextLine = some (line 1 none Span.whole) ∧
    (outLane .paused).nextLine = none ∧
    ({ inLane .paused with list := twoRows } : Lane).nextLine = some (line 0 (some 40) Span.whole) ∧
    (storing .paused true).held = true ∧ (storing .paused true).nextLine = none ∧ (inLane .paused).nextLine = none :=
  ⟨by decide +kernel, by decide +kernel, by decide +kernel, by decide +kernel, by decide +kernel, fun _ => rfl,
    by decide +kernel, by decide +kernel, by decide +kernel, by decide +kernel, by decide +kernel, by decide +kernel,
    by decide +kernel⟩

theorem witness_LaneResetEndsLane :
    Ready (.laneReset 0 0x5A 4) (frame (.laneReset 0 0x5A 4) part) ∧
    Ready (.laneReset 0 0x5A 3) (frame (.laneReset 0 0x5A 3) part) ∧ (part.lane 3).state = .off ∧
    Ready (.laneReset 0 0x5A 0) (frame (.laneReset 0 0x5A 0) (loading .running)) ∧
    ((loading .running).lane 0).state ≠ .off ∧ (loading .running).array = some (.transfer laneLoad) := by
  decide +kernel

theorem witness_LaneStatusLayout :
    Ready (.laneStatus 0 0x5A 4) (frame (.laneStatus 0 0x5A 4) part) ∧
    Ready (.laneStatus 0 0x5A 3) (frame (.laneStatus 0 0x5A 3) part) := by decide +kernel

theorem witness_GroupCommandsAtLanes :
    (0x01 : Byte).getLsbD (0 : LaneId).val = true ∧ ((withLane (outLane .armed)).lane 0).state = .armed ∧
    (0xF0 : Byte).getLsbD (3 : LaneId).val = false ∧ ((loading .running).lane 0).state ≠ .idle ∧
    ((loading .running).lane 0).state ≠ .off ∧ (loading .running).array = some (.transfer laneLoad) ∧
    laneLoad.requester = .lane 0 ∧ part.array = none := by decide +kernel

/-- LIST APPEND to L0. -/
def appendOf (lane : Byte) (raw : List RawEntry) : Instr := .listAppend 0 0x5A lane raw

theorem witness_ListAppend :
    Ready (appendOf 4 [⟨0, 0, 1, 1, 0⟩]) (frame (appendOf 4 [⟨0, 0, 1, 1, 0⟩]) part) ∧
    Ready (appendOf 0 [⟨512, 0, 1, 1, 0⟩]) (frame (appendOf 0 [⟨512, 0, 1, 1, 0⟩]) part) ∧
    Ready (appendOf 3 [⟨511, 127, 128, 16, 1⟩, ⟨0xFFFF, 0, 1, 1, 0⟩])
      (frame (appendOf 3 [⟨511, 127, 128, 16, 1⟩, ⟨0xFFFF, 0, 1, 1, 0⟩]) part) ∧ (part.lane 3).state = .off ∧
    (let l := { outLane .running with list := { twoRows with entries := List.replicate 15 (entry none Span.whole false) } }
     l.list.entries.length + 1 ≤ 16 ∧ 16 < l.list.entries.length + 2 ∧
      Ready (appendOf 0 [⟨511, 127, 128, 16, 1⟩]) (frame (appendOf 0 [⟨511, 127, 128, 16, 1⟩]) (withLane l))) := by
  decide +kernel

/-- LIST TRIM of L0. -/
def trimOf (maximum : Byte) : Instr := .listTrim 0 0x5A 0 maximum

theorem witness_ListTrim :
    Ready (trimOf 0) (frame (trimOf 0) part) ∧ Ready (trimOf 17) (frame (trimOf 17) part) ∧
    Ready (trimOf 16) (frame (trimOf 16) part) ∧ (part.lane 0).state = .off ∧
    ({ outLane .running with setup := { LaneSetup.default with mode := .cycle } } : Lane).setup.mode = .cycle ∧
    (let l := { outLane .running with list := { twoRows with fetch := ⟨1, 0⟩ } }
     Ready (trimOf 1) (frame (trimOf 1) (withLane l)) ∧ l.state ≠ .off ∧ l.setup.mode = .once) ∧
    (let l := { outLane .idle with list := twoRows, setup := { LaneSetup.default with mode := .cycle } }
     Ready (trimOf 2) (frame (trimOf 2) (withLane l)) ∧ l.state = .idle) := by decide +kernel

theorem witness_ListClearAndRead :
    Ready (.listClear 0 0x5A 4) (frame (.listClear 0 0x5A 4) part) ∧
    Ready (.listClear 0 0x5A 0) (frame (.listClear 0 0x5A 0) (withLane (outLane .idle))) ∧
    Ready (.listClear 0 0x5A 3) (frame (.listClear 0 0x5A 3) part) ∧
    Ready (.listRead 0 0x5A 0 16 1) (frame (.listRead 0 0x5A 0 16 1) part) ∧
    Ready (.listRead 0 0x5A 3 15 4) (frame (.listRead 0 0x5A 3 15 4) part) := by decide +kernel

/-- A full queue with a marker of this count newest. -/
def full (count : Half) : State :=
  { part with events := List.replicate 31 (event 7 .lineLost) ++
      [{ seq := 8, time := 0, post := { kind := .eventsLost, source := .part, count := some count } }] }

theorem witness_PostingRule :
    part.events.length ≤ 30 ∧ thirty.events.length ≤ 30 ∧
    ({ part with events := List.replicate 31 (event 7 .lineLost) } : State).events.length = 31 ∧
    (full 65534).events.length = 32 ∧ (full 65535).events.length = 32 ∧
    ((full 65535).events.getLast?.map fun e => (e.post.kind, e.post.count)) = some (.eventsLost, some 65535) := by
  decide +kernel

theorem witness_TakeAndPeekEvents :
    Ready (.takeEvents 0 0x5A 0) (frame (.takeEvents 0 0x5A 0) thirty) ∧
    Ready (.peekEvents 0 0x5A 5) (frame (.peekEvents 0 0x5A 5) thirty) ∧
    Ready (.takeEvents 0 0x5A 4) (frame (.takeEvents 0 0x5A 4) thirty) ∧
    Ready (.peekEvents 0 0x5A 1) (frame (.peekEvents 0 0x5A 1) part) := by decide +kernel

theorem witness_AttentionMask :
    Ready (.setAttention 0 0x5A 0x0001) (frame (.setAttention 0 0x5A 0x0001) part) ∧
    Ready (.setAttention 0 0x5A 0x1000) (frame (.setAttention 0 0x5A 0x1000) part) ∧
    Ready (.setAttention 0 0x5A 0x0FFE) (frame (.setAttention 0 0x5A 0x0FFE) part) := by decide +kernel

/-- A delivered frame at the engine. -/
def deliveredAt (v : Verdict) (bytes : List Byte) : State :=
  { part with engine := .executing { verdict := v, bytes } false }

theorem witness_Admission :
    (deliveredAt .overlong [1]).executes (.refusedFrame .overlong [1]) = true ∧
    (deliveredAt .short [1]).executes (.refusedFrame .short [1]) = true ∧
    (deliveredAt .checkFailed [0, 0, 1, 0]).executes (.refusedFrame .checkFailed [0, 0, 1, 0]) = true ∧
    (deliveredAt .good [8, 0, 1, 0]).executes (.refusedFrame .good [8, 0, 1, 0]) = true ∧
    (deliveredAt .good [7, 0, 0x7F, 0]).executes (.refusedFrame .good [7, 0, 0x7F, 0]) = true ∧
    (deliveredAt .good [7, 0, 1, 9, 0]).executes (.refusedFrame .good [7, 0, 1, 9, 0]) = true ∧
    commandFields (.laneStatus 5 0x10 2) = some (5, 0x10, 0x55, [2]) ∧
    (frame (.laneStatus 5 0x10 2) part).executes (.laneStatus 5 0x10 2) = true ∧ part.session 5 = none ∧
    commandFields (.laneStatus 0 0x5B 2) = some (0, 0x5B, 0x55, [2]) ∧
    (frame (.laneStatus 0 0x5B 2) part).executes (.laneStatus 0 0x5B 2) = true ∧ part.session 0 = some 0x5A := by
  decide +kernel

theorem witness_IdentifyRowInfoListClaims :
    (frame (.identify 7 0) part).executes (.identify 7 0) = true ∧
    Ready (.rowInfo 0 0x5A 512 1) (frame (.rowInfo 0 0x5A 512 1) part) ∧
    Ready (.rowInfo 0 0x5A 504 8) (frame (.rowInfo 0 0x5A 504 8) part) ∧
    Ready (.rowInfo 0 0x5A 511 1) (frame (.rowInfo 0 0x5A 511 1) part) ∧
    Ready (.listClaims 0 0x5A 24 1) (frame (.listClaims 0 0x5A 24 1) claimed) ∧
    Ready (.listClaims 0 0x5A 23 4) (frame (.listClaims 0 0x5A 23 4) claimed) := by decide +kernel

/-- A queue with one request of C2 on the array and one that waits keeps its bounds. -/
theorem takeoverPart_queueBounded : takeoverPart.QueueBounded where
  total := by decide +kernel
  share := by decide +kernel
  present := by decide +kernel
  distinct := by decide +kernel
  issued := by decide +kernel
  active := by
    intro q hq ha
    have hq : q ∈ [_, _] := hq
    rcases List.mem_pair.1 hq with rfl | rfl
    · exact ⟨by decide +kernel, _, rfl, rfl, rfl, rfl⟩
    · cases ha
  orphaned := by intro t h; cases h

theorem witness_SignOn :
    (frame (.signOn 1 0 0) part).executes (.signOn 1 0 0) = true ∧
    (frame (.signOn 1 255 2) part).executes (.signOn 1 255 2) = true ∧
    (frame (.signOn 1 1 1) part).executes (.signOn 1 1 1) = true ∧ part.session 1 = none ∧
    (frame (.signOn 0 0x5A 0) part).executes (.signOn 0 0x5A 0) = true ∧ part.session 0 ≠ none ∧
    (frame (.signOn 2 8 1) takeoverPart).executes (.signOn 2 8 1) = true ∧ takeoverPart.session 2 ≠ none ∧
    (frame (.signOn 2 8 1) takeoverPart).QueueBounded := by
  refine ⟨by decide +kernel, by decide +kernel, by decide +kernel, by decide +kernel, by decide +kernel,
    by decide +kernel, by decide +kernel, by decide +kernel, ?_⟩
  exact ⟨takeoverPart_queueBounded.total, takeoverPart_queueBounded.share, takeoverPart_queueBounded.present,
    takeoverPart_queueBounded.distinct, takeoverPart_queueBounded.issued, takeoverPart_queueBounded.active,
    takeoverPart_queueBounded.orphaned⟩

theorem witness_SignOff :
    (frame (.signOff 2 7) takeoverPart).executes (.signOff 2 7) = true ∧
    (frame (.signOff 2 7) takeoverPart).session 2 = some 7 ∧ (frame (.signOff 2 7) takeoverPart).QueueBounded :=
  ⟨by decide +kernel, by decide +kernel, ⟨takeoverPart_queueBounded.total, takeoverPart_queueBounded.share,
    takeoverPart_queueBounded.present, takeoverPart_queueBounded.distinct, takeoverPart_queueBounded.issued,
    takeoverPart_queueBounded.active, takeoverPart_queueBounded.orphaned⟩⟩

theorem witness_ResetPartAndGroupEnable :
    Ready (.resetPart 0 0x5A) (frame (.resetPart 0 0x5A) (loading .running)) ∧
    (loading .running).array = some (.transfer laneLoad) ∧
    Ready (.resetPart 0 0x5A) (frame (.resetPart 0 0x5A) part) ∧
    Ready (.groupEnable 0 0x5A 2) (frame (.groupEnable 0 0x5A 2) part) ∧
    Ready (.groupEnable 0 0x5A 1) (frame (.groupEnable 0 0x5A 1) part) := by decide +kernel

theorem witness_BufferCommands :
    Ready (.putBuffer 0 0x5A 128 [1]) (frame (.putBuffer 0 0x5A 128 [1]) part) ∧
    Ready (.putBuffer 0 0x5A 127 [1, 2]) (frame (.putBuffer 0 0x5A 127 [1, 2]) part) ∧
    Ready (.putBuffer 0 0x5A 127 [1]) (frame (.putBuffer 0 0x5A 127 [1]) part) ∧
    Ready (.getBuffer 0 0x5A 0 33) (frame (.getBuffer 0 0x5A 0 33) part) ∧
    Ready (.getBuffer 0 0x5A 96 32) (frame (.getBuffer 0 0x5A 96 32) part) := by decide +kernel

theorem witness_TransferAdmission :
    Ready (.load 0 0x5A 512 0 0) (frame (.load 0 0x5A 512 0 0) part) ∧
    Ready (.store 0 0x5A 0 0 129 0 0) (frame (.store 0 0x5A 0 0 129 0 0) part) ∧
    Ready (.cstore 0 0x5A 0 128 1 0 0 0) (frame (.cstore 0 0x5A 0 128 1 0 0 0) part) ∧
    Ready (.fill 0 0x5A 0 0 0 0 0 0) (frame (.fill 0 0x5A 0 0 0 0 0 0) part) ∧
    Ready (.copy 0 0x5A 0 512 0 1 0 0) (frame (.copy 0 0x5A 0 512 0 1 0 0) part) ∧
    Ready (.load 0 0x5A 511 1 255) (frame (.load 0 0x5A 511 1 255) part) ∧
    Ready (.store 0 0x5A 511 127 128 1 255) (frame (.store 0 0x5A 511 127 128 1 255) part) ∧
    Ready (.cstore 0 0x5A 511 127 128 65535 0 0) (frame (.cstore 0 0x5A 511 127 128 65535 0 0) part) ∧
    Ready (.fill 0 0x5A 511 127 128 255 0 0) (frame (.fill 0 0x5A 511 127 128 255 0 0) part) ∧
    Ready (.copy 0 0x5A 511 511 127 128 0 0) (frame (.copy 0 0x5A 511 511 127 128 0 0) part) ∧
    3 ≤ (([queued 1 (.load 0) .waiting, queued 2 (.load 0) .waiting, queued 3 (.load 0) .waiting]).filter
      fun q => q.ctl = 0).length := by decide +kernel

theorem witness_CancelAndQuery :
    let s : State := { part with queue := [queued 65535 (.load 0) .waiting, queued 2 (.load 0) .active,
                                           { queued 3 (.load 0) .waiting with ctl := 1 }] }
    Ready (.cancel 0 0x5A 0) (frame (.cancel 0 0x5A 0) s) ∧ Ready (.cancel 0 0x5A 4) (frame (.cancel 0 0x5A 4) s) ∧
    (∀ q ∈ s.queue, q.ticket ≠ 4) ∧ (s.request 3).map (·.ctl) = some 1 ∧
    (s.request 2).map (·.state) = some .active ∧ (s.request 65535).map (·.state) = some .waiting ∧
    Ready (.queryTicket 0 0x5A 0) (frame (.queryTicket 0 0x5A 0) s) ∧ (s.queue.map (·.ticket)).Nodup ∧
    s.queue[1]? = some (queued 2 (.load 0) .active) ∧ (∀ q ∈ s.queue, q.ticket = 3 → q.ctl ≠ 0) ∧ s.log = [] := by
  decide +kernel

/-- A port in a phase, at a byte boundary. -/
def inPhase (phase : Phase) (p : Port) : State := { part with port := { p with phase, isOpen := true } }

theorem witness_StartAndStop :
    (inPhase .read (Port.fresh 5)).resetnLow = false ∧ (inPhase .read (Port.fresh 5)).sckHeld = true ∧
    (inPhase .write { Port.fresh 5 with frameBytes := [0, 0, 1, 0x7A] }).sckHeld = false ∧
    frameVerdict false [0, 0, 1, 0x7A] = some .good ∧ frameVerdict false [] = none ∧
    frameVerdict true (List.replicate 40 0) = some .overlong ∧
    (inPhase .write { Port.fresh 5 with bitCount := 8 }).port.bitCount = 8 ∧
    (inPhase .read { Port.fresh 5 with record := some [0], frameInTx := true }).sckHeld = false ∧
    (inPhase .group { Port.fresh 5 with groupBytes := [0x70, 0x03, 0xE9] }).port.groupBytes =
      [0x70, 0x03, checkValue [0x70, 0x03]] ∧
    (inPhase .group { Port.fresh 5 with groupBytes := [0x71, 0x0F, checkValue [0x71, 0x0F]] }).port.groupOverlong =
      false ∧
    (let p := { Port.fresh 5 with bitCount := 8, groupBytes := [0x70, 0x03, checkValue [0x70, 0x03]] }
     (inPhase .group p).port.bitCount = 8 ∧ p.groupBytes.dropLast = [0x70, 0x03]) := by decide +kernel

theorem witness_AddressJudged :
    atAddress.resetnLow = false ∧ atAddress.port.phase = .address ∧
    (0xDA : Byte).toNat / 2 = 0x68 + atAddress.port.strap.val ∧ (0xDA : Byte).toNat % 2 ≠ 1 ∧
    (0xDB : Byte).toNat / 2 = 0x68 + atAddress.port.strap.val ∧ (0xDB : Byte).toNat % 2 = 1 ∧
    atAddress.partState = .operating ∧ atAddress.engine = .idle ∧
    ({ sweeping 0 with port := atAddress.port } : State).partState = .starting ∧
    ({ atAddress with engine := .holding ⟨.ok, []⟩, port := { atAddress.port with frameInTx := true } } :
      State).port.frameInTx = true ∧
    ({ atAddress with engine := .executing ⟨.short, [1]⟩ true } : State).port.frameInTx = false ∧
    (0x1C : Byte).toNat / 2 = 0x0E ∧ ({ atAddress with groupEnable := true } : State).groupEnable = true ∧
    atAddress.groupEnable = false ∧ (0xE0 : Byte).toNat / 2 ≠ 0x68 + atAddress.port.strap.val := by decide +kernel

theorem witness_PhaseBytes :
    (inPhase .write { Port.fresh 0 with frameBytes := List.replicate 39 0 }).port.frameBytes.length < 40 ∧
    40 ≤ (inPhase .write { Port.fresh 0 with frameBytes := List.replicate 40 0 }).port.frameBytes.length ∧
    (inPhase .group { Port.fresh 0 with groupBytes := [1, 2] }).port.groupBytes.length < 3 ∧
    3 ≤ (inPhase .group { Port.fresh 0 with groupBytes := [1, 2, 3] }).port.groupBytes.length ∧
    (inPhase .read { Port.fresh 0 with record := some [0, 0, 0] }).port.record = some [0, 0, 0] ∧
    (inPhase .read { Port.fresh 0 with record := some [0] }).port.phase = .read ∧ part.port.phase = .watching ∧
    (inPhase .passed (Port.fresh 0)).port.phase = .passed := by decide +kernel

theorem witness_BusErrorAndReset :
    1 ≤ 1 ∧ 7 ≤ 7 ∧ part.resetnLow = false ∧ part.sckHeld = false ∧ State.reset.resetnLow = true := by decide +kernel

theorem witness_ImpossibleEventsStop :
    part.resetnLow = false ∧ part.partState = .operating ∧ State.reset.resetnLow = true ∧ part.array = none ∧
    ({ part with leaseTick := .early } : State).leaseTick = .early ∧ part.leaseTick = .settled ∧
    part.tickPhase.val ≠ 9 ∧ ({ part with leaseTick := .due } : State).leaseTick = .due ∧
    ((withLane (inLane .running)).lane 0).state = .running ∧ ((withLane (outLane .running)).lane 0).state = .running ∧
    (commandFields (.identify 0 0)).isSome = true ∧ part.executes (.identify 0 0) = false ∧
    (inPhase .read (Port.fresh 5)).sckHeld = true ∧ (inPhase .group (Port.fresh 5)).port.phase = .group ∧
    atAddress.port.phase = .address ∧ (inPhase .write (Port.fresh 5)).port.phase = .write := by decide +kernel

/-- A part with a tick waiting. -/
def ticking (s : State) : State := { s with pending := [.refreshTick] }

theorem step_ticking (s : State) (h : s.resetnLow = false) : ∃ t, step (ticking s) = .next t := by
  show ∃ t, execRefreshTick { ticking s with pending := [] } = .next t
  unfold execRefreshTick
  rw [if_neg (by show ¬ s.resetnLow = true; simp [h])]
  split <;> exact ⟨_, rfl⟩

theorem witness_StepKeepsMemory :
    (ticking (withTransfer wrapping)).MemoryWf ∧ ∃ t, step (ticking (withTransfer wrapping)) = .next t :=
  ⟨{ cells := by decide +kernel
     records := by decide +kernel
     lanes := fun n => by
       have h : ∀ n, Memory.wf 128 ((withTransfer wrapping).lane n).active = true ∧
         Memory.wf 128 ((withTransfer wrapping).lane n).staging = true := by decide +kernel
       exact h n
     buffers := by decide +kernel
     latched := fun x h => by
       cases h
       decide }, step_ticking _ rfl⟩

theorem witness_StepKeepsBounds :
    (eventsBounded (ticking (full 65535)).events ∧ ∃ t, step (ticking (full 65535)) = .next t) ∧
    ((ticking (contended 4 8 true [])).CountsBounded ∧ ∃ t, step (ticking (contended 4 8 true [])) = .next t) ∧
    (ticking part).SweptWhenOperating ∧ ∃ t, step (ticking part) = .next t :=
  ⟨⟨⟨by decide +kernel, fun _ => ⟨_, rfl, rfl⟩⟩, step_ticking _ rfl⟩,
    ⟨⟨by decide +kernel, by decide +kernel, by decide +kernel, by decide +kernel⟩, step_ticking _ rfl⟩,
    fun _ => ⟨rfl, rfl⟩, step_ticking _ rfl⟩

/-- Two holders share a row. -/
def sharing : State :=
  ((part.setSession 1 (some 1)).setClaim 0
    (some { holder := .ctl 0, kind := .shared, first := 0, count := 2, lease := none })).setClaim 23
    (some { holder := .ctl 1, kind := .shared, first := 1, count := 1, lease := none })

theorem witness_StepKeepsClaims :
    (ticking sharing).ClaimsCompatible ∧ (ticking sharing).ClaimsHeld ∧ ∃ t, step (ticking sharing) = .next t := by
  have slots : ∀ i, (ticking sharing).claim i = none ∨
      (i = 0 ∧ (ticking sharing).claim i =
        some { holder := .ctl 0, kind := .shared, first := 0, count := 2, lease := none }) ∨
      (i = 23 ∧ (ticking sharing).claim i =
        some { holder := .ctl 1, kind := .shared, first := 1, count := 1, lease := none }) := by decide +kernel
  refine ⟨fun i j a b hij ha hb _ => ?_, fun i k h => ?_, step_ticking _ rfl⟩
  · rcases slots i with h | ⟨hi, h⟩ | ⟨hi, h⟩ <;> rcases slots j with g | ⟨hj, g⟩ | ⟨hj, g⟩ <;>
      rw [h] at ha <;> rw [g] at hb <;> cases ha <;> cases hb <;>
      first | exact absurd (hi.trans hj.symm) hij | decide
  · rcases slots i with g | ⟨_, g⟩ | ⟨_, g⟩ <;> rw [g] at h <;> cases h <;>
      (show ((ticking sharing).session _).isSome = true; decide +kernel)

theorem witness_StepKeepsQueue :
    (ticking takeoverPart).QueueBounded ∧ ∃ t, step (ticking takeoverPart) = .next t :=
  ⟨⟨takeoverPart_queueBounded.total, takeoverPart_queueBounded.share, takeoverPart_queueBounded.present,
    takeoverPart_queueBounded.distinct, takeoverPart_queueBounded.issued, takeoverPart_queueBounded.active,
    takeoverPart_queueBounded.orphaned⟩, step_ticking _ rfl⟩

theorem witness_StepKeepsSlots :
    (ticking (loading .priming)).SlotsMatchTags ∧ ∃ t, step (ticking (loading .priming)) = .next t :=
  ⟨fun n => by
    have h : ∀ n, ((loading .priming).lane n).slot.isSome = ((loading .priming).lane n).tag.isPending ∧
      (((loading .priming).lane n).state = .off ∨ ((loading .priming).lane n).state = .idle ∨
        ((loading .priming).lane n).state = .halted → ((loading .priming).lane n).tag = .empty) := by decide +kernel
    exact ⟨(h n).1, (h n).2⟩, step_ticking _ rfl⟩

theorem witness_StepKeepsPort :
    (ticking (inPhase .group (Port.fresh 5))).PortMatchesEngine ∧
    ∃ t, step (ticking (inPhase .group (Port.fresh 5))) = .next t :=
  ⟨⟨⟨nofun, fun h => by rcases h with ⟨_, h⟩ | ⟨_, h⟩ <;> cases h⟩, nofun, nofun, nofun, by decide +kernel,
    by decide +kernel, ⟨nofun, nofun⟩, nofun⟩, step_ticking _ rfl⟩

end Sys2Proof.Tests
end

namespace Sys2Proof.Machine

set_option Elab.async false

/-! ### What every command keeps, said once -/

/-- What a step may not break: the memories, the bounds, the start-up order and the controller queue. Each holds after
it as it held before. -/
structure Kept (s t : State) : Prop where
  memory : s.MemoryWf → t.MemoryWf
  events : eventsBounded s.events → eventsBounded t.events
  counts : s.CountsBounded → t.CountsBounded
  swept : s.SweptWhenOperating → t.SweptWhenOperating
  queue : s.QueueBounded → t.QueueBounded

namespace Kept

variable {s t u : State}

theorem refl (s : State) : Kept s s := ⟨id, id, id, id, id⟩

theorem trans (a : Kept s t) (b : Kept t u) : Kept s u :=
  ⟨b.memory ∘ a.memory, b.events ∘ a.events, b.counts ∘ a.counts, b.swept ∘ a.swept, b.queue ∘ a.queue⟩

theorem foldl {α : Type} {f : State → α → State} (h : ∀ s x, Kept s (f s x)) (xs : List α) (s : State) :
    Kept s (xs.foldl f s) := by
  induction xs generalizing s with
  | nil => exact refl s
  | cons x xs ih => exact (h s x).trans (ih _)

/-- The invariants speak of none of the fields listed. -/
theorem of_unspoken (e : t = { s with
    hardResets := t.hardResets, clock := t.clock, tickPhase := t.tickPhase, leaseTick := t.leaseTick,
    refreshPointer := t.refreshPointer, claims := t.claims, lastLane := t.lastLane, occasion := t.occasion,
    eventCounter := t.eventCounter, mask := t.mask, engine := t.engine, groupEnable := t.groupEnable,
    port := t.port, pending := t.pending }) : Kept s t := by
  rw [e]
  exact ⟨fun h => ⟨h.cells, h.records, h.lanes, h.buffers, h.latched⟩, id,
    fun h => ⟨h.debt, h.streak, h.log, h.lists⟩, id,
    fun h => ⟨h.total, h.share, h.present, h.distinct, h.issued, h.active, h.orphaned⟩⟩

end Kept

/-! ### The operation in flight and the queue it serves -/

/-- The operation in flight stands, but that its delivery may have become DISCARD (R5). -/
def FlightStands (a b : Option Operation) : Prop :=
  b = a ∨ ∃ x, a = some (.transfer x) ∧ b = some (.transfer { x with discard := true })

theorem FlightStands.refl (a : Option Operation) : FlightStands a a := .inl rfl

theorem FlightStands.trans {a b c : Option Operation} (h : FlightStands a b) (k : FlightStands b c) :
    FlightStands a c := by
  rcases h with rfl | ⟨x, rfl, rfl⟩
  · exact k
  · rcases k with rfl | ⟨y, hy, rfl⟩
    · exact .inr ⟨x, rfl, rfl⟩
    · cases hy
      exact .inr ⟨x, rfl, rfl⟩

/-- A transfer that stands is of the same request, and one after it comes from one before it. -/
theorem FlightStands.transfer {a b : Option Operation} (h : FlightStands a b) {x : Transfer}
    (hx : a = some (.transfer x)) : ∃ y, b = some (.transfer y) ∧ y.requester = x.requester ∧ y.ticket = x.ticket ∧
      y.softReset = x.softReset := by
  rcases h with rfl | ⟨z, rfl, rfl⟩
  · exact ⟨x, hx, rfl, rfl, rfl⟩
  · cases hx
    exact ⟨_, rfl, rfl, rfl, rfl⟩

theorem FlightStands.latched {a b : Option Operation} (h : FlightStands a b)
    (ha : ∀ x, a = some (.transfer x) → ∀ p ∈ x.latched, p.1 < 128) :
    ∀ x, b = some (.transfer x) → ∀ p ∈ x.latched, p.1 < 128 := by
  rcases h with rfl | ⟨z, rfl, rfl⟩
  · exact ha
  · intro x hx
    cases hx
    exact ha z rfl

theorem State.cancelDelivery_flight (s : State) (p : Party) : FlightStands s.array (s.cancelDelivery p).array := by
  unfold State.cancelDelivery
  split
  · rename_i x hx
    split
    · exact .inr ⟨x, hx, rfl⟩
    · exact .refl _
  · exact .refl _

theorem LaneActs.flight {n : LaneId} {s t : State} (h : LaneActs n s t) : FlightStands s.array t.array := by
  induction h with
  | refl => exact .refl _
  | lane _ l _ ih => exact ih
  | post _ p ih => rw [State.post_array]; exact ih
  | occasion _ ih => exact ih
  | cancel _ ih => exact ih.trans (State.cancelDelivery_flight _ _)

/-- Requests leave the queue and change their states, but none becomes ACTIVE. -/
structure QueueShrinks (a b : List QueueRequest) : Prop where
  asked : (b.map QueueRequest.asked).Sublist (a.map QueueRequest.asked)
  active : ∀ q ∈ b, q.state = .active → ∃ p ∈ a, p.state = .active ∧ p.ticket = q.ticket ∧ p.ctl = q.ctl

theorem QueueShrinks.refl (a : List QueueRequest) : QueueShrinks a a := ⟨.refl _, fun q hq h => ⟨q, hq, h, rfl, rfl⟩⟩

theorem QueueShrinks.of_sublist {a b : List QueueRequest} (h : b.Sublist a) : QueueShrinks a b :=
  ⟨h.map _, fun q hq e => ⟨q, h.subset hq, e, rfl, rfl⟩⟩

/-- Each request keeps its place and what it asks for. -/
theorem QueueShrinks.of_map (a : List QueueRequest) (f : QueueRequest → RequestState)
    (h : ∀ q ∈ a, f q = .active → q.state = .active) :
    QueueShrinks a (a.map fun q => { q with state := f q }) := by
  refine ⟨by simp only [List.map_map]; exact .refl _, fun q hq e => ?_⟩
  obtain ⟨p, hp, rfl⟩ := List.mem_map.mp hq
  exact ⟨p, hp, h p hp e, rfl, rfl⟩

/-- A queue that shrinks holds no request, of a ticket and controller number, that was not there. -/
theorem mem_of_asked_sublist {a b : List QueueRequest}
    (h : (b.map QueueRequest.asked).Sublist (a.map QueueRequest.asked)) {q : QueueRequest} (hq : q ∈ b) :
    ∃ p ∈ a, p.ticket = q.ticket ∧ p.ctl = q.ctl := by
  obtain ⟨p, hp, e⟩ := List.mem_map.mp (h.subset (List.mem_map_of_mem hq))
  exact ⟨p, hp, show p.asked.ticket = q.asked.ticket by rw [e], show p.asked.ctl = q.asked.ctl by rw [e]⟩

/-- The part of the queue's invariant that does not speak of the operation in flight. -/
structure QueueListed (queue : List QueueRequest) (present : Ctl → Prop) : Prop where
  total : queue.length ≤ 12
  share : ∀ c, (queue.filter fun q => q.ctl = c).length ≤ 3
  present : ∀ q ∈ queue, present q.ctl
  distinct : (queue.map (·.ticket)).Nodup
  issued : ∀ q ∈ queue, q.ticket ≠ 0

theorem QueueListed.shrink {a b : List QueueRequest} {present : Ctl → Prop} (h : QueueListed a present)
    (hb : (b.map QueueRequest.asked).Sublist (a.map QueueRequest.asked)) : QueueListed b present where
  total := by simpa using hb.length_le.trans (by simpa using h.total)
  share c := by
    have hf : ∀ l : List QueueRequest, ((l.map QueueRequest.asked).filter fun q => q.ctl = c).length =
        (l.filter fun q => q.ctl = c).length := fun l => by
      rw [List.filter_map, List.length_map]; rfl
    have := (hb.filter fun q => q.ctl = c).length_le
    rw [hf, hf] at this
    exact this.trans (h.share c)
  present q hq := by
    obtain ⟨p, hp, -, hc⟩ := mem_of_asked_sublist hb hq
    exact hc ▸ h.present p hp
  distinct := by
    have ht : ∀ l : List QueueRequest, (l.map QueueRequest.asked).map (·.ticket) = l.map (·.ticket) := fun l => by
      rw [List.map_map]; rfl
    have := hb.map (·.ticket)
    rw [ht, ht] at this
    exact h.distinct.sublist this
  issued q hq := by
    obtain ⟨p, hp, hk, -⟩ := mem_of_asked_sublist hb hq
    exact hk ▸ h.issued p hp

theorem State.QueueBounded.listed {s : State} (h : s.QueueBounded) :
    QueueListed s.queue fun c => (s.session c).isSome = true :=
  ⟨h.total, h.share, h.present, h.distinct, h.issued.1⟩

theorem State.queueBounded_of_listed {s : State} (h : QueueListed s.queue fun c => (s.session c).isSome = true)
    (issued : s.nextTicket ≠ 0)
    (active : ∀ q ∈ s.queue, q.state = .active → s.orphan ≠ some q.ticket ∧ ∃ x, s.array = some (.transfer x) ∧
      x.requester = .ctl q.ctl ∧ x.ticket = some q.ticket ∧ x.softReset = false)
    (orphaned : ∀ t, s.orphan = some t → ∃ x c, s.array = some (.transfer x) ∧ x.requester = .ctl c ∧
      x.ticket = some t ∧ x.softReset = false) : s.QueueBounded :=
  ⟨h.total, h.share, h.present, h.distinct, ⟨h.issued, issued⟩, active, orphaned⟩

/-- The queue's invariant while the operation in flight, the orphan and the sessions stand and the queue shrinks. -/
theorem State.QueueBounded.shrink {s t : State} (h : s.QueueBounded) (hq : QueueShrinks s.queue t.queue)
    (hs : t.sessions = s.sessions) (hn : t.nextTicket = s.nextTicket) (ho : t.orphan = s.orphan)
    (hf : FlightStands s.array t.array) : t.QueueBounded := by
  have hsession : ∀ c, t.session c = s.session c := fun c => by unfold State.session; rw [hs]
  refine State.queueBounded_of_listed ?_ (hn ▸ h.issued.2) (fun q hm ha => ?_) (fun k hk => ?_)
  · simp only [hsession]
    exact h.listed.shrink hq.asked
  · obtain ⟨p, hp, hpa, hk, hc⟩ := hq.active q hm ha
    obtain ⟨hne, x, hx, hr, ht, hz⟩ := h.active p hp hpa
    obtain ⟨y, hy, e1, e2, e3⟩ := hf.transfer hx
    exact ⟨by rw [ho, ← hk]; exact hne, y, hy, by rw [e1, hr, hc], by rw [e2, ht, hk], by rw [e3, hz]⟩
  · obtain ⟨x, c, hx, hr, ht, hz⟩ := h.orphaned k (ho ▸ hk)
    obtain ⟨y, hy, e1, e2, e3⟩ := hf.transfer hx
    exact ⟨y, c, hy, by rw [e1, hr], by rw [e2, ht], by rw [e3, hz]⟩

/-! ### Events at a lane, posts, records and refusals -/

/-- What the arbiter, a refusal or a report keeps is kept, when also the operation in flight stands and no request
becomes ACTIVE. -/
theorem ArbiterKeeps.kept {s t : State} (h : ArbiterKeeps s t) (hf : FlightStands s.array t.array)
    (hq : QueueShrinks s.queue t.queue) : Kept s t := by
  have f := h.frame
  have hb : ∀ c, t.buffer c = s.buffer c := fun c => by unfold State.buffer; rw [f]
  refine ⟨fun m => ⟨by rw [f]; exact m.cells, by rw [f]; exact m.records, fun n => (h.lanes n).memory (m.lanes n),
      fun c => hb c ▸ m.buffers c, hf.latched m.latched⟩, h.events,
    fun c => ⟨by rw [f]; exact c.debt, h.streak c.streak, h.log c.log, fun n => (h.lanes n).list.trans (c.lists n)⟩,
    fun o => by rw [f]; exact o, fun q => q.shrink hq (by rw [f]) (by rw [f]) (by rw [f]) hf⟩

theorem LaneActs.kept {n : LaneId} {s t : State} (h : LaneActs n s t) : Kept s t := by
  have f := h.frame
  unfold LaneFrame at f
  exact (ArbiterKeeps.of_acts h).kept h.flight (by rw [f]; exact .refl _)

variable (s : State)

theorem kept_post (p : Post) : Kept s (s.post p) :=
  ((ArbiterKeeps.refl s).post p).kept (by rw [State.post_array]; exact .refl _)
    (by rw [State.post_queue]; exact .refl _)

theorem kept_dequeue (k : Half) : Kept s (s.dequeue k) :=
  (keeps_dequeue s k).kept (.refl _) (.of_sublist List.filter_sublist)

theorem kept_record (k : Half) (c : Ctl) (w : Work) (o : OutcomeCode) (g : Option Half) :
    Kept s (s.record k c w o g) := (keeps_record s k c w o g).kept (.refl _) (.refl _)

theorem kept_finish (q : QueueRequest) (o : OutcomeCode) (g : Option Half) : Kept s (s.finish q o g) :=
  (keeps_finish s q o g).kept (by rw [State.finish_array]; exact .refl _) (by rw [State.finish_queue]; exact .refl _)

/-- A request that leaves the queue finished (R51, R62, R49, R46). -/
theorem kept_dequeue_finish (k : Half) (q : QueueRequest) (o : OutcomeCode) (g : Option Half) :
    Kept s ((s.dequeue k).finish q o g) := (kept_dequeue s k).trans (kept_finish _ q o g)

theorem kept_refuseSlot (n : LaneId) : Kept s (s.refuseSlot n) := (acts_refuseSlot s n).kept

theorem kept_refuseAll (qs : List QueueRequest) (ns : List LaneId) : Kept s (s.refuseAll qs ns) :=
  (Kept.foldl (fun s q => kept_dequeue_finish s _ q _ _) qs s).trans (Kept.foldl kept_refuseSlot ns _)

theorem kept_markTested : Kept s s.markTested := by
  refine (keeps_markTested s).kept (.refl _) (.of_map _ _ fun q _ h => ?_)
  unfold testedState at h
  split at h
  · split at h <;> cases h
  · exact h

theorem State.tickBlocked_lane (m : LaneId) : s.tickBlocked.lane m =
    { s.lane m with slot := (s.lane m).slot.map fun q => { q with state := q.state.tick } } := by
  show (Vector.map _ s.lanes)[m.val] = _
  rw [Vector.getElem_map]
  rfl

theorem kept_tickBlocked : Kept s s.tickBlocked := by
  refine ArbiterKeeps.kept (.of_fields rfl (fun m => ?_) ?_ rfl rfl rfl) (.refl _) (.of_map _ _ fun q _ h => ?_)
  · rw [State.tickBlocked_lane]; exact .of_eq rfl rfl (le_refl _) rfl rfl
  · simp only [State.tickBlocked, List.map_map]; rfl
  · cases e : q.state with
    | active => rfl
    | waiting => rw [e] at h; cases h
    | blocked b => rw [e] at h; cases h

end Sys2Proof.Machine

namespace Sys2Proof.Machine

set_option Elab.async false

variable (s : State)

/-! ### The arbiter -/

/-- What an operation copies at its start lies within a row (R4). -/
theorem State.latch_lt (w : Work) (m : Memory) : ∀ p ∈ s.latch w m, p.1 < 128 := by
  intro p hp
  have of_span : ∀ (sp : Span) (f : Nat → Byte), p ∈ sp.cells.map (fun k => (k, f k)) → p.1 < 128 := by
    intro sp f h
    obtain ⟨k, hk, rfl⟩ := List.mem_map.mp h
    exact Span.mem_cells_lt sp k hk
  cases w with
  | load r => simp [State.latch] at hp
  | store r sp => exact of_span sp _ hp
  | cstore r sp e => exact of_span sp _ hp
  | fill r sp v => simp [State.latch] at hp
  | copy a b sp => exact of_span sp _ hp

/-- At an idle array no request is ACTIVE and none is orphaned. -/
theorem State.QueueBounded.idle {s : State} (h : s.QueueBounded) (ha : s.array = none) :
    (∀ q ∈ s.queue, q.state ≠ .active) ∧ s.orphan = none := by
  refine ⟨fun q hq e => ?_, ?_⟩
  · obtain ⟨-, x, hx, -⟩ := h.active q hq e
    exact absurd (ha.symm.trans hx) nofun
  · cases ho : s.orphan with
    | none => rfl
    | some k =>
      obtain ⟨x, c, hx, -⟩ := h.orphaned k ho
      exact absurd (ha.symm.trans hx) nofun

theorem State.MemoryWf.with_array {s t : State} (h : s.MemoryWf) (hc : t.cells = s.cells) (hr : t.records = s.records)
    (hl : ∀ n, (s.lane n).Keeps (t.lane n)) (hb : t.buffers = s.buffers)
    (ha : ∀ x, t.array = some (.transfer x) → ∀ p ∈ x.latched, p.1 < 128) : t.MemoryWf :=
  ⟨hc ▸ h.cells, hr ▸ h.records, fun n => (hl n).memory (h.lanes n),
    fun c => by unfold State.buffer; rw [hb]; exact h.buffers c, ha⟩

theorem State.CountsBounded.with_lanes {s t : State} (h : s.CountsBounded) (hd : t.refreshDebt = s.refreshDebt)
    (hk : t.streak = s.streak) (hg : t.log = s.log) (hl : ∀ n, (s.lane n).Keeps (t.lane n)) : t.CountsBounded :=
  ⟨hd ▸ h.debt, hk ▸ h.streak, hg ▸ h.log, fun n => (hl n).list.trans (h.lists n)⟩

theorem State.startSlot_array (n : LaneId) (q : SlotRequest) (h : (s.lane n).slot = some q) :
    (s.startSlot n).array = some (.transfer (s.inFlight q.work (.lane n) none (s.lane n).staging)) := by
  simp only [State.startSlot, h]

/-- The start of a slot request at an idle array. -/
theorem kept_startSlot (n : LaneId) (ha : s.array = none) : Kept s (s.startSlot n) := by
  have k := keeps_startSlot s n
  have f := k.frame
  cases h : (s.lane n).slot with
  | none =>
    have : s.startSlot n = s := by simp only [State.startSlot, h]
    rw [this]; exact .refl s
  | some q =>
    have hx := State.startSlot_array s n q h
    have hq : (s.startSlot n).queue = s.queue := by simp only [State.startSlot, h, State.modLane_queue]
    have hl : (s.startSlot n).log = s.log := by simp only [State.startSlot, h, State.modLane_log]
    have hs : (s.startSlot n).streak = s.streak := by simp only [State.startSlot, h, State.modLane_streak]
    refine ⟨fun m => m.with_array (by rw [f]) (by rw [f]) k.lanes (by rw [f]) fun x e => ?_, k.events,
      fun c => c.with_lanes (by rw [f]) hs hl k.lanes, fun o => by rw [f]; exact o, fun b => ?_⟩
    · rw [hx] at e; cases e
      exact State.latch_lt s _ _
    · obtain ⟨hno, ho⟩ := b.idle ha
      refine State.queueBounded_of_listed ?_ (by rw [f]; exact b.issued.2) (fun r hr => ?_) (fun t ht => ?_)
      · have : ∀ c, (s.startSlot n).session c = s.session c := fun c => by unfold State.session; rw [f]
        simp only [this]; rw [hq]; exact b.listed
      · exact fun e => absurd e (hno r (hq ▸ hr))
      · rw [f] at ht; exact absurd (ho.symm.trans ht) nofun

/-- The start of a queued request at an idle array, when its ticket is of one controller number only. -/
theorem Kept.startRequest {s t : State} (k : Kept s t) (q : QueueRequest) (ha : t.array = none)
    (hc : s.QueueBounded → ∀ r ∈ t.queue, r.ticket = q.ticket → r.ctl = q.ctl) : Kept s (t.startRequest q) := by
  have g := keeps_startRequest t q
  refine ⟨fun m => (k.memory m).with_array rfl rfl g.lanes rfl fun x e => ?_, k.events,
    fun c => (k.counts c).with_lanes rfl rfl rfl g.lanes, k.swept, fun b => ?_⟩
  · cases e
    exact State.latch_lt t _ _
  · have c := k.queue b
    obtain ⟨hno, ho⟩ := c.idle ha
    refine State.queueBounded_of_listed (c.listed.shrink g.queue) c.issued.2 (fun p hp e => ?_) (fun n hn => ?_)
    · obtain ⟨r, hr, rfl⟩ := List.mem_map.mp hp
      by_cases hk : r.ticket = q.ticket
      · refine ⟨?_, _, rfl, ?_, ?_, rfl⟩
        · show t.orphan ≠ _
          rw [ho]; exact nofun
        · simp only [hk, if_true]; exact congrArg Party.ctl (hc b r hr hk).symm
        · simp only [hk, if_true]; rfl
      · simp only [hk, if_false] at e
        exact absurd e (hno r hr)
    · exact absurd (ho.symm.trans hn) nofun

theorem kept_startRefresh (ha : s.array = none) : Kept s s.startRefresh := by
  refine ⟨fun m => m.with_array rfl rfl (fun _ => .refl _) rfl nofun, id,
    fun c => ⟨c.debt, c.streak, c.log, c.lists⟩, id, fun b => ?_⟩
  obtain ⟨hno, ho⟩ := b.idle ha
  exact State.queueBounded_of_listed b.listed b.issued.2 (fun r hr e => absurd e (hno r hr))
    (fun t ht => absurd (ho.symm.trans ht) nofun)

/-- A queued request is chosen only from the runnable ones (R58). -/
theorem choose_request (debt streak : Nat) (last : LaneId) (f : LaneId → Bool) (qs : List QueueRequest)
    (q : QueueRequest) (h : choose debt streak last f qs = .request q) : q ∈ qs := by
  unfold choose at h
  split at h
  · cases h
  · split at h
    · cases h
    · split at h
      · cases h; exact List.mem_cons_self
      · cases h
    · cases h; exact List.mem_cons_self
    · split at h <;> cases h

/-- Two requests of a bounded queue with one ticket are one request. -/
theorem State.QueueBounded.same {s : State} (h : s.QueueBounded) {p q : QueueRequest} (hp : p ∈ s.queue)
    (hq : q ∈ s.queue) (e : p.ticket = q.ticket) : p = q := List.inj_on_of_nodup_map h.distinct hp hq e

/-- What a selection leaves before it starts anything: its tests and its refusals (R57). -/
def State.afterRefusals (s : State) : State :=
  s.markTested.refuseAll (s.queue.filter s.refusedAtOnce) ((List.finRange 4).filter s.slotRefusedAtOnce)

/-- What a selection chooses (R58). -/
def State.choice (s : State) : Choice :=
  choose s.refreshDebt s.streak s.lastLane s.slotRunnable (s.queue.filter s.requestRunnable)

theorem State.select_eq : s.select = { s.afterRefusals.start s.choice with
    streak := streakAfter s.streak (!(s.queue.filter s.requestRunnable).isEmpty) s.choice } := rfl

theorem keeps_afterRefusals : ArbiterKeeps s s.afterRefusals := (keeps_markTested s).trans (keeps_refuseAll _ _ _)

theorem kept_afterRefusals : Kept s s.afterRefusals := (kept_markTested s).trans (kept_refuseAll _ _ _)

theorem State.afterRefusals_idle (ha : s.array = none) : s.afterRefusals.array = none :=
  (State.refuseAll_spec _ _ s.markTested).2.2.2.2 ha

/-- The chosen candidate starts. -/
theorem kept_start_choice (ha : s.array = none) : Kept s (s.afterRefusals.start s.choice) := by
  have k := kept_afterRefusals s
  have idle := State.afterRefusals_idle s ha
  cases hc : s.choice with
  | refresh => exact k.trans (kept_startRefresh _ idle)
  | slot n => exact k.trans (kept_startSlot _ n idle)
  | nothing => exact k
  | request q =>
    have hm : q ∈ s.queue := (List.mem_filter.mp (choose_request _ _ _ _ _ q hc)).1
    refine k.startRequest q idle fun b r hr e => ?_
    obtain ⟨p, hp, hk, hp'⟩ := mem_of_asked_sublist (keeps_afterRefusals s).queue hr
    rw [← hp', b.same hp hm (hk.trans e)]

/-- One selection at an idle array. -/
theorem kept_select (ha : s.array = none) : Kept s s.select := by
  have k := kept_start_choice s ha
  rw [State.select_eq]
  exact ⟨fun m => (k.memory m).with_array rfl rfl (fun _ => .refl _) rfl (k.memory m).latched, k.events,
    fun c => ⟨(k.counts c).debt, streakAfter_le _ _ _ _ _ c.streak, (k.counts c).log, (k.counts c).lists⟩, k.swept,
    fun b => (k.queue b).shrink (.refl _) rfl rfl rfl (.refl _)⟩

theorem kept_arbitrateFor (fuel : Nat) (s : State) : Kept s (arbitrateFor fuel s) := by
  induction fuel generalizing s with
  | zero => exact .refl s
  | succ fuel ih =>
    have taken : Kept s { s with occasion := false } := .of_unspoken rfl
    unfold arbitrateFor
    split
    · split
      · rename_i h
        exact (taken.trans (kept_select _ h.1)).trans (ih _)
      · exact taken
    · exact .refl s

/-- The arbiter's selections of a step. -/
theorem kept_arbitrate : Kept s s.arbitrate := kept_arbitrateFor _ s

/-! ### Completions -/

theorem kept_writeEffects (x : Transfer) (hx : s.array = some (.transfer x)) : Kept s (s.writeEffects x) := by
  have f := State.writeEffects_frame s x
  refine ⟨fun m => ⟨?_, ?_, by rw [f]; exact m.lanes, by rw [f]; exact m.buffers, by rw [f]; exact m.latched⟩,
    by rw [f]; exact id, fun c => by rw [f]; exact ⟨c.debt, c.streak, c.log, c.lists⟩, by rw [f]; exact id,
    fun b => b.shrink (by rw [f]; exact .refl _) (by rw [f]) (by rw [f]) (by rw [f]) (by rw [f]; exact .refl _)⟩
  · unfold State.writeEffects
    split
    · refine Memory.wf_writeAll _ _ _ _ m.cells fun p hp => rowBase_add_lt _ _ ?_
      unfold Transfer.written at hp
      split at hp
      · simp at hp
      · obtain ⟨k, hk, rfl⟩ := List.mem_map.mp hp
        exact Span.mem_cells_lt _ k hk
      · exact m.latched x hx p hp
    · exact m.cells
  · unfold State.writeEffects
    split
    · exact Table.wf_write _ _ _ _ _ m.records x.work.row.isLt
    · exact m.records

theorem State.credit_le (r : RowId) : (s.credit r).refreshDebt ≤ s.refreshDebt := by
  unfold State.credit
  split
  · exact Nat.sub_le _ _
  · exact le_refl _

theorem kept_debt (d : Nat) (r : RowId) (h : s.refreshDebt ≤ 4 → d ≤ 4) :
    Kept s { s with refreshDebt := d, refreshPointer := r } :=
  ⟨fun m => ⟨m.cells, m.records, m.lanes, m.buffers, m.latched⟩, id,
    fun c => ⟨h c.debt, c.streak, c.log, c.lists⟩, id,
    fun b => b.shrink (.refl _) rfl rfl rfl (.refl _)⟩

theorem kept_credit (r : RowId) : Kept s (s.credit r) := by
  rw [State.credit_frame]
  exact kept_debt s _ _ (State.credit_le s r).trans

theorem kept_credits (x : Transfer) : Kept s (s.credits x) := Kept.foldl kept_credit _ s

theorem kept_setBuffer (c : Ctl) (m : Memory) (h : s.MemoryWf → m.wf 128 = true) : Kept s (s.setBuffer c m) := by
  refine ⟨fun w => ⟨w.cells, w.records, w.lanes, fun d => ?_, w.latched⟩, id,
    fun c => ⟨c.debt, c.streak, c.log, c.lists⟩, id, fun b => b.shrink (.refl _) rfl rfl rfl (.refl _)⟩
  rw [State.setBuffer_buffer]
  split
  · exact h w
  · exact w.buffers d

/-- A lane with its registers in canonical form and its list within bounds when they were. -/
theorem kept_setLane (n : LaneId) (l : Lane) (hm : (s.lane n).memoryWf → l.memoryWf)
    (hl : (s.lane n).list.entries.length ≤ 16 → l.list.entries.length ≤ 16) : Kept s (s.setLane n l) := by
  refine ⟨fun w => ⟨w.cells, w.records, fun m => ?_, w.buffers, w.latched⟩, id,
    fun c => ⟨c.debt, c.streak, c.log, fun m => ?_⟩, id, fun b => b.shrink (.refl _) rfl rfl rfl (.refl _)⟩ <;>
    rw [State.setLane_lane] <;> split
  · exact hm (w.lanes n)
  · exact w.lanes m
  · exact hl (c.lists n)
  · exact c.lists m

theorem kept_deliver (x : Transfer) : Kept s (s.deliver x) := by
  unfold State.deliver
  split
  · split
    · exact kept_setLane s _ _ (fun h => ⟨h.1, Memory.wf_ofCells _ _⟩) id
    · exact kept_setBuffer s _ _ fun _ => Memory.wf_ofCells _ _
  · exact .refl s

/-- An orphaned ticket is forgotten. -/
theorem kept_forget : Kept s { s with orphan := none } := by
  refine ⟨fun m => ⟨m.cells, m.records, m.lanes, m.buffers, m.latched⟩, id,
    fun c => ⟨c.debt, c.streak, c.log, c.lists⟩, id, fun b => ?_⟩
  exact State.queueBounded_of_listed b.listed b.issued.2 (fun q hq e => ⟨nofun, (b.active q hq e).2⟩) nofun

theorem kept_queueReport (c : Ctl) (k : Half) (x : Transfer) : Kept s (s.queueReport c k x) := by
  unfold State.queueReport
  split
  · exact .refl s
  · split
    · exact (kept_record s k c x.work x.outcome x.orphanGeneration).trans (kept_forget _)
    · split
      · exact kept_dequeue_finish s k _ _ _
      · exact .refl s

theorem acts_laneReport (n : LaneId) (x : Transfer) : LaneActs n s (s.laneReport n x) := by
  unfold State.laneReport
  split
  · exact .refl
  · split
    · exact acts_loadReport s n _
    · exact acts_storeReport s n _

theorem kept_report (x : Transfer) : Kept s (s.report x) := by
  unfold State.report
  split
  · exact (acts_laneReport s _ x).kept
  · exact kept_queueReport s _ _ x
  · exact .refl s

/-- The completion report takes the request in flight from the queue, and the orphan: neither is left (R51, R62). -/
theorem State.QueueBounded.reported {s : State} (b : s.QueueBounded) {x : Transfer}
    (hx : s.array = some (.transfer x)) :
    (∀ q ∈ (s.report x).queue, q.state ≠ .active) ∧ (s.report x).orphan = none := by
  have of_active : ∀ q ∈ s.queue, q.state = .active →
      s.orphan ≠ some q.ticket ∧ x.requester = .ctl q.ctl ∧ x.ticket = some q.ticket ∧ x.softReset = false := by
    intro q hq e
    obtain ⟨ho, y, hy, h⟩ := b.active q hq e
    cases hx.symm.trans hy
    exact ⟨ho, h⟩
  have of_orphan : ∀ k, s.orphan = some k → x.ticket = some k ∧ x.softReset = false ∧ ∀ n, x.requester ≠ .lane n := by
    intro k hk
    obtain ⟨y, c, hy, hr, ht, hz⟩ := b.orphaned k hk
    cases hx.symm.trans hy
    exact ⟨ht, hz, fun n e => by rw [hr] at e; cases e⟩
  have none_of : (∀ k, s.orphan ≠ some k) → s.orphan = none := Option.eq_none_iff_forall_ne_some.mpr
  unfold State.report
  split
  · rename_i n hr
    have f := (acts_laneReport s n x).frame
    unfold LaneFrame at f
    rw [f]
    exact ⟨fun q hq e => (by have := (of_active q hq e).2.1; rw [hr] at this; cases this),
      none_of fun k hk => (of_orphan k hk).2.2 n hr⟩
  · rename_i c k hr ht
    unfold State.queueReport
    split
    · rename_i hz
      exact ⟨fun q hq e => (by have := (of_active q hq e).2.2.2; rw [hz] at this; cases this),
        none_of fun k hk => (by have := (of_orphan k hk).2.1; rw [hz] at this; cases this)⟩
    · split
      · rename_i ho
        exact ⟨fun q hq e => (of_active q hq e).1 ((of_active q hq e).2.2.1 ▸ ht ▸ ho), rfl⟩
      · rename_i ho
        have orphan : s.orphan = none := none_of fun j hj => ho (hj.trans ((of_orphan j hj).1.symm.trans ht))
        split
        · refine ⟨fun q hq e => ?_, by simp [orphan]⟩
          rw [State.finish_queue] at hq
          obtain ⟨hq, hne⟩ := List.mem_filter.mp hq
          have := (of_active q hq e).2.2.1
          rw [ht] at this
          cases this
          simp at hne
        · rename_i hn
          refine ⟨fun q hq e => ?_, orphan⟩
          have := (of_active q hq e).2.2.1
          rw [ht] at this
          cases this
          have := List.find?_eq_none.mp hn q hq
          simp at this
  · rename_i c hr ht
    exact ⟨fun q hq e => (by have := (of_active q hq e).2.2.1; rw [ht] at this; cases this),
      none_of fun k hk => (by have := (of_orphan k hk).1; rw [ht] at this; cases this)⟩

/-- The array becomes idle when no request is ACTIVE and none is orphaned. -/
theorem Kept.idle {s t : State} (k : Kept s t)
    (h : s.QueueBounded → (∀ q ∈ t.queue, q.state ≠ .active) ∧ t.orphan = none) :
    Kept s { t with array := none } := by
  refine ⟨fun m => (k.memory m).with_array rfl rfl (fun _ => .refl _) rfl nofun, k.events,
    fun c => ⟨(k.counts c).debt, (k.counts c).streak, (k.counts c).log, (k.counts c).lists⟩, k.swept, fun b => ?_⟩
  obtain ⟨hno, ho⟩ := h b
  exact State.queueBounded_of_listed (k.queue b).listed (k.queue b).issued.2 (fun q hq e => absurd e (hno q hq))
    (fun n hn => absurd (ho.symm.trans hn) nofun)

/-- The completion of a lane or controller operation. -/
theorem kept_completeTransfer (x : Transfer) (hx : s.array = some (.transfer x)) : Kept s (s.completeTransfer x) := by
  have delivered : Kept s (((s.writeEffects x).credits x).deliver x) :=
    ((kept_writeEffects s x hx).trans (kept_credits _ x)).trans (kept_deliver _ x)
  have stands : (((s.writeEffects x).credits x).deliver x).array = some (.transfer x) := by
    rw [State.deliver_frame, State.credits_frame, State.writeEffects_frame]; exact hx
  exact ((delivered.trans (kept_report _ x)).trans (.of_unspoken rfl)).idle
    fun b => (delivered.queue b).reported stands

theorem kept_completeRefresh (r : RowId) (h : s.array = some (.refresh r)) : Kept s s.completeRefresh := by
  have none_flying : s.QueueBounded → (∀ q ∈ s.queue, q.state ≠ .active) ∧ s.orphan = none := by
    refine fun b => ⟨fun q hq e => ?_, Option.eq_none_iff_forall_ne_some.mpr fun k hk => ?_⟩
    · obtain ⟨-, x, hx, -⟩ := b.active q hq e
      exact absurd (h.symm.trans hx) nofun
    · obtain ⟨x, c, hx, -⟩ := b.orphaned k hk
      exact absurd (h.symm.trans hx) nofun
  have paid := kept_debt s (s.refreshDebt - 1) (s.refreshPointer + 1) fun h => (Nat.sub_le _ _).trans h
  exact (paid.idle none_flying).trans (.of_unspoken rfl)

end Sys2Proof.Machine

namespace Sys2Proof.Machine

set_option Elab.async false

variable (s : State)

/-! ### Claims, sessions and resets -/

theorem kept_endClaim (which : Claim → Bool) (cause : Cause) (i : ClaimId) : Kept s (s.endClaim which cause i) := by
  have emptied : Kept s (s.setClaim i none) := .of_unspoken rfl
  unfold State.endClaim
  split
  · split
    · exact emptied.trans (kept_post _ _)
    · exact .refl s
  · exact .refl s

theorem kept_raise : Kept s s.raise := .of_unspoken rfl

theorem kept_endClaims (which : Claim → Bool) (cause : Cause) : Kept s (s.endClaims which cause) := by
  have k : Kept s ((List.finRange 24).foldl (State.endClaim which cause) s) :=
    Kept.foldl (fun s i => kept_endClaim s which cause i) _ s
  unfold State.endClaims
  dsimp only
  split
  · exact k
  · exact k.trans (kept_raise _)

theorem kept_withdrawWaiting (c : Ctl) : Kept s (s.withdrawWaiting c) := by
  have withdraws : ∀ (s : State) (q : QueueRequest), Kept s ((s.dequeue q.ticket).finish q .withdrawn none) :=
    fun s q => kept_dequeue_finish s _ q _ _
  unfold State.withdrawWaiting
  exact Kept.foldl withdraws _ _

/-- The withdrawal of waiting requests takes them from the queue and changes nothing of it otherwise (R62). -/
theorem State.withdrawals_queue (qs : List QueueRequest) (s : State) :
    (qs.foldl (fun s q => (s.dequeue q.ticket).finish q .withdrawn none) s).queue =
      s.queue.filter fun r => r.ticket ∉ qs.map (·.ticket) := by
  induction qs generalizing s with
  | nil => simp
  | cons q qs ih =>
    rw [List.foldl_cons, ih, State.finish_queue]
    simp only [State.dequeue, List.filter_filter]
    congr 1
    funext r
    simp only [List.map_cons, List.mem_cons, not_or, ne_eq, Bool.decide_and, Bool.and_comm]

/-- The one ACTIVE request of a controller number becomes the orphan, its delivery cancelled (R62 step 2). -/
theorem kept_orphanActive (c : Ctl) : Kept s (s.orphanActive c) := by
  unfold State.orphanActive
  cases hf : s.queue.find? fun q => q.ctl = c && q.state.isActive with
  | none => exact .refl s
  | some q =>
    have cancelled : Kept s ((s.dequeue q.ticket).cancelDelivery (.ctl c)) :=
      (kept_dequeue s _).trans (ArbiterKeeps.kept (.of_fields (by rw [State.cancelDelivery_frame])
        (fun _ => by rw [State.cancelDelivery_lane]; exact .refl _) (by rw [State.cancelDelivery_queue])
        (State.cancelDelivery_events _ _) (State.cancelDelivery_log _ _) (State.cancelDelivery_streak _ _))
        (State.cancelDelivery_flight _ _) (by rw [State.cancelDelivery_queue]; exact .refl _))
    have hm := List.mem_of_find?_eq_some hf
    have ha : q.state = .active := by
      have := List.find?_some hf
      cases e : q.state <;> simp [e, RequestState.isActive] at this ⊢
    have flight := State.cancelDelivery_flight (s.dequeue q.ticket) (.ctl c)
    refine ⟨fun m => (cancelled.memory m).with_array rfl rfl (fun _ => .refl _) rfl (cancelled.memory m).latched,
      cancelled.events, fun d => ⟨(cancelled.counts d).debt, (cancelled.counts d).streak, (cancelled.counts d).log,
        (cancelled.counts d).lists⟩, cancelled.swept, fun b => ?_⟩
    have k := cancelled.queue b
    refine State.queueBounded_of_listed k.listed k.issued.2 (fun r hr e => ⟨fun h => ?_, (k.active r hr e).2⟩)
      (fun n hn => ?_)
    · replace hr : r ∈ (s.dequeue q.ticket).queue := State.cancelDelivery_queue _ _ ▸ hr
      have := (List.mem_filter.mp hr).2
      simp [Option.some.inj (show some q.ticket = some r.ticket from h)] at this
    · cases hn
      obtain ⟨-, x, hx, h1, h2, h3⟩ := b.active q hm ha
      obtain ⟨y, hy, e1, e2, e3⟩ := flight.transfer hx
      exact ⟨y, q.ctl, hy, e1.trans h1, e2.trans h2, e3.trans h3⟩

theorem kept_endSession (c : Ctl) (cause : Cause) : Kept s (s.endSession c cause) :=
  ((kept_endClaims s _ _).trans (kept_withdrawWaiting _ c)).trans (kept_orphanActive _ c)

/-- After the end of its session a controller number has no request in the queue (R143, R145). -/
theorem State.QueueBounded.sessionEnded {s : State} (b : s.QueueBounded) (c : Ctl) (cause : Cause) :
    ∀ q ∈ (s.endSession c cause).queue, q.ctl ≠ c := by
  intro q hq hc
  have k := (kept_endClaims s (fun k => k.holder = .ctl c) cause).queue b
  obtain ⟨u, hu⟩ : ∃ u, (s.endClaims (fun k => k.holder = .ctl c) cause).withdrawWaiting c = u := ⟨_, rfl⟩
  have ku : u.QueueBounded := hu ▸ (kept_withdrawWaiting _ c).queue k
  have none_waiting : ∀ r ∈ u.queue, r.ctl = c → r.state.isActive = true := by
    intro r hr hrc
    rw [← hu, State.withdrawWaiting, State.withdrawals_queue] at hr
    obtain ⟨hr, hn⟩ := List.mem_filter.mp hr
    by_contra ha
    refine of_decide_eq_true hn (List.mem_map_of_mem (List.mem_filter.mpr ⟨hr, ?_⟩))
    simpa [hrc] using ha
  have active_iff : ∀ r : QueueRequest, r.state.isActive = true → r.state = .active := fun r h => by
    cases e : r.state <;> simp [e, RequestState.isActive] at h ⊢
  unfold State.endSession at hq
  rw [hu] at hq
  unfold State.orphanActive at hq
  cases hf : u.queue.find? fun q => q.ctl = c && q.state.isActive with
  | none =>
    rw [hf] at hq
    have := List.find?_eq_none.mp hf q hq
    simp [hc, none_waiting q hq hc] at this
  | some r =>
    rw [hf] at hq
    replace hq : q ∈ (u.dequeue r.ticket).queue := State.cancelDelivery_queue _ _ ▸ hq
    obtain ⟨hq, hne⟩ := List.mem_filter.mp hq
    have hr := List.mem_of_find?_eq_some hf
    have har : r.state.isActive = true := by
      have := List.find?_some hf
      simp only [Bool.and_eq_true] at this
      exact this.2
    obtain ⟨-, x, hx, -, hxt, -⟩ := ku.active q hq (active_iff q (none_waiting q hq hc))
    obtain ⟨-, y, hy, -, hyt, -⟩ := ku.active r hr (active_iff r har)
    cases hx.symm.trans hy
    have := hxt.symm.trans hyt
    simp_all

/-- A session record set: to a tag, or to none when no request of the number is left. -/
theorem Kept.setSession {s t : State} (k : Kept s t) (c : Ctl) (tag : Option Byte)
    (h : tag = none → s.QueueBounded → ∀ q ∈ t.queue, q.ctl ≠ c) : Kept s (t.setSession c tag) := by
  refine ⟨fun m => (k.memory m).with_array rfl rfl (fun _ => .refl _) rfl (k.memory m).latched, k.events,
    fun d => ⟨(k.counts d).debt, (k.counts d).streak, (k.counts d).log, (k.counts d).lists⟩, k.swept, fun b => ?_⟩
  have l := (k.queue b).listed
  refine State.queueBounded_of_listed ⟨l.total, l.share, fun q hq => ?_, l.distinct, l.issued⟩ (k.queue b).issued.2
    (k.queue b).active (k.queue b).orphaned
  rw [State.setSession_session]
  split
  · cases tag with
    | none => exact absurd ‹_› (h rfl b q hq)
    | some x => rfl
  · exact l.present q hq

theorem kept_clearBuffer (c : Ctl) : Kept s (s.setBuffer c []) := kept_setBuffer s c _ fun _ => Memory.wf_nil _

theorem kept_takeover (c : Ctl) (tag : Byte) : Kept s (s.takeover c tag) :=
  (((((kept_endSession s c .takeover).trans (kept_post _ _)).setSession c (some tag) nofun).trans
    (kept_clearBuffer _ c)).trans (kept_raise _))

theorem kept_signOff (c : Ctl) : Kept s (s.signOff c) := by
  have k := (kept_endSession s c .signOff).trans (kept_clearBuffer _ c)
  exact (k.setSession c none fun _ b q hq => b.sessionEnded c .signOff q hq).trans (kept_raise _)

theorem Lane.reset_memoryWf {l : Lane} (h : l.memoryWf) : l.reset.memoryWf := h

theorem eventsBounded_nil : eventsBounded [] := ⟨Nat.zero_le _, nofun⟩

/-- The Event Queue reset holds one record (R132, R133). -/
theorem State.resetEvents_eq (cause : Cause) : s.resetEvents cause = { s with
    events := [{ seq := 1, time := s.clock,
                 post := { kind := .partReset, source := .part, cause := some cause } }],
    eventCounter := 1, mask := allKinds } := rfl

theorem eventsBounded_resetEvents (cause : Cause) : eventsBounded (s.resetEvents cause).events :=
  ⟨by rw [State.resetEvents_eq]; simp, by rw [State.resetEvents_eq]; intro h; simp at h⟩

/-- A part with an empty queue, no orphan and a ticket to give. -/
theorem State.queueBounded_empty {t : State} (hq : t.queue = []) (ho : t.orphan = none) (hn : t.nextTicket ≠ 0) :
    t.QueueBounded := by
  refine State.queueBounded_of_listed ?_ hn ?_ ?_
  · rw [hq]
    exact ⟨Nat.zero_le _, fun _ => Nat.zero_le _, nofun, List.nodup_nil, nofun⟩
  · rw [hq]; exact nofun
  · rw [ho]; exact nofun

theorem State.lane_map (f : Lane → Lane) (v : Vector Lane 4) (h : s.lanes = v.map f) (n : LaneId) :
    s.lane n = f (v.get n) := by
  unfold State.lane
  rw [h]
  show (v.map f)[n.val] = f v[n.val]
  rw [Vector.getElem_map]

theorem State.cancelAll_frame : s.cancelAll = { s with array := s.cancelAll.array } := by
  unfold State.cancelAll
  split <;> rfl

/-- RESET PART (R152). -/
theorem kept_resetPart : Kept s s.resetPart := by
  have f := State.cancelAll_frame s
  have hl : ∀ n, s.resetPart.lane n = (s.lane n).reset := fun n => by
    refine State.lane_map _ Lane.reset s.lanes ?_ n
    show s.cancelAll.lanes.map Lane.reset = _
    rw [f]
  refine ⟨fun m => ⟨?_, ?_, fun n => ?_, fun c => ?_, fun x hx => ?_⟩,
    fun _ => eventsBounded_resetEvents _ _, fun c => ⟨?_, Nat.zero_le _, Nat.zero_le _, fun n => ?_⟩, fun o => ?_,
    fun _ => State.queueBounded_empty rfl rfl ?_⟩
  · show Memory.wf _ s.cancelAll.cells = true
    rw [f]; exact m.cells
  · show Table.wf _ _ s.cancelAll.records = true
    rw [f]; exact m.records
  · rw [hl]; exact m.lanes n
  · show Memory.wf 128 (Vector.replicate 8 ([] : Memory))[c.val] = true
    rw [Vector.getElem_replicate]; rfl
  · change s.cancelAll.array = _ at hx
    unfold State.cancelAll at hx
    split at hx
    · rename_i y hy
      cases hx
      exact m.latched y hy
    · exact m.latched x hx
  · show s.cancelAll.refreshDebt ≤ 4
    rw [f]; exact c.debt
  · rw [hl]; exact Nat.zero_le _
  · show s.cancelAll.partState = .operating → s.cancelAll.resetnLow = false ∧ s.cancelAll.swept = 512
    rw [f]; exact o
  · show (1 : Half) ≠ 0
    decide

/-- HARD_RESET (R16). -/
theorem kept_hardReset (t : State) (h : execHardReset s = .next t) : Kept s t := by
  cases h
  have hl : ∀ n, State.lane { State.reset with lanes := s.lanes.map Lane.reset } n = (s.lane n).reset := fun n =>
    State.lane_map _ Lane.reset s.lanes rfl n
  refine ⟨fun m => ⟨m.cells, m.records, fun n => ?_, fun c => ?_, nofun⟩, fun _ => eventsBounded_nil,
    fun _ => ⟨Nat.le_of_lt_succ (Config.debtInReset _).isLt, Nat.zero_le _, Nat.zero_le _, fun n => ?_⟩, fun _ => nofun,
    fun _ => State.queueBounded_empty rfl rfl (show (1 : Half) ≠ 0 by decide)⟩
  · exact (hl n) ▸ m.lanes n
  · show Memory.wf 128 (Vector.replicate 8 ([] : Memory))[c.val] = true
    rw [Vector.getElem_replicate]; rfl
  · refine le_of_eq_of_le (congrArg (fun l : Lane => l.list.entries.length) (hl n)) ?_
    exact Nat.zero_le _

end Sys2Proof.Machine

namespace Sys2Proof.Machine

set_option Elab.async false

/-! ### Tickets (R43) -/

theorem ticketAfter_toNat {t : Half} (h : t ≠ 0) : (ticketAfter t).toNat = t.toNat % 65535 + 1 := by
  have h0 : t.toNat ≠ 0 := fun e => h (BitVec.eq_of_toNat_eq e)
  have hlt := t.isLt
  unfold ticketAfter
  split
  · rename_i e
    rw [e]; rfl
  · rename_i e
    have hne : t.toNat ≠ 65535 := fun k => e (BitVec.eq_of_toNat_eq k)
    rw [BitVec.toNat_add, show (1 : Half).toNat = 1 from rfl]
    omega

theorem ticketAfter_ne_zero {t : Half} (h : t ≠ 0) : ticketAfter t ≠ 0 := fun e => by
  have := ticketAfter_toNat h
  rw [e] at this
  simp at this

/-- The tickets from one on, in the order they are given. -/
theorem ticketAfter_iterate_toNat {t : Half} (h : t ≠ 0) (k : Nat) :
    (ticketAfter^[k] t).toNat = (t.toNat - 1 + k) % 65535 + 1 ∧ ticketAfter^[k] t ≠ 0 := by
  induction k with
  | zero =>
    have h0 : t.toNat ≠ 0 := fun e => h (BitVec.eq_of_toNat_eq e)
    have hlt := t.isLt
    refine ⟨?_, h⟩
    simp only [Function.iterate_zero, id_eq]
    omega
  | succ k ih =>
    rw [Function.iterate_succ_apply']
    refine ⟨?_, ticketAfter_ne_zero ih.2⟩
    rw [ticketAfter_toNat ih.2, ih.1]
    omega

/-- The first 65535 tickets from one on are different. -/
theorem ticketAfter_iterate_inj {t : Half} (h : t ≠ 0) {j k : Nat} (hj : j < 65535) (hk : k < 65535)
    (e : ticketAfter^[j] t = ticketAfter^[k] t) : j = k := by
  have a := (ticketAfter_iterate_toNat h j).1
  have b := (ticketAfter_iterate_toNat h k).1
  rw [e, b] at a
  omega

/-- The search passes over queued tickets only, and ends at one that is not queued unless it has passed over as many as
it may. -/
theorem freshTicket_search (queue : List QueueRequest) (fuel : Nat) (t : Half) :
    ∃ k, k ≤ fuel ∧ freshTicket queue fuel t = ticketAfter^[k] t ∧
      (∀ j, j < k → ticketAfter^[j] t ∈ queue.map (·.ticket)) ∧
      (k < fuel → ticketAfter^[k] t ∉ queue.map (·.ticket)) := by
  induction fuel generalizing t with
  | zero => exact ⟨0, le_refl _, rfl, nofun, nofun⟩
  | succ fuel ih =>
    have queued : queue.any (·.ticket = t) = true ↔ t ∈ queue.map (·.ticket) := by simp
    unfold freshTicket
    by_cases h : t ∈ queue.map (·.ticket)
    · obtain ⟨k, hk, e, passed, stop⟩ := ih (ticketAfter t)
      rw [if_pos (queued.mpr h)]
      refine ⟨k + 1, by omega, e, fun j hj => ?_, fun hlt => stop (by omega)⟩
      cases j with
      | zero => exact h
      | succ j => exact passed j (by omega)
    · rw [if_neg (mt queued.mp h)]
      exact ⟨0, Nat.zero_le _, rfl, nofun, fun _ => h⟩

/-- The ticket an admission gives is not 0 and is of no request in the queue (R43). -/
theorem freshTicket_fresh (queue : List QueueRequest) (t : Half) (h : t ≠ 0) (hq : queue.length < 65535) :
    freshTicket queue queue.length t ≠ 0 ∧ freshTicket queue queue.length t ∉ queue.map (·.ticket) := by
  obtain ⟨k, hk, e, passed, stop⟩ := freshTicket_search queue queue.length t
  rw [e]
  refine ⟨(ticketAfter_iterate_toNat h k).2, fun hm => ?_⟩
  have all_queued : ((List.range (k + 1)).map fun j => ticketAfter^[j] t) ⊆ queue.map (·.ticket) := by
    intro x hx
    obtain ⟨j, hj, rfl⟩ := List.mem_map.mp hx
    rcases Nat.lt_or_eq_of_le (Nat.le_of_lt_succ (List.mem_range.mp hj)) with hlt | rfl
    · exact passed j hlt
    · exact hm
  have distinct : ((List.range (k + 1)).map fun j => ticketAfter^[j] t).Nodup :=
    List.Nodup.map_on (fun i hi j hj => ticketAfter_iterate_inj h
      (by have := List.mem_range.mp hi; omega) (by have := List.mem_range.mp hj; omega)) List.nodup_range
  have count := (distinct.subperm all_queued).length_le
  simp only [List.length_map, List.length_range] at count
  exact stop (by omega) hm

variable (s : State)

/-- The admission of a request to a queue with a place for it, of a session that is PRESENT (R48). -/
theorem kept_admitRequest (c : Ctl) (w : Work) (notify : Bool) (wait : Nat) (hf : s.queueFull c = false)
    (hs : (s.session c).isSome = true) : Kept s (s.admitRequest c w notify wait) := by
  refine ⟨fun m => ⟨m.cells, m.records, m.lanes, m.buffers, m.latched⟩, id,
    fun d => ⟨d.debt, d.streak, d.log, d.lists⟩, id, fun b => ?_⟩
  obtain ⟨total, share⟩ : s.queue.length < 12 ∧ (s.queue.filter fun q => q.ctl = c).length < 3 := by
    obtain ⟨total, share⟩ := Bool.or_eq_false_iff.mp hf
    exact ⟨Nat.lt_of_not_le (of_decide_eq_false total), Nat.lt_of_not_le (of_decide_eq_false share)⟩
  have l := b.listed
  obtain ⟨fresh, unqueued⟩ := freshTicket_fresh s.queue s.nextTicket b.issued.2 (by omega)
  have mem : ∀ q ∈ (s.admitRequest c w notify wait).queue, q ∈ s.queue ∨
      q = { ticket := s.ticket, ctl := c, work := w, notify, waitLimit := wait, state := .waiting } := fun q hq => by
    simpa [State.admitRequest] using hq
  refine State.queueBounded_of_listed ⟨?_, fun d => ?_, fun q hq => ?_, ?_, fun q hq => ?_⟩ (ticketAfter_ne_zero fresh)
    (fun q hq e => ?_) b.orphaned
  · simp only [State.admitRequest, List.length_append, List.length_singleton]
    omega
  · simp only [State.admitRequest, List.filter_append, List.length_append, List.filter_singleton]
    by_cases hd : c = d
    · subst hd
      simp only [decide_true, cond_true, List.length_singleton]
      omega
    · simpa [hd] using l.share d
  · rcases mem q hq with hq | rfl
    · exact l.present q hq
    · exact hs
  · simp only [State.admitRequest, List.map_append, List.map_cons, List.map_nil]
    refine List.nodup_append.mpr ⟨l.distinct, List.nodup_singleton _, fun x hx y hy e => unqueued ?_⟩
    obtain rfl := List.mem_singleton.mp hy
    show s.ticket ∈ _
    exact e ▸ hx
  · rcases mem q hq with hq | rfl
    · exact l.issued q hq
    · exact fresh
  · rcases mem q hq with hq | rfl
    · exact b.active q hq e
    · cases e

/-! ### The sweep, ticks and groups -/

theorem kept_resetnRise (straps : Fin 8) (t : State) (h : execResetnRise straps s = .next t) : Kept s t := by
  unfold execResetnRise at h
  split at h
  · cases h
    exact ⟨fun m => ⟨m.cells, m.records, m.lanes, m.buffers, m.latched⟩, id,
      fun c => ⟨c.debt, c.streak, c.log, c.lists⟩, fun _ => nofun, fun b => b.shrink (.refl _) rfl rfl rfl (.refl _)⟩
  · cases h

/-- The array's contents and the sweep's place changed, the part being STARTING. -/
theorem kept_sweeping (cells : Memory) (records : Table RowRecord) (k : Nat) (hp : s.partState = .starting)
    (hc : s.MemoryWf → Memory.wf 65536 cells = true) (hr : s.MemoryWf → Table.wf sweptRecord 512 records = true) :
    Kept s { s with cells := cells, records := records, swept := k } :=
  ⟨fun m => ⟨hc m, hr m, m.lanes, m.buffers, m.latched⟩, id, fun c => ⟨c.debt, c.streak, c.log, c.lists⟩,
    fun _ h => absurd (hp.symm.trans h) nofun, fun b => b.shrink (.refl _) rfl rfl rfl (.refl _)⟩

/-- A sweep operation in full (R17). -/
theorem State.sweepRow_eq (r : RowId) : s.sweepRow r = { s with
    cells := Memory.writeAll s.cells (rowBase r) (Span.whole.cells.map fun k => (k, 0)),
    records := Table.write sweptRecord s.records r.val sweptRecord, swept := s.swept + 1 } := by
  unfold State.sweepRow State.setRecord State.writeRow
  dsimp only

theorem kept_sweepRow (r : RowId) (hp : s.partState = .starting) : Kept s (s.sweepRow r) := by
  rw [State.sweepRow_eq]
  refine kept_sweeping s _ _ _ hp (fun m => ?_) fun m => Table.wf_write _ _ _ _ _ m.records r.isLt
  refine Memory.wf_writeAll _ _ _ _ m.cells fun p hq => ?_
  obtain ⟨k, hk, rfl⟩ := List.mem_map.mp hq
  exact rowBase_add_lt r k (Span.mem_cells_lt _ k hk)

/-- The end of the sweep makes the part OPERATING, all rows being swept (R17). -/
theorem kept_endSweep (hr : s.resetnLow = false) (hs : s.swept = 512) : Kept s s.endSweep :=
  ⟨fun m => ⟨m.cells, m.records, m.lanes, m.buffers, m.latched⟩, fun _ => eventsBounded_resetEvents _ _,
    fun c => ⟨Nat.zero_le _, c.streak, c.log, c.lists⟩, fun _ _ => ⟨hr, hs⟩,
    fun b => b.shrink (.refl _) rfl rfl rfl (.refl _)⟩

theorem kept_sweepOperationCompletion (t : State) (h : execSweepOperationCompletion s = .next t) : Kept s t := by
  unfold execSweepOperationCompletion at h
  split at h
  · rename_i hp
    split at h
    · rename_i hlt
      have k := kept_sweepRow s ⟨s.swept, hlt⟩ hp.1
      have done : (s.sweepRow ⟨s.swept, hlt⟩).swept = s.swept + 1 := by rw [State.sweepRow_eq]
      have high : (s.sweepRow ⟨s.swept, hlt⟩).resetnLow = s.resetnLow := by rw [State.sweepRow_eq]
      generalize s.sweepRow ⟨s.swept, hlt⟩ = u at h k done high
      dsimp only at h
      split at h <;> cases h
      · rename_i last
        exact k.trans (kept_endSweep u (high.trans hp.2) (by rw [done, last]))
      · exact k
    · cases h
  · cases h

theorem kept_refreshTick (t : State) (h : execRefreshTick s = .next t) : Kept s t := by
  unfold execRefreshTick at h
  split at h
  · cases h
  · split at h
    · cases h
      have counted : Kept s { s with refreshDebt := min (s.refreshDebt + 1) Config.urgentDebt,
                                     refreshPointer := s.refreshPointer } :=
        kept_debt s _ _ fun _ => min_le_right _ _
      exact (counted.trans (.of_unspoken rfl)).trans (kept_arbitrate _)
    · cases h
      exact .refl s

theorem kept_millisecondTick (t : State) (h : execMillisecondTick s = .next t) : Kept s t := by
  have counted : Kept s s.countTick := .of_unspoken rfl
  unfold execMillisecondTick at h
  split at h
  · cases h
  · split at h
    · cases h
    · cases h
      exact ((counted.trans (kept_tickBlocked _)).trans (kept_refuseAll _ _ _)).trans (kept_arbitrate _)

theorem kept_requestRefusal (who : RefusalTarget) (t : State) (h : execRequestRefusal who s = .next t) :
    Kept s t := by
  cases who with
  | slot n =>
    cases h
    split
    · exact (kept_refuseSlot s n).trans (kept_arbitrate _)
    · exact .refl s
  | ticket k =>
    simp only [execRequestRefusal] at h
    split at h
    · cases h
      split
      · exact (kept_dequeue_finish s _ _ _ _).trans (kept_arbitrate _)
      · exact .refl s
    · cases h
      exact .refl s

theorem kept_leaseTick (t : State) (h : execLeaseTick s = .next t) : Kept s t := by
  unfold execLeaseTick at h
  split at h
  · cases h
  · split at h
    · rename_i l _
      cases h
      have counted : Kept s ({ s with leaseTick := l } : State).countLeases := .of_unspoken rfl
      exact (counted.trans (kept_endClaims _ _ _)).trans (kept_arbitrate _)
    · cases h

theorem kept_completeOp (op : OpCode) (t : State) (h : completeOp op s = .next t) : Kept s t := by
  unfold completeOp at h
  split at h
  · split at h
    · cases h
      exact (kept_completeTransfer s _ ‹_›).trans (kept_arbitrate _)
    · cases h
  · cases h

theorem kept_refreshCompletion (t : State) (h : execRefreshCompletion s = .next t) : Kept s t := by
  unfold execRefreshCompletion at h
  split at h
  · cases h
    exact (kept_completeRefresh s _ ‹_›).trans (kept_arbitrate _)
  · cases h

/-! ### Lane clock edges and group frames -/

theorem kept_modLane (n : LaneId) (f : Lane → Lane) (h : (s.lane n).Keeps (f (s.lane n))) : Kept s (s.modLane n f) :=
  (LaneActs.mod .refl h).kept

theorem Lane.keeps_idleEdge (l : Lane) : l.Keeps l.idleEdge := by
  unfold Lane.idleEdge
  split
  · exact .of_eq rfl rfl (le_refl _) rfl rfl
  · exact .refl l

theorem kept_outEdge (n : LaneId) : Kept s (s.outEdge n) := by
  have moved : Kept s (s.modLane n Lane.moveCell) := kept_modLane s n _ (.of_eq rfl rfl (le_refl _) rfl rfl)
  unfold State.outEdge
  dsimp only
  split
  · exact moved.trans (acts_outBoundary _ n).kept
  · exact moved

theorem kept_inEdge (n : LaneId) (ld : Byte) : Kept s (s.inEdge n ld) := by
  have moved : Kept s (s.modLane n fun l => { l with active := Memory.write l.active l.pointer.val ld }.moveCell) :=
    kept_modLane s n _ ⟨id, rfl, le_refl _, fun h => ⟨Memory.wf_write _ _ _ _ h.1 (s.lane n).pointer.isLt, h.2⟩⟩
  unfold State.inEdge
  dsimp only
  split
  · exact moved.trans (acts_inBoundary _ n).kept
  · exact moved

theorem kept_idleEdge (n : LaneId) : Kept s (s.modLane n Lane.idleEdge) := kept_modLane s n _ (Lane.keeps_idleEdge _)

theorem kept_outLaneClockEdge (n : LaneId) (t : State) (h : execOutLaneClockEdge n s = .next t) : Kept s t := by
  unfold execOutLaneClockEdge at h
  split at h <;> cases h
  · exact (kept_outEdge s n).trans (kept_arbitrate _)
  · exact kept_idleEdge s n

theorem kept_inLaneClockEdge (n : LaneId) (ld : Byte) (t : State) (h : execInLaneClockEdge n ld s = .next t) :
    Kept s t := by
  unfold execInLaneClockEdge at h
  split at h <;> cases h
  · exact (kept_inEdge s n ld).trans (kept_arbitrate _)
  · exact kept_idleEdge s n

theorem kept_laneClockEdgeOutsideRunning (n : LaneId) (t : State)
    (h : execLaneClockEdgeOutsideRunning n s = .next t) : Kept s t := by
  unfold execLaneClockEdgeOutsideRunning at h
  split at h <;> cases h
  exact kept_idleEdge s n

theorem kept_groupStart (mask : Byte) : Kept s (s.groupStart mask) :=
  Kept.foldl (fun s n => kept_modLane s n Lane.release (Lane.keeps_release _)) _ s

theorem kept_groupHalt (mask : Byte) : Kept s (s.groupHalt mask) :=
  Kept.foldl (fun s n => (acts_haltIfStreaming s n).kept) _ s

/-! ### The control port: only a taken group frame changes what the invariants speak of -/

/-- A change of the engine and the port alone. -/
theorem Kept.of_bus {s t : State} (e : t = { s with engine := t.engine, port := t.port }) : Kept s t :=
  .of_unspoken (by rw [e])

theorem kept_settleByte (flag : Bool) : Kept s (s.settleByte flag) := by
  unfold State.settleByte
  split <;> exact .of_bus rfl

theorem kept_leaveFrame : Kept s s.leaveFrame := by
  unfold State.leaveFrame
  split <;> exact .of_bus rfl

theorem kept_deliverFrame : Kept s s.deliverFrame := by
  unfold State.deliverFrame
  split <;> exact .of_bus rfl

theorem kept_releaseRecord : Kept s s.releaseRecord := by
  unfold State.releaseRecord
  split <;> exact .of_bus rfl

theorem kept_endRead (flag : Bool) : Kept s (s.endRead flag) := by
  unfold State.endRead
  split
  · exact .refl s
  · exact kept_releaseRecord s

theorem kept_closeGroup : Kept s s.closeGroup := by
  unfold State.closeGroup
  split
  · split
    · exact kept_groupStart s _
    · exact kept_groupHalt s _
  · exact .refl s

theorem kept_takeStart (flag : Bool) : Kept s (s.takeStart flag) := by
  refine Kept.trans (t := s.endPhaseByStart flag) ?_ (.of_bus rfl)
  unfold State.endPhaseByStart
  split
  · exact (kept_settleByte s flag).trans (kept_deliverFrame _)
  · exact kept_endRead s flag
  · exact .refl s

theorem kept_takeStop (flag : Bool) : Kept s (s.takeStop flag) := by
  refine Kept.trans (t := (s.endPhaseByStop flag).leaveFrame) (Kept.trans ?_ (kept_leaveFrame _)) (.of_bus rfl)
  unfold State.endPhaseByStop
  split
  · exact (kept_settleByte s flag).trans (kept_deliverFrame _)
  · exact kept_endRead s flag
  · exact (kept_settleByte s flag).trans (kept_closeGroup _)
  · exact .refl s

theorem kept_execStart (flag : Bool) (t : State) (h : execStart flag s = .next t) : Kept s t := by
  unfold execStart at h
  split at h
  · cases h; exact .refl s
  · split at h <;> cases h
    exact kept_takeStart s flag

theorem kept_execStop (flag : Bool) (t : State) (h : execStop flag s = .next t) : Kept s t := by
  unfold execStop at h
  split at h
  · cases h; exact .refl s
  · split at h <;> cases h
    exact kept_takeStop s flag

theorem kept_busError (condition : Condition) (bits : Nat) (t : State)
    (h : execBusError condition bits s = .next t) : Kept s t := by
  unfold execBusError at h
  split at h
  · cases h
  · split at h
    · cases h; exact .refl s
    · split at h <;> cases h
      exact (kept_leaveFrame s).trans (.of_bus rfl)

theorem kept_judgeDevice (read : Bool) : Kept s (s.judgeDevice read) := by
  unfold State.judgeDevice
  split
  · exact .of_bus rfl
  · split
    · exact .of_bus rfl
    · exact .of_bus rfl
    · exact .of_bus rfl
    · split <;> exact .of_bus rfl
    · split <;> exact .of_bus rfl

theorem kept_judgeGroup (read : Bool) : Kept s (s.judgeGroup read) := by
  unfold State.judgeGroup
  split <;> exact .of_bus rfl

theorem kept_takeAddress (b : Byte) : Kept s (s.takeAddress b) := by
  unfold State.takeAddress
  split
  · split
    · exact kept_judgeDevice s true
    · exact (kept_leaveFrame s).trans (kept_judgeDevice _ false)
  · split
    · exact (kept_leaveFrame s).trans (kept_judgeGroup _ _)
    · exact (kept_leaveFrame s).trans (.of_bus rfl)

theorem kept_addressByte (b : Byte) (t : State) (h : execAddressByte b s = .next t) : Kept s t := by
  unfold execAddressByte at h
  split at h
  · cases h; exact .refl s
  · split at h <;> cases h
    exact kept_takeAddress s b

theorem kept_writePhaseByte (b : Byte) (t : State) (h : execWritePhaseByte b s = .next t) : Kept s t := by
  unfold execWritePhaseByte at h
  split at h
  · cases h; exact .refl s
  · split at h <;> cases h
    exact .of_bus rfl

theorem kept_groupPhaseByte (b : Byte) (t : State) (h : execGroupPhaseByte b s = .next t) : Kept s t := by
  unfold execGroupPhaseByte at h
  split at h
  · cases h; exact .refl s
  · split at h <;> cases h
    exact .of_bus rfl

theorem kept_readByteAcknowledge (t : State) (h : execReadByteAcknowledge s = .next t) : Kept s t := by
  unfold execReadByteAcknowledge at h
  split at h
  · cases h; exact .refl s
  · split at h
    · split at h <;> cases h
      exact .of_bus rfl
    · cases h

theorem kept_readPhaseEnd (how : ReadEnd) (t : State) (h : execReadPhaseEnd how s = .next t) : Kept s t := by
  unfold execReadPhaseEnd at h
  split at h
  · cases h; exact .refl s
  · split at h
    · split at h
      · cases h
      · split at h <;> cases h
        · exact (kept_releaseRecord s).trans (.of_bus rfl)
        · exact kept_takeStop s false
        · exact kept_takeStart s false
    · cases h

end Sys2Proof.Machine

namespace Sys2Proof.Machine

set_option Elab.async false

variable (s : State)

/-! ### Commands of the engine -/

theorem kept_finishReply (r : Reply) : Kept r.state r.finish := by
  unfold Reply.finish
  split
  · exact .of_bus rfl
  · exact .of_bus rfl
  · exact .refl _

theorem kept_runFrame {i : Instr} {command : State → Reply} {t : State} (k : Kept s (command s).state)
    (h : s.runFrame i command = .next t) : Kept s t := by
  unfold State.runFrame at h
  split at h <;> cases h
  exact k.trans (kept_finishReply _)

theorem kept_runOccasion {i : Instr} {command : State → Reply} {t : State} (k : Kept s (command s).state)
    (h : s.runOccasion i command = .next t) : Kept s t := by
  unfold State.runOccasion at h
  split at h <;> cases h
  exact (k.trans (kept_finishReply _)).trans (kept_arbitrate _)

theorem kept_inSession (c : Ctl) (tag : Byte) (command : State → Reply)
    (k : s.session c = some tag → Kept s (command s).state) : Kept s (inSession c tag command s).state := by
  unfold inSession
  split
  · exact .refl s
  · rename_i t ht
    split
    · rename_i e
      exact k (e ▸ ht)
    · exact .refl s

theorem kept_signOnCommand (c : Ctl) (tag takeover : Byte) : Kept s (signOnCommand c tag takeover s).state := by
  unfold signOnCommand
  split
  · exact .refl s
  · split
    · exact .refl s
    · exact (((Kept.refl s).setSession c (some tag) nofun).trans (kept_clearBuffer _ c)).trans (kept_raise _)
    · exact .refl s
    · exact kept_takeover s c tag

theorem kept_groupEnableCommand (flag : Byte) : Kept s (groupEnableCommand flag s).state := by
  unfold groupEnableCommand
  split
  · exact .of_unspoken rfl
  · exact .refl s

theorem kept_putBufferCommand (c : Ctl) (offset : Byte) (data : List Byte) :
    Kept s (putBufferCommand c offset data s).state := by
  unfold putBufferCommand
  split
  · exact .refl s
  · rename_i h
    refine kept_setBuffer s c _ fun m => Memory.wf_writeAll _ _ _ _ (m.buffers c) fun p hp => ?_
    obtain ⟨⟨b, i⟩, hb, rfl⟩ := List.mem_map.mp hp
    have := (List.mem_zipIdx hb).2.1
    show offset.toNat + i < 128
    omega

theorem kept_getBufferCommand (c : Ctl) (offset length : Byte) : Kept s (getBufferCommand c offset length s).state := by
  unfold getBufferCommand
  split <;> exact .refl s

theorem kept_rowInfoCommand (first : Half) (count : Byte) : Kept s (rowInfoCommand first count s).state := by
  unfold rowInfoCommand
  split <;> exact .refl s

/-- A transfer command, of a controller number whose session is PRESENT (R47, R48). -/
theorem kept_transferCommand (c : Ctl) (w : Option Work) (notify wait : Byte) (hs : (s.session c).isSome = true) :
    Kept s (transferCommand c w notify wait s).state := by
  unfold transferCommand
  split
  · split
    · exact .refl s
    · rename_i hf
      exact kept_admitRequest s c _ _ _ (by simpa using hf) hs
  · exact .refl s

/-- The same in its session. -/
theorem kept_transferInSession (c : Ctl) (tag : Byte) (w : Option Work) (notify wait : Byte) :
    Kept s (inSession c tag (transferCommand c w notify wait) s).state :=
  kept_inSession s c tag _ fun h => kept_transferCommand s c w notify wait (by rw [h]; rfl)

theorem kept_cancelCommand (c : Ctl) (ticket : Half) : Kept s (cancelCommand c ticket s).state := by
  unfold cancelCommand
  split
  · exact .refl s
  · split
    · exact .refl s
    · split
      · exact .refl s
      · split
        · exact .refl s
        · exact kept_dequeue_finish s _ _ _ _

theorem kept_queryCommand (c : Ctl) (ticket : Half) : Kept s (queryCommand c ticket s).state := by
  unfold queryCommand
  split
  · exact .refl s
  · split
    · exact .refl s
    · split <;> exact .refl s

theorem kept_claimCommand (c : Ctl) (holder kind : Byte) (first count lease : Half) :
    Kept s (claimCommand c holder kind first count lease s).state := by
  unfold claimCommand
  split
  · exact .refl s
  · split
    · exact .refl s
    · split
      · exact .refl s
      · exact .refl s
      · exact .of_unspoken rfl

theorem kept_releaseCommand (c : Ctl) (id : Byte) : Kept s (releaseCommand c id s).state := by
  unfold releaseCommand
  split
  · exact .refl s
  · split
    · exact .refl s
    · split
      · exact .of_unspoken rfl
      · split
        · exact .of_unspoken rfl
        · exact .refl s

theorem kept_renewCommand (c : Ctl) (id : Byte) (lease : Half) : Kept s (renewCommand c id lease s).state := by
  unfold renewCommand
  split
  · exact .refl s
  · split
    · exact .refl s
    · split
      · exact .refl s
      · split
        · exact .refl s
        · split
          · exact .of_unspoken rfl
          · exact .refl s

theorem kept_listClaimsCommand (startId maximum : Byte) : Kept s (listClaimsCommand startId maximum s).state := by
  unfold listClaimsCommand
  split <;> exact .refl s

theorem kept_laneSetupCommand (lane direction fill policy mode wait : Byte) :
    Kept s (laneSetupCommand lane direction fill policy mode wait s).state := by
  unfold laneSetupCommand
  split
  · split
    · exact kept_setLane s _ _ id id
    · exact .refl s
  · exact .refl s

theorem kept_laneStartCommand (lane mode : Byte) : Kept s (laneStartCommand lane mode s).state := by
  unfold laneStartCommand
  split
  · split
    · split
      · exact .refl s
      · exact (acts_startLane s _ _).kept
    · exact (acts_release s _).kept
    · exact .refl s
  · exact .refl s

theorem kept_laneStopCommand (lane mode : Byte) : Kept s (laneStopCommand lane mode s).state := by
  unfold laneStopCommand
  split
  · split
    · exact .refl s
    · split
      · exact (acts_haltIfStreaming s _).kept
      · exact (acts_stopAtBoundary s _).kept
  · exact .refl s

theorem kept_laneResumeCommand (lane : Byte) : Kept s (laneResumeCommand lane s).state := by
  unfold laneResumeCommand
  split
  · split
    · split
      · exact (acts_continueOut s _).kept
      · exact (acts_continueIn s _).kept
    · exact .refl s
  · exact .refl s

theorem kept_resetLane (n : LaneId) : Kept s (s.resetLane n) :=
  ((acts_withdrawSlot s n).kept.trans (kept_setLane _ n _ Lane.reset_memoryWf fun _ => Nat.zero_le _)).trans
    (kept_endClaims _ _ _)

theorem kept_laneResetCommand (lane : Byte) : Kept s (laneResetCommand lane s).state := by
  unfold laneResetCommand
  split
  · split
    · exact .refl s
    · exact kept_resetLane s _
  · exact .refl s

theorem kept_laneStatusCommand (lane : Byte) : Kept s (laneStatusCommand lane s).state := by
  unfold laneStatusCommand
  split <;> exact .refl s

theorem kept_listAppendCommand (lane : Byte) (raw : List RawEntry) : Kept s (listAppendCommand lane raw s).state := by
  unfold listAppendCommand
  split
  · dsimp only
    split
    · exact .refl s
    · split
      · exact .refl s
      · rename_i room
        refine kept_setLane s _ _ id fun _ => ?_
        simp only [Lane.appendEntries, List.length_append]
        exact Nat.le_of_not_lt room
  · exact .refl s

theorem Lane.trim_entries_le (k : Nat) (l : Lane) : (l.trim k).list.entries.length ≤ l.list.entries.length := by
  unfold Lane.trim
  dsimp only
  split <;> exact List.length_take_le' _ _

theorem Lane.trim_memoryWf (k : Nat) (l : Lane) (h : l.memoryWf) : (l.trim k).memoryWf := by
  unfold Lane.trim
  dsimp only
  split <;> exact h

theorem kept_listTrimCommand (lane maximum : Byte) : Kept s (listTrimCommand lane maximum s).state := by
  unfold listTrimCommand
  split
  · exact .refl s
  · dsimp only
    split
    · exact .refl s
    · split
      · exact .refl s
      · exact kept_setLane s _ _ (Lane.trim_memoryWf _ _) (Lane.trim_entries_le _ _).trans

theorem kept_listClearCommand (lane : Byte) : Kept s (listClearCommand lane s).state := by
  unfold listClearCommand
  split
  · exact .refl s
  · split
    · exact kept_setLane s _ _ id fun _ => Nat.zero_le _
    · exact .refl s

theorem kept_listReadCommand (lane start maximum : Byte) : Kept s (listReadCommand lane start maximum s).state := by
  unfold listReadCommand
  split
  · exact .refl s
  · split <;> exact .refl s

/-- The newest records of a bounded queue are a bounded queue. -/
theorem eventsBounded_drop {es : List Event} (k : Nat) (h : eventsBounded es) : eventsBounded (es.drop k) := by
  refine ⟨by rw [List.length_drop]; exact (Nat.sub_le _ _).trans h.1, fun e => ?_⟩
  rw [List.length_drop] at e
  have hk : k = 0 := by have := h.1; omega
  subst hk
  exact h.2 (by simpa using e)

theorem kept_takeEventsCommand (maximum : Byte) : Kept s (takeEventsCommand maximum s).state := by
  unfold takeEventsCommand
  split
  · exact .refl s
  · exact ⟨fun m => ⟨m.cells, m.records, m.lanes, m.buffers, m.latched⟩, eventsBounded_drop _,
      fun c => ⟨c.debt, c.streak, c.log, c.lists⟩, id, fun b => b.shrink (.refl _) rfl rfl rfl (.refl _)⟩

theorem kept_peekEventsCommand (maximum : Byte) : Kept s (peekEventsCommand maximum s).state := by
  unfold peekEventsCommand
  split <;> exact .refl s

theorem kept_setAttentionCommand (mask : Half) : Kept s (setAttentionCommand mask s).state := by
  unfold setAttentionCommand
  split
  · exact .refl s
  · exact .of_unspoken rfl

/-! ### Every command, and the step -/

/-- Every command that answers a next state keeps the invariants. -/
theorem kept_exec (i : Instr) (t : State) (h : exec i s = .next t) : Kept s t := by
  cases i with
  | hardReset => exact kept_hardReset s t h
  | resetnRise straps => exact kept_resetnRise s straps t h
  | sweepOperationCompletion => exact kept_sweepOperationCompletion s t h
  | refreshTick => exact kept_refreshTick s t h
  | millisecondTick => exact kept_millisecondTick s t h
  | requestRefusal who => exact kept_requestRefusal s who t h
  | leaseTick => exact kept_leaseTick s t h
  | claimExpiry => cases h; exact (kept_endClaims s _ _).trans (kept_arbitrate _)
  | loadCompletion => exact kept_completeOp s .load t h
  | storeCompletion => exact kept_completeOp s .store t h
  | cstoreCompletion => exact kept_completeOp s .cstore t h
  | fillCompletion => exact kept_completeOp s .fill t h
  | copyCompletion => exact kept_completeOp s .copy t h
  | refreshCompletion => exact kept_refreshCompletion s t h
  | outLaneClockEdge n => exact kept_outLaneClockEdge s n t h
  | inLaneClockEdge n ld => exact kept_inLaneClockEdge s n ld t h
  | laneClockEdgeOutsideRunning n => exact kept_laneClockEdgeOutsideRunning s n t h
  | identify c tag =>
    exact kept_runFrame s (command := fun s => answer s (identifyBody s.port.strap)) (.refl s) h
  | signOn c tag takeover => exact kept_runOccasion s (kept_signOnCommand s c tag takeover) h
  | signOff c tag => exact kept_runOccasion s (kept_inSession s c tag _ fun _ => kept_signOff s c) h
  | resetPart c tag => exact kept_runOccasion s (kept_inSession s c tag _ fun _ => kept_resetPart s) h
  | groupEnable c tag flag => exact kept_runFrame s (kept_inSession s c tag _ fun _ => kept_groupEnableCommand s flag) h
  | putBuffer c tag offset data =>
    exact kept_runFrame s (kept_inSession s c tag _ fun _ => kept_putBufferCommand s c offset data) h
  | getBuffer c tag offset length =>
    exact kept_runFrame s (kept_inSession s c tag _ fun _ => kept_getBufferCommand s c offset length) h
  | rowInfo c tag first count =>
    exact kept_runFrame s (kept_inSession s c tag _ fun _ => kept_rowInfoCommand s first count) h
  | load c tag row notify wait => exact kept_runOccasion s (kept_transferInSession s c tag _ notify wait) h
  | store c tag row tap span notify wait => exact kept_runOccasion s (kept_transferInSession s c tag _ notify wait) h
  | cstore c tag row tap span expected notify wait =>
    exact kept_runOccasion s (kept_transferInSession s c tag _ notify wait) h
  | fill c tag row tap span value notify wait =>
    exact kept_runOccasion s (kept_transferInSession s c tag _ notify wait) h
  | copy c tag source destination tap span notify wait =>
    exact kept_runOccasion s (kept_transferInSession s c tag _ notify wait) h
  | cancel c tag ticket => exact kept_runFrame s (kept_inSession s c tag _ fun _ => kept_cancelCommand s c ticket) h
  | queryTicket c tag ticket =>
    exact kept_runFrame s (kept_inSession s c tag _ fun _ => kept_queryCommand s c ticket) h
  | claim c tag holder kind first count lease =>
    exact kept_runOccasion s (kept_inSession s c tag _ fun _ => kept_claimCommand s c holder kind first count lease) h
  | release c tag id => exact kept_runOccasion s (kept_inSession s c tag _ fun _ => kept_releaseCommand s c id) h
  | renew c tag id lease => exact kept_runFrame s (kept_inSession s c tag _ fun _ => kept_renewCommand s c id lease) h
  | listClaims c tag startId maximum =>
    exact kept_runFrame s (kept_inSession s c tag _ fun _ => kept_listClaimsCommand s startId maximum) h
  | laneSetup c tag lane direction fill policy mode wait =>
    exact kept_runFrame s
      (kept_inSession s c tag _ fun _ => kept_laneSetupCommand s lane direction fill policy mode wait) h
  | laneStart c tag lane mode =>
    exact kept_runOccasion s (kept_inSession s c tag _ fun _ => kept_laneStartCommand s lane mode) h
  | laneStop c tag lane mode =>
    exact kept_runFrame s (kept_inSession s c tag _ fun _ => kept_laneStopCommand s lane mode) h
  | laneResume c tag lane =>
    exact kept_runOccasion s (kept_inSession s c tag _ fun _ => kept_laneResumeCommand s lane) h
  | laneReset c tag lane => exact kept_runOccasion s (kept_inSession s c tag _ fun _ => kept_laneResetCommand s lane) h
  | laneStatus c tag lane => exact kept_runFrame s (kept_inSession s c tag _ fun _ => kept_laneStatusCommand s lane) h
  | listAppend c tag lane entries =>
    exact kept_runFrame s (kept_inSession s c tag _ fun _ => kept_listAppendCommand s lane entries) h
  | listTrim c tag lane maximum =>
    exact kept_runFrame s (kept_inSession s c tag _ fun _ => kept_listTrimCommand s lane maximum) h
  | listClear c tag lane => exact kept_runFrame s (kept_inSession s c tag _ fun _ => kept_listClearCommand s lane) h
  | listRead c tag lane start maximum =>
    exact kept_runFrame s (kept_inSession s c tag _ fun _ => kept_listReadCommand s lane start maximum) h
  | takeEvents c tag maximum =>
    exact kept_runFrame s (kept_inSession s c tag _ fun _ => kept_takeEventsCommand s maximum) h
  | peekEvents c tag maximum =>
    exact kept_runFrame s (kept_inSession s c tag _ fun _ => kept_peekEventsCommand s maximum) h
  | setAttention c tag mask =>
    exact kept_runFrame s (kept_inSession s c tag _ fun _ => kept_setAttentionCommand s mask) h
  | refusedFrame verdict bytes =>
    exact kept_runFrame s (command := fun s => refuse s (admissionStatus verdict bytes)) (.refl s) h
  | start unacknowledged => exact kept_execStart s unacknowledged t h
  | addressByte b => exact kept_addressByte s b t h
  | stop unacknowledged => exact kept_execStop s unacknowledged t h
  | readPhaseEnd how => exact kept_readPhaseEnd s how t h
  | busError condition bits => exact kept_busError s condition bits t h
  | groupStart mask => cases h; exact kept_groupStart s mask
  | groupHalt mask => cases h; exact kept_groupHalt s mask
  | writePhaseByte b => exact kept_writePhaseByte s b t h
  | groupPhaseByte b => exact kept_groupPhaseByte s b t h
  | readByteAcknowledge => exact kept_readByteAcknowledge s t h

/-- The step keeps what every command keeps; with none waiting it makes at most a selection. -/
theorem kept_step (s t : State) (h : step s = .next t) : Kept s t := by
  unfold step at h
  split at h
  · cases h
    exact kept_arbitrate s
  · rename_i c rest _
    have taken : Kept s { s with pending := rest } := .of_unspoken rfl
    exact taken.trans (kept_exec _ c t h)

/-- Settles O54: every step keeps every memory in canonical form, because each command and each selection does. -/
theorem stepKeepsMemory : Obligations.StepKeepsMemory := fun s t h e => (kept_step s t e).memory h

/-- Settles O55: every step keeps the bounds of the event queue, the counts and the lists, and OPERATING only after the
sweep. -/
theorem stepKeepsBounds : Obligations.StepKeepsBounds :=
  ⟨fun s t h e => (kept_step s t e).events h, fun s t h e => (kept_step s t e).counts h,
    fun s t h e => (kept_step s t e).swept h⟩

/-- Settles O57: every step keeps the controller queue. -/
theorem stepKeepsQueue : Obligations.StepKeepsQueue := fun s t h e => (kept_step s t e).queue h

end Sys2Proof.Machine

namespace Sys2Proof.Machine

set_option Elab.async false

/-! ### Reset and the start-up sweep -/

theorem State.reset_lane (n : LaneId) : State.reset.lane n = .off := by
  show (Vector.replicate 4 Lane.off)[n.val] = _
  rw [Vector.getElem_replicate]

theorem State.reset_session (c : Ctl) : State.reset.session c = none := by
  show (Vector.replicate 8 (none : Option Byte))[c.val] = _
  rw [Vector.getElem_replicate]

theorem State.reset_buffer (c : Ctl) : State.reset.buffer c = [] := by
  show (Vector.replicate 8 ([] : Memory))[c.val] = _
  rw [Vector.getElem_replicate]

theorem State.reset_claim (i : ClaimId) : State.reset.claim i = none := by
  show (Vector.replicate 24 (none : Option Claim))[i.val] = _
  rw [Vector.getElem_replicate]

/-- Settles O60: the part at reset has empty memories, tables and queues, and every lane OFF. -/
theorem resetHoldsInvariants : Obligations.ResetHoldsInvariants := by
  refine ⟨⟨rfl, rfl, fun n => ?_, fun c => ?_, nofun⟩, eventsBounded_nil,
    ⟨Nat.zero_le _, Nat.zero_le _, Nat.zero_le _, fun n => ?_⟩, nofun, fun i j a b _ h => ?_, fun i k h => ?_,
    State.queueBounded_empty rfl rfl (show (1 : Half) ≠ 0 by decide), fun n => ?_, ?_⟩
  · rw [State.reset_lane]; exact ⟨rfl, rfl⟩
  · rw [State.reset_buffer]; rfl
  · rw [State.reset_lane]; exact Nat.zero_le _
  · rw [State.reset_claim] at h; cases h
  · rw [State.reset_claim] at h; cases h
  · rw [State.reset_lane]; exact ⟨rfl, fun _ => rfl⟩
  · exact ⟨by simp [State.reset, Port.fresh], nofun, fun _ => rfl, nofun, Nat.zero_le _, Nat.zero_le _,
      ⟨fun _ => rfl, fun _ => rfl⟩, nofun⟩

/-- A hard reset leaves each lane at its reset values, the cells of its registers kept (R98). -/
theorem State.lane_hardReset {s t : State} (h : execHardReset s = .next t) (n : LaneId) :
    t.lane n = (s.lane n).reset := by
  cases h
  exact State.lane_map _ Lane.reset s.lanes rfl n

/-- Settles O5: the hard-reset values, block by block; the lanes by what a reset makes of one. -/
theorem hardResetValues : Obligations.HardResetValues := by
  intro s
  refine ⟨_, rfl, rfl, rfl, rfl, rfl, State.reset_claim, rfl, rfl, rfl, rfl, rfl, rfl, fun n => ?_, rfl, rfl, rfl, rfl,
    fun c => ⟨State.reset_session c, fun a => ?_⟩, rfl, rfl, rfl, rfl, rfl, rfl, rfl, rfl, rfl⟩
  · rw [State.lane_hardReset (s := s) rfl n]
    exact ⟨rfl, rfl, rfl, rfl, rfl, rfl, rfl, rfl, rfl, rfl, rfl, rfl, rfl, rfl, rfl⟩
  · exact congrArg (fun m : Memory => m.read a) (State.reset_buffer c)

/-- Settles O8: a tick counts at most to 4 and only while OPERATING; a REFRESH pays one. -/
theorem refreshDebtCounts : Obligations.RefreshDebtCounts := by
  intro s
  refine ⟨fun hr hp => ?_, fun hr hp => ?_, fun r ha => ?_⟩
  · have hmin : min (s.refreshDebt + 1) Config.urgentDebt = if s.refreshDebt < 4 then s.refreshDebt + 1 else 4 := by
      unfold Config.urgentDebt
      split <;> omega
    simp only [exec, execRefreshTick, hr, hp, hmin, Bool.false_eq_true, if_false, if_true]
  · simp [exec, execRefreshTick, hr, hp]
  · simp only [exec, execRefreshCompletion, ha, State.completeRefresh]

variable (s : State)

/-! ### One sweep operation (R17) -/

/-- A cell of the row that the sweep clears, and of every other row, afterwards. -/
theorem State.sweepRow_readCell (r : RowId) (h : s.swept = r.val) (a : Nat) :
    (s.sweepRow r).readCell a = if a / 128 = r.val then 0 else s.readCell a := by
  simp only [State.sweepRow_eq, State.readCell, h]
  by_cases e : a / 128 = r.val
  · rw [if_pos (by omega), if_pos e, show a = rowBase r + a % 128 by unfold rowBase; omega, Memory.read_writeAll_map]
    exact if_pos ((Span.mem_whole _).mpr (Nat.mod_lt _ (by omega)))
  · rw [if_neg e]
    by_cases hlt : a / 128 < r.val
    · rw [if_pos (by omega), if_pos hlt]
      refine Memory.read_writeAll_of_not_mem _ _ _ _ fun p hp ha => ?_
      obtain ⟨k, hk, rfl⟩ := List.mem_map.mp hp
      exact e (by rw [← ha]; exact rowBase_div r k (Span.mem_cells_lt _ k hk))
    · rw [if_neg (by omega), if_neg hlt]

theorem State.sweepRow_rowRecord (r : RowId) (h : s.swept = r.val) (q : RowId) :
    (s.sweepRow r).rowRecord q = if q = r then sweptRecord else s.rowRecord q := by
  simp only [State.sweepRow_eq, State.rowRecord, h, Table.read_write, Fin.ext_iff]
  by_cases e : q.val = r.val
  · rw [if_pos (by omega), if_pos e, if_pos e]
  · rw [if_neg e, if_neg e]
    by_cases hlt : q.val < r.val
    · rw [if_pos (by omega), if_pos hlt]
    · rw [if_neg (by omega), if_neg hlt]

theorem exec_sweepOperationCompletion (r : RowId) (hp : s.partState = .starting) (hr : s.resetnLow = false)
    (hs : s.swept = r.val) : exec .sweepOperationCompletion s =
      .next (if r.val = 511 then (s.sweepRow r).endSweep else s.sweepRow r) := by
  have hlt : s.swept < 512 := hs ▸ r.isLt
  have hrow : (⟨s.swept, hlt⟩ : RowId) = r := Fin.ext hs
  simp only [exec, execSweepOperationCompletion, hp, hr, and_self, if_true, dif_pos hlt, hrow]
  rw [hs]

theorem State.endSweep_eq : s.endSweep = { s with
    refreshPointer := 0, refreshDebt := 0, partState := .operating, eventCounter := 1, mask := 0x0FFE
    events := [{ seq := 1, time := s.clock,
                 post := { kind := .partReset, source := .part, cause := some .hard } }] } := rfl

theorem State.endSweep_attnLow : s.endSweep.attnLow = true := by
  simp only [State.attnLow, State.endSweep_eq, List.any_cons, List.any_nil]
  decide

/-- The end of the sweep leaves the array as it finds it. -/
theorem State.endSweep_array (last : Prop) [Decidable last] :
    (∀ a, (if last then s.endSweep else s).readCell a = s.readCell a) ∧
    ∀ r, (if last then s.endSweep else s).rowRecord r = s.rowRecord r := by
  split <;> exact ⟨fun _ => rfl, fun _ => rfl⟩

/-- Settles O6: the rise of RESETn, and one sweep operation by whether it is the last. -/
theorem startUpSweep : Obligations.StartUpSweep := by
  refine ⟨fun s straps h => ⟨_, by simp only [exec, execResetnRise, h, if_true]; rfl, rfl, rfl⟩,
    fun s r hp hr hs => ?_⟩
  obtain ⟨cells, records⟩ := State.endSweep_array (s.sweepRow r) (r.val = 511)
  refine ⟨_, exec_sweepOperationCompletion s r hp hr hs, fun k hk => ?_, ?_, fun a ha => ?_, fun q hq => ?_,
    fun hlt => ?_, fun last => ?_⟩
  · rw [cells, State.sweepRow_readCell s r hs, if_pos (by omega)]
  · rw [records, State.sweepRow_rowRecord s r hs, if_pos rfl]
    rfl
  · rw [cells, State.sweepRow_readCell s r hs, if_neg ha]
  · rw [records, State.sweepRow_rowRecord s r hs, if_neg hq]
  · rw [if_neg (by omega), State.sweepRow_eq, hs]
  · rw [if_pos last]
    refine ⟨?_, State.endSweep_attnLow _⟩
    rw [State.endSweep_eq, State.sweepRow_eq, hs, last]

/-! ### The whole sweep -/

/-- The sweep stands at row k: the rows before it are cleared, and no time has passed since RESETn rose. -/
structure SweptTo (s : State) (k : Nat) : Prop where
  starting : s.partState = .starting
  high : s.resetnLow = false
  swept : s.swept = k
  clock : s.clock = 0
  cells : ∀ a, a / 128 < k → s.readCell a = 0
  records : ∀ r : RowId, r.val < k → s.rowRecord r = sweptRecord

theorem SweptTo.sweepRow {s : State} {r : RowId} (h : SweptTo s r.val) : SweptTo (s.sweepRow r) (r.val + 1) where
  starting := by rw [State.sweepRow_eq]; exact h.starting
  high := by rw [State.sweepRow_eq]; exact h.high
  swept := by rw [State.sweepRow_eq, ← h.swept]
  clock := by rw [State.sweepRow_eq]; exact h.clock
  cells a ha := by
    rw [State.sweepRow_readCell s r h.swept]
    split
    · rfl
    · exact h.cells a (by omega)
  records q hq := by
    rw [State.sweepRow_rowRecord s r h.swept]
    split
    · rfl
    · rename_i hne
      exact h.records q (by have := mt (Fin.ext (a := q) (b := r)) hne; omega)

/-- What the start-up sweep leaves (R17, R132). -/
structure SweepDone (t : State) : Prop where
  operating : t.partState = .operating
  cells : ∀ a, a < 65536 → t.readCell a = 0
  records : ∀ r, t.rowRecord r = sweptRecord
  pointer : t.refreshPointer = 0
  debt : t.refreshDebt = 0
  events : t.events = [{ seq := 1, time := 0, post := { kind := .partReset, source := .part, cause := some .hard } }]
  attention : t.attnLow = true

theorem SweptTo.endSweep {s : State} (h : SweptTo s 512) : SweepDone s.endSweep where
  operating := rfl
  cells a ha := h.cells a (by omega)
  records r := h.records r r.isLt
  pointer := rfl
  debt := rfl
  events := by rw [State.endSweep_eq, h.clock]
  attention := State.endSweep_attnLow s

/-- The sweep operations that are left, from row k on, end the sweep. -/
theorem SweptTo.run {n k : Nat} {s : State} (h : SweptTo s k) (hn : k + n + 1 = 512) :
    ∃ t, runCommands (List.replicate (n + 1) .sweepOperationCompletion) s = .next t ∧ SweepDone t := by
  induction n generalizing k s with
  | zero =>
    have e := exec_sweepOperationCompletion s ⟨k, by omega⟩ h.starting h.high h.swept
    rw [if_pos (show k = 511 by omega)] at e
    refine ⟨_, by rw [List.replicate_succ, runCommands, e]; rfl, ?_⟩
    have swept := SweptTo.sweepRow (r := ⟨k, by omega⟩) h
    exact SweptTo.endSweep (by rwa [show k + 1 = 512 by omega] at swept)
  | succ n ih =>
    have e := exec_sweepOperationCompletion s ⟨k, by omega⟩ h.starting h.high h.swept
    rw [if_neg (show k ≠ 511 by omega)] at e
    obtain ⟨t, ht, done⟩ := ih (SweptTo.sweepRow (r := ⟨k, by omega⟩) h) (by show k + 1 + n + 1 = 512; omega)
    exact ⟨t, by rw [List.replicate_succ, runCommands, e]; exact ht, done⟩

/-- Settles O7: by induction over the sweep operations that are left. -/
theorem sweepLeavesOperatingPart : Obligations.SweepLeavesOperatingPart := by
  intro s straps h
  obtain ⟨u, hu, start⟩ : ∃ u, exec (.resetnRise straps) s = .next u ∧ SweptTo u 0 :=
    ⟨_, by simp only [exec, execResetnRise, h, if_true]; rfl, rfl, rfl, rfl, rfl, nofun, nofun⟩
  obtain ⟨t, ht, done⟩ := start.run (n := 511) (by omega)
  refine ⟨t, ?_, done.operating, done.cells, done.records, done.pointer, done.debt, done.events, done.attention⟩
  rw [runCommands, hu]
  exact ht

end Sys2Proof.Machine

namespace Sys2Proof.Machine

set_option Elab.async false

variable (s : State)

/-! ### Refresh credit (R14) -/

/-- One row tested for refresh credit, as pointer and debt see it. -/
def creditOf (r : RowId) (p : RowId × Nat) : RowId × Nat := if r = p.1 ∧ 1 ≤ p.2 then (p.1 + 1, p.2 - 1) else p

theorem State.credit_pair (r : RowId) :
    ((s.credit r).refreshPointer, (s.credit r).refreshDebt) = creditOf r (s.refreshPointer, s.refreshDebt) := by
  unfold State.credit creditOf
  split <;> rfl

/-- A completion leaves the pointer and the debt as the rows it opened leave them, whatever the selection after it. -/
theorem State.completed_credit (x : Transfer) :
    ((s.completeTransfer x).arbitrate.refreshPointer, (s.completeTransfer x).arbitrate.refreshDebt) =
      ((s.credits x).refreshPointer, (s.credits x).refreshDebt) := by
  rw [(keeps_arbitrate _).frame]
  dsimp only
  rw [State.completeTransfer_frame]

theorem completionOf_eq (op : OpCode) : completionOf op = match op with
    | .load => .loadCompletion
    | .store => .storeCompletion
    | .cstore => .cstoreCompletion
    | .fill => .fillCompletion
    | .copy => .copyCompletion := by
  cases op <;> rfl

/-- The command at which the operation in flight completes. -/
theorem exec_completionOf (x : Transfer) (h : s.array = some (.transfer x)) :
    exec (completionOf x.work.op) s = .next (s.completeTransfer x).arbitrate :=
  exec_completion s x _ h (completionOf_eq _)

/-- Settles O14: the rows opened are tested in their order. -/
theorem refreshCredit : Obligations.RefreshCredit := by
  intro s x h credit
  refine ⟨_, exec_completionOf s x h, fun hw => ?_, fun a b sp hw => ?_⟩ <;> rw [State.completed_credit]
  · have opens : x.work.opens = [x.work.row] := by
      cases e : x.work with
      | copy a b sp => exact absurd e (hw a b sp)
      | _ => rfl
    rw [State.credits, opens]
    exact State.credit_pair s _
  · rw [State.credits, hw]
    show ((s.credit a).credit b |>.refreshPointer, (s.credit a).credit b |>.refreshDebt) = _
    rw [State.credit_pair, State.credit_pair]
    rfl

/-! ### The arbiter's occasions (R56) -/

/-- A selection that brings no new occasion is the last of its step. -/
theorem State.arbitrate_of_settled (h : s.occasion = true) (ha : s.array = none) (hp : s.partState = .operating)
    (ho : ({ s with occasion := false } : State).select.occasion = false) :
    s.arbitrate = ({ s with occasion := false } : State).select := by
  show arbitrateFor (1023 + 1 + 1) s = _
  rw [arbitrateFor, if_pos h, if_pos ⟨ha, hp⟩, arbitrateFor, if_neg (by rw [ho]; exact Bool.false_ne_true)]

/-- Settles O19: the arbiter by what it finds, and its frame. -/
theorem arbiterTakesOccasions : Obligations.ArbiterTakesOccasions := by
  refine fun s => ⟨State.arbitrate_of_no_occasion s, fun h => State.arbitrate_of_busy s fun ⟨ha, hp⟩ => ?_,
    fun ho ha hp => ⟨State.arbitrate_of_started s ho ha hp, State.arbitrate_of_settled s ho ha hp⟩,
    (keeps_arbitrate s).frame⟩
  rcases h with h | h
  · exact h ha
  · exact absurd (h.symm.trans hp) nofun

/-! ### Events that cannot happen -/

theorem State.runFrame_fault {s : State} {i : Instr} {command : State → Reply} (h : s.executes i = false) :
    s.runFrame i command = .fault .frameNotHeld := by simp [State.runFrame, h]

theorem State.runOccasion_fault {s : State} {i : Instr} {command : State → Reply} (h : s.executes i = false) :
    s.runOccasion i command = .fault .frameNotHeld := by simp [State.runOccasion, h]

/-- A command whose frame the engine does not execute. -/
theorem exec_frameNotHeld (i : Instr) (hi : (commandFields i).isSome = true ∨ ∃ v bytes, i = .refusedFrame v bytes)
    (h : s.executes i = false) : exec i s = .fault .frameNotHeld := by
  cases i
  case signOn | signOff | resetPart | load | store | cstore | fill | copy | claim | release | laneStart | laneResume |
    laneReset => exact State.runOccasion_fault h
  case identify => exact State.runFrame_fault (command := fun s => answer s (identifyBody s.port.strap)) h
  case refusedFrame v bytes =>
    exact State.runFrame_fault (command := fun s => refuse s (admissionStatus v bytes)) h
  case groupEnable | putBuffer | getBuffer | rowInfo | cancel | queryTicket | renew | listClaims | laneSetup |
    laneStop | laneStatus | listAppend | listTrim | listClear | listRead | takeEvents | peekEvents | setAttention =>
    exact State.runFrame_fault h
  all_goals simp [commandFields] at hi

/-- A completion of an operation that is not the one on the array. -/
theorem exec_operationNotActive (op : OpCode) (h : ∀ x, s.array = some (.transfer x) → x.work.op ≠ op) :
    exec (completionOf op) s = .fault .operationNotActive := by
  have e : exec (completionOf op) s = completeOp op s := by cases op <;> rfl
  rw [e, completeOp]
  split
  · rename_i x hx
    exact if_neg (h x hx)
  · rfl

theorem LeaseTick.take_none {phase : Fin 10} {l : LeaseTick} (h : l = .early ∨ (l = .settled ∧ phase.val ≠ 9)) :
    l.take phase = none := by
  rcases h with rfl | ⟨rfl, h⟩
  · rfl
  · exact if_neg fun e => h (congrArg Fin.val e)

/-- Settles O53: each command by the condition that stops it. -/
theorem impossibleEventsStop : Obligations.ImpossibleEventsStop := by
  intro s
  refine ⟨fun h k => ?_, fun h => ?_, fun h i hi => ?_, fun hr h => ?_, fun hr h => ?_,
    exec_operationNotActive s, fun h => ?_, fun n ld h => ⟨?_, fun hd => ?_, fun hd => ?_⟩, exec_frameNotHeld s,
    fun hr h condition bits how h1 h7 => ?_,
    fun byte how hr => ⟨fun h => ?_, fun h => ?_, fun h => ?_, fun h => ?_, fun h => ?_⟩,
    fun condition bits h => ?_⟩
  · simp [exec, execResetnRise, h]
  · simp only [exec, execSweepOperationCompletion]
    rcases h with h | h | h
    · rw [if_neg (by simp [h])]
    · rw [if_neg (by simp [h])]
    · rw [dif_neg (by omega), ite_self]
  · rcases hi with rfl | rfl | rfl
    · simp [exec, execRefreshTick, h]
    · simp [exec, execMillisecondTick, h]
    · simp [exec, execLeaseTick, h]
  · simp [exec, execLeaseTick, hr, LeaseTick.take_none h]
  · simp [exec, execMillisecondTick, hr, h]
  · show execRefreshCompletion s = _
    unfold execRefreshCompletion
    split
    · exact absurd ‹_› (h _)
    · rfl
  · simp [exec, execLaneClockEdgeOutsideRunning, h]
  · simp [exec, execOutLaneClockEdge, h, hd]
  · simp [exec, execInLaneClockEdge, h, hd]
  · have reading : s.port.phase = .read := by
      simp only [State.sckHeld, Bool.and_eq_true, decide_eq_true_eq] at h
      exact h.1
    refine ⟨?_, ?_, ?_⟩
    · simp [exec, execBusError, hr, h, show ¬(bits = 0 ∨ 7 < bits) by omega]
    · simp [exec, execReadByteAcknowledge, hr, h, reading, Phase.ignores]
    · simp [exec, execReadPhaseEnd, hr, h, reading]
  · rcases h with h | h | h <;> simp [exec, execAddressByte, hr, h, Phase.ignores]
  · rcases h with h | h | h <;> simp [exec, execWritePhaseByte, hr, h, Phase.ignores]
  · rcases h with h | h | h <;> simp [exec, execGroupPhaseByte, hr, h, Phase.ignores]
  · rcases h with h | h | h <;> simp [exec, execReadByteAcknowledge, hr, h, Phase.ignores]
  · simp [exec, execReadPhaseEnd, hr, h]
  · simp [exec, execBusError, h]

/-! ### Group commands at the lanes (R88, R91, R173) -/

theorem mem_maskedLanes (mask : Byte) (n : LaneId) : n ∈ maskedLanes mask ↔ mask.getLsbD n.val = true := by
  simp [maskedLanes]

theorem nodup_maskedLanes (mask : Byte) : (maskedLanes mask).Nodup := (List.nodup_finRange 4).filter _

/-- One function applied to several lanes. -/
theorem State.foldl_modLane (f : Lane → Lane) (ns : List LaneId) (nd : ns.Nodup) (s : State) :
    let t := ns.foldl (fun s n => s.modLane n f) s
    t = { s with lanes := t.lanes } ∧ ∀ m, t.lane m = if m ∈ ns then f (s.lane m) else s.lane m := by
  induction ns generalizing s with
  | nil => exact ⟨rfl, fun m => rfl⟩
  | cons n ns ih =>
    obtain ⟨hn, nd⟩ := List.nodup_cons.mp nd
    obtain ⟨frame, lanes⟩ := ih nd (s.modLane n f)
    rw [List.foldl_cons]
    refine ⟨by rw [frame]; rfl, fun m => ?_⟩
    rw [lanes, State.modLane_lane]
    by_cases e : m = n
    · subst e
      simp [hn]
    · simp [e]

/-- A lane that streams: it takes an immediate stop (R90, R91). -/
def Lane.streams (l : Lane) : Prop := l.state ≠ .off ∧ l.state ≠ .idle

theorem State.haltIfStreaming_of_streams {s : State} {n : LaneId} (h : (s.lane n).streams) :
    s.haltIfStreaming n = { s.setLane n (s.lane n).stopped with array := s.givenUp n } := by
  rw [← State.immediateStop_eq]
  exact if_neg fun e => e.elim h.1 h.2

theorem State.haltIfStreaming_of_rests {s : State} {n : LaneId} (h : ¬ (s.lane n).streams) :
    s.haltIfStreaming n = s := by
  refine if_pos ?_
  by_contra e
  exact h (not_or.mp e)

/-- A lane that gives up its request leaves the operation of every other requester (R5). -/
theorem State.givenUp_other (n : LaneId) (h : ∀ x, s.array = some (.transfer x) → x.requester ≠ .lane n) :
    s.givenUp n = s.array := by
  unfold State.givenUp
  split
  · rename_i q x _ hx
    rw [if_neg fun e => h x hx e.2, hx]
  · rfl

/-- The operation of a lane that gives up its request stays that lane's. -/
theorem State.givenUp_transfer {s : State} {n : LaneId} {x : Transfer} (hx : s.array = some (.transfer x)) :
    ∃ y, s.givenUp n = some (.transfer y) ∧ y.requester = x.requester := by
  unfold State.givenUp
  split
  · rename_i q z _ hz
    cases hx.symm.trans hz
    split
    · exact ⟨_, rfl, rfl⟩
    · exact ⟨x, hx, rfl⟩
  · exact ⟨x, hx, rfl⟩

/-- The stop of one lane that streams. -/
theorem State.haltIfStreaming_spec (n : LaneId) :
    let t := s.haltIfStreaming n
    t = { s with lanes := t.lanes, array := t.array } ∧
    (∀ m, (m = n ∧ (s.lane m).streams → t.lane m = (s.lane m).stopped) ∧
      (¬ (m = n ∧ (s.lane m).streams) → t.lane m = s.lane m)) ∧
    ((s.lane n).streams → t.array = s.givenUp n) ∧ (¬ (s.lane n).streams → t.array = s.array) := by
  by_cases h : (s.lane n).streams
  · rw [State.haltIfStreaming_of_streams h]
    refine ⟨rfl, fun m => ⟨fun ⟨e, _⟩ => ?_, fun e => ?_⟩, fun _ => rfl, fun e => absurd h e⟩
    · exact (State.setLane_lane s n _ m).trans (by rw [if_pos e, e])
    · exact (State.setLane_lane s n _ m).trans (if_neg fun k => e ⟨k, k ▸ h⟩)
  · rw [State.haltIfStreaming_of_rests h]
    exact ⟨rfl, fun m => ⟨fun ⟨e, k⟩ => absurd (e ▸ k) h, fun _ => rfl⟩, fun e => absurd e h, fun _ => rfl⟩

/-- The immediate stop of the lanes of a list: those that stream are stopped, and the operation in flight is given up
by its lane, when that is one of them. -/
theorem State.foldl_haltIfStreaming (ns : List LaneId) (nd : ns.Nodup) (s : State) :
    let t := ns.foldl State.haltIfStreaming s
    t = { s with lanes := t.lanes, array := t.array } ∧
    (∀ m, (m ∈ ns ∧ (s.lane m).streams → t.lane m = (s.lane m).stopped) ∧
      (¬ (m ∈ ns ∧ (s.lane m).streams) → t.lane m = s.lane m)) ∧
    (∀ n x, s.array = some (.transfer x) → x.requester = .lane n →
      (n ∈ ns ∧ (s.lane n).streams → t.array = s.givenUp n) ∧
      (¬ (n ∈ ns ∧ (s.lane n).streams) → t.array = s.array)) ∧
    ((∀ n x, s.array = some (.transfer x) → x.requester ≠ .lane n) → t.array = s.array) := by
  induction ns generalizing s with
  | nil =>
    exact ⟨rfl, fun m => ⟨fun h => absurd h.1 nofun, fun _ => rfl⟩,
      fun n x _ _ => ⟨fun h => absurd h.1 nofun, fun _ => rfl⟩, fun _ => rfl⟩
  | cons k ns ih =>
    obtain ⟨hk, nd⟩ := List.nodup_cons.mp nd
    rw [List.foldl_cons]
    obtain ⟨frame, lanes, stopped, stands⟩ := State.haltIfStreaming_spec s k
    generalize s.haltIfStreaming k = u at frame lanes stopped stands ⊢
    obtain ⟨frame', lanes', flight, others⟩ := ih nd u
    have kept_array : (∀ x, s.array = some (.transfer x) → x.requester ≠ .lane k) → u.array = s.array := fun h => by
      by_cases hs : (s.lane k).streams
      · rw [stopped hs, State.givenUp_other s k h]
      · exact stands hs
    refine ⟨by rw [frame', frame], fun m => ?_, fun n x hx hr => ?_, fun h => ?_⟩
    · by_cases e : m = k
      · subst e
        have := (lanes' m).2 fun h => hk h.1
        refine ⟨fun h => this.trans ((lanes m).1 ⟨rfl, h.2⟩), fun h => this.trans ((lanes m).2 fun g => h ?_)⟩
        exact ⟨List.mem_cons_self, g.2⟩
      · have stood : u.lane m = s.lane m := (lanes m).2 fun h => e h.1
        have := lanes' m
        rw [stood] at this
        simpa [List.mem_cons, e] using this
    · by_cases e : n = k
      · subst e
        by_cases hs : (s.lane n).streams
        · obtain ⟨y, hy, hyr⟩ := State.givenUp_transfer hx (n := n)
          have last : (List.foldl State.haltIfStreaming u ns).array = u.array :=
            (flight n y ((stopped hs).trans hy) (hyr.trans hr)).2 fun h => hk h.1
          exact ⟨fun _ => last.trans (stopped hs), fun h => absurd ⟨List.mem_cons_self, hs⟩ h⟩
        · have last : (List.foldl State.haltIfStreaming u ns).array = u.array :=
            (flight n x ((stands hs).trans hx) hr).2 fun h => hk h.1
          exact ⟨fun h => absurd h.2 hs, fun _ => last.trans (stands hs)⟩
      · have stood : u.lane n = s.lane n := (lanes n).2 fun h => e h.1
        have same : u.array = s.array := kept_array fun z hz hzr => by
          cases hx.symm.trans hz
          exact e (Party.lane.inj (hr.symm.trans hzr))
        have given : u.givenUp n = s.givenUp n := by unfold State.givenUp; rw [stood, same]
        have := flight n x (same.trans hx) hr
        rw [stood, given, same] at this
        simpa [List.mem_cons, e] using this
    · have same : u.array = s.array := kept_array (h k)
      rw [others (by rw [same]; exact h), same]

/-- Settles O34: GROUP START and GROUP HALT, by induction over the lanes of the mask. -/
theorem groupCommandsAtLanes : Obligations.GroupCommandsAtLanes := by
  intro s mask
  have selected : ∀ n, n ∈ maskedLanes mask ↔ mask.getLsbD n.val = true := mem_maskedLanes mask
  refine ⟨?_, ?_⟩
  · obtain ⟨frame, lanes⟩ := State.foldl_modLane Lane.release (maskedLanes mask) (nodup_maskedLanes mask) s
    refine ⟨_, rfl, frame, fun n => (lanes n).trans ?_⟩
    by_cases hm : mask.getLsbD n.val = true
    · by_cases ha : (s.lane n).state = .armed <;> simp [selected, hm, ha, Lane.release]
    · simp [selected, hm]
  · intro stops
    obtain ⟨frame, lanes, flight, others⟩ :=
      State.foldl_haltIfStreaming (maskedLanes mask) (nodup_maskedLanes mask) s
    simp only [selected] at lanes flight
    refine ⟨_, rfl, frame, lanes, fun n x hx hr => (flight n x hx hr).1, fun h => ?_⟩
    by_cases of_lane : ∃ n x, s.array = some (.transfer x) ∧ x.requester = .lane n
    · obtain ⟨n, x, hx, hr⟩ := of_lane
      exact (flight n x hx hr).2 (h n x hx hr)
    · exact others fun n x hx hr => of_lane ⟨n, x, hx, hr⟩

end Sys2Proof.Machine

namespace Sys2Proof.Machine

set_option Elab.async false

/-! ### Operands -/

theorem laneOf_of_val {n : LaneId} {lane : Byte} (h : n.val = lane.toNat) : laneOf lane = some n := by
  unfold laneOf
  rw [dif_pos (h ▸ n.isLt)]
  exact congrArg some (Fin.ext h.symm)

theorem laneOf_none {lane : Byte} (h : 3 < lane.toNat) : laneOf lane = none := dif_neg (by omega)

theorem flagOf_none {b : Byte} (h : 1 < b.toNat) : flagOf b = none := by
  unfold flagOf
  rw [if_neg (by rintro rfl; simp at h), if_neg (by rintro rfl; simp at h)]

/-- A byte of 0 or 1. -/
theorem flag_cases {b : Byte} (h : b.toNat ≤ 1) : b = 0 ∨ b = 1 := by
  rcases Nat.le_one_iff_eq_zero_or_eq_one.mp h with h | h
  · exact .inl (BitVec.eq_of_toNat_eq h)
  · exact .inr (BitVec.eq_of_toNat_eq h)

variable (s : State)

/-! ### LANE STOP (R89, R90) -/

theorem exec_laneStop (c : Ctl) (tag lane mode : Byte) (h : s.executes (.laneStop c tag lane mode) = true)
    (hs : s.session c = some tag) (r : Reply) (hr : laneStopCommand lane mode s = r) :
    exec (.laneStop c tag lane mode) s = .next (r.state.answered r.status r.body) :=
  hr ▸ State.runFrame_inSession s _ c tag _ h hs

/-- LANE STOP of lane n with the mode that the byte names. -/
theorem laneStopCommand_eq {n : LaneId} {lane mode : Byte} (hn : n.val = lane.toNat) (immediate : Bool)
    (hm : flagOf mode = some immediate) : laneStopCommand lane mode s =
      if (s.lane n).state = .off then refuse s .wrongState
      else if immediate then done (s.haltIfStreaming n) else done (s.stopAtBoundary n) := by
  simp only [laneStopCommand, laneOf_of_val hn, hm]

theorem laneStopCommand_badParameter {lane mode : Byte} (h : 3 < lane.toNat ∨ 1 < mode.toNat) :
    laneStopCommand lane mode s = refuse s .badParameter := by
  unfold laneStopCommand
  rcases h with h | h
  · rw [laneOf_none h]
  · rw [flagOf_none h]
    cases laneOf lane <;> rfl

/-- What is left of a stop at the boundary by the lane's state: the immediate stop. -/
theorem State.stopAtBoundary_streams {s : State} {n : LaneId} (h : (s.lane n).streams)
    (hb : ¬((s.lane n).state = .running ∨ (s.lane n).state = .blocked ∨ (s.lane n).state = .draining ∨
      ((s.lane n).state = .paused ∧ (s.lane n).setup.direction = .into))) :
    s.stopAtBoundary n = s.immediateStop n := by
  obtain ⟨off, idle⟩ := h
  unfold State.stopAtBoundary
  dsimp only
  split
  · exact absurd ‹_› off
  · exact absurd ‹_› idle
  · exact absurd (.inr (.inr (.inl ‹_›))) hb
  · exact absurd (.inl ‹_›) hb
  · exact absurd (.inr (.inl ‹_›)) hb
  · exact absurd (.inr (.inr (.inr ⟨‹_›, ‹_›⟩))) hb
  · rfl

/-- A lane with nothing left to store that goes to IDLE: its tag is EMPTY and stays so. -/
theorem Lane.enterIdle_of_empty {l : Lane} (h : l.tag = .empty) : l.enterIdle = { l with
    state := .idle, stopPending := false, follow := none, drain := none, list := l.rolledBack
    current := l.current.map (LineRef.fallen (l.retires l.restartsAt)) } := by
  rw [Lane.enterIdle_eq, h]
  rfl

/-- Settles O30: LANE STOP by the lane's state and the mode. -/
theorem laneStopByState : Obligations.LaneStopByState := by
  intro s c tag lane mode i h hs
  have run := exec_laneStop s c tag lane mode h hs
  refine ⟨fun hb => run _ (laneStopCommand_badParameter s hb), fun n hn hm => ?_⟩
  intro l atBoundary
  obtain ⟨immediate, flag, boundary⟩ : ∃ immediate, flagOf mode = some immediate ∧ (mode = 0 → immediate = false) ∧
      (mode ≠ 0 → immediate = true) := by
    rcases flag_cases hm with rfl | rfl
    · exact ⟨false, rfl, fun _ => rfl, fun e => absurd rfl e⟩
    · exact ⟨true, rfl, nofun, fun _ => rfl⟩
  have command := laneStopCommand_eq s hn immediate flag
  have at_boundary : mode = 0 → l.state ≠ .off → laneStopCommand lane mode s = done (s.stopAtBoundary n) :=
    fun h0 hl => by rw [command, if_neg hl, boundary.1 h0]; rfl
  refine ⟨fun hl => run _ (command.trans (if_pos hl)), fun hl => ?_, fun hl h0 => ?_, fun hl h0 => ?_,
    fun hl h0 => ?_, fun hl hd ht hh h0 => ?_, fun off idle hb => ?_⟩
  · refine run (done s) ?_
    rw [command, if_neg (by rw [hl]; exact nofun)]
    have rests : s.haltIfStreaming n = s := if_pos (.inr hl)
    have stands : s.stopAtBoundary n = s := by simp only [State.stopAtBoundary, show (s.lane n).state = .idle from hl]
    rw [rests, stands, ite_self]
  · refine run (done (s.setLane n { l with stopPending := true })) ?_
    rw [at_boundary h0 (by rw [hl]; exact nofun)]
    simp only [State.stopAtBoundary, show (s.lane n).state = .running from hl]
    rw [hl]
  · refine run (done s) ?_
    rw [at_boundary h0 (by rw [hl]; exact nofun)]
    simp only [State.stopAtBoundary, show (s.lane n).state = .draining from hl]
  · refine run (done (s.setLane n (l.drainFor .stop))) ?_
    rcases hl with hl | ⟨hl, hd, left⟩
    · rw [at_boundary h0 (by rw [hl]; exact nofun)]
      simp only [State.stopAtBoundary, show (s.lane n).state = .blocked from hl]
      rfl
    · have some_left : (s.lane n).nothingToStore = false := by
        unfold Lane.nothingToStore
        rcases left with ht | hh
        · simp [show (s.lane n).tag ≠ .empty from ht]
        · simp [show (s.lane n).held = true from hh]
      rw [at_boundary h0 (by rw [hl]; exact nofun)]
      simp only [State.stopAtBoundary, show (s.lane n).state = .paused from hl,
        show (s.lane n).setup.direction = .into from hd, some_left]
      rfl
  · refine run (done (s.setLane n _)) ?_
    have none_left : (s.lane n).nothingToStore = true := by
      simp [Lane.nothingToStore, show (s.lane n).tag = .empty from ht, show (s.lane n).held = false from hh]
    rw [at_boundary h0 (by rw [hl]; exact nofun), ← Lane.enterIdle_of_empty ht]
    simp only [State.stopAtBoundary, show (s.lane n).state = .paused from hl,
      show (s.lane n).setup.direction = .into from hd, none_left]
    rfl
  · refine run (done _) ?_
    have streams : (s.lane n).streams := ⟨off, idle⟩
    rw [← State.immediateStop_eq, command, if_neg off]
    by_cases h0 : mode = 0
    · rw [boundary.1 h0, State.stopAtBoundary_streams streams fun e => hb ⟨h0, e⟩]
      rfl
    · rw [boundary.2 h0, State.haltIfStreaming_of_streams streams, ← State.immediateStop_eq]
      rfl

/-! ### The removal of claims -/

theorem Option.filter_not_eq_bind {α : Type} (p : α → Bool) (o : Option α) :
    o.filter (fun k => !p k) = o.bind fun k => if p k then none else some k := by
  cases o with
  | none => rfl
  | some k => cases h : p k <;> simp [Option.filter, h]

/-- The removal of a holder's claims, in the words of the session and lane resets (R36). -/
theorem State.endClaims_of_holder (p : Party) (cause : Cause) (u v : State)
    (h : u.events = v.events ∧ u.eventCounter = v.eventCounter ∧ u.clock = v.clock) (hc : ∀ j, u.claim j = v.claim j) :
    (∀ j, (u.endClaims (fun k => k.holder = p) cause).claim j =
      (v.claim j).bind fun k => if k.holder = p then none else some k) ∧
    (u.endClaims (fun k => k.holder = p) cause).events = (v.afterClaimEnded p cause).events := by
  obtain ⟨claims, -, -, events⟩ := State.endClaims_spec (fun k => k.holder = p) cause u v h
  refine ⟨fun j => ?_, ?_⟩
  · rw [claims, hc, Option.filter_not_eq_bind]
    simp only [decide_eq_true_eq]
  · rw [events]
    refine congrArg State.events (List.foldl_ext _ _ _ fun w j _ => ?_)
    rw [hc j]
    cases v.claim j with
    | none => rfl
    | some k =>
      by_cases hk : k.holder = p
      · simp [hk, Claim.ended]
      · simp [hk]

/-! ### LANE RESET (R92) -/

theorem exec_laneReset (c : Ctl) (tag lane : Byte) (h : s.executes (.laneReset c tag lane) = true)
    (hs : s.session c = some tag) (r : Reply) (hr : laneResetCommand lane s = r) :
    exec (.laneReset c tag lane) s = .next (r.state.answered r.status r.body).arbitrate :=
  hr ▸ State.runOccasion_inSession s _ c tag _ h hs

/-- A lane at its reset values, its slot given up. -/
theorem State.withdrawn_reset (n : LaneId) :
    (s.withdrawSlot n).modLane n Lane.reset = { s.setLane n (s.lane n).reset with array := s.givenUp n } := by
  have array_apart : ∀ (v : State) (o : Option Operation) (f : Lane → Lane),
      ({ v with array := o } : State).modLane n f = { v.modLane n f with array := o } := fun _ _ _ => rfl
  rw [State.withdrawSlot_eq, array_apart, State.modLane_setLane]
  rfl

/-- Settles O32: the lane by its reset values, the claims by their removal. -/
theorem laneResetEndsLane : Obligations.LaneResetEndsLane := by
  intro s c tag lane i h hs
  have run := exec_laneReset s c tag lane h hs
  refine ⟨fun hb => run (refuse s .badParameter) (by simp only [laneResetCommand, laneOf_none hb]), fun n hn =>
    ⟨fun off => run (done s) (by simp only [laneResetCommand, laneOf_of_val hn, off, if_true]), fun off => ?_⟩⟩
  obtain ⟨v, hv⟩ : ∃ v : State, ({ s.setLane n (s.lane n).reset with array := s.givenUp n } : State) = v := ⟨_, rfl⟩
  have lanes : ∀ m, v.lane m = if m = n then (s.lane n).reset else s.lane m := fun m => by
    rw [← hv]; exact State.setLane_lane s n _ m
  have v_frame : v = { s with lanes := v.lanes, array := v.array } := by rw [← hv]; rfl
  have v_array : v.array = s.givenUp n := by rw [← hv]
  have frame := (State.endClaims_spec (fun k => k.holder = .lane n) .laneReset v v ⟨rfl, rfl, rfl⟩).2.1
  obtain ⟨claims, events⟩ := State.endClaims_of_holder (.lane n) .laneReset v s (by rw [← hv]; exact ⟨rfl, rfl, rfl⟩)
    (fun j => by rw [← hv]; rfl)
  have reset : s.resetLane n = v.endClaims (fun k => k.holder = .lane n) .laneReset := by
    rw [State.resetLane, State.withdrawn_reset, hv]
  generalize v.endClaims (fun k => k.holder = .lane n) .laneReset = u at reset frame claims events
  have lane_eq : ∀ m, u.lane m = v.lane m := fun m => by rw [frame]; rfl
  have this_lane : u.lane n = (s.lane n).reset := by rw [lane_eq, lanes, if_pos rfl]
  refine ⟨u, run (done u) (by simp only [laneResetCommand, laneOf_of_val hn, off, if_false, reset]),
    by rw [frame, v_frame], fun m hm => by rw [lane_eq, lanes, if_neg hm], ?_, ?_, ?_, ?_, by rw [frame, v_array],
    claims, events⟩ <;> rw [this_lane] <;> rfl

end Sys2Proof.Machine

namespace Sys2Proof.Machine

set_option Elab.async false

variable (s : State)

/-! ### Lease ticks (R33, R34) -/

theorem State.countLeases_claim (i : ClaimId) : s.countLeases.claim i = (s.claim i).map Claim.countDown := by
  show (s.claims.map (Option.map Claim.countDown))[i.val] = _
  rw [Vector.getElem_map]
  rfl

/-- A claim one lease tick on has expired exactly when the tick leaves nothing of it. -/
theorem Claim.expired_countDown (k : Claim) : k.countDown.expired = decide (afterLeaseTick k = none) := by
  unfold Claim.expired Claim.countDown afterLeaseTick
  cases k.lease with
  | none => simp
  | some l =>
    by_cases h : l ≤ 1
    · simp [h, show l - 1 = 0 by omega]
    · simp [h, show l - 1 ≠ 0 by omega]

theorem Claim.afterLeaseTick_eq (k : Claim) :
    afterLeaseTick k = if k.countDown.expired then none else some k.countDown := by
  unfold Claim.expired Claim.countDown afterLeaseTick
  cases h : k.lease with
  | none =>
    obtain ⟨holder, mode, first, count, lease⟩ := k
    obtain rfl : lease = none := h
    rfl
  | some l =>
    by_cases hl : l ≤ 1
    · simp [hl, show l - 1 = 0 by omega]
    · simp [hl, show l - 1 ≠ 0 by omega]

/-- The expiry of the claims at lease 0, as the events of a part that agrees on the queue, the counters and, but for
the leases, the claims. -/
theorem State.expireClaims_spec (u v : State) (gone : Claim → Prop) [DecidablePred gone]
    (h : u.events = v.events ∧ u.eventCounter = v.eventCounter ∧ u.clock = v.clock) (f : Claim → Claim)
    (hc : ∀ i, u.claim i = (v.claim i).map f) (hf : ∀ k, (f k).expired = decide (gone k))
    (he : ∀ k i, (f k).ended i .expired = k.ended i .expired) :
    (∀ i, u.expireClaims.claim i = (v.claim i).bind fun k => if gone k then none else some (f k)) ∧
    (u.expireClaims.occasion = true ↔ u.occasion = true ∨ ∃ i k, v.claim i = some k ∧ gone k) ∧
    u.expireClaims.events = ((List.finRange 24).foldl (fun w i =>
      match v.claim i with
      | some k => if gone k then w.post (k.ended i .expired) else w
      | none => w) v).events := by
  obtain ⟨claims, -, occasion, events⟩ := State.endClaims_spec Claim.expired .expired u v h
  refine ⟨fun i => ?_, occasion.trans (or_congr Iff.rfl ⟨?_, ?_⟩), events.trans ?_⟩
  · refine (claims i).trans ?_
    rw [hc, Option.filter_not_eq_bind]
    cases v.claim i with
    | none => rfl
    | some k => simp [hf]
  · rintro ⟨i, k, hk, gone_k⟩
    rw [hc] at hk
    obtain ⟨j, hj, rfl⟩ := Option.map_eq_some_iff.mp hk
    exact ⟨i, j, hj, by simpa [hf] using gone_k⟩
  · rintro ⟨i, k, hk, gone_k⟩
    exact ⟨i, f k, by rw [hc, hk]; rfl, by simpa [hf] using gone_k⟩
  · refine congrArg State.events (List.foldl_ext _ _ _ fun w i _ => ?_)
    rw [hc]
    cases v.claim i with
    | none => rfl
    | some k => simp [hf, he]

theorem State.expireClaims_frame : s.expireClaims = { s with
    claims := s.expireClaims.claims, events := s.expireClaims.events, eventCounter := s.expireClaims.eventCounter,
    occasion := s.expireClaims.occasion } :=
  (State.endClaims_spec Claim.expired .expired s s ⟨rfl, rfl, rfl⟩).2.1

theorem exec_leaseTick (h : s.resetnLow = false)
    (hl : s.leaseTick = .due ∨ (s.leaseTick = .settled ∧ s.tickPhase.val = 9)) :
    exec .leaseTick s = .next ({ s with leaseTick := if s.leaseTick = .due then .settled else .early } :
      State).countLeases.expireClaims.arbitrate := by
  have taken : s.leaseTick.take s.tickPhase = some (if s.leaseTick = .due then .settled else .early) := by
    rcases hl with hl | ⟨hl, hp⟩
    · rw [hl]; rfl
    · rw [hl]
      exact if_pos (Fin.ext hp)
  simp only [exec, execLeaseTick, h, taken, Bool.false_eq_true, if_false]

/-- Settles O11: the leases counted down, then the expiry; and the expiry alone. -/
theorem leaseTickAndExpiry : Obligations.LeaseTickAndExpiry := by
  intro s
  refine ⟨fun h hl => ?_, ?_⟩
  · obtain ⟨v, hv⟩ : ∃ v : State, ({ s with leaseTick := if s.leaseTick = .due then .settled else .early } :
        State).countLeases = v := ⟨_, rfl⟩
    have frame := State.expireClaims_frame v
    obtain ⟨claims, occasion, events⟩ := State.expireClaims_spec v s (fun k => afterLeaseTick k = none)
      (by rw [← hv]; exact ⟨rfl, rfl, rfl⟩) Claim.countDown (fun i => by rw [← hv, State.countLeases_claim]; rfl)
      Claim.expired_countDown (fun _ _ => rfl)
    have v_frame : v = { s with claims := v.claims,
                                leaseTick := if s.leaseTick = .due then .settled else .early } := by rw [← hv]; rfl
    refine ⟨v.expireClaims, by rw [exec_leaseTick s h hl, hv], fun i => ?_, by rw [frame, v_frame],
      by rw [occasion, v_frame], events⟩
    rw [claims]
    congr 1
    funext k
    rw [Claim.afterLeaseTick_eq]
    split <;> simp
  · obtain ⟨claims, occasion, events⟩ := State.expireClaims_spec s s (fun k => k.lease = some 0) ⟨rfl, rfl, rfl⟩ id
      (fun i => by simp) (fun _ => rfl) (fun _ _ => rfl)
    exact ⟨s.expireClaims, rfl, claims, State.expireClaims_frame s, occasion, events⟩

/-! ### IDENTIFY, ROW INFO and LIST CLAIMS -/

theorem word_eq (n : Nat) : word n = [BitVec.ofNat 8 (n / 256), BitVec.ofNat 8 n] := halfBytes_ofNat n

theorem halfBytes_eq (h : Half) : halfBytes h = [BitVec.ofNat 8 (h.toNat / 256), BitVec.ofNat 8 h.toNat] := by
  have := halfBytes_ofNat h.toNat
  rwa [BitVec.ofNat_toNat, BitVec.setWidth_eq] at this

theorem exec_identify (c : Ctl) (tag : Byte) (h : s.executes (.identify c tag) = true) :
    exec (.identify c tag) s = .next (s.answered .ok (identifyBody s.port.strap)) := by
  show s.runFrame (.identify c tag) (fun s => answer s (identifyBody s.port.strap)) = _
  simp only [State.runFrame, h, if_true, answer, Reply.finish_eq]

/-- A claim's ten bytes one by one. -/
theorem Claim.layout_eq (k : Claim) (i : ClaimId) : k.layout i =
    [BitVec.ofNat 8 i.val, partyCode k.holder, if k.kind = .shared then 0 else 1, BitVec.ofNat 8 (k.first.val / 256),
     BitVec.ofNat 8 k.first.val, BitVec.ofNat 8 (k.count / 256), BitVec.ofNat 8 k.count,
     if k.lease = none then 0 else 1, BitVec.ofNat 8 (k.lease.getD 0 / 256), BitVec.ofNat 8 (k.lease.getD 0)] := by
  obtain ⟨holder, kind, first, count, lease⟩ := k
  have kind_code : kind.code = if kind = .shared then 0 else 1 := by cases kind <;> rfl
  have lease_bit : bitByte lease.isSome = if lease = none then 0 else 1 := by cases lease <;> rfl
  simp only [Claim.layout, word_eq, kind_code, lease_bit, byteOf, List.cons_append, List.nil_append]

/-- Settles O42: the three commands by their bodies, byte by byte. -/
theorem identifyRowInfoListClaims : Obligations.IdentifyRowInfoListClaims := by
  intro s c tag b party
  have party_code : ∀ p, partyCode p = b (party p) := by
    intro p
    cases p <;> rfl
  refine ⟨fun h => ?_, fun first count h hs => ?_, fun start maximum h hs => ?_⟩
  · rw [exec_identify s c tag h]
    rfl
  · have run : exec (.rowInfo c tag first count) s = _ :=
      State.runFrame_inSession s _ c tag (rowInfoCommand first count) h hs
    rw [run]
    refine ⟨fun bad => ?_, fun h1 h2 h3 h4 info hinfo => ?_⟩
    · rw [show rowInfoCommand first count s = refuse s .badParameter from if_pos bad]
      rfl
    · rw [show rowInfoCommand first count s = answer s (s.rowInfoBody first.toNat count.toNat) from if_neg (by omega)]
      refine congrArg (fun body => Host.Outcome.next (s.answered .ok body)) (List.flatMap_congr fun k hk => ?_)
      have row : first.toNat + k < 512 := by
        have := List.mem_range.mp hk
        omega
      have at_row := hinfo (Fin.ofNat 512 (first.toNat + k))
      rw [Fin.val_ofNat, Nat.mod_eq_of_lt row] at at_row
      rw [at_row]
      dsimp only
      rw [halfBytes_eq]
      cases (s.rowRecord (Fin.ofNat 512 (first.toNat + k))).lastWriter with
      | party p => exact congrArg (fun w => [_, _, w]) (party_code p)
      | sweep => rfl
  · intro record records
    have run : exec (.listClaims c tag start maximum) s = _ :=
      State.runFrame_inSession s _ c tag (listClaimsCommand start maximum) h hs
    rw [run]
    refine ⟨fun bad => ?_, fun h1 h2 h3 => ?_⟩
    · rw [show listClaimsCommand start maximum s = refuse s .badParameter from if_pos bad]
      rfl
    · have layout : (fun (i : ClaimId) (k : Claim) => k.layout i) = record := by
        funext i k
        rw [Claim.layout_eq, party_code]
      rw [show listClaimsCommand start maximum s = answer s (s.claimsBody start.toNat maximum.toNat) from
        if_neg (by omega)]
      show Host.Outcome.next (s.answered .ok (s.claimsBody start.toNat maximum.toNat)) = _
      have body : s.claimsBody start.toNat maximum.toNat = b records.length :: records.flatten := by
        simp only [records, ← layout]
        rfl
      rw [body]

/-! ### RESET PART and GROUP ENABLE -/

theorem State.resetPart_frame : s.resetPart = { s with
    claims := .replicate 24 none, queue := [], nextTicket := 1, orphan := none, log := [], streak := 0, lastLane := 3
    lanes := s.lanes.map Lane.reset, sessions := .replicate 8 none, buffers := .replicate 8 [], groupEnable := false
    events := [{ seq := 1, time := s.clock, post := { kind := .partReset, source := .part, cause := some .soft } }]
    eventCounter := 1, mask := 0x0FFE, array := s.cancelAll.array, occasion := true } := by
  rw [State.resetPart, State.cancelAll_frame]
  rfl

theorem State.resetPart_attnLow : s.resetPart.attnLow = true := by
  simp only [State.attnLow, State.resetPart_frame, List.any_cons, List.any_nil]
  decide

/-- A lane at its reset values: it drives nothing on LD, and neither READY nor MARK. -/
theorem Lane.reset_outputs (l : Lane) :
    l.reset = { Lane.off with active := l.reset.active, staging := l.reset.staging } ∧
    l.reset.ldDrive = none ∧ l.reset.ready = false ∧ l.reset.mark = false := ⟨rfl, rfl, rfl, rfl⟩

theorem State.cancelAll_array :
    (∀ x, s.array = some (.transfer x) →
      s.cancelAll.array = some (.transfer { x with discard := true, softReset := true })) ∧
    ((∀ x, s.array ≠ some (.transfer x)) → s.cancelAll.array = s.array) := by
  unfold State.cancelAll
  refine ⟨fun x hx => ?_, fun none_in_flight => ?_⟩
  · rw [hx]
  · split
    · exact absurd ‹_› (none_in_flight _)
    · rfl

/-- Settles O45: RESET PART field by field, and GROUP ENABLE by its flag. -/
theorem resetPartAndGroupEnable : Obligations.ResetPartAndGroupEnable := by
  intro s c tag flag hs
  refine ⟨fun h => ?_, fun h => ?_⟩
  · refine ⟨s.resetPart, State.runOccasion_inSession s _ c tag _ h hs, by rw [State.resetPart_frame], fun j => ?_,
      fun d => ⟨?_, fun k => ?_⟩, fun n => ?_, ?_, State.resetPart_attnLow s, ?_⟩
    · rw [State.resetPart_frame]
      exact State.reset_claim j
    · rw [State.resetPart_frame]
      exact State.reset_session d
    · rw [State.resetPart_frame]
      exact congrArg (fun m : Memory => m.read k) (State.reset_buffer d)
    · rw [State.lane_map s.resetPart Lane.reset s.lanes (by rw [State.resetPart_frame]) n]
      exact Lane.reset_outputs _
    · rw [State.resetPart_frame]
    · rw [State.resetPart_frame]
      exact State.cancelAll_array s
  · have run : exec (.groupEnable c tag flag) s = _ := State.runFrame_inSession s _ c tag (groupEnableCommand flag) h hs
    rw [run]
    refine ⟨fun bad => ?_, fun good => ?_⟩
    · rw [show groupEnableCommand flag s = refuse s .badParameter by simp only [groupEnableCommand, flagOf_none bad]]
      rfl
    · rcases flag_cases good with rfl | rfl <;> rfl

end Sys2Proof.Machine

namespace Sys2Proof.Machine

set_option Elab.async false

variable (s : State)

/-! ### The 1 ms tick (R15, R45, R46) -/

theorem RequestState.tick_eq (r : RequestState) : r.tick = afterTick r := by cases r <;> rfl

/-- The part at a 1 ms tick, before the refusals: counter, phase and blocked times one on. -/
theorem State.ticked_eq : s.countTick.tickBlocked = { s with
    clock := s.clock + 1, tickPhase := s.tickPhase + 1, leaseTick := s.leaseTick.afterTick s.tickPhase
    queue := s.queue.map fun q => { q with state := afterTick q.state }, lanes := s.countTick.tickBlocked.lanes } := by
  simp only [State.tickBlocked, State.countTick, RequestState.tick_eq]

theorem State.ticked_lane (n : LaneId) : s.countTick.tickBlocked.lane n =
    { s.lane n with slot := (s.lane n).slot.map fun q => { q with state := afterTick q.state } } := by
  rw [State.tickBlocked_lane]
  simp only [RequestState.tick_eq]
  rfl

theorem State.ticked_slotLimitReached (n : LaneId) : s.countTick.tickBlocked.slotLimitReached n =
    (s.lane n).slot.any fun q => afterTick q.state = .blocked q.waitLimit := by
  rw [State.slotLimitReached, State.ticked_lane]
  cases (s.lane n).slot <;> rfl

theorem LeaseTick.afterTick_eq (phase : Fin 10) (l : LeaseTick) :
    l.afterTick phase = if phase.val = 9 then (if l = .early then .settled else .due) else l := by
  simp only [LeaseTick.afterTick, Fin.ext_iff]
  rfl

theorem exec_millisecondTick (hr : s.resetnLow = false) (hl : s.leaseTick ≠ .due) :
    exec .millisecondTick s = .next s.countTick.tickBlocked.refuseDue.arbitrate := by
  simp only [exec, execMillisecondTick, hr, hl, Bool.false_eq_true, if_false]

/-- Of a queue with distinct tickets, the requests left by those that meet a test: the ones that do not meet it. -/
theorem filter_not_due (qs : List QueueRequest) (nd : (qs.map (·.ticket)).Nodup) (due : QueueRequest → Bool) :
    qs.filter (fun r => r.ticket ∉ (qs.filter due).map (·.ticket)) = qs.filter fun r => !due r := by
  refine List.filter_congr fun r hr => ?_
  have of_ticket : r.ticket ∈ (qs.filter due).map (·.ticket) ↔ due r = true := by
    refine ⟨fun h => ?_, fun h => List.mem_map_of_mem (List.mem_filter.mpr ⟨hr, h⟩)⟩
    obtain ⟨q, hq, e⟩ := List.mem_map.mp h
    obtain ⟨hq, hd⟩ := List.mem_filter.mp hq
    exact List.inj_on_of_nodup_map nd hq hr e ▸ hd
  cases h : due r <;> simp [of_ticket, h]

/-- Settles O9: the tick, then the refusals of the queued requests and of the slots that it brings to their limits. -/
theorem millisecondTick : Obligations.MillisecondTick := by
  intro s hr hl leaseTick counted due lanesDue
  obtain ⟨u, hu⟩ : ∃ u : State, s.countTick.tickBlocked = u := ⟨_, rfl⟩
  have u_frame : u = { s with clock := s.clock + 1, tickPhase := s.tickPhase + 1, leaseTick, queue := counted,
                              lanes := u.lanes } := by
    rw [← hu, State.ticked_eq, LeaseTick.afterTick_eq]
  have u_lane : ∀ n, u.lane n =
      { s.lane n with slot := (s.lane n).slot.map fun q => { q with state := afterTick q.state } } := by
    intro n
    rw [← hu, State.ticked_lane]
  have refused : u.refuseDue = lanesDue.foldl State.refuseSlot (due.foldl State.refuseRequest u) := by
    have slots : (List.finRange 4).filter u.slotLimitReached = lanesDue :=
      List.filter_congr fun n _ => by rw [← hu, State.ticked_slotLimitReached]
    have requests : (u.queue.filter fun q => limitReached q.waitLimit q.state) = due := by rw [u_frame]; rfl
    rw [State.refuseDue, slots, requests]
    rfl
  have run := exec_millisecondTick s hr hl
  rw [hu, refused] at run
  refine ⟨?_, fun no_request no_slot settled => ?_⟩
  · have frame := State.refuseRequests_frame due u
    obtain ⟨log, -, queue⟩ := State.refuseRequests_fold due u
    refine ⟨_, run, ?_, fun n => ?_, fun nd => ?_, ?_, ?_⟩
    · rw [frame, u_frame]
    · rw [State.refuseRequests_lane, u_lane]
    · have tickets : (counted.map (·.ticket)).Nodup := by
        simp only [counted, List.map_map]
        exact nd
      rw [queue, u_frame]
      exact (filter_not_due counted tickets _).trans (List.filter_congr fun q _ => by simp)
    · rw [log, u_frame]
    · exact State.refuseRequests_events due u _ (by rw [u_frame]; exact ⟨rfl, rfl, rfl⟩)
  · have none_due : due = [] := List.filter_eq_nil_iff.mpr fun q hq => by
      obtain ⟨p, hp, rfl⟩ := List.mem_map.mp hq
      simpa using no_request p hp
    have no_lane : lanesDue = [] := List.filter_eq_nil_iff.mpr fun n _ => by
      cases h : (s.lane n).slot with
      | none => simp
      | some q => simpa using no_slot n q h
    rw [none_due, no_lane] at run
    have occasion : u.occasion = false := by rw [u_frame]; exact settled
    refine ⟨u, ?_, u_frame, u_lane⟩
    rw [run]
    exact congrArg Host.Outcome.next (State.arbitrate_of_no_occasion u occasion)

end Sys2Proof.Machine

namespace Sys2Proof.Machine

set_option Elab.async false

variable (s : State)

/-! ### Completions before their report (R3 to R14) -/

/-- What a completion leaves before its report: its write effects, its credit and its delivery. -/
def State.delivered (s : State) (x : Transfer) : State := ((s.writeEffects x).credits x).deliver x

theorem State.completeTransfer_eq (x : Transfer) :
    s.completeTransfer x = { (s.delivered x).report x with occasion := true, array := none } := rfl

theorem State.delivered_frame (x : Transfer) : s.delivered x = { s with
    cells := (s.delivered x).cells, records := (s.delivered x).records, lanes := (s.delivered x).lanes
    refreshPointer := (s.delivered x).refreshPointer, refreshDebt := (s.delivered x).refreshDebt
    buffers := (s.delivered x).buffers } := by
  unfold State.delivered
  rw [State.deliver_frame, State.credits_frame, State.writeEffects_frame]

theorem State.writeEffects_of_unwritten {x : Transfer} (h : x.writes = false) : s.writeEffects x = s :=
  if_neg (by rw [h]; exact nofun)

/-- An operation other than LOAD delivers nothing. -/
theorem State.delivered_of_write {x : Transfer} (h : ∀ r, x.work ≠ .load r) :
    s.delivered x = (s.writeEffects x).credits x := by
  unfold State.delivered State.deliver
  split
  · exact absurd ‹_› (h _)
  · rfl

/-- A LOAD with delivery DISCARD delivers nothing. -/
theorem State.delivered_of_discard {x : Transfer} (h : x.discard = true) :
    s.delivered x = (s.writeEffects x).credits x := by
  unfold State.delivered State.deliver
  split
  · rw [h] at *; contradiction
  · rfl

theorem State.completeTransfer_readCell (x : Transfer) (a : Nat) :
    (s.completeTransfer x).readCell a = (s.writeEffects x).readCell a := by
  rw [State.completeTransfer_frame, State.writeEffects_frame]
  rfl

theorem State.completeTransfer_rowRecord (x : Transfer) (q : RowId) :
    (s.completeTransfer x).rowRecord q = (s.writeEffects x).rowRecord q := by
  rw [State.completeTransfer_frame, State.writeEffects_frame]
  rfl

/-! ### STORE, CSTORE, FILL and COPY -/

theorem Transfer.WritesSpan.not_load {x : Transfer} {r : RowId} {sp : Span} {f : Nat → Byte} (h : x.WritesSpan r sp f)
    (q : RowId) : x.work ≠ .load q := by
  intro e
  rcases h with ⟨-, h | ⟨_, h⟩ | ⟨_, h⟩⟩ | ⟨_, h, -⟩ <;> rw [h] at e <;> cases e

theorem Transfer.WritesSpan.row {x : Transfer} {r : RowId} {sp : Span} {f : Nat → Byte} (h : x.WritesSpan r sp f) :
    x.work.row = r := by
  rcases h with ⟨-, h | ⟨_, h⟩ | ⟨_, h⟩⟩ | ⟨_, h, -⟩ <;> rw [h] <;> rfl

theorem Transfer.WritesSpan.writes {x : Transfer} {r : RowId} {sp : Span} {f : Nat → Byte} (h : x.WritesSpan r sp f) :
    x.writes = x.matched := by
  unfold Transfer.writes
  split
  · exact absurd ‹_› (h.not_load _)
  · rfl

theorem Transfer.WritesSpan.written {x : Transfer} {r : RowId} {sp : Span} {f : Nat → Byte} (h : x.WritesSpan r sp f) :
    x.written = sp.cells.map fun k => (k, f k) := by
  unfold Transfer.written
  rcases h with ⟨latched, h | ⟨_, h⟩ | ⟨_, h⟩⟩ | ⟨v, h, constant⟩
  · rw [h]; exact latched
  · rw [h]; exact latched
  · rw [h]; exact latched
  · simp only [h, constant]

/-- Settles O12: the write effects by the match field, the rest by who requested. -/
theorem writeCompletions : Obligations.WriteCompletions := by
  intro s x r sp f hx hs writes
  have frame := State.completeTransfer_frame s x
  have cell_of := State.completeTransfer_readCell s x
  have record_of := State.completeTransfer_rowRecord s x
  have unmatched : x.matched = false → s.writeEffects x = s := fun hm =>
    State.writeEffects_of_unwritten s (writes.writes.trans hm)
  have matched : x.matched = true → _ := fun hm =>
    State.readCell_writeEffects s x r sp f writes.row (writes.writes.trans hm) writes.written hs
  have recorded : x.matched = true → _ := fun hm =>
    State.rowRecord_writeEffects s x (writes.writes.trans hm) hs
  rw [writes.row] at recorded
  refine ⟨s.completeTransfer x, exec_completionOf s x hx, rfl, rfl, fun a ha => ?_, fun q hq => ?_,
    fun hm => ⟨fun k hk => ?_, ?_⟩, fun hm => ⟨fun a => ?_, fun q => ?_⟩,
    fun c hc => State.completeTransfer_ctl s x c hc, fun n hn => ?_, ?_⟩
  · rw [cell_of]
    cases hm : x.matched with
    | true => exact (matched hm).1 a ha
    | false => rw [unmatched hm]
  · rw [record_of]
    cases hm : x.matched with
    | true => rw [recorded hm, if_neg hq]
    | false => rw [unmatched hm]
  · have in_span : k ∈ sp.cells ↔ inSpan sp k := Span.mem_cells sp k hk
    rw [cell_of, (matched hm).2 k hk]
    exact ⟨fun inside => if_pos (in_span.mpr inside), fun outside => if_neg (mt in_span.mp outside)⟩
  · rw [record_of, recorded hm, if_pos rfl]
  · rw [cell_of, unmatched hm]
  · rw [record_of, unmatched hm]
  · obtain ⟨queue, log, orphan, -, others, events, lanes⟩ := State.completeTransfer_lane s x n hn
    exact ⟨queue, log, orphan, others, fun h => ⟨lanes (h.imp id fun h => ⟨h, writes.not_load⟩), events h⟩⟩
  · have buffers : (s.completeTransfer x).buffers = s.buffers := by
      rw [State.completeTransfer_eq, State.report_frame, State.delivered_of_write s writes.not_load,
        State.credits_frame, State.writeEffects_frame]
    rw [frame, buffers]

/-! ### LOAD -/

theorem Transfer.writes_load {x : Transfer} {r : RowId} (h : x.work = .load r) : x.writes = false := by
  unfold Transfer.writes
  rw [h]

theorem State.credits_rowImage (x : Transfer) (r : RowId) : (s.credits x).rowImage r = s.rowImage r := by
  rw [State.credits_frame]
  rfl

/-- A LOAD delivers its row to the staging register of the lane that requested it. -/
theorem State.delivered_load_lane {x : Transfer} {r : RowId} {n : LaneId} (h : x.work = .load r)
    (hd : x.discard = false) (hn : x.requester = .lane n) :
    s.delivered x = (s.credits x).modLane n fun l => { l with staging := s.rowImage r } := by
  simp only [State.delivered, State.deliver, State.writeEffects_of_unwritten s (Transfer.writes_load h), h, hd, hn,
    State.credits_rowImage]

/-- A LOAD delivers its row to the port buffer of the controller that requested it. -/
theorem State.delivered_load_ctl {x : Transfer} {r : RowId} {c : Ctl} (h : x.work = .load r)
    (hd : x.discard = false) (hc : x.requester = .ctl c) :
    s.delivered x = (s.credits x).setBuffer c (s.rowImage r) := by
  simp only [State.delivered, State.deliver, State.writeEffects_of_unwritten s (Transfer.writes_load h), h, hd, hc,
    State.credits_rowImage]

theorem State.rowImage_read (r : RowId) {k : Nat} (h : k < 128) :
    (s.rowImage r).read k = s.readCell (128 * r.val + k) := by
  rw [State.rowImage, Memory.read_ofCells, if_pos h]
  rfl

theorem State.staged_of_not_waiting {n : LaneId} (hp : (s.lane n).state ≠ .priming) (hq : (s.lane n).state ≠ .starved) :
    s.staged n = s := by
  unfold State.staged
  split
  · exact absurd ‹_› hp
  · exact absurd ‹_› hq
  · rfl

/-- The LOAD report of a lane that waits in neither PRIMING nor STARVED: its slot is empty and its tag FULL. -/
theorem State.loadReport_of_pending {n : LaneId} {line : LineRef} (g : Half) (ht : (s.lane n).tag = .pending line)
    (hp : (s.lane n).state ≠ .priming) (hq : (s.lane n).state ≠ .starved) :
    s.loadReport n g = s.setLane n { s.lane n with slot := none, tag := .full line (some g) } := by
  have reported : (s.modLane n fun l => { l with slot := none, tag := match l.tag with
      | .pending r => .full r (some g)
      | t => t }) = s.setLane n { s.lane n with slot := none, tag := .full line (some g) } := by
    rw [State.modLane, ht]
  have state : ((s.setLane n { s.lane n with slot := none, tag := .full line (some g) }).lane n).state =
      (s.lane n).state := by rw [State.setLane_lane, if_pos rfl]
  rw [State.loadReport]
  refine (congrArg (State.staged · n) reported).trans (State.staged_of_not_waiting _ ?_ ?_) <;> rw [state]
  · exact hp
  · exact hq

/-- Settles O13: what a LOAD delivers, and to whom it is reported. -/
theorem loadCompletion : Obligations.LoadCompletion := by
  intro s x r hx hw
  have unwritten := State.writeEffects_of_unwritten s (Transfer.writes_load hw)
  have frame := State.completeTransfer_frame s x
  have reported := State.completeTransfer_eq s x
  have op : completionOf x.work.op = .loadCompletion := by rw [hw]; rfl
  have of_lane := State.completeTransfer_lane s x
  refine ⟨s.completeTransfer x, op ▸ exec_completionOf s x hx, rfl, rfl, ?_, ?_, ?_,
    fun c hc => State.completeTransfer_ctl s x c hc, fun n hn => ?_, fun hd => ⟨?_, ?_⟩, fun hd c hc => ?_,
    fun hd hz n line hn ht => ?_⟩
  · rw [frame, unwritten]
  · rw [frame, unwritten]
  · rw [frame, unwritten]
  · obtain ⟨queue, log, orphan, buffers, others, events, -⟩ := of_lane n hn
    exact ⟨queue, log, orphan, buffers, others, fun hd => events (.inl hd)⟩
  · cases hr : x.requester with
    | ctl c => exact State.completeTransfer_ctl s x c hr
    | lane n =>
      obtain ⟨-, -, -, -, -, -, lanes⟩ := of_lane n hr
      exact lanes (.inl hd)
  · rw [reported, State.report_frame, State.delivered_of_discard s hd, State.credits_frame, unwritten]
  · have buffer : ∀ d, (s.completeTransfer x).buffer d = if d = c then s.rowImage r else s.buffer d := by
      intro d
      have delivered : s.delivered x = (s.credits x).setBuffer c (s.rowImage r) :=
        State.delivered_load_ctl s hw hd hc
      have kept : (s.completeTransfer x).buffer d = (s.delivered x).buffer d := by
        unfold State.buffer
        rw [reported, State.report_frame]
      rw [kept, delivered, State.setBuffer_buffer, State.credits_frame]
      rfl
    refine ⟨fun k hk => ?_, fun d hd => ?_, State.completeTransfer_ctl s x c hc⟩
    · rw [buffer, if_pos rfl, State.rowImage_read s r hk]
    · rw [buffer, if_neg hd]
  · obtain ⟨-, -, -, buffers, others, -, -⟩ := of_lane n hn
    refine ⟨others, buffers, fun hp hq => ?_⟩
    obtain ⟨d, hd'⟩ : ∃ d, s.delivered x = d := ⟨_, rfl⟩
    have delivered : d = (s.credits x).modLane n fun l => { l with staging := s.rowImage r } := by
      rw [← hd', State.delivered_load_lane s hw hd hn]
    have d_lane : d.lane n = { s.lane n with staging := s.rowImage r } := by
      rw [delivered, State.modLane_lane, if_pos rfl, State.credits_frame]
      rfl
    have d_events : d.events = s.events := by
      rw [delivered, State.modLane_events, State.credits_frame]
    have report : d.report x =
        d.setLane n { d.lane n with slot := none, tag := .full line (some x.startGeneration) } := by
      rw [← State.loadReport_of_pending d x.startGeneration (by rw [d_lane]; exact ht) (by rw [d_lane]; exact hp)
        (by rw [d_lane]; exact hq)]
      simp only [State.report, hn, State.laneReport, hd, hz, hw, Bool.false_eq_true, or_self, if_false]
    have lane : (s.completeTransfer x).lane n =
        { s.lane n with staging := s.rowImage r, slot := none, tag := .full line (some x.startGeneration) } := by
      rw [reported, hd', report]
      show (d.setLane n _).lane n = _
      rw [State.setLane_lane, if_pos rfl, d_lane]
    refine ⟨by rw [lane], fun k hk => ?_, ?_⟩
    · rw [lane]
      exact State.rowImage_read s r hk
    · rw [reported, hd', report]
      exact d_events

/-! ### The report at the Transfer Queue (R51, R62, R64) -/

theorem State.ticket_of_request {s : State} {k : Half} {q : QueueRequest} (h : s.request k = some q) :
    q.ticket = k := by
  simpa using List.find?_some (p := fun r : QueueRequest => r.ticket = k) h

theorem State.finish_silent (q : QueueRequest) (o : OutcomeCode) (g : Option Half) (h : q.notify = false) :
    s.finish q o g = s.record q.ticket q.ctl q.work o g := by
  unfold State.finish
  rw [h]

theorem State.finish_notified (q : QueueRequest) (o : OutcomeCode) (g : Option Half) (cause : Cause)
    (h : q.notify = true) (hc : o.cause = some cause) : s.finish q o g = (s.record q.ticket q.ctl q.work o g).post
      { kind := .transferDone, source := .party (.ctl q.ctl), row := some q.work.row, ticket := some q.ticket,
        cause := some cause } := by
  unfold State.finish
  rw [h, hc]

theorem State.finish_log (q : QueueRequest) (o : OutcomeCode) (g : Option Half) :
    (s.finish q o g).log = logAppend s.log { ticket := q.ticket, ctl := q.ctl, op := q.work.op, row := q.work.row,
                                             outcome := o, generation := g, finish := s.clock } := by
  unfold State.finish
  dsimp only
  split <;> simp [State.record]

theorem Transfer.outcome_cause (x : Transfer) :
    x.outcome.cause = some (if x.matched = true then .done else .generationMismatch) := by
  unfold Transfer.outcome
  cases x.matched <;> rfl

theorem Transfer.orphanGeneration_eq (x : Transfer) :
    x.orphanGeneration = if x.work.op = .load then none else some x.startGeneration := by
  unfold Transfer.orphanGeneration
  cases x.work <;> rfl

theorem State.queueReport_orphan (c : Ctl) (k : Half) (x : Transfer) (hz : x.softReset = false)
    (ho : s.orphan = some k) : s.queueReport c k x =
      { s.record k c x.work x.outcome x.orphanGeneration with orphan := none } := by
  simp only [State.queueReport, hz, ho, Bool.false_eq_true, if_false, if_true]

theorem State.queueReport_request (c : Ctl) (k : Half) (x : Transfer) (hz : x.softReset = false)
    (ho : s.orphan ≠ some k) (q : QueueRequest) (hq : s.request k = some q) : s.queueReport c k x =
      (s.dequeue k).finish q x.outcome (some x.startGeneration) := by
  simp only [State.queueReport, hz, ho, hq, Bool.false_eq_true, if_false]

/-- Settles O15: the report by what the ticket names. -/
theorem completionReports : Obligations.CompletionReports := by
  intro s x c ticket hx hc ht
  obtain ⟨d, hd⟩ : ∃ d, s.delivered x = d := ⟨_, rfl⟩
  have d_frame : d = { s with cells := d.cells, records := d.records, lanes := d.lanes, buffers := d.buffers,
                              refreshPointer := d.refreshPointer, refreshDebt := d.refreshDebt } := by
    rw [← hd]
    exact State.delivered_frame s x
  have reported : s.completeTransfer x = { d.queueReport c ticket x with occasion := true, array := none } := by
    rw [State.completeTransfer_eq, hd, State.report, hc, ht]
  have d_events : ∀ e : State, e.events = d.events → e.events = s.events := fun e h => by rw [h, d_frame]
  refine ⟨s.completeTransfer x, exec_completionOf s x hx, ?_, fun hz => ?_, fun hz ho => ?_,
    fun hz ho q hq hqc hqw => ?_⟩
  · have lanes := State.completeTransfer_ctl s x c hc
    have frame := State.completeTransfer_frame s x
    dsimp only at frame
    rw [lanes] at frame
    rw [frame]
  · rw [reported, State.queueReport, if_pos hz, d_frame]
    exact ⟨rfl, rfl, rfl, rfl⟩
  · rw [reported, State.queueReport_orphan d c ticket x hz (by rw [d_frame]; exact ho), Transfer.orphanGeneration_eq,
      d_frame]
    exact ⟨rfl, rfl, rfl, rfl⟩
  · have request : d.request ticket = some q := by rw [d_frame]; exact hq
    have named := State.ticket_of_request hq
    have report := State.queueReport_request d c ticket x hz (by rw [d_frame]; exact ho) q request
    rw [reported, report]
    refine ⟨?_, ?_, ?_, fun silent => ?_, fun notified => ?_⟩
    · dsimp only
      rw [State.finish_queue, d_frame]
      rfl
    · dsimp only
      rw [State.finish_orphan, d_frame]
      rfl
    · dsimp only
      rw [State.finish_log, named, hqc, hqw, d_frame]
      rfl
    · dsimp only
      rw [State.finish_silent _ _ _ _ silent, d_frame]
      rfl
    · dsimp only
      rw [State.finish_notified _ _ _ _ _ notified (Transfer.outcome_cause x), named, hqc, hqw]
      exact (State.post_congr _ _ _ (by rw [d_frame]; exact ⟨rfl, rfl, rfl⟩)).1

end Sys2Proof.Machine

namespace Sys2Proof.Machine

set_option Elab.async false

variable (s : State)

/-! ### The order of a selection (R57 to R61) -/

theorem RequestState.waits_iff (r : RequestState) : r.waits = true ↔ r ≠ .active := by 
  cases r <;> simp [RequestState.waits, RequestState.isActive]

theorem State.slotRunnable_iff (n : LaneId) : s.slotRunnable n = true ↔ s.slotReady n := by
  simp [State.slotRunnable, State.slotReady, Option.any_eq_true, RequestState.waits_iff]

theorem State.slotRunnable_false {n : LaneId} (h : ¬ s.slotReady n) : s.slotRunnable n = false :=
  Bool.eq_false_iff.mpr (mt (State.slotRunnable_iff s n).mp h)

theorem State.readyRequests_eq : s.readyRequests = s.queue.filter s.requestRunnable :=
  List.filter_congr fun q _ => by
    rw [State.requestRunnable, Bool.eq_iff_iff]
    simp [RequestState.waits_iff]

theorem laneRotation_eq (last : LaneId) : laneRotation last = (List.finRange 4).map fun k => last + 1 + k := by
  revert last
  decide

/-- The first lane of the rotation that meets a test. -/
theorem find_laneRotation (last : LaneId) (f : LaneId → Bool) (k : Fin 4) (hk : f (last + 1 + k) = true)
    (before : ∀ j, j < k → f (last + 1 + j) = false) : (laneRotation last).find? f = some (last + 1 + k) := by
  refine List.find?_eq_some_iff_getElem.mpr ⟨hk, k.val, by rw [laneRotation_eq]; simp, by simp [laneRotation_eq],
    fun j hj => ?_⟩
  simpa [laneRotation_eq] using before ⟨j, by omega⟩ hj

theorem find_laneRotation_none (last : LaneId) (f : LaneId → Bool) (h : ∀ n, f n = false) :
    (laneRotation last).find? f = none := List.find?_eq_none.mpr fun n _ => by rw [h n]; exact nofun

/-! What is chosen, from the debt, the streak, the first runnable slot and the runnable requests. -/

theorem choose_urgent {debt streak : Nat} {last : LaneId} {f : LaneId → Bool} {qs : List QueueRequest}
    (h : debt = 4) : choose debt streak last f qs = .refresh := if_pos (by rw [h]; exact le_refl 4)

theorem choose_of_slot {debt streak : Nat} {last n : LaneId} {f : LaneId → Bool} {qs : List QueueRequest}
    (hd : debt < 4) (hn : (laneRotation last).find? f = some n) (h : qs = [] ∨ streak < 8) :
    choose debt streak last f qs = .slot n := by
  unfold choose
  rw [if_neg (show ¬ Config.urgentDebt ≤ debt from Nat.not_le.mpr hd), hn]
  cases qs with
  | nil => rfl
  | cons q qs => exact if_neg (show ¬ Config.streakLimit ≤ streak from Nat.not_le.mpr (h.resolve_left nofun))

theorem choose_of_request {debt streak : Nat} {last : LaneId} {f : LaneId → Bool} {q : QueueRequest}
    {qs : List QueueRequest} (hd : debt < 4) (h : streak = 8 ∨ ∀ n, f n = false) :
    choose debt streak last f (q :: qs) = .request q := by
  unfold choose
  rw [if_neg (show ¬ Config.urgentDebt ≤ debt from Nat.not_le.mpr hd)]
  rcases h with h | h
  · cases (laneRotation last).find? f with
    | none => rfl
    | some n => exact if_pos (show Config.streakLimit ≤ streak by rw [h]; exact le_refl 8)
  · rw [find_laneRotation_none last f h]

theorem choose_of_none {debt streak : Nat} {last : LaneId} {f : LaneId → Bool} (hd : debt < 4)
    (h : ∀ n, f n = false) :
    choose debt streak last f [] = if 1 ≤ debt then .refresh else .nothing := by
  unfold choose
  rw [if_neg (show ¬ Config.urgentDebt ≤ debt from Nat.not_le.mpr hd), find_laneRotation_none last f h]

/-! ### What the refusals of a selection leave to what it starts -/

theorem State.afterRefusals_frame : s.afterRefusals = { s with
    queue := s.afterRefusals.queue, log := s.afterRefusals.log, lanes := s.afterRefusals.lanes
    events := s.afterRefusals.events, eventCounter := s.afterRefusals.eventCounter
    occasion := s.afterRefusals.occasion, array := s.afterRefusals.array } := by
  have frame := (State.refuseAll_spec (s.queue.filter s.refusedAtOnce) ((List.finRange 4).filter s.slotRefusedAtOnce)
    s.markTested).1
  exact frame

/-- The in-flight record is of the cells, records and buffers as the selection finds them. -/
theorem State.inFlight_afterRefusals (w : Work) (p : Party) (k : Option Half) (register : Memory) :
    s.afterRefusals.inFlight w p k register = s.recordAtStart w p k register := by
  rw [State.afterRefusals_frame]
  cases w <;> rfl

theorem State.buffer_afterRefusals (c : Ctl) : s.afterRefusals.buffer c = s.buffer c := by
  rw [State.afterRefusals_frame]
  rfl

theorem testedState_of_runnable (limit : Nat) (r : RequestState) : testedState false limit r = r := by
  cases r <;> simp [testedState]

/-- A lane whose slot request is runnable stands at the tests and the refusals. -/
theorem State.afterRefusals_lane {n : LaneId} (h : s.slotReady n) : s.afterRefusals.lane n = s.lane n := by
  obtain ⟨q, hq, waits, free⟩ := h
  have not_refused : n ∉ (List.finRange 4).filter s.slotRefusedAtOnce := fun hn => by
    have refused := (List.mem_filter.mp hn).2
    simp [State.slotRefusedAtOnce, hq, free] at refused
  have others := (State.refuseAll_spec (s.queue.filter s.refusedAtOnce)
    ((List.finRange 4).filter s.slotRefusedAtOnce) s.markTested).2.2.2.1
  have tested : (s.lane n).slot.map (fun q =>
      { q with state := testedState (s.conflicts (.lane n) q.work) q.waitLimit q.state }) = (s.lane n).slot := by
    rw [hq, Option.map_some, free, testedState_of_runnable]
  refine (others n not_refused).trans ?_
  rw [State.markTested_lane, tested]

/-- A queued request that is runnable stands at the tests and the refusals, when no other has its ticket. -/
theorem State.mem_afterRefusals_queue {q : QueueRequest} (nd : (s.queue.map (·.ticket)).Nodup)
    (h : q ∈ s.readyRequests) : q ∈ s.afterRefusals.queue := by
  obtain ⟨hq, ready⟩ := List.mem_filter.mp h
  have free : s.conflicts (.ctl q.ctl) q.work = false := by simp at ready; exact ready.2
  have queue := (State.refuseAll_spec (s.queue.filter s.refusedAtOnce) ((List.finRange 4).filter s.slotRefusedAtOnce)
    s.markTested).2.1
  refine (show s.afterRefusals.queue = _ from queue) ▸ List.mem_filter.mpr ⟨List.mem_map.mpr ⟨q, hq, ?_⟩, ?_⟩
  · rw [free, testedState_of_runnable]
  · refine decide_eq_true fun e => ?_
    obtain ⟨p, hp, same⟩ := List.mem_map.mp e
    obtain ⟨hp, refused⟩ := List.mem_filter.mp hp
    obtain rfl := List.inj_on_of_nodup_map nd hp hq same
    simp [State.refusedAtOnce, free] at refused

/-! ### What a selection starts -/

theorem State.select_refresh (h : s.choice = .refresh) :
    s.select.array = some (.refresh s.refreshPointer) ∧ s.select.lastLane = s.lastLane := by
  rw [State.select_eq, h]
  show some (Operation.refresh s.afterRefusals.refreshPointer) = _ ∧ s.afterRefusals.lastLane = s.lastLane
  rw [State.afterRefusals_frame]
  exact ⟨rfl, rfl⟩

theorem State.select_nothing (ha : s.array = none) (h : s.choice = .nothing) :
    s.select.array = none ∧ s.select.lastLane = s.lastLane := by
  rw [State.select_eq, h]
  refine ⟨State.afterRefusals_idle s ha, ?_⟩
  show s.afterRefusals.lastLane = s.lastLane
  rw [State.afterRefusals_frame]

theorem State.select_slot {n : LaneId} {q : SlotRequest} (hn : s.slotReady n) (hq : (s.lane n).slot = some q)
    (h : s.choice = .slot n) :
    s.select.array = some (.transfer (s.recordAtStart q.work (.lane n) none (s.lane n).staging)) ∧
    s.select.lastLane = n ∧ s.select.lane n = { s.lane n with slot := some { q with state := .active } } := by
  have lane := State.afterRefusals_lane s hn
  have started : s.afterRefusals.startSlot n =
      { s.afterRefusals.modLane n (fun l => { l with slot := some { q with state := .active } }) with
        array := some (.transfer (s.afterRefusals.inFlight q.work (.lane n) none (s.afterRefusals.lane n).staging))
        lastLane := n } := by
    simp only [State.startSlot, lane, hq]
  rw [State.select_eq, h, State.start, started, State.inFlight_afterRefusals, lane]
  refine ⟨rfl, rfl, ?_⟩
  show (s.afterRefusals.modLane n fun l => { l with slot := some { q with state := .active } }).lane n = _
  rw [State.modLane_lane, if_pos rfl, lane]

theorem State.select_request {q : QueueRequest} (hq : q ∈ s.readyRequests) (h : s.choice = .request q) :
    s.select.array = some (.transfer (s.recordAtStart q.work (.ctl q.ctl) (some q.ticket) (s.buffer q.ctl))) ∧
    s.select.lastLane = s.lastLane ∧
    ((s.queue.map (·.ticket)).Nodup → { q with state := .active } ∈ s.select.queue) := by
  rw [State.select_eq, h, State.start, State.startRequest, State.inFlight_afterRefusals, State.buffer_afterRefusals]
  refine ⟨rfl, ?_, fun nd => List.mem_map.mpr ⟨q, State.mem_afterRefusals_queue s nd hq, if_pos rfl⟩⟩
  show s.afterRefusals.lastLane = s.lastLane
  rw [State.afterRefusals_frame]

/-- Settles O16: the choice by the debt, the streak and what is runnable, and what then starts. -/
theorem selectionOrder : Obligations.SelectionOrder := by
  intro s ha _ _
  have choice : s.choice = choose s.refreshDebt s.streak s.lastLane s.slotRunnable s.readyRequests := by
    rw [State.readyRequests_eq]
    rfl
  have none_runnable : (∀ n, ¬ s.slotReady n) → ∀ n, s.slotRunnable n = false := fun h n =>
    State.slotRunnable_false s (h n)
  refine ⟨fun hd => ?_, fun hd hs k ready before q hq => ?_, fun hd hs q hq => ?_, fun idle empty hd owed => ?_,
    fun idle empty hd => ?_⟩
  · exact State.select_refresh s (choice.trans (choose_urgent hd))
  · have first := find_laneRotation s.lastLane s.slotRunnable k ((State.slotRunnable_iff s _).mpr ready)
      fun j hj => State.slotRunnable_false s (before j hj)
    exact State.select_slot s ready hq (choice.trans (choose_of_slot hd first hs))
  · obtain ⟨rest, listed⟩ := List.head?_eq_some_iff.mp hq
    refine State.select_request s (listed ▸ List.mem_cons_self) (choice.trans ?_)
    rw [listed]
    exact choose_of_request hd (hs.imp_right none_runnable)
  · refine State.select_refresh s (choice.trans ?_)
    rw [empty, choose_of_none hd (none_runnable idle), if_pos owed]
  · refine State.select_nothing s ha (choice.trans ?_)
    rw [empty, choose_of_none (by omega) (none_runnable idle), if_neg (by omega)]

end Sys2Proof.Machine

namespace Sys2Proof.Machine

set_option Elab.async false

variable (s : State) (n : LaneId) (row : RowId)

/-! ### STORE reports (R82, R83) -/

/-- A lane whose operation has been reported, or refused: slot and staging free. -/
def Lane.freed (l : Lane) : Lane := { l with slot := none, tag := .empty }

/-- A lane whose held line has gone to staging with its STORE placed. -/
def Lane.storing (l : Lane) (c : LineRef) (line : RowId) : Lane :=
  { l with active := l.staging, staging := l.active, tag := .pending c, held := false
           slot := some { work := .store line c.span, waitLimit := l.setup.waitLimit, state := .waiting } }

/-- A lane that holds no line, or drops a blank one. -/
def Lane.dropped (l : Lane) : Lane := { l with held := false }

theorem Lane.dropped_of_not_held {l : Lane} (h : l.held = false) : l.dropped = l := by
  unfold Lane.dropped
  rw [← h]

theorem State.disposeHeld_stores {l : Lane} {c : LineRef} {line : RowId} (hh : l.held = true)
    (hc : l.current = some c) (hr : c.row = some line) :
    (s.setLane n l.freed).disposeHeld n = (s.setLane n (l.freed.storing c line)).raise := by
  unfold State.disposeHeld
  rw [State.setLane_lane, if_pos rfl, if_pos (show l.freed.held = true from hh)]
  exact State.dispose_store (l := l.freed) hc hr rfl

theorem State.disposeHeld_drops {l : Lane} (h : l.held = false ∨ ∃ c, l.current = some c ∧ c.row = none) :
    (s.setLane n l.freed).disposeHeld n = s.setLane n l.freed.dropped := by
  unfold State.disposeHeld
  rw [State.setLane_lane, if_pos rfl]
  cases hh : l.held with
  | false =>
    rw [if_neg (show ¬ l.freed.held = true from Bool.eq_false_iff.mp hh), Lane.dropped_of_not_held (l := l.freed) hh]
  | true =>
    obtain ⟨c, hc, hr⟩ := h.resolve_left (by rw [hh]; exact nofun)
    rw [if_pos (show l.freed.held = true from hh)]
    exact State.dispose_blank (l := l.freed) hc hr

/-! What a STORE report leaves, by the state of the lane. -/

theorem State.modLane_freed :
    (s.modLane n fun l => { l with slot := none }).modLane n (fun l => { l with tag := .empty }) =
      s.setLane n (s.lane n).freed := by
  show (s.setLane n { s.lane n with slot := none }).modLane n (fun l => { l with tag := .empty }) = _
  rw [State.modLane_setLane]
  rfl

theorem State.emptied_state : ((s.modLane n fun l => { l with slot := none }).lane n).state = (s.lane n).state := by
  rw [State.modLane_lane, if_pos rfl]

variable {s n}

theorem State.storeReport_streaming (h : (s.lane n).state = .running ∨ (s.lane n).state = .armed) :
    s.storeReport n row = s.setLane n (s.lane n).freed := by
  rcases h with h | h <;> simp only [State.storeReport, State.freeStaging, State.modLane_freed, State.emptied_state, h]

theorem State.storeReport_paused (h : (s.lane n).state = .paused) :
    s.storeReport n row = (s.setLane n (s.lane n).freed).disposeHeld n := by
  simp only [State.storeReport, State.freeStaging, State.modLane_freed, State.emptied_state, h]

theorem State.storeReport_draining (h : (s.lane n).state = .draining) :
    s.storeReport n row = ((s.setLane n (s.lane n).freed).disposeHeld n).endDrain n := by
  simp only [State.storeReport, State.freeStaging, State.modLane_freed, State.emptied_state, h]

theorem State.storeReport_blocked (h : (s.lane n).state = .blocked) :
    s.storeReport n row = (s.setLane n (s.lane n).freed).endBlocked n row := by
  simp only [State.storeReport, State.freeStaging, State.modLane_freed, State.emptied_state, h]

/-- A drain goes on while a STORE of the lane is placed. -/
theorem State.endDrain_storing (l : Lane) (c : LineRef) (line : RowId) :
    (s.setLane n (l.storing c line)).raise.endDrain n = (s.setLane n (l.storing c line)).raise := by
  have lane : (s.setLane n (l.storing c line)).raise.lane n = l.storing c line := by
    show (s.setLane n (l.storing c line)).lane n = _
    rw [State.setLane_lane, if_pos rfl]
  unfold State.endDrain
  rw [lane]
  exact if_neg nofun

/-- A drain ends when nothing is left to store. -/
theorem State.endDrain_drained (l : Lane) : (s.setLane n l.freed.dropped).endDrain n =
    if l.drain = some .listEnd then
      (s.lanePost n .laneDone none (some l.lines) none).setLane n l.freed.dropped.enterIdle
    else s.setLane n l.freed.dropped.enterIdle := by
  unfold State.endDrain
  rw [State.setLane_lane, if_pos rfl, if_pos (show l.freed.dropped.nothingToStore = true from rfl)]
  by_cases h : l.drain = some .listEnd
  · rw [if_pos h, if_pos (show l.freed.dropped.drain = some .listEnd from h), State.laneDone, State.lanePost,
      State.setLane_post, State.modLane_setLane, State.setLane_lane, if_pos rfl]
    rfl
  · rw [if_neg h, if_neg (show ¬ l.freed.dropped.drain = some .listEnd from h), State.modLane_setLane]

/-- The end of a BLOCKED episode, from what the held line leaves: the line to follow is current and shown, and LINE LOST
posted. -/
theorem State.endBlocked_eq (l k : Lane) (f : LineRef) (o : Bool) (hf : k.follow = some f)
    (hk : (s.setLane n l).disposeHeld n = { s.setLane n k with occasion := o }) :
    (s.setLane n l).endBlocked n row =
      ({ s with occasion := o }.lanePost n .lineLost (some row) (some l.episode) none).setLane n
        { k.makeCurrent f with state := .running, follow := none } := by
  unfold State.endBlocked
  rw [hk, State.setLane_lane, if_pos rfl]
  show (({ s with occasion := o } : State).setLane n k |>.modLane n _).lanePost n .lineLost _ _ _ = _
  rw [State.modLane_setLane, State.lanePost, State.setLane_post, hf]
  rfl

/-- What the end of a BLOCKED episode leaves, whatever became of the held line. -/
theorem State.endBlocked_lane (l k : Lane) (f : LineRef) (o : Bool) (hf : k.follow = some f)
    (hk : (s.setLane n l).disposeHeld n = { s.setLane n k with occasion := o }) :
    ((s.setLane n l).endBlocked n row).lane n = { k.makeCurrent f with state := .running, follow := none } ∧
    ((s.setLane n l).endBlocked n row).events = (s.post
      { kind := .lineLost, source := .party (.lane n), row := some row, count := some l.episode }).events := by
  rw [State.endBlocked_eq row l k f o hf hk]
  refine ⟨by rw [State.setLane_lane, if_pos rfl], ?_⟩
  exact (State.post_congr { s with occasion := o } s _ ⟨rfl, rfl, rfl⟩).1

section Freed

/-! A part `u` in which a STORE report, made of `d`, has reached lane n; `s` has the lane as the report finds it, and
`posted` the events. -/

variable {d u s posted : State} {n : LaneId} {row : RowId}
variable (lane : d.lane n = s.lane n)
  (posts : d.events = posted.events ∧ d.eventCounter = posted.eventCounter ∧ d.clock = posted.clock)
  (hu : u.lane n = (d.storeReport n row).lane n) (he : u.events = (d.storeReport n row).events)
  (ho : u.occasion = true)

include lane posts hu he ho

theorem State.stagingFreed_of_storeReport : s.StagingFreed u n posted row where
  streaming := fun h => by
    have report := State.storeReport_streaming row (lane ▸ h)
    rw [hu, he, report, State.setLane_lane, if_pos rfl, lane]
    exact ⟨rfl, posts.1⟩
  blocked := fun c f h hh hc hf => by
    rw [he, hu, State.storeReport_blocked row (lane ▸ h), lane]
    cases hr : c.row with
    | none =>
      obtain ⟨left, lost⟩ := State.endBlocked_lane row (s.lane n).freed (s.lane n).freed.dropped f d.occasion hf
        (State.disposeHeld_drops d n (.inr ⟨c, hc, hr⟩))
      rw [left, lost, Lane.makeCurrent_listAfter]
      exact ⟨rfl, rfl, rfl, rfl, rfl, rfl, rfl, rfl, rfl, rfl, nofun, fun _ => ⟨rfl, rfl⟩,
        (State.post_congr _ _ _ posts).1⟩
    | some line =>
      obtain ⟨left, lost⟩ := State.endBlocked_lane row (s.lane n).freed ((s.lane n).freed.storing c line) f true hf
        (State.disposeHeld_stores d n hh hc hr)
      rw [left, lost, Lane.makeCurrent_listAfter]
      refine ⟨rfl, rfl, rfl, rfl, rfl, rfl, rfl, rfl, rfl, rfl, fun line' e => ?_, nofun,
        (State.post_congr _ _ _ posts).1⟩
      cases e
      exact ⟨rfl, rfl, ho, rfl⟩
  stored := fun c line h hh hc hr => by
    have stores := State.disposeHeld_stores d n hh hc hr
    have report : d.storeReport n row = (d.setLane n ((s.lane n).freed.storing c line)).raise := by
      rcases h with h | h
      · rw [State.storeReport_draining row (lane ▸ h), lane, stores, State.endDrain_storing]
      · rw [State.storeReport_paused row (lane ▸ h), lane, stores]
    refine ⟨?_, ho, ?_⟩
    · rw [hu, report]
      show (d.setLane n _).lane n = _
      rw [State.setLane_lane, if_pos rfl]
      rfl
    · rw [he, report]
      exact posts.1
  dropped := fun c h hh hc hr => by
    have report := State.storeReport_paused row (lane ▸ h)
    rw [lane, State.disposeHeld_drops d n (.inr ⟨c, hc, hr⟩)] at report
    rw [hu, he, report, State.setLane_lane, if_pos rfl]
    exact ⟨rfl, posts.1⟩
  waiting := fun h hh => by
    have report := State.storeReport_paused row (lane ▸ h)
    rw [lane, State.disposeHeld_drops d n (.inl hh), Lane.dropped_of_not_held (l := (s.lane n).freed) hh] at report
    rw [hu, he, report, State.setLane_lane, if_pos rfl]
    exact ⟨rfl, posts.1⟩
  drained := fun h drops => by
    have report := State.storeReport_draining row (lane ▸ h)
    rw [lane, State.disposeHeld_drops d n drops, State.endDrain_drained] at report
    have idle : u.lane n = (s.lane n).freed.dropped.enterIdle := by
      rw [hu, report]
      split <;> rw [State.setLane_lane, if_pos rfl]
    rw [idle, he, report, Lane.enterIdle_eq]
    refine ⟨rfl, rfl, rfl, rfl, ?_⟩
    split
    · exact (State.post_congr _ _ _ posts).1
    · exact posts.1

end Freed

/-- Settles O27: the completion of a lane's STORE, its report by the state of the lane. -/
theorem storeReportFreesStaging : Obligations.StoreReportFreesStaging := by
  intro s x row sp n hx hw hn
  have not_load : ∀ r, x.work ≠ .load r := fun r e => by rw [hw] at e; cases e
  have op : completionOf x.work.op = .storeCompletion := by rw [hw]; rfl
  obtain ⟨queue, log, orphan, buffers, others, events, lanes⟩ := State.completeTransfer_lane s x n hn
  obtain ⟨d, hd⟩ : ∃ d, s.delivered x = d := ⟨_, rfl⟩
  have d_frame : d = { s with cells := d.cells, records := d.records, refreshPointer := d.refreshPointer
                              refreshDebt := d.refreshDebt } := by
    rw [← hd, State.delivered_of_write s not_load, State.credits_frame, State.writeEffects_frame]
  refine ⟨s.completeTransfer x, op ▸ exec_completionOf s x hx, others, ?_, fun given_up => ⟨?_, events given_up⟩,
    fun keep own => ?_⟩
  · have frame := State.completeTransfer_frame s x
    dsimp only at frame
    rw [queue, log, orphan, buffers] at frame
    rw [frame]
  · exact congrArg (fun ls : Vector Lane 4 => ls.get n) (lanes (given_up.imp id fun h => ⟨h, not_load⟩))
  · have reported : s.completeTransfer x = { d.storeReport n row with occasion := true, array := none } := by
      rw [State.completeTransfer_eq, hd]
      simp only [State.report, hn, State.laneReport, keep, own, hw, Bool.false_eq_true, or_self, if_false]
      rfl
    exact State.stagingFreed_of_storeReport (d := d) (by rw [d_frame]; rfl) (by rw [d_frame]; exact ⟨rfl, rfl, rfl⟩)
      (by rw [reported]; rfl) (by rw [reported]) rfl

end Sys2Proof.Machine

namespace Sys2Proof.Machine

set_option Elab.async false

/-! ### Claims that stand and claims that go (R21, R22) -/

/-- No claim is new: a claim of `t` was in its slot in `s`, but for its lease, and its holder is present in `t` if it
was in `s`. Every command but a granted CLAIM does no more than this. -/
structure NoNewClaims (s t : State) : Prop where
  claims : ∀ i k, t.claim i = some k → ∃ l, s.claim i = some { k with lease := l }
  present : ∀ i k, t.claim i = some k → s.holderPresent k.holder → t.holderPresent k.holder

/-- What the step may not break of the claim table (R21, R22). -/
structure ClaimsKept (s t : State) : Prop where
  compatible : s.ClaimsCompatible → t.ClaimsCompatible
  held : s.ClaimsHeld → t.ClaimsHeld

theorem ClaimsKept.trans {s t u : State} (a : ClaimsKept s t) (b : ClaimsKept t u) : ClaimsKept s u :=
  ⟨b.compatible ∘ a.compatible, b.held ∘ a.held⟩

namespace NoNewClaims

variable {s t u : State}

theorem refl (s : State) : NoNewClaims s s := ⟨fun _ k h => ⟨k.lease, h⟩, fun _ _ _ h => h⟩

theorem trans (a : NoNewClaims s t) (b : NoNewClaims t u) : NoNewClaims s u := by
  refine ⟨fun i k hk => ?_, fun i k hk hp => b.present i k hk ?_⟩ <;> obtain ⟨l, hl⟩ := b.claims i k hk
  · exact a.claims i { k with lease := l } hl
  · exact a.present i { k with lease := l } hl hp

theorem foldl {α : Type} {f : State → α → State} (h : ∀ s x, NoNewClaims s (f s x)) (xs : List α) (s : State) :
    NoNewClaims s (xs.foldl f s) := by
  induction xs generalizing s with
  | nil => exact refl s
  | cons x xs ih => exact (h s x).trans (ih _)

/-- The claims and the sessions stand, and no lane goes to OFF. -/
theorem of_lanes (hc : t.claims = s.claims) (hs : t.sessions = s.sessions)
    (hl : ∀ n, (s.lane n).state ≠ .off → (t.lane n).state ≠ .off) : NoNewClaims s t := by
  refine ⟨fun i k h => ⟨k.lease, ?_⟩, fun i k _ hp => ?_⟩
  · unfold State.claim at *
    rw [← hc]
    exact h
  · cases hk : k.holder with
    | lane n => rw [hk] at hp; exact hl n hp
    | ctl c =>
      rw [hk] at hp
      show (t.sessions.get c).isSome = true
      rw [hs]
      exact hp

/-- The claims, the sessions and the lanes stand. -/
theorem of_same (hc : t.claims = s.claims) (hs : t.sessions = s.sessions) (hl : t.lanes = s.lanes) : NoNewClaims s t :=
  of_lanes hc hs fun n => by unfold State.lane; rw [hl]; exact id

theorem of_keeps (h : ArbiterKeeps s t) : NoNewClaims s t :=
  of_lanes (by rw [h.frame]) (by rw [h.frame]) fun n => (h.lanes n).state

theorem of_acts {n : LaneId} (h : LaneActs n s t) : NoNewClaims s t := of_keeps (.of_acts h)

/-- A table without claims holds no new one. -/
theorem of_empty (h : ∀ i, t.claim i = none) : NoNewClaims s t :=
  ⟨fun i _ hk => absurd ((h i).symm.trans hk) nofun, fun i _ hk => absurd ((h i).symm.trans hk) nofun⟩

/-- One lane replaced, which is not OFF unless it was. -/
theorem setLane (s : State) (n : LaneId) (l : Lane) (h : (s.lane n).state ≠ .off → l.state ≠ .off) :
    NoNewClaims s (s.setLane n l) := by
  refine of_lanes rfl rfl fun m => ?_
  rw [State.setLane_lane]
  split
  · rename_i e
    rw [e]
    exact h
  · exact id

/-- Claims without regard to their leases still overlap as they did, with the same holders and kinds. -/
theorem kept (h : NoNewClaims s t) : ClaimsKept s t := by
  refine ⟨fun compatible i j a b hij ha hb overlap => ?_, fun held i k hk => h.present i k hk ?_⟩
  · obtain ⟨la, ha⟩ := h.claims i a ha
    obtain ⟨lb, hb⟩ := h.claims j b hb
    exact compatible i j { a with lease := la } { b with lease := lb } hij ha hb overlap
  · obtain ⟨l, hl⟩ := h.claims i k hk
    exact held i { k with lease := l } hl

end NoNewClaims

variable (s : State)

/-! ### The removal of claims, sessions and resets -/

theorem noNewClaims_arbitrate : NoNewClaims s s.arbitrate := .of_keeps (keeps_arbitrate s)

theorem noNewClaims_endClaims (which : Claim → Bool) (cause : Cause) : NoNewClaims s (s.endClaims which cause) := by
  obtain ⟨claims, frame, -, -⟩ := State.endClaims_spec which cause s s ⟨rfl, rfl, rfl⟩
  refine ⟨fun i k hk => ⟨k.lease, ?_⟩, fun i k _ hp => ?_⟩
  · rw [claims] at hk
    exact (Option.filter_eq_some_iff.mp hk).1
  · rw [frame]
    exact hp

/-- The removal of a holder's claims leaves the others to holders that are not it. -/
theorem State.endClaims_gone (p : Party) (cause : Cause) (i : ClaimId) (k : Claim)
    (h : (s.endClaims (fun k => k.holder = p) cause).claim i = some k) : s.claim i = some k ∧ k.holder ≠ p := by
  rw [(State.endClaims_spec _ cause s s ⟨rfl, rfl, rfl⟩).1] at h
  simpa using Option.filter_eq_some_iff.mp h

theorem keeps_withdrawWaiting (c : Ctl) : ArbiterKeeps s (s.withdrawWaiting c) := by
  have withdraws : ∀ (s : State) (q : QueueRequest), ArbiterKeeps s ((s.dequeue q.ticket).finish q .withdrawn none) :=
    fun s q => (keeps_dequeue s _).trans (keeps_finish _ _ _ _)
  unfold State.withdrawWaiting
  exact keeps_foldl _ withdraws _ s

theorem State.orphanActive_frame (c : Ctl) : s.orphanActive c = { s with
    queue := (s.orphanActive c).queue, array := (s.orphanActive c).array, orphan := (s.orphanActive c).orphan } := by
  unfold State.orphanActive
  split
  · rw [State.cancelDelivery_frame]
    rfl
  · rfl

theorem noNewClaims_orphanActive (c : Ctl) : NoNewClaims s (s.orphanActive c) := by
  rw [State.orphanActive_frame]
  exact .of_same rfl rfl rfl

/-- Of the claims, the sessions and the lanes, the end of a session changes only its own claims. -/
theorem noNewClaims_endSession (c : Ctl) (cause : Cause) : NoNewClaims s (s.endSession c cause) :=
  ((noNewClaims_endClaims s _ cause).trans (.of_keeps (keeps_withdrawWaiting _ c))).trans
    (noNewClaims_orphanActive _ c)

theorem State.endSession_claim (c : Ctl) (cause : Cause) (i : ClaimId) :
    (s.endSession c cause).claim i = (s.endClaims (fun k => k.holder = .ctl c) cause).claim i := by
  unfold State.claim State.endSession
  rw [State.orphanActive_frame]
  dsimp only
  rw [(keeps_withdrawWaiting _ c).frame]

/-- A session record set: to a tag, or to none when the number holds no claim. -/
theorem NoNewClaims.setSession {s t : State} (h : NoNewClaims s t) (c : Ctl) (tag : Option Byte)
    (hc : tag = none → ∀ i k, t.claim i = some k → k.holder ≠ .ctl c) : NoNewClaims s (t.setSession c tag) := by
  refine ⟨fun i k hk => h.claims i k (by rwa [State.setSession_claim] at hk), fun i k hk hp => ?_⟩
  rw [State.setSession_claim] at hk
  have present := h.present i k hk hp
  cases hd : k.holder with
  | lane n =>
    rw [hd] at present
    show ((t.setSession c tag).lane n).state ≠ .off
    rw [State.setSession_lane]
    exact present
  | ctl d =>
    rw [hd] at present
    show ((t.setSession c tag).session d).isSome = true
    rw [State.setSession_session]
    split
    · rename_i e
      cases tag with
      | none => exact absurd (e ▸ hd) (hc rfl i k hk)
      | some x => rfl
    · exact present

theorem noNewClaims_takeover (c : Ctl) (tag : Byte) : NoNewClaims s (s.takeover c tag) := by
  have posted := (noNewClaims_endSession s c .takeover).trans
    (.of_keeps ((ArbiterKeeps.refl _).post (sessionEnded c)))
  unfold State.takeover
  generalize (s.endSession c .takeover).post (sessionEnded c) = u at posted ⊢
  exact (posted.setSession c (some tag) nofun).trans (.of_same rfl rfl rfl)

theorem noNewClaims_setBuffer (c : Ctl) (m : Memory) : NoNewClaims s (s.setBuffer c m) := .of_same rfl rfl rfl

theorem noNewClaims_signOff (c : Ctl) : NoNewClaims s (s.signOff c) := by
  have cleared : NoNewClaims s ((s.endSession c .signOff).setBuffer c []) :=
    (noNewClaims_endSession s c .signOff).trans (noNewClaims_setBuffer _ c [])
  have gone : ∀ i k, ((s.endSession c .signOff).setBuffer c []).claim i = some k → k.holder ≠ .ctl c := fun i k hk => by
    rw [State.setBuffer_claim, State.endSession_claim] at hk
    exact (State.endClaims_gone s _ _ i k hk).2
  unfold State.signOff
  generalize (s.endSession c .signOff).setBuffer c [] = u at cleared gone ⊢
  exact (cleared.setSession c none fun _ => gone).trans (.of_same rfl rfl rfl)

theorem noNewClaims_resetPart : NoNewClaims s s.resetPart :=
  .of_empty fun i => by rw [State.resetPart_frame]; exact State.reset_claim i

/-- LANE RESET takes the claims of the lane that goes to OFF with it (R92, R37). -/
theorem noNewClaims_resetLane (n : LaneId) : NoNewClaims s (s.resetLane n) := by
  unfold State.resetLane
  rw [State.withdrawn_reset]
  obtain ⟨v, hv⟩ : ∃ v : State, ({ s.setLane n (s.lane n).reset with array := s.givenUp n } : State) = v := ⟨_, rfl⟩
  rw [hv]
  have old : ∀ i k, (v.endClaims (fun k => k.holder = .lane n) .laneReset).claim i = some k →
      s.claim i = some k ∧ k.holder ≠ .lane n := fun i k hk => by
    obtain ⟨hk, other⟩ := State.endClaims_gone v _ _ i k hk
    subst hv
    exact ⟨hk, other⟩
  refine ⟨fun i k hk => ⟨k.lease, (old i k hk).1⟩, fun i k hk hp => ?_⟩
  refine (noNewClaims_endClaims v _ _).present i k hk ?_
  have other := (old i k hk).2
  subst hv
  cases hd : k.holder with
  | ctl c => rw [hd] at hp; exact hp
  | lane m =>
    rw [hd] at hp other
    show ((s.setLane n (s.lane n).reset).lane m).state ≠ .off
    rw [State.setLane_lane, if_neg fun e : m = n => other (e ▸ rfl)]
    exact hp

/-! ### The sweep, ticks and completions -/

theorem noNewClaims_resetnRise (straps : Fin 8) (t : State) (h : execResetnRise straps s = .next t) :
    NoNewClaims s t := by
  unfold execResetnRise at h
  split at h <;> cases h
  exact .of_same rfl rfl rfl

theorem noNewClaims_sweepOperationCompletion (t : State) (h : execSweepOperationCompletion s = .next t) :
    NoNewClaims s t := by
  unfold execSweepOperationCompletion at h
  split at h
  · split at h
    · rename_i hlt
      have swept : NoNewClaims s (s.sweepRow ⟨s.swept, hlt⟩) := by
        rw [State.sweepRow_eq]
        exact .of_same rfl rfl rfl
      generalize s.sweepRow ⟨s.swept, hlt⟩ = u at h swept
      dsimp only at h
      split at h <;> cases h
      · exact swept.trans (.of_same rfl rfl rfl)
      · exact swept
    · cases h
  · cases h

theorem noNewClaims_refreshTick (t : State) (h : execRefreshTick s = .next t) : NoNewClaims s t := by
  unfold execRefreshTick at h
  split at h
  · cases h
  · split at h <;> cases h
    · have counted : NoNewClaims s { s with
          refreshDebt := min (s.refreshDebt + 1) Config.urgentDebt, occasion := true } := .of_same rfl rfl rfl
      exact counted.trans (noNewClaims_arbitrate _)
    · exact .refl s

theorem noNewClaims_tickBlocked : NoNewClaims s s.tickBlocked :=
  .of_lanes rfl rfl fun n => by rw [State.tickBlocked_lane]; exact id

theorem noNewClaims_refuseAll (qs : List QueueRequest) (ns : List LaneId) : NoNewClaims s (s.refuseAll qs ns) :=
  .of_keeps (keeps_refuseAll s qs ns)

theorem noNewClaims_millisecondTick (t : State) (h : execMillisecondTick s = .next t) : NoNewClaims s t := by
  have counted : NoNewClaims s s.countTick := .of_same rfl rfl rfl
  unfold execMillisecondTick at h
  split at h
  · cases h
  · split at h <;> cases h
    exact ((counted.trans (noNewClaims_tickBlocked _)).trans (noNewClaims_refuseAll _ _ _)).trans
      (noNewClaims_arbitrate _)

theorem noNewClaims_requestRefusal (who : RefusalTarget) (t : State) (h : execRequestRefusal who s = .next t) :
    NoNewClaims s t := by
  cases who with
  | slot n =>
    cases h
    split
    · exact (NoNewClaims.of_acts (acts_refuseSlot s n)).trans (noNewClaims_arbitrate _)
    · exact .refl s
  | ticket k =>
    simp only [execRequestRefusal] at h
    split at h <;> cases h
    · split
      · exact (NoNewClaims.of_keeps (keeps_refuseRequest s _)).trans (noNewClaims_arbitrate _)
      · exact .refl s
    · exact .refl s

/-- The leases counted down: the claims stand but for them (R33). -/
theorem noNewClaims_countLeases : NoNewClaims s s.countLeases := by
  refine ⟨fun i k hk => ?_, fun _ _ _ hp => hp⟩
  rw [State.countLeases_claim] at hk
  obtain ⟨old, h, rfl⟩ := Option.map_eq_some_iff.mp hk
  exact ⟨old.lease, h⟩

theorem noNewClaims_leaseTick (t : State) (h : execLeaseTick s = .next t) : NoNewClaims s t := by
  unfold execLeaseTick at h
  split at h
  · cases h
  · split at h <;> cases h
    rename_i l _
    have taken : NoNewClaims s { s with leaseTick := l } := .of_same rfl rfl rfl
    exact ((taken.trans (noNewClaims_countLeases _)).trans (noNewClaims_endClaims _ _ _)).trans
      (noNewClaims_arbitrate _)

theorem noNewClaims_report (x : Transfer) : NoNewClaims s (s.report x) := by
  obtain ⟨o, keeps⟩ := report_keeps s x
  have forgotten : NoNewClaims s { s with orphan := o } := .of_same rfl rfl rfl
  exact forgotten.trans (.of_keeps keeps)

theorem noNewClaims_deliver (x : Transfer) : NoNewClaims s (s.deliver x) := by
  unfold State.deliver
  split
  · split
    · exact .setLane s _ _ id
    · exact .of_same rfl rfl rfl
  · exact .refl s

theorem noNewClaims_completeTransfer (x : Transfer) : NoNewClaims s (s.completeTransfer x) := by
  have written : NoNewClaims s ((s.writeEffects x).credits x) := by
    rw [State.credits_frame, State.writeEffects_frame]
    exact .of_same rfl rfl rfl
  exact ((written.trans (noNewClaims_deliver _ x)).trans (noNewClaims_report _ x)).trans (.of_same rfl rfl rfl)

theorem noNewClaims_completeOp (op : OpCode) (t : State) (h : completeOp op s = .next t) : NoNewClaims s t := by
  unfold completeOp at h
  split at h
  · split at h <;> cases h
    exact (noNewClaims_completeTransfer s _).trans (noNewClaims_arbitrate _)
  · cases h

theorem noNewClaims_refreshCompletion (t : State) (h : execRefreshCompletion s = .next t) : NoNewClaims s t := by
  unfold execRefreshCompletion at h
  split at h <;> cases h
  have completed : NoNewClaims s s.completeRefresh := .of_same rfl rfl rfl
  exact completed.trans (noNewClaims_arbitrate _)

end Sys2Proof.Machine

namespace Sys2Proof.Machine

set_option Elab.async false

variable (s : State)

/-! ### Claims: lane clock edges, groups and the control port -/

/-- A change of the lane, by an event at it. -/
theorem NoNewClaims.modLane (n : LaneId) (f : Lane → Lane) (h : (s.lane n).Keeps (f (s.lane n))) :
    NoNewClaims s (s.modLane n f) := .setLane s n _ h.state

theorem noNewClaims_outEdge (n : LaneId) : NoNewClaims s (s.outEdge n) := by
  have moved : NoNewClaims s (s.modLane n Lane.moveCell) := .setLane s n _ id
  unfold State.outEdge
  dsimp only
  split
  · exact moved.trans (.of_acts (acts_outBoundary _ n))
  · exact moved

theorem noNewClaims_inEdge (n : LaneId) (ld : Byte) : NoNewClaims s (s.inEdge n ld) := by
  have moved : NoNewClaims s (s.modLane n fun l =>
      { l with active := Memory.write l.active l.pointer.val ld }.moveCell) := .setLane s n _ id
  unfold State.inEdge
  dsimp only
  split
  · exact moved.trans (.of_acts (acts_inBoundary _ n))
  · exact moved

theorem noNewClaims_idleEdge (n : LaneId) : NoNewClaims s (s.modLane n Lane.idleEdge) :=
  .modLane s n _ (Lane.keeps_idleEdge _)

theorem noNewClaims_outLaneClockEdge (n : LaneId) (t : State) (h : execOutLaneClockEdge n s = .next t) :
    NoNewClaims s t := by
  unfold execOutLaneClockEdge at h
  split at h <;> cases h
  · exact (noNewClaims_outEdge s n).trans (noNewClaims_arbitrate _)
  · exact noNewClaims_idleEdge s n

theorem noNewClaims_inLaneClockEdge (n : LaneId) (ld : Byte) (t : State) (h : execInLaneClockEdge n ld s = .next t) :
    NoNewClaims s t := by
  unfold execInLaneClockEdge at h
  split at h <;> cases h
  · exact (noNewClaims_inEdge s n ld).trans (noNewClaims_arbitrate _)
  · exact noNewClaims_idleEdge s n

theorem noNewClaims_laneClockEdgeOutsideRunning (n : LaneId) (t : State)
    (h : execLaneClockEdgeOutsideRunning n s = .next t) : NoNewClaims s t := by
  unfold execLaneClockEdgeOutsideRunning at h
  split at h <;> cases h
  exact noNewClaims_idleEdge s n

theorem noNewClaims_groupStart (mask : Byte) : NoNewClaims s (s.groupStart mask) :=
  .foldl (fun s n => .modLane s n Lane.release (Lane.keeps_release _)) _ s

theorem noNewClaims_groupHalt (mask : Byte) : NoNewClaims s (s.groupHalt mask) :=
  .foldl (fun s n => .of_acts (acts_haltIfStreaming s n)) _ s

theorem noNewClaims_settleByte (flag : Bool) : NoNewClaims s (s.settleByte flag) := by
  unfold State.settleByte
  split <;> exact .of_same rfl rfl rfl

theorem noNewClaims_leaveFrame : NoNewClaims s s.leaveFrame := by
  unfold State.leaveFrame
  split <;> exact .of_same rfl rfl rfl

theorem noNewClaims_deliverFrame : NoNewClaims s s.deliverFrame := by
  unfold State.deliverFrame
  split <;> exact .of_same rfl rfl rfl

theorem noNewClaims_releaseRecord : NoNewClaims s s.releaseRecord := by
  unfold State.releaseRecord
  split <;> exact .of_same rfl rfl rfl

theorem noNewClaims_endRead (flag : Bool) : NoNewClaims s (s.endRead flag) := by
  unfold State.endRead
  split
  · exact .refl s
  · exact noNewClaims_releaseRecord s

theorem noNewClaims_closeGroup : NoNewClaims s s.closeGroup := by
  unfold State.closeGroup
  split
  · split
    · exact noNewClaims_groupStart s _
    · exact noNewClaims_groupHalt s _
  · exact .refl s

theorem noNewClaims_takeStart (flag : Bool) : NoNewClaims s (s.takeStart flag) := by
  have ended : NoNewClaims s (s.endPhaseByStart flag) := by
    unfold State.endPhaseByStart
    split
    · exact (noNewClaims_settleByte s flag).trans (noNewClaims_deliverFrame _)
    · exact noNewClaims_endRead s flag
    · exact .refl s
  exact ended.trans (.of_same rfl rfl rfl)

theorem noNewClaims_takeStop (flag : Bool) : NoNewClaims s (s.takeStop flag) := by
  have ended : NoNewClaims s (s.endPhaseByStop flag) := by
    unfold State.endPhaseByStop
    split
    · exact (noNewClaims_settleByte s flag).trans (noNewClaims_deliverFrame _)
    · exact noNewClaims_endRead s flag
    · exact (noNewClaims_settleByte s flag).trans (noNewClaims_closeGroup _)
    · exact .refl s
  exact (ended.trans (noNewClaims_leaveFrame _)).trans (.of_same rfl rfl rfl)

theorem noNewClaims_execStart (flag : Bool) (t : State) (h : execStart flag s = .next t) : NoNewClaims s t := by
  unfold execStart at h
  split at h
  · cases h; exact .refl s
  · split at h <;> cases h
    exact noNewClaims_takeStart s flag

theorem noNewClaims_execStop (flag : Bool) (t : State) (h : execStop flag s = .next t) : NoNewClaims s t := by
  unfold execStop at h
  split at h
  · cases h; exact .refl s
  · split at h <;> cases h
    exact noNewClaims_takeStop s flag

theorem noNewClaims_busError (condition : Condition) (bits : Nat) (t : State)
    (h : execBusError condition bits s = .next t) : NoNewClaims s t := by
  unfold execBusError at h
  split at h
  · cases h
  · split at h
    · cases h; exact .refl s
    · split at h <;> cases h
      exact (noNewClaims_leaveFrame s).trans (.of_same rfl rfl rfl)

theorem noNewClaims_judgeDevice (read : Bool) : NoNewClaims s (s.judgeDevice read) := by
  unfold State.judgeDevice
  split
  · exact .of_same rfl rfl rfl
  · split
    · exact .of_same rfl rfl rfl
    · exact .of_same rfl rfl rfl
    · exact .of_same rfl rfl rfl
    · split <;> exact .of_same rfl rfl rfl
    · split <;> exact .of_same rfl rfl rfl

theorem noNewClaims_judgeGroup (read : Bool) : NoNewClaims s (s.judgeGroup read) := by
  unfold State.judgeGroup
  split <;> exact .of_same rfl rfl rfl

theorem noNewClaims_takeAddress (b : Byte) : NoNewClaims s (s.takeAddress b) := by
  have left := noNewClaims_leaveFrame s
  unfold State.takeAddress
  split
  · split
    · exact noNewClaims_judgeDevice s true
    · exact left.trans (noNewClaims_judgeDevice _ false)
  · split
    · exact left.trans (noNewClaims_judgeGroup _ _)
    · exact left.trans (.of_same rfl rfl rfl)

theorem noNewClaims_addressByte (b : Byte) (t : State) (h : execAddressByte b s = .next t) : NoNewClaims s t := by
  unfold execAddressByte at h
  split at h
  · cases h; exact .refl s
  · split at h <;> cases h
    exact noNewClaims_takeAddress s b

theorem noNewClaims_writePhaseByte (b : Byte) (t : State) (h : execWritePhaseByte b s = .next t) :
    NoNewClaims s t := by
  unfold execWritePhaseByte at h
  split at h
  · cases h; exact .refl s
  · split at h <;> cases h
    exact .of_same rfl rfl rfl

theorem noNewClaims_groupPhaseByte (b : Byte) (t : State) (h : execGroupPhaseByte b s = .next t) :
    NoNewClaims s t := by
  unfold execGroupPhaseByte at h
  split at h
  · cases h; exact .refl s
  · split at h <;> cases h
    exact .of_same rfl rfl rfl

theorem noNewClaims_readByteAcknowledge (t : State) (h : execReadByteAcknowledge s = .next t) : NoNewClaims s t := by
  unfold execReadByteAcknowledge at h
  split at h
  · cases h; exact .refl s
  · split at h
    · split at h <;> cases h
      exact .of_same rfl rfl rfl
    · cases h

theorem noNewClaims_readPhaseEnd (how : ReadEnd) (t : State) (h : execReadPhaseEnd how s = .next t) :
    NoNewClaims s t := by
  unfold execReadPhaseEnd at h
  split at h
  · cases h; exact .refl s
  · split at h
    · split at h
      · cases h
      · split at h <;> cases h
        · exact (noNewClaims_releaseRecord s).trans (.of_same rfl rfl rfl)
        · exact noNewClaims_takeStop s false
        · exact noNewClaims_takeStart s false
    · cases h

end Sys2Proof.Machine

namespace Sys2Proof.Machine

set_option Elab.async false

variable (s : State)

/-! ### Claims: the commands of the engine -/

theorem noNewClaims_finishReply (r : Reply) : NoNewClaims r.state r.finish := by
  unfold Reply.finish
  split <;> exact .of_same rfl rfl rfl

theorem noNewClaims_runFrame {i : Instr} {command : State → Reply} {t : State}
    (h : s.runFrame i command = .next t) : NoNewClaims (command s).state t := by
  unfold State.runFrame at h
  split at h <;> cases h
  exact noNewClaims_finishReply _

theorem noNewClaims_runOccasion {i : Instr} {command : State → Reply} {t : State}
    (h : s.runOccasion i command = .next t) : NoNewClaims (command s).state t := by
  unfold State.runOccasion at h
  split at h <;> cases h
  exact (noNewClaims_finishReply _).trans (noNewClaims_arbitrate _)

/-- A command of the engine does nothing, or is in its session and takes effect. -/
theorem inSession_state (c : Ctl) (tag : Byte) (command : State → Reply) :
    (inSession c tag command s).state = s ∨
    s.session c = some tag ∧ (inSession c tag command s).state = (command s).state := by
  unfold inSession
  split
  · exact .inl rfl
  · rename_i held hs
    split
    · rename_i e
      exact .inr ⟨e ▸ hs, rfl⟩
    · exact .inl rfl

theorem noNewClaims_inSession {c : Ctl} {tag : Byte} {command : State → Reply}
    (k : NoNewClaims s (command s).state) : NoNewClaims s (inSession c tag command s).state := by
  rcases inSession_state s c tag command with e | ⟨-, e⟩
  · rw [e]; exact .refl s
  · rw [e]; exact k

theorem noNewClaims_signOnCommand (c : Ctl) (tag takeover : Byte) :
    NoNewClaims s (signOnCommand c tag takeover s).state := by
  unfold signOnCommand
  split
  · exact .refl s
  · split
    · exact .refl s
    · exact ((NoNewClaims.refl s).setSession c (some tag) nofun).trans (.of_same rfl rfl rfl)
    · exact .refl s
    · exact noNewClaims_takeover s c tag

theorem noNewClaims_groupEnableCommand (flag : Byte) : NoNewClaims s (groupEnableCommand flag s).state := by
  unfold groupEnableCommand
  split <;> exact .of_same rfl rfl rfl

theorem noNewClaims_putBufferCommand (c : Ctl) (offset : Byte) (data : List Byte) :
    NoNewClaims s (putBufferCommand c offset data s).state := by
  unfold putBufferCommand
  split <;> exact .of_same rfl rfl rfl

theorem noNewClaims_transferCommand (c : Ctl) (w : Option Work) (notify wait : Byte) :
    NoNewClaims s (transferCommand c w notify wait s).state := by
  unfold transferCommand
  split
  · split <;> exact .of_same rfl rfl rfl
  · exact .refl s

theorem noNewClaims_cancelCommand (c : Ctl) (ticket : Half) : NoNewClaims s (cancelCommand c ticket s).state := by
  unfold cancelCommand
  split
  · exact .refl s
  · split
    · exact .refl s
    · split
      · exact .refl s
      · split
        · exact .refl s
        · exact .of_keeps ((keeps_dequeue s _).trans (keeps_finish _ _ _ _))

theorem noNewClaims_laneSetupCommand (lane direction fill policy mode wait : Byte) :
    NoNewClaims s (laneSetupCommand lane direction fill policy mode wait s).state := by
  unfold laneSetupCommand
  split
  · split
    · exact .setLane s _ _ fun _ => nofun
    · exact .refl s
  · exact .refl s

theorem noNewClaims_laneStartCommand (lane mode : Byte) : NoNewClaims s (laneStartCommand lane mode s).state := by
  unfold laneStartCommand
  split
  · split
    · split
      · exact .refl s
      · exact .of_acts (acts_startLane s _ _)
    · exact .of_acts (acts_release s _)
    · exact .refl s
  · exact .refl s

theorem noNewClaims_laneStopCommand (lane mode : Byte) : NoNewClaims s (laneStopCommand lane mode s).state := by
  unfold laneStopCommand
  split
  · split
    · exact .refl s
    · split
      · exact .of_acts (acts_haltIfStreaming s _)
      · exact .of_acts (acts_stopAtBoundary s _)
  · exact .refl s

theorem noNewClaims_laneResumeCommand (lane : Byte) : NoNewClaims s (laneResumeCommand lane s).state := by
  unfold laneResumeCommand
  split
  · split
    · split
      · exact .of_acts (acts_continueOut s _)
      · exact .of_acts (acts_continueIn s _)
    · exact .refl s
  · exact .refl s

theorem noNewClaims_laneResetCommand (lane : Byte) : NoNewClaims s (laneResetCommand lane s).state := by
  unfold laneResetCommand
  split
  · split
    · exact .refl s
    · exact noNewClaims_resetLane s _
  · exact .refl s

theorem noNewClaims_listAppendCommand (lane : Byte) (raw : List RawEntry) :
    NoNewClaims s (listAppendCommand lane raw s).state := by
  unfold listAppendCommand
  split
  · dsimp only
    split
    · exact .refl s
    · split
      · exact .refl s
      · exact .setLane s _ _ id
  · exact .refl s

theorem Lane.trim_state (k : Nat) (l : Lane) : (l.trim k).state = l.state := by
  unfold Lane.trim
  dsimp only
  split <;> rfl

theorem noNewClaims_listTrimCommand (lane maximum : Byte) : NoNewClaims s (listTrimCommand lane maximum s).state := by
  unfold listTrimCommand
  split
  · exact .refl s
  · dsimp only
    split
    · exact .refl s
    · split
      · exact .refl s
      · exact .setLane s _ _ (by rw [Lane.trim_state]; exact id)

theorem noNewClaims_listClearCommand (lane : Byte) : NoNewClaims s (listClearCommand lane s).state := by
  unfold listClearCommand
  split
  · exact .refl s
  · split
    · exact .setLane s _ _ id
    · exact .refl s

theorem noNewClaims_takeEventsCommand (maximum : Byte) : NoNewClaims s (takeEventsCommand maximum s).state := by
  unfold takeEventsCommand
  split <;> exact .of_same rfl rfl rfl

theorem noNewClaims_setAttentionCommand (mask : Half) : NoNewClaims s (setAttentionCommand mask s).state := by
  unfold setAttentionCommand
  split <;> exact .of_same rfl rfl rfl

/-! The commands that only read leave the part as it is. -/

theorem getBufferCommand_state (c : Ctl) (offset length : Byte) : (getBufferCommand c offset length s).state = s := by
  unfold getBufferCommand
  split <;> rfl

theorem rowInfoCommand_state (first : Half) (count : Byte) : (rowInfoCommand first count s).state = s := by
  unfold rowInfoCommand
  split <;> rfl

theorem queryCommand_state (c : Ctl) (ticket : Half) : (queryCommand c ticket s).state = s := by
  unfold queryCommand
  split
  · rfl
  · split
    · rfl
    · split <;> rfl

theorem listClaimsCommand_state (startId maximum : Byte) : (listClaimsCommand startId maximum s).state = s := by
  unfold listClaimsCommand
  split <;> rfl

theorem laneStatusCommand_state (lane : Byte) : (laneStatusCommand lane s).state = s := by
  unfold laneStatusCommand
  split <;> rfl

theorem listReadCommand_state (lane start maximum : Byte) : (listReadCommand lane start maximum s).state = s := by
  unfold listReadCommand
  split
  · rfl
  · split <;> rfl

theorem peekEventsCommand_state (maximum : Byte) : (peekEventsCommand maximum s).state = s := by
  unfold peekEventsCommand
  split <;> rfl

/-! ### The claim commands -/

/-- RELEASE empties a slot or does nothing (R30). -/
theorem noNewClaims_setClaim_none (i : ClaimId) : NoNewClaims s (s.setClaim i none).raise := by
  refine ⟨fun j k hk => ⟨k.lease, ?_⟩, fun _ _ _ hp => hp⟩
  rw [State.raise_claim, State.setClaim_claim] at hk
  split at hk
  · cases hk
  · exact hk

theorem noNewClaims_releaseCommand (c : Ctl) (id : Byte) : NoNewClaims s (releaseCommand c id s).state := by
  unfold releaseCommand
  split
  · exact .refl s
  · split
    · exact .refl s
    · split
      · exact noNewClaims_setClaim_none s _
      · split
        · exact noNewClaims_setClaim_none s _
        · exact .refl s

/-- RENEW sets the lease of a claim and nothing else of it (R31). -/
theorem noNewClaims_setLease (i : ClaimId) (k : Claim) (h : s.claim i = some k) (l : Option Nat) :
    NoNewClaims s (s.setClaim i (some { k with lease := l })) := by
  refine ⟨fun j a ha => ?_, fun _ _ _ hp => hp⟩
  rw [State.setClaim_claim] at ha
  split at ha
  · rename_i e
    cases ha
    exact ⟨k.lease, e ▸ h⟩
  · exact ⟨a.lease, ha⟩

theorem noNewClaims_renewCommand (c : Ctl) (id : Byte) (lease : Half) :
    NoNewClaims s (renewCommand c id lease s).state := by
  unfold renewCommand
  split
  · exact .refl s
  · split
    · exact .refl s
    · split
      · exact .refl s
      · rename_i k hk
        split
        · exact .refl s
        · split
          · exact noNewClaims_setLease s _ k hk _
          · exact .refl s

theorem Claim.overlaps_comm (a b : Claim) : a.overlaps b = b.overlaps a := by
  unfold Claim.overlaps
  rw [Bool.eq_iff_iff]
  simp only [Bool.and_eq_true, decide_eq_true_eq]
  tauto

/-- What CLAIM grants overlaps an older claim only when they have different holders and both are SHARED (R24). -/
theorem State.conflictingClaim_none {s : State} {new : Claim} (h : s.conflictingClaim new = none) (i : ClaimId)
    (old : Claim) (ho : s.claim i = some old) (overlap : old.overlaps new = true) :
    old.holder ≠ new.holder ∧ old.kind = .shared ∧ new.kind = .shared := by
  have free := List.find?_eq_none.mp h i (List.mem_finRange i)
  have shared : ∀ k : ClaimKind, k ≠ .sole → k = .shared := fun k => by cases k <;> simp
  simp only [ho, Option.any_some, Claim.excludes, overlap, Bool.true_and, Bool.or_eq_true, decide_eq_true_eq,
    not_or] at free
  obtain ⟨⟨holder, new_kind⟩, old_kind⟩ := free
  exact ⟨holder, shared _ old_kind, shared _ new_kind⟩

/-- A claim granted: it conflicts with none of the table, and its holder is present (R22, R24). -/
theorem claimsKept_grant (i : ClaimId) (new : Claim) (free : s.conflictingClaim new = none)
    (present : s.holderPresent new.holder) : ClaimsKept s (s.setClaim i (some new)).raise := by
  have claim : ∀ j k, (s.setClaim i (some new)).raise.claim j = some k →
      j = i ∧ k = new ∨ j ≠ i ∧ s.claim j = some k := by
    intro j k hk
    rw [State.raise_claim, State.setClaim_claim] at hk
    split at hk
    · cases hk
      exact .inl ⟨‹_›, rfl⟩
    · exact .inr ⟨‹_›, hk⟩
  refine ⟨fun compatible j l a b hjl ha hb overlap => ?_, fun held j k hk => ?_⟩
  · rcases claim j a ha with ⟨rfl, rfl⟩ | ⟨-, old_a⟩ <;> rcases claim l b hb with ⟨rfl, rfl⟩ | ⟨-, old_b⟩
    · exact absurd rfl hjl
    · obtain ⟨holder, old_kind, new_kind⟩ :=
        State.conflictingClaim_none free l b old_b (by rw [Claim.overlaps_comm]; exact overlap)
      exact ⟨holder.symm, new_kind, old_kind⟩
    · exact State.conflictingClaim_none free j a old_a overlap
    · exact compatible j l a b hjl old_a old_b overlap
  · rcases claim j k hk with ⟨-, rfl⟩ | ⟨-, hk⟩
    · exact present
    · exact held j k hk

/-- The holder that a CLAIM names is its sender or a lane (R27). -/
theorem newClaim_holder {c : Ctl} {holder kind : Byte} {first count lease : Half} {new : Claim}
    (h : newClaim c holder kind first count lease = some new) : new.holder = .ctl c ∨ ∃ n, new.holder = .lane n := by
  unfold newClaim at h
  split at h
  · rename_i p _ _ hp _ _
    split at h
    · cases h
    · cases h
      show p = .ctl c ∨ ∃ n, p = .lane n
      unfold holderOf at hp
      split at hp
      · cases hp
        exact .inl rfl
      · obtain ⟨n, -, rfl⟩ := Option.map_eq_some_iff.mp hp
        exact .inr ⟨n, rfl⟩
  · cases h

/-- CLAIM of a controller in session (R27 to R29). -/
theorem claimsKept_claimCommand (c : Ctl) (holder kind : Byte) (first count lease : Half)
    (hs : (s.session c).isSome = true) : ClaimsKept s (claimCommand c holder kind first count lease s).state := by
  have unchanged : ClaimsKept s s := (NoNewClaims.refl s).kept
  unfold claimCommand
  split
  · exact unchanged
  · rename_i new hn
    split
    · exact unchanged
    · rename_i on
      split
      · exact unchanged
      · exact unchanged
      · rename_i i free _
        refine claimsKept_grant s i new free ?_
        rcases newClaim_holder hn with h | ⟨n, h⟩
        · rw [h]; exact hs
        · rw [h] at on ⊢
          show (s.lane n).state ≠ .off
          simpa [State.holderOff] using on

theorem claimsKept_claim (c : Ctl) (tag holder kind : Byte) (first count lease : Half) (t : State)
    (h : execClaim c tag holder kind first count lease s = .next t) : ClaimsKept s t := by
  refine ClaimsKept.trans ?_ (noNewClaims_runOccasion s h).kept
  rcases inSession_state s c tag (claimCommand c holder kind first count lease) with e | ⟨hs, e⟩ <;> rw [e]
  · exact (NoNewClaims.refl s).kept
  · exact claimsKept_claimCommand s c holder kind first count lease (by rw [hs]; rfl)

/-! ### Every command and the step keep the claim table -/

/-- A command of the engine that is no occasion for a selection, in its session. -/
theorem claimsKept_runFrame {i : Instr} {c : Ctl} {tag : Byte} {command : State → Reply} {t : State}
    (k : NoNewClaims s (command s).state) (h : s.runFrame i (inSession c tag command) = .next t) : ClaimsKept s t :=
  ((noNewClaims_inSession s k).trans (noNewClaims_runFrame s h)).kept

/-- A command of the engine that is an occasion for a selection, in its session. -/
theorem claimsKept_runOccasion {i : Instr} {c : Ctl} {tag : Byte} {command : State → Reply} {t : State}
    (k : NoNewClaims s (command s).state) (h : s.runOccasion i (inSession c tag command) = .next t) : ClaimsKept s t :=
  ((noNewClaims_inSession s k).trans (noNewClaims_runOccasion s h)).kept

/-- A command that only reads, in its session. -/
theorem claimsKept_read {i : Instr} {c : Ctl} {tag : Byte} {command : State → Reply} {t : State}
    (e : (command s).state = s) (h : s.runFrame i (inSession c tag command) = .next t) : ClaimsKept s t :=
  claimsKept_runFrame s (by rw [e]; exact .refl s) h

/-- Every command that answers a next state keeps the claim table. -/
theorem claimsKept_exec (i : Instr) (t : State) (h : exec i s = .next t) : ClaimsKept s t := by
  cases i with
  | hardReset => cases h; exact NoNewClaims.kept (.of_empty fun i => State.reset_claim i)
  | resetnRise straps => exact (noNewClaims_resetnRise s straps t h).kept
  | sweepOperationCompletion => exact (noNewClaims_sweepOperationCompletion s t h).kept
  | refreshTick => exact (noNewClaims_refreshTick s t h).kept
  | millisecondTick => exact (noNewClaims_millisecondTick s t h).kept
  | requestRefusal who => exact (noNewClaims_requestRefusal s who t h).kept
  | leaseTick => exact (noNewClaims_leaseTick s t h).kept
  | claimExpiry => cases h; exact ((noNewClaims_endClaims s _ _).trans (noNewClaims_arbitrate _)).kept
  | loadCompletion => exact (noNewClaims_completeOp s .load t h).kept
  | storeCompletion => exact (noNewClaims_completeOp s .store t h).kept
  | cstoreCompletion => exact (noNewClaims_completeOp s .cstore t h).kept
  | fillCompletion => exact (noNewClaims_completeOp s .fill t h).kept
  | copyCompletion => exact (noNewClaims_completeOp s .copy t h).kept
  | refreshCompletion => exact (noNewClaims_refreshCompletion s t h).kept
  | outLaneClockEdge n => exact (noNewClaims_outLaneClockEdge s n t h).kept
  | inLaneClockEdge n ld => exact (noNewClaims_inLaneClockEdge s n ld t h).kept
  | laneClockEdgeOutsideRunning n => exact (noNewClaims_laneClockEdgeOutsideRunning s n t h).kept
  | identify c tag =>
    exact (noNewClaims_runFrame s (command := fun s => answer s (identifyBody s.port.strap)) h).kept
  | signOn c tag takeover =>
    exact ((noNewClaims_signOnCommand s c tag takeover).trans (noNewClaims_runOccasion s h)).kept
  | signOff c tag => exact claimsKept_runOccasion s (noNewClaims_signOff s c) h
  | resetPart c tag => exact claimsKept_runOccasion s (noNewClaims_resetPart s) h
  | groupEnable c tag flag => exact claimsKept_runFrame s (noNewClaims_groupEnableCommand s flag) h
  | putBuffer c tag offset data => exact claimsKept_runFrame s (noNewClaims_putBufferCommand s c offset data) h
  | getBuffer c tag offset length => exact claimsKept_read s (getBufferCommand_state s c offset length) h
  | rowInfo c tag first count => exact claimsKept_read s (rowInfoCommand_state s first count) h
  | load c tag row notify wait => exact claimsKept_runOccasion s (noNewClaims_transferCommand s c _ notify wait) h
  | store c tag row tap span notify wait =>
    exact claimsKept_runOccasion s (noNewClaims_transferCommand s c _ notify wait) h
  | cstore c tag row tap span expected notify wait =>
    exact claimsKept_runOccasion s (noNewClaims_transferCommand s c _ notify wait) h
  | fill c tag row tap span value notify wait =>
    exact claimsKept_runOccasion s (noNewClaims_transferCommand s c _ notify wait) h
  | copy c tag source destination tap span notify wait =>
    exact claimsKept_runOccasion s (noNewClaims_transferCommand s c _ notify wait) h
  | cancel c tag ticket => exact claimsKept_runFrame s (noNewClaims_cancelCommand s c ticket) h
  | queryTicket c tag ticket => exact claimsKept_read s (queryCommand_state s c ticket) h
  | claim c tag holder kind first count lease => exact claimsKept_claim s c tag holder kind first count lease t h
  | release c tag id => exact claimsKept_runOccasion s (noNewClaims_releaseCommand s c id) h
  | renew c tag id lease => exact claimsKept_runFrame s (noNewClaims_renewCommand s c id lease) h
  | listClaims c tag startId maximum => exact claimsKept_read s (listClaimsCommand_state s startId maximum) h
  | laneSetup c tag lane direction fill policy mode wait =>
    exact claimsKept_runFrame s (noNewClaims_laneSetupCommand s lane direction fill policy mode wait) h
  | laneStart c tag lane mode => exact claimsKept_runOccasion s (noNewClaims_laneStartCommand s lane mode) h
  | laneStop c tag lane mode => exact claimsKept_runFrame s (noNewClaims_laneStopCommand s lane mode) h
  | laneResume c tag lane => exact claimsKept_runOccasion s (noNewClaims_laneResumeCommand s lane) h
  | laneReset c tag lane => exact claimsKept_runOccasion s (noNewClaims_laneResetCommand s lane) h
  | laneStatus c tag lane => exact claimsKept_read s (laneStatusCommand_state s lane) h
  | listAppend c tag lane entries => exact claimsKept_runFrame s (noNewClaims_listAppendCommand s lane entries) h
  | listTrim c tag lane maximum => exact claimsKept_runFrame s (noNewClaims_listTrimCommand s lane maximum) h
  | listClear c tag lane => exact claimsKept_runFrame s (noNewClaims_listClearCommand s lane) h
  | listRead c tag lane start maximum => exact claimsKept_read s (listReadCommand_state s lane start maximum) h
  | takeEvents c tag maximum => exact claimsKept_runFrame s (noNewClaims_takeEventsCommand s maximum) h
  | peekEvents c tag maximum => exact claimsKept_read s (peekEventsCommand_state s maximum) h
  | setAttention c tag mask => exact claimsKept_runFrame s (noNewClaims_setAttentionCommand s mask) h
  | refusedFrame verdict bytes =>
    exact (noNewClaims_runFrame s (command := fun s => refuse s (admissionStatus verdict bytes)) h).kept
  | start unacknowledged => exact (noNewClaims_execStart s unacknowledged t h).kept
  | addressByte b => exact (noNewClaims_addressByte s b t h).kept
  | stop unacknowledged => exact (noNewClaims_execStop s unacknowledged t h).kept
  | readPhaseEnd how => exact (noNewClaims_readPhaseEnd s how t h).kept
  | busError condition bits => exact (noNewClaims_busError s condition bits t h).kept
  | groupStart mask => cases h; exact (noNewClaims_groupStart s mask).kept
  | groupHalt mask => cases h; exact (noNewClaims_groupHalt s mask).kept
  | writePhaseByte b => exact (noNewClaims_writePhaseByte s b t h).kept
  | groupPhaseByte b => exact (noNewClaims_groupPhaseByte s b t h).kept
  | readByteAcknowledge => exact (noNewClaims_readByteAcknowledge s t h).kept

/-- The step keeps the claim table; with no command waiting it makes at most a selection. -/
theorem claimsKept_step (s t : State) (h : step s = .next t) : ClaimsKept s t := by
  unfold step at h
  split at h
  · cases h
    exact (noNewClaims_arbitrate s).kept
  · rename_i c rest _
    have taken : NoNewClaims s { s with pending := rest } := .of_same rfl rfl rfl
    exact taken.kept.trans (claimsKept_exec _ c t h)

/-- Settles O56: but for a granted CLAIM, which conflicts with none of the table, no step makes a claim or takes the
holder of one that stays. -/
theorem stepKeepsClaims : Obligations.StepKeepsClaims :=
  ⟨fun s t h e => (claimsKept_step s t e).compatible h, fun s t h e => (claimsKept_step s t e).held h⟩

end Sys2Proof.Machine

namespace Sys2Proof.Machine

set_option Elab.async false

variable (s : State)

/-! ### The claim test (R23) -/

/-- The table as its slots in order. -/
theorem State.claims_toList : s.claims.toList = (List.finRange 24).map s.claim := by
  refine List.ext_getElem (by simp) fun k h _ => ?_
  rw [List.getElem_map, List.getElem_finRange, Vector.getElem_toList]
  rfl

theorem Claim.covers_iff (k : Claim) (r : RowId) :
    k.covers r = true ↔ k.first.val ≤ r.val ∧ r.val < k.first.val + k.count := by
  simp [Claim.covers]

theorem Claim.blocks_iff (k : Claim) (p : Party) (w : Work) : k.blocks p w = true ↔
    k.holder ≠ p ∧ ((k.kind = .sole ∧ ∃ r ∈ w.reads, k.covers r = true) ∨ ∃ r ∈ w.writes, k.covers r = true) := by
  simp [Claim.blocks]

theorem State.conflicts_iff (p : Party) (w : Work) :
    s.conflicts p w = true ↔ ∃ i k, s.claim i = some k ∧ k.blocks p w = true := by
  simp only [State.conflicts, State.claims_toList, List.any_map, List.any_eq_true, List.mem_finRange, true_and,
    Function.comp, Option.any_eq_true]

/-- Settles O20: the test slot by slot, with the rows that each operation reads and writes. -/
theorem claimTest : Obligations.ClaimTest := by
  intro s p w reads writes covers
  have reads_eq : w.reads = reads w := by cases w <;> rfl
  have writes_eq : w.writes = writes w := by cases w <;> rfl
  simp only [State.conflicts_iff, Claim.blocks_iff, Claim.covers_iff, reads_eq, writes_eq, covers]

/-! ### CLAIM (R27 to R29) -/

/-- Two claims overlap when one row is covered by both: the later of their first rows (R20). -/
theorem Claim.overlaps_iff (a b : Claim) : a.overlaps b = true ↔ ∃ r : RowId, a.first.val ≤ r.val ∧
    r.val < a.first.val + a.count ∧ b.first.val ≤ r.val ∧ r.val < b.first.val + b.count := by
  simp only [Claim.overlaps, Bool.and_eq_true, decide_eq_true_eq]
  refine ⟨fun h => ?_, fun ⟨r, h⟩ => by omega⟩
  rcases Nat.le_total a.first.val b.first.val with le | le
  · exact ⟨b.first, by omega⟩
  · exact ⟨a.first, by omega⟩

theorem Claim.excludes_iff (old new : Claim) : old.excludes new = true ↔
    (∃ r : RowId, old.first.val ≤ r.val ∧ r.val < old.first.val + old.count ∧
      new.first.val ≤ r.val ∧ r.val < new.first.val + new.count) ∧
    (old.holder = new.holder ∨ old.kind = .sole ∨ new.kind = .sole) := by
  rw [← Claim.overlaps_iff]
  simp only [Claim.excludes, Bool.and_eq_true, Bool.or_eq_true, decide_eq_true_eq, or_assoc]
  rw [or_comm (a := new.kind = .sole)]

/-- The first slot that passes a test. -/
theorem find?_finRange_eq_some {n : Nat} {p : Fin n → Bool} {j : Fin n} (hj : p j = true)
    (first : ∀ k, k < j → p k = false) : (List.finRange n).find? p = some j := by
  refine List.find?_eq_some_iff_getElem.mpr ⟨hj, j.val, by simp, by simp, fun k hk => ?_⟩
  simpa using first ⟨k, by omega⟩ hk

theorem State.conflictingClaim_eq_some {new old : Claim} {j : ClaimId} (hj : s.claim j = some old)
    (conflict : old.excludes new = true)
    (first : ∀ k older, k < j → s.claim k = some older → older.excludes new = false) :
    s.conflictingClaim new = some j := by
  refine find?_finRange_eq_some (by rw [hj]; exact conflict) fun k hk => ?_
  cases h : s.claim k with
  | none => rfl
  | some older => exact first k older hk h

theorem State.conflictingClaim_eq_none {new : Claim}
    (h : ∀ j old, s.claim j = some old → old.excludes new = false) : s.conflictingClaim new = none := by
  refine List.find?_eq_none.mpr fun j _ => ?_
  cases hj : s.claim j with
  | none => simp
  | some old => simp [h j old hj]

theorem State.freeClaim_eq_some {j : ClaimId} (hj : s.claim j = none) (first : ∀ k, k < j → s.claim k ≠ none) :
    s.freeClaim = some j :=
  find?_finRange_eq_some (by rw [hj]; rfl) fun k hk => by
    simpa using Option.isSome_iff_ne_none.mpr (first k hk)

theorem State.freeClaim_eq_none (h : ∀ j, s.claim j ≠ none) : s.freeClaim = none :=
  List.find?_eq_none.mpr fun j _ => by simpa using h j

theorem rowOf_of_le {h : Half} (k : h.toNat ≤ 511) : rowOf h = some ⟨h.toNat, by omega⟩ := dif_pos (by omega)

theorem rowOf_none {h : Half} (k : 511 < h.toNat) : rowOf h = none := dif_neg (by omega)

theorem toNat_pred {b : Byte} (h : b ≠ 0) : (b - 1).toNat = b.toNat - 1 ∧ 1 ≤ b.toNat := by
  have nonzero : b.toNat ≠ 0 := fun e => h (BitVec.eq_of_toNat_eq e)
  have := b.isLt
  rw [BitVec.toNat_sub, show (1 : Byte).toNat = 1 from rfl]
  omega

theorem holderOf_none (c : Ctl) {b : Byte} (h : 4 < b.toNat) : holderOf c b = none := by
  have hb : b ≠ 0 := fun e => by rw [e] at h; simp at h
  obtain ⟨pred, -⟩ := toNat_pred hb
  unfold holderOf
  rw [if_neg hb, laneOf_none (by omega)]
  rfl

theorem holderOf_of_le (c : Ctl) {b : Byte} (h : b.toNat ≤ 4) : holderOf c b =
    some (if h : b.toNat - 1 < 4 ∧ b ≠ 0 then .lane ⟨b.toNat - 1, h.1⟩ else .ctl c) := by
  unfold holderOf
  by_cases hb : b = 0
  · rw [if_pos hb, dif_neg fun k => k.2 hb]
  · obtain ⟨pred, pos⟩ := toNat_pred hb
    have lane : b.toNat - 1 < 4 := by omega
    rw [if_neg hb, dif_pos ⟨lane, hb⟩, laneOf_of_val (n := ⟨b.toNat - 1, lane⟩) pred.symm]
    rfl

theorem claimKindOf_none {b : Byte} (h : 1 < b.toNat) : claimKindOf b = none := by
  unfold claimKindOf
  rw [flagOf_none h]
  rfl

theorem claimKindOf_of_le {b : Byte} (h : b.toNat ≤ 1) : claimKindOf b = some (if b = 0 then .shared else .sole) := by
  rcases flag_cases h with rfl | rfl <;> rfl

/-- The parameters of a CLAIM are in range (R27). -/
def ClaimInRange (holder kind : Byte) (first count lease : Half) : Prop :=
  holder.toNat ≤ 4 ∧ kind.toNat ≤ 1 ∧ first.toNat ≤ 511 ∧ 1 ≤ count.toNat ∧ count.toNat ≤ 512 ∧
    first.toNat + count.toNat ≤ 512 ∧ lease.toNat ≤ 6000 ∧ (holder ≠ 0 → lease = 0)

variable (c : Ctl) (tag holder kind : Byte) (first count lease : Half)

theorem newClaim_none (h : ¬ ClaimInRange holder kind first count lease) :
    newClaim c holder kind first count lease = none := by
  unfold newClaim
  by_cases hh : holder.toNat ≤ 4
  · by_cases hk : kind.toNat ≤ 1
    · by_cases hf : first.toNat ≤ 511
      · rw [holderOf_of_le c hh, claimKindOf_of_le hk, rowOf_of_le hf]
        refine if_pos ?_
        by_contra good
        simp only [not_or, not_and, not_not] at good
        obtain ⟨rows, last, short, unleased⟩ := good
        exact h ⟨hh, hk, hf, by omega, by omega, by omega, by omega, unleased⟩
      · rw [rowOf_none (by omega)]
        cases holderOf c holder <;> cases claimKindOf kind <;> rfl
    · rw [claimKindOf_none (by omega)]
      cases holderOf c holder <;> rfl
  · rw [holderOf_none c (by omega)]

theorem newClaim_some {new : Claim} (h : ClaimInRange holder kind first count lease)
    (hh : new.holder = if h : holder.toNat - 1 < 4 ∧ holder ≠ 0 then .lane ⟨holder.toNat - 1, h.1⟩ else .ctl c)
    (hk : new.kind = if kind = 0 then .shared else .sole) (hf : new.first.val = first.toNat)
    (hc : new.count = count.toNat) (hl : new.lease = if lease = 0 then none else some lease.toNat) :
    newClaim c holder kind first count lease = some new := by
  obtain ⟨holder_le, kind_le, first_le, count_pos, -, last, short, unleased⟩ := h
  unfold newClaim
  rw [holderOf_of_le c holder_le, claimKindOf_of_le kind_le, rowOf_of_le first_le, ← hh, ← hk]
  refine (if_neg ?_).trans ?_
  · rintro (h | h | h | ⟨h, k⟩)
    · omega
    · omega
    · omega
    · exact k (unleased h)
  · have row : (⟨first.toNat, by omega⟩ : RowId) = new.first := Fin.ext hf.symm
    rw [row, ← hc, leaseOf, ← hl]

variable {s c tag holder kind first count lease}

theorem exec_claim (h : s.executes (.claim c tag holder kind first count lease) = true) (hs : s.session c = some tag)
    {r : Reply} (hr : claimCommand c holder kind first count lease s = r) :
    exec (.claim c tag holder kind first count lease) s = .next (r.state.answered r.status r.body).arbitrate :=
  hr ▸ State.runOccasion_inSession s _ c tag _ h hs

/-- CLAIM of a lane that is OFF (R28). -/
theorem claimCommand_off {new : Claim} (hn : newClaim c holder kind first count lease = some new)
    (off : s.holderOff new.holder = true) :
    claimCommand c holder kind first count lease s = refuse s .wrongState := by
  simp only [claimCommand, hn, off, if_true]

section
variable {new : Claim} (hn : newClaim c holder kind first count lease = some new)
  (on : s.holderOff new.holder = false)
include hn on

theorem claimCommand_conflict {i : ClaimId} (h : s.conflictingClaim new = some i) :
    claimCommand c holder kind first count lease s = { state := s, status := .conflict, body := [byteOf i.val] } := by
  simp only [claimCommand, hn, on, h, Bool.false_eq_true, if_false]

theorem claimCommand_full (h : s.conflictingClaim new = none) (full : s.freeClaim = none) :
    claimCommand c holder kind first count lease s = refuse s .tableFull := by
  simp only [claimCommand, hn, on, h, full, Bool.false_eq_true, if_false]

theorem claimCommand_grant {i : ClaimId} (h : s.conflictingClaim new = none) (free : s.freeClaim = some i) :
    claimCommand c holder kind first count lease s = answer (s.setClaim i (some new)).raise [byteOf i.val] := by
  simp only [claimCommand, hn, on, h, free, Bool.false_eq_true, if_false]

end

theorem State.holderOff_lane {n : LaneId} : s.holderOff (.lane n) = true ↔ (s.lane n).state = .off := by
  simp [State.holderOff]

/-- A holder that is no lane, or a lane that is not OFF. -/
theorem State.holderOff_false {p : Party} (h : ∀ n, p = .lane n → (s.lane n).state ≠ .off) : s.holderOff p = false := by
  cases p with
  | ctl d => rfl
  | lane n => exact Bool.eq_false_iff.mpr fun off => h n rfl (State.holderOff_lane.mp off)

/-- Settles O21: the checks in their order; the conflict and the empty slot are the lowest of their kind. -/
theorem claimGrantedOrRefused : Obligations.ClaimGrantedOrRefused := by
  intro s c tag holder kind first count lease i h hs inRange touches
  have excludes_iff : ∀ old new : Claim, old.excludes new = true ↔ touches old new := Claim.excludes_iff
  have not_excludes : ∀ {old new : Claim}, ¬ touches old new → old.excludes new = false := fun k =>
    Bool.eq_false_iff.mpr fun e => k ((excludes_iff _ _).mp e)
  refine ⟨fun bad => exec_claim (r := refuse s .badParameter) h hs ?_, fun new good hh hk hf hc hl => ?_⟩
  · simp only [claimCommand, newClaim_none c holder kind first count lease bad]
  have hn : newClaim c holder kind first count lease = some new :=
    newClaim_some c holder kind first count lease good hh hk hf hc hl
  refine ⟨fun n lane off => exec_claim h hs (claimCommand_off hn (lane ▸ State.holderOff_lane.mpr off)), fun on => ?_⟩
  have on := State.holderOff_false on
  refine ⟨fun j old hj conflict lowest => ?_, fun free => ?_⟩
  · exact exec_claim h hs (claimCommand_conflict hn on (State.conflictingClaim_eq_some s hj
      ((excludes_iff _ _).mpr conflict) fun k older hk ho => not_excludes (lowest k older hk ho)))
  · have free := State.conflictingClaim_eq_none s fun j old hj => not_excludes (free j old hj)
    refine ⟨fun full => ?_, fun j hj lowest => ?_⟩
    · exact exec_claim h hs (claimCommand_full hn on free (State.freeClaim_eq_none s full))
    · exact exec_claim h hs (claimCommand_grant hn on free (State.freeClaim_eq_some s hj lowest))

/-! ### RELEASE and RENEW (R30, R31) -/

theorem claimIdOf_of_val {j : ClaimId} {id : Byte} (h : j.val = id.toNat) : claimIdOf id = some j := by
  unfold claimIdOf
  rw [dif_pos (h ▸ j.isLt)]
  exact congrArg some (Fin.ext h.symm)

theorem claimIdOf_none {id : Byte} (h : 23 < id.toNat) : claimIdOf id = none := dif_neg (by omega)

theorem exec_release {id : Byte} (h : s.executes (.release c tag id) = true) (hs : s.session c = some tag)
    {r : Reply} (hr : releaseCommand c id s = r) :
    exec (.release c tag id) s = .next (r.state.answered r.status r.body).arbitrate :=
  hr ▸ State.runOccasion_inSession s _ c tag _ h hs

theorem exec_renew {id : Byte} (h : s.executes (.renew c tag id lease) = true) (hs : s.session c = some tag)
    {r : Reply} (hr : renewCommand c id lease s = r) :
    exec (.renew c tag id lease) s = .next (r.state.answered r.status r.body) :=
  hr ▸ State.runFrame_inSession s _ c tag _ h hs

/-- RELEASE of a claim that stands, by its holder (R30). -/
theorem releaseCommand_some {id : Byte} {j : ClaimId} {k : Claim} (hj : j.val = id.toNat) (hk : s.claim j = some k) :
    releaseCommand c id s =
      if k.holder = .ctl c ∨ ∃ n, k.holder = .lane n then done (s.setClaim j none).raise else refuse s .notHolder := by
  unfold releaseCommand
  simp only [claimIdOf_of_val hj, hk]
  cases k.holder with
  | lane n => simp
  | ctl d => simp

/-- RENEW of a claim that stands, by its holder (R31). -/
theorem renewCommand_ctl {id : Byte} {j : ClaimId} {k : Claim} {d : Ctl} (hj : j.val = id.toNat)
    (hl : lease.toNat ≤ 6000) (hk : s.claim j = some k) (hd : k.holder = .ctl d) : renewCommand c id lease s =
      if d = c then done (s.setClaim j (some { k with lease := leaseOf lease })) else refuse s .notHolder := by
  simp only [renewCommand, claimIdOf_of_val hj, Nat.not_lt.mpr hl, if_false, hk, hd]

/-- Settles O22: both commands by the slot named, then by the holder of its claim. -/
theorem releaseAndRenew : Obligations.ReleaseAndRenew := by
  intro s c tag id lease hs
  refine ⟨fun h => ⟨fun bad => exec_release (r := refuse s .badParameter) h hs ?_, fun j hj =>
      ⟨fun empty => exec_release (r := refuse s .notFound) h hs ?_, fun k hk => ⟨fun d hd other => ?_, fun own => ?_⟩⟩⟩,
    fun h => ⟨fun bad => exec_renew (r := refuse s .badParameter) h hs ?_, fun j hj hl =>
      ⟨fun empty => exec_renew (r := refuse s .notFound) h hs ?_, fun k hk =>
        ⟨fun n hn => exec_renew (r := refuse s .badParameter) h hs ?_, fun d hd other => ?_, fun own => ?_⟩⟩⟩⟩
  · simp only [releaseCommand, claimIdOf_none bad]
  · simp only [releaseCommand, claimIdOf_of_val hj, empty]
  · exact exec_release (r := refuse s .notHolder) h hs ((releaseCommand_some hj hk).trans
      (if_neg (by simp [hd, other])))
  · exact exec_release h hs ((releaseCommand_some hj hk).trans (if_pos own))
  · unfold renewCommand
    rcases bad with bad | bad
    · rw [claimIdOf_none bad]
    · cases claimIdOf id with
      | none => rfl
      | some j => exact if_pos bad
  · simp only [renewCommand, claimIdOf_of_val hj, Nat.not_lt.mpr hl, if_false, empty]
  · simp only [renewCommand, claimIdOf_of_val hj, Nat.not_lt.mpr hl, if_false, hk, hn]
  · exact exec_renew (r := refuse s .notHolder) h hs ((renewCommand_ctl hj hl hk hd).trans (if_neg other))
  · exact exec_renew h hs ((renewCommand_ctl hj hl hk own).trans (if_pos rfl))

end Sys2Proof.Machine

namespace Sys2Proof.Machine

set_option Elab.async false

variable (s : State)

/-! ### The end of a session (R62, R143, R145) -/

/-- Two parts post alike: a post sees of the part only its event queue and counters (R121, R124, R125). -/
def State.PostsAlike (u v : State) : Prop :=
  u.events = v.events ∧ u.eventCounter = v.eventCounter ∧ u.clock = v.clock

/-- CLAIM ENDED posted for one slot of a table, when its claim is of this holder (R36). -/
def State.postEnded (table : ClaimId → Option Claim) (p : Party) (cause : Cause) (v : State) (j : ClaimId) : State :=
  match table j with
  | some k => if k.holder = p then v.post
      { kind := .claimEnded, source := .party p, row := some k.first, claimId := some j,
        count := some (BitVec.ofNat 16 k.count), cause := some cause } else v
  | none => v

theorem State.afterClaimEnded_eq (p : Party) (cause : Cause) :
    s.afterClaimEnded p cause = (List.finRange 24).foldl (State.postEnded s.claim p cause) s := rfl

variable {s}

/-- Emptying one slot posts what the slot calls for, and leaves the other slots. -/
theorem State.endClaim_postsAlike {v : State} (p : Party) (cause : Cause) (h : s.PostsAlike v) (j : ClaimId) :
    (s.endClaim (fun k => k.holder = p) cause j).PostsAlike (v.postEnded s.claim p cause j) ∧
    ∀ i, i ≠ j → (s.endClaim (fun k => k.holder = p) cause j).claim i = s.claim i := by
  unfold State.endClaim State.postEnded
  cases s.claim j with
  | none => exact ⟨h, fun _ _ => rfl⟩
  | some k =>
    by_cases hk : k.holder = p
    · simp only [hk, decide_true, if_true, Claim.ended]
      exact ⟨State.post_congr (s.setClaim j none) v _ h, fun i hi => by simp [hi]⟩
    · simp only [hk, decide_false, if_false, Bool.false_eq_true]
      exact ⟨h, fun _ _ => trivial⟩

/-- The slots emptied in turn post what the table they were in calls for. -/
theorem State.endClaim_foldl_postsAlike (p : Party) (cause : Cause) (table : ClaimId → Option Claim)
    (is : List ClaimId) (nodup : is.Nodup) (u v : State) (h : u.PostsAlike v) (ht : ∀ i ∈ is, u.claim i = table i) :
    (is.foldl (State.endClaim (fun k => k.holder = p) cause) u).PostsAlike
      (is.foldl (State.postEnded table p cause) v) := by
  induction is generalizing u v with
  | nil => exact h
  | cons j is ih =>
    obtain ⟨fresh, nodup⟩ := List.nodup_cons.mp nodup
    obtain ⟨alike, others⟩ := State.endClaim_postsAlike p cause h j
    have same_slot : v.postEnded u.claim p cause j = v.postEnded table p cause j := by
      unfold State.postEnded
      rw [ht j List.mem_cons_self]
    refine ih nodup _ _ (same_slot ▸ alike) fun i hi => ?_
    rw [others i fun e => fresh (e ▸ hi)]
    exact ht i (List.mem_cons_of_mem _ hi)

/-- A holder's claims removed post as their CLAIM ENDED events do (R36). -/
theorem State.endClaims_postsAlike (p : Party) (cause : Cause) :
    (s.endClaims (fun k => k.holder = p) cause).PostsAlike (s.afterClaimEnded p cause) := by
  have alike := State.endClaim_foldl_postsAlike p cause s.claim (List.finRange 24) (List.nodup_finRange 24) s s
    ⟨rfl, rfl, rfl⟩ fun _ _ => rfl
  rw [State.afterClaimEnded_eq]
  unfold State.endClaims
  generalize (List.finRange 24).foldl (State.endClaim (fun k => k.holder = p) cause) s = u at alike ⊢
  dsimp only
  split <;> exact alike

/-- The record of a request withdrawn (R52, R62). -/
def QueueRequest.withdrawnRecord (q : QueueRequest) (clock : Half) : OutcomeRecord :=
  { ticket := q.ticket, ctl := q.ctl, op := q.work.op, row := q.work.row, outcome := .withdrawn, generation := none,
    finish := clock }

/-- A withdrawal is a record and no event (R54, R62). -/
theorem State.withdraw_eq (q : QueueRequest) : (s.dequeue q.ticket).finish q .withdrawn none = { s with
    queue := s.queue.filter fun r => r.ticket ≠ q.ticket
    log := logAppend s.log (q.withdrawnRecord s.clock) } := by
  unfold State.finish
  cases q.notify <;> rfl

theorem State.withdrawals_eq (qs : List QueueRequest) (s : State) :
    qs.foldl (fun s q => (s.dequeue q.ticket).finish q .withdrawn none) s = { s with
      queue := s.queue.filter fun r => r.ticket ∉ qs.map (·.ticket)
      log := qs.foldl (fun log q => logAppend log (q.withdrawnRecord s.clock)) s.log } := by
  rw [← State.withdrawals_queue]
  induction qs generalizing s with
  | nil => rfl
  | cons q qs ih =>
    rw [List.foldl_cons, ih, State.withdraw_eq]
    rfl

/-- The waiting requests of a controller number (R62 step 1). -/
def State.waitingOf (s : State) (c : Ctl) : List QueueRequest :=
  s.queue.filter fun q => q.ctl = c && !q.state.isActive

theorem RequestState.isActive_iff (r : RequestState) : r.isActive = true ↔ r = .active := by
  cases r <;> simp [RequestState.isActive]

theorem State.mem_waitingOf {c : Ctl} {q : QueueRequest} :
    q ∈ s.waitingOf c ↔ q ∈ s.queue ∧ q.ctl = c ∧ q.state ≠ .active := by
  simp [State.waitingOf, ← RequestState.isActive_iff]

/-- The withdrawal of a controller number's waiting requests, in full (R62 step 1). -/
theorem State.QueueBounded.withdrawWaiting_eq (b : s.QueueBounded) (c : Ctl) : s.withdrawWaiting c = { s with
    queue := s.queue.filter fun q => !(q.ctl = c && q.state ≠ .active)
    log := (s.waitingOf c).foldl (fun log q => logAppend log (q.withdrawnRecord s.clock)) s.log } := by
  have stays : ∀ q ∈ s.queue, decide (q.ticket ∉ (s.waitingOf c).map (·.ticket)) =
      !(decide (q.ctl = c) && decide (q.state ≠ .active)) := by
    intro q hq
    have mem : q.ticket ∈ (s.waitingOf c).map (·.ticket) ↔ q.ctl = c ∧ q.state ≠ .active := by
      refine ⟨fun hm => ?_, fun h => List.mem_map_of_mem (State.mem_waitingOf.mpr ⟨hq, h⟩)⟩
      obtain ⟨r, hr, e⟩ := List.mem_map.mp hm
      obtain ⟨hr, h⟩ := State.mem_waitingOf.mp hr
      exact b.same hr hq e ▸ h
    rw [Bool.eq_iff_iff]
    simp only [decide_eq_true_eq, Bool.not_eq_true', Bool.and_eq_false_iff, decide_eq_false_iff_not, mem]
    tauto
  refine (State.withdrawals_eq (s.waitingOf c) s).trans ?_
  rw [List.filter_congr stays]

/-- The requests in flight are one: any two ACTIVE ones are the same. -/
theorem State.QueueBounded.one_active (b : s.QueueBounded) {p q : QueueRequest} (hp : p ∈ s.queue) (hq : q ∈ s.queue)
    (ap : p.state = .active) (aq : q.state = .active) : p = q := by
  obtain ⟨-, x, hx, -, px, -⟩ := b.active p hp ap
  obtain ⟨-, y, hy, -, qy, -⟩ := b.active q hq aq
  cases hx.symm.trans hy
  exact b.same hp hq (Option.some.inj (px.symm.trans qy))

/-- A cancellation of delivery sees of the part only the operation in flight (R5). -/
theorem State.cancelDelivery_array_congr {u v : State} (p : Party) (h : u.array = v.array) :
    (u.cancelDelivery p).array = (v.cancelDelivery p).array := by
  unfold State.cancelDelivery
  rw [h]
  split
  · split
    · rfl
    · exact h
  · exact h

/-- With its one request in flight, a controller number's ACTIVE request becomes the orphan (R62 step 2). -/
theorem State.QueueBounded.orphanActive_of_active (b : s.QueueBounded) {q : QueueRequest} (hq : q ∈ s.queue)
    (ha : q.state = .active) : s.orphanActive q.ctl = { s with
      queue := s.queue.filter fun r => r.ticket ≠ q.ticket
      array := (s.cancelDelivery (.ctl q.ctl)).array
      orphan := some q.ticket } := by
  have found : (s.queue.find? fun r => r.ctl = q.ctl && r.state.isActive) = some q := by
    cases hf : s.queue.find? fun r => r.ctl = q.ctl && r.state.isActive with
    | none => simpa [ha, RequestState.isActive] using List.find?_eq_none.mp hf q hq
    | some r =>
      have passes := List.find?_some hf
      obtain ⟨-, ar⟩ := Bool.and_eq_true_iff.mp passes
      rw [b.one_active (List.mem_of_find?_eq_some hf) hq ((RequestState.isActive_iff _).mp ar) ha]
  have cancelled : (s.dequeue q.ticket).cancelDelivery (.ctl q.ctl) = { s.dequeue q.ticket with
      array := (s.cancelDelivery (.ctl q.ctl)).array } := by
    rw [State.cancelDelivery_frame (s.dequeue q.ticket),
      State.cancelDelivery_array_congr (u := s.dequeue q.ticket) (v := s) (.ctl q.ctl) rfl]
  unfold State.orphanActive
  rw [found]
  dsimp only
  rw [cancelled]
  rfl

theorem State.orphanActive_of_none {c : Ctl} (h : ∀ q ∈ s.queue, q.ctl = c → q.state ≠ .active) :
    s.orphanActive c = s := by
  have found : (s.queue.find? fun r => r.ctl = c && r.state.isActive) = none :=
    List.find?_eq_none.mpr fun q hq => by simpa [RequestState.isActive_iff] using h q hq
  unfold State.orphanActive
  rw [found]

/-- The operation in flight of a controller number's ACTIVE request has its delivery DISCARD (R5). -/
theorem State.QueueBounded.cancelDelivery_array (b : s.QueueBounded) {q : QueueRequest} (hq : q ∈ s.queue)
    (ha : q.state = .active) {x : Transfer} (hx : s.array = some (.transfer x)) :
    (s.cancelDelivery (.ctl q.ctl)).array = some (.transfer { x with discard := true }) := by
  obtain ⟨-, y, hy, requester, -⟩ := b.active q hq ha
  cases hx.symm.trans hy
  unfold State.cancelDelivery
  rw [hx]
  dsimp only
  rw [if_pos requester]

/-- What the end of a session leaves of the requests: none of the number in the queue, a record of each withdrawn, and
the one in flight orphaned (R62). -/
theorem State.QueueBounded.requestsEnd (b : s.QueueBounded) (c : Ctl) :
    let v := (s.withdrawWaiting c).orphanActive c
    v = { s with queue := s.queue.filter fun q => q.ctl ≠ c
                 log := (s.waitingOf c).foldl (fun log q => logAppend log (q.withdrawnRecord s.clock)) s.log
                 array := v.array, orphan := v.orphan } ∧
    (∀ q ∈ s.queue, q.ctl = c → q.state = .active → v.orphan = some q.ticket ∧
      ∀ x, s.array = some (.transfer x) → v.array = some (.transfer { x with discard := true })) ∧
    ((∀ q ∈ s.queue, q.ctl = c → q.state ≠ .active) → v.orphan = s.orphan ∧ v.array = s.array) := by
  have withdrawn := b.withdrawWaiting_eq c
  have bw : (s.withdrawWaiting c).QueueBounded := (kept_withdrawWaiting s c).queue b
  have array : (s.withdrawWaiting c).array = s.array := by rw [withdrawn]
  have queue : (s.withdrawWaiting c).queue = s.queue.filter fun q => !(q.ctl = c && q.state ≠ .active) := by
    rw [withdrawn]
  have orphan : (s.withdrawWaiting c).orphan = s.orphan := by rw [withdrawn]
  generalize s.withdrawWaiting c = w at withdrawn bw array queue orphan ⊢
  by_cases h : ∃ q ∈ s.queue, q.ctl = c ∧ q.state = .active
  · obtain ⟨q, hq, rfl, ha⟩ := h
    have only : ∀ r ∈ s.queue, r.state = .active → r = q := fun r hr ar => b.one_active hr hq ar ha
    have hw : q ∈ w.queue := queue ▸ List.mem_filter.mpr ⟨hq, by simp [ha]⟩
    have left : (w.queue.filter fun r => r.ticket ≠ q.ticket) = s.queue.filter fun r => r.ctl ≠ q.ctl := by
      rw [queue, List.filter_filter]
      refine List.filter_congr fun r hr => ?_
      have same_ticket : r.ticket = q.ticket ↔ r.ctl = q.ctl ∧ r.state = .active :=
        ⟨fun e => by rw [b.same hr hq e]; exact ⟨rfl, ha⟩, fun e => only r hr e.2 ▸ rfl⟩
      rw [Bool.eq_iff_iff]
      simp only [ne_eq, same_ticket, Bool.and_eq_true, decide_eq_true_eq, Bool.not_eq_true', Bool.and_eq_false_iff,
        decide_eq_false_iff_not]
      tauto
    rw [bw.orphanActive_of_active hw ha, left]
    refine ⟨by rw [withdrawn], fun r hr _ ar => ?_, fun none_active => absurd ha (none_active q hq rfl)⟩
    rw [only r hr ar]
    exact ⟨rfl, fun x hx => bw.cancelDelivery_array hw ha (array.trans hx)⟩
  · have none_active : ∀ q ∈ s.queue, q.ctl = c → q.state ≠ .active := fun q hq hc ha => h ⟨q, hq, hc, ha⟩
    have left : w.queue = s.queue.filter fun q => q.ctl ≠ c := by
      rw [queue]
      refine List.filter_congr fun q hq => ?_
      by_cases hc : q.ctl = c <;> simp [hc, none_active q hq]
    rw [State.orphanActive_of_none fun q hq => none_active q (List.mem_of_mem_filter (queue ▸ hq))]
    refine ⟨?_, fun q hq hc ha => absurd ha (none_active q hq hc), fun _ => ⟨orphan, array⟩⟩
    rw [← left, withdrawn]

end Sys2Proof.Machine

namespace Sys2Proof.Machine

set_option Elab.async false

variable {s : State}

/-- The end of a session removes claims with their events, and ends requests; nothing else of the part changes. -/
theorem State.QueueBounded.endSession_spec (b : s.QueueBounded) (c : Ctl) (cause : Cause) :
    let v := s.endSession c cause
    v = { s with claims := v.claims, events := v.events, eventCounter := v.eventCounter, occasion := v.occasion
                 queue := s.queue.filter fun q => q.ctl ≠ c
                 log := (s.waitingOf c).foldl (fun log q => logAppend log (q.withdrawnRecord s.clock)) s.log
                 array := v.array, orphan := v.orphan } ∧
    v.PostsAlike (s.afterClaimEnded (.ctl c) cause) ∧
    (∀ q ∈ s.queue, q.ctl = c → q.state = .active → v.orphan = some q.ticket ∧
      ∀ x, s.array = some (.transfer x) → v.array = some (.transfer { x with discard := true })) ∧
    ((∀ q ∈ s.queue, q.ctl = c → q.state ≠ .active) → v.orphan = s.orphan ∧ v.array = s.array) := by
  have frame := (State.endClaims_spec (fun k => k.holder = .ctl c) cause s s ⟨rfl, rfl, rfl⟩).2.1
  have alike := State.endClaims_postsAlike (s := s) (.ctl c) cause
  have be := (kept_endClaims s (fun k => k.holder = .ctl c) cause).queue b
  unfold State.endSession
  generalize s.endClaims (fun k => k.holder = .ctl c) cause = e at frame alike be ⊢
  obtain ⟨ended, orphaned, stands⟩ := be.requestsEnd c
  have queue : e.queue = s.queue := by rw [frame]
  have array : e.array = s.array := by rw [frame]
  have orphan : e.orphan = s.orphan := by rw [frame]
  have log : (e.waitingOf c).foldl (fun log q => logAppend log (q.withdrawnRecord e.clock)) e.log =
      (s.waitingOf c).foldl (fun log q => logAppend log (q.withdrawnRecord s.clock)) s.log := by rw [frame]; rfl
  rw [queue, array] at orphaned
  rw [queue, array, orphan] at stands
  generalize (e.withdrawWaiting c).orphanActive c = v at ended orphaned stands ⊢
  refine ⟨?_, ?_, orphaned, stands⟩
  · rw [ended, log, queue, frame]
  · rw [ended]
    exact alike

/-- The records of the requests withdrawn, in the words of `SessionEnds`. -/
theorem State.withdrawnLog_eq (c : Ctl) :
    (s.waitingOf c).foldl (fun log q => logAppend log (q.withdrawnRecord s.clock)) s.log =
      (s.queue.filter fun q => q.ctl = c && q.state ≠ .active).foldl (fun log q => logAppend log
        { ticket := q.ticket, ctl := c, op := q.work.op, row := q.work.row, outcome := .withdrawn, generation := none,
          finish := s.clock }) s.log := by
  have waiting : s.waitingOf c = s.queue.filter fun q => q.ctl = c && q.state ≠ .active :=
    List.filter_congr fun q _ => by rw [Bool.eq_iff_iff]; simp [← RequestState.isActive_iff]
  rw [← waiting]
  refine List.foldl_ext _ _ _ fun log q hq => ?_
  obtain ⟨-, rfl, -⟩ := State.mem_waitingOf.mp hq
  rfl

/-- A part that differs from the end of a session in sessions, buffers and events alone, with the number's buffer zero
and the other numbers' records as they stood. -/
theorem State.QueueBounded.sessionEnds (b : s.QueueBounded) (c : Ctl) (cause : Cause) {u : State}
    (hu : u = { s.endSession c cause with sessions := u.sessions, buffers := u.buffers, events := u.events
                                          eventCounter := u.eventCounter, occasion := u.occasion })
    (buffer : u.buffer c = []) (others : ∀ d, d ≠ c → u.buffer d = s.buffer d ∧ u.session d = s.session d) :
    s.SessionEnds u c := by
  obtain ⟨frame, -, orphaned, stands⟩ := b.endSession_spec c cause
  have claims := (State.endClaims_of_holder (.ctl c) cause s s ⟨rfl, rfl, rfl⟩ fun _ => rfl).1
  have claim : ∀ j, u.claim j = (s.endSession c cause).claim j := fun j => by rw [hu]; rfl
  have orphan : u.orphan = (s.endSession c cause).orphan := by rw [hu]
  have array : u.array = (s.endSession c cause).array := by rw [hu]
  refine ⟨fun j => ?_, ?_, ?_, ?_, ?_, fun k => by rw [buffer]; rfl, others⟩
  · rw [claim, State.endSession_claim]
    exact claims j
  · rw [hu, frame]
  · rw [← State.withdrawnLog_eq, hu, frame]
  · rw [orphan, array]
    exact orphaned
  · rw [orphan, array]
    exact stands

/-- The three counts, byte by byte (R141). -/
theorem State.sessionCounts_body (c : Ctl) : (s.sessionCounts c).body = s.endedCounts c := by
  have claims : s.claimCount (fun k => k.holder = .ctl c) =
      ((List.finRange 24).filter fun j => (s.claim j).any fun k => k.holder = .ctl c).length := by
    rw [State.claimCount, State.claims_toList, List.filter_map, List.length_map]
    rfl
  have active : ∀ q : QueueRequest, q.state.isActive = decide (q.state = .active) := fun q => by
    rw [Bool.eq_iff_iff, RequestState.isActive_iff, decide_eq_true_eq]
  simp only [SessionCounts.body, State.sessionCounts, State.endedCounts, byteOf, claims, active, ne_eq, decide_not]
  split <;> rfl

/-! ### SIGN ON and SIGN OFF (R141 to R145) -/

/-- A session ended, with the record and the buffer of its number set, an occasion. -/
theorem State.QueueBounded.sessionEnds_set (b : s.QueueBounded) (c : Ctl) (cause : Cause) (tag : Option Byte)
    {v u : State} (hv : v = { s.endSession c cause with events := v.events, eventCounter := v.eventCounter })
    (hu : u = { v with sessions := s.sessions.set c.val tag c.isLt, buffers := s.buffers.set c.val [] c.isLt,
                       occasion := true }) :
    s.SessionEnds u c ∧ u.session c = tag ∧ u.events = v.events ∧
    u = { s with claims := u.claims, queue := u.queue, log := u.log, orphan := u.orphan, array := u.array,
                 sessions := u.sessions, buffers := u.buffers, events := u.events,
                 eventCounter := u.eventCounter, occasion := true } := by
  have session : ∀ d, u.session d = if d = c then tag else s.session d := fun d => by
    rw [hu]; exact State.setSession_session s c tag d
  have buffer : ∀ d, u.buffer d = if d = c then [] else s.buffer d := fun d => by
    rw [hu]; exact State.setBuffer_buffer s c [] d
  refine ⟨b.sessionEnds c cause (by rw [hu, hv]) (by rw [buffer, if_pos rfl]) fun d hd =>
    ⟨by rw [buffer, if_neg hd], by rw [session, if_neg hd]⟩, by rw [session, if_pos rfl], by rw [hu], ?_⟩
  rw [hu, hv, (b.endSession_spec c cause).1]

theorem State.takeover_ends (b : s.QueueBounded) (c : Ctl) (tag : Byte) :
    let u := s.takeover c tag
    s.SessionEnds u c ∧ u.session c = some tag ∧
    u.events = ((s.endSession c .takeover).post (sessionEnded c)).events ∧
    u = { s with claims := u.claims, queue := u.queue, log := u.log, orphan := u.orphan, array := u.array,
                 sessions := u.sessions, buffers := u.buffers, events := u.events,
                 eventCounter := u.eventCounter, occasion := true } := by
  have frame := State.post_frame (s.endSession c .takeover) (sessionEnded c)
  have sessions : ((s.endSession c .takeover).post (sessionEnded c)).sessions = s.sessions := by
    rw [State.post_sessions, (b.endSession_spec c .takeover).1]
  have buffers : ((s.endSession c .takeover).post (sessionEnded c)).buffers = s.buffers := by
    rw [State.post_buffers, (b.endSession_spec c .takeover).1]
  unfold State.takeover
  generalize (s.endSession c .takeover).post (sessionEnded c) = v at frame sessions buffers ⊢
  exact b.sessionEnds_set c .takeover (some tag) frame (by rw [← sessions, ← buffers]; rfl)

theorem State.signOff_ends (b : s.QueueBounded) (c : Ctl) :
    let u := s.signOff c
    s.SessionEnds u c ∧ u.session c = none ∧ u.events = (s.endSession c .signOff).events ∧
    u = { s with claims := u.claims, queue := u.queue, log := u.log, orphan := u.orphan, array := u.array,
                 sessions := u.sessions, buffers := u.buffers, events := u.events,
                 eventCounter := u.eventCounter, occasion := true } := by
  have sessions : (s.endSession c .signOff).sessions = s.sessions := by rw [(b.endSession_spec c .signOff).1]
  have buffers : (s.endSession c .signOff).buffers = s.buffers := by rw [(b.endSession_spec c .signOff).1]
  obtain ⟨v, hv⟩ : ∃ v, s.endSession c .signOff = v := ⟨_, rfl⟩
  unfold State.signOff
  rw [hv] at sessions buffers ⊢
  exact b.sessionEnds_set c .signOff none (v := v) (by rw [hv]) (by rw [← sessions, ← buffers]; rfl)

theorem exec_signOn {c : Ctl} {tag flag : Byte} (h : s.executes (.signOn c tag flag) = true) {r : Reply}
    (hr : signOnCommand c tag flag s = r) :
    exec (.signOn c tag flag) s = .next (r.state.answered r.status r.body).arbitrate := by
  show s.runOccasion (.signOn c tag flag) (signOnCommand c tag flag) = _
  simp only [State.runOccasion, h, if_true, hr, ← Reply.finish_eq]

theorem signOnCommand_refused {c : Ctl} {tag flag : Byte} (h : tag = 0 ∨ 1 < flag.toNat) :
    signOnCommand c tag flag s = refuse s .badParameter := by
  unfold signOnCommand
  split
  · rfl
  · rename_i ht
    rw [flagOf_none (h.resolve_left ht)]

/-- SIGN ON of a number without a session (R142). -/
theorem signOnCommand_new {c : Ctl} {tag flag : Byte} (ht : tag ≠ 0) (hf : flag.toNat ≤ 1) (hs : s.session c = none) :
    signOnCommand c tag flag s = answer ((s.setSession c (some tag)).setBuffer c []).raise [0, 0, 0] := by
  unfold signOnCommand
  rcases flag_cases hf with rfl | rfl <;> simp only [ht, if_false, hs] <;> rfl

/-- SIGN ON of a number in session, without and with takeover (R142, R143). -/
theorem signOnCommand_held {c : Ctl} {tag held : Byte} (ht : tag ≠ 0) (hs : s.session c = some held) :
    signOnCommand c tag 0 s = refuse s .sessionHeld ∧
    signOnCommand c tag 1 s = answer (s.takeover c tag) (s.sessionCounts c).body := by
  unfold signOnCommand
  simp only [ht, if_false, hs]
  exact ⟨rfl, rfl⟩

/-- Settles O43: by the parameters, the record of the number and the takeover flag. -/
theorem signOn : Obligations.SignOn := by
  intro s c tag flag i h
  refine ⟨fun bad => exec_signOn h (signOnCommand_refused bad), fun ht hf hs => ?_, fun ht hf hs => ?_,
    fun ht hf hs b => ?_⟩
  · refine ⟨((s.setSession c (some tag)).setBuffer c []).raise, exec_signOn h (signOnCommand_new ht hf hs), rfl,
      by simp, fun k => ?_, fun d hd => by simp [hd]⟩
    rw [State.raise_buffer, State.setBuffer_buffer, if_pos rfl]
    rfl
  · obtain ⟨held, hs⟩ := Option.ne_none_iff_exists'.mp hs
    subst hf
    exact exec_signOn h (signOnCommand_held ht hs).1
  · obtain ⟨held, hs⟩ := Option.ne_none_iff_exists'.mp hs
    subst hf
    obtain ⟨ends, session, events, frame⟩ := State.takeover_ends b c tag
    refine ⟨s.takeover c tag, ?_, ends, session, ?_, frame⟩
    · have run := exec_signOn h (signOnCommand_held ht hs).2
      rw [← State.sessionCounts_body]
      exact run
    · have alike := (b.endSession_spec c .takeover).2.1
      rw [events]
      exact (State.post_congr _ _ (sessionEnded c) alike).1

/-- Settles O44: the end of the session, its record ABSENT. -/
theorem signOff : Obligations.SignOff := by
  intro s c tag h hs b
  obtain ⟨ends, session, events, frame⟩ := State.signOff_ends b c
  refine ⟨s.signOff c, ?_, ends, session, ?_, frame⟩
  · rw [← State.sessionCounts_body]
    exact State.runOccasion_inSession s _ c tag _ h hs
  · rw [events]
    exact (b.endSession_spec c .signOff).2.1.1

end Sys2Proof.Machine

namespace Sys2Proof.Machine

set_option Elab.async false

/-! ### A lane's slot and its staging tag (R41, R67, R98) -/

/-- The slot holds a request exactly while staging is PENDING. -/
def Lane.Paired (l : Lane) : Prop := l.slot.isSome = l.tag.isPending

/-- A lane in one of the states in which it may hold or await a line. -/
def Lane.Works (l : Lane) : Prop := l.state ≠ .off ∧ l.state ≠ .idle ∧ l.state ≠ .halted

/-- No request placed and staging EMPTY. -/
def Lane.Free (l : Lane) : Prop := l.slot = none ∧ l.tag = .empty

theorem Lane.Free.paired {l : Lane} (h : l.Free) : l.Paired := by
  unfold Lane.Paired
  rw [h.1, h.2]
  rfl

theorem Lane.Free.matches {l : Lane} (h : l.Free) : l.SlotMatchesTag := ⟨h.paired, fun _ => h.2⟩

theorem Lane.Paired.matches {l : Lane} (h : l.Paired) (w : l.Works) : l.SlotMatchesTag :=
  ⟨h, fun r => (r.elim w.1 fun r => r.elim w.2.1 w.2.2).elim⟩

theorem Lane.Paired.slot_none {l : Lane} (h : l.Paired) (hp : l.tag.isPending = false) : l.slot = none :=
  Option.not_isSome_iff_eq_none.mp (by rw [h, hp]; exact nofun)

theorem Lane.Paired.slot_none_of_full {l : Lane} (h : l.Paired) {r : LineRef} {g : Option Half}
    (ht : l.tag = .full r g) : l.slot = none := h.slot_none (by rw [ht]; rfl)

theorem Lane.Paired.free {l : Lane} (h : l.Paired) (ht : l.tag = .empty) : l.Free :=
  ⟨h.slot_none (by rw [ht]; rfl), ht⟩

theorem Lane.paired_of_none {l : Lane} (hs : l.slot = none) (hp : l.tag.isPending = false) : l.Paired := by
  unfold Lane.Paired
  rw [hs, hp]
  rfl

theorem Lane.SlotMatchesTag.paired {l : Lane} (h : l.SlotMatchesTag) : l.Paired := h.pending

/-- A lane that is OFF, IDLE or HALTED is free. -/
theorem Lane.SlotMatchesTag.free {l : Lane} (h : l.SlotMatchesTag)
    (r : l.state = .off ∨ l.state = .idle ∨ l.state = .halted) : l.Free := h.paired.free (h.resting r)

/-- A lane with a request in its slot is in none of the states OFF, IDLE and HALTED. -/
theorem Lane.SlotMatchesTag.works {l : Lane} (h : l.SlotMatchesTag) {q : SlotRequest} (hq : l.slot = some q) :
    l.Works := by
  have occupied : ¬ l.Free := fun f => by rw [f.1] at hq; cases hq
  exact ⟨fun e => occupied (h.free (.inl e)), fun e => occupied (h.free (.inr (.inl e))),
    fun e => occupied (h.free (.inr (.inr e)))⟩

/-- A lane in which nothing is staged and nothing held is free when slot and tag agree. -/
theorem Lane.Paired.free_of_nothingToStore {l : Lane} (h : l.Paired) (hn : l.nothingToStore = true) : l.Free := by
  simp only [Lane.nothingToStore, Bool.and_eq_true, decide_eq_true_eq] at hn
  exact h.free hn.1

/-! ### What the moves of a list leave of slot and tag -/

/-- The slot stands, and the staging tag but for the number of its entry (R106). -/
structure Lane.SlotStands (l k : Lane) : Prop where
  slot : k.slot = l.slot
  tag : ∃ j, k.tag = l.tag.fallen j

theorem Lane.SlotStands.paired {l k : Lane} (h : l.SlotStands k) (p : l.Paired) : k.Paired := by
  obtain ⟨j, tag⟩ := h.tag
  have pending : (l.tag.fallen j).isPending = l.tag.isPending := by cases l.tag <;> rfl
  unfold Lane.Paired
  rw [h.slot, tag, pending]
  exact p

theorem Lane.SlotStands.free {l k : Lane} (h : l.SlotStands k) (f : l.Free) : k.Free := by
  obtain ⟨j, tag⟩ := h.tag
  exact ⟨h.slot.trans f.1, by rw [tag, f.2]; rfl⟩

theorem Lane.SlotStands.of_eq {l k : Lane} (slot : k.slot = l.slot) (tag : k.tag = l.tag) : l.SlotStands k :=
  ⟨slot, 0, by rw [tag]; cases l.tag <;> rfl⟩

theorem Lane.SlotStands.matches {l k : Lane} (h : l.SlotStands k) (p : l.Paired) (w : k.Works) : k.SlotMatchesTag :=
  (h.paired p).matches w

theorem Lane.moveShow_slot (p : Position) (b : Bool) (l : Lane) : l.SlotStands (l.moveShow p b) := by
  rw [Lane.moveShow_listAfter]
  exact ⟨rfl, _, rfl⟩

theorem Lane.makeCurrent_slot (r : LineRef) (l : Lane) : l.SlotStands (l.makeCurrent r) := by
  rw [Lane.makeCurrent_listAfter]
  exact ⟨rfl, _, rfl⟩

theorem Lane.enterIdle_slot (l : Lane) : l.SlotStands l.enterIdle := by
  rw [Lane.enterIdle_eq]
  exact ⟨rfl, _, rfl⟩

theorem Lane.passOver_slot (r : Option LineRef) (l : Lane) : l.SlotStands (l.passOver r) := by
  unfold Lane.passOver
  split
  · split
    · exact Lane.moveShow_slot _ _ _
    · exact .of_eq rfl rfl
  · exact .of_eq rfl rfl

theorem Lane.startList_slot (l : Lane) : l.SlotStands l.startList := by
  unfold Lane.startList
  dsimp only
  split
  · exact ⟨rfl, _, (Staging.fallen_eq _ _).symm⟩
  · exact .of_eq rfl rfl

theorem Lane.beginStart_free (mode : StartMode) {l : Lane} (h : l.slot = none) : (l.beginStart mode).Free :=
  (Lane.startList_slot _).free ⟨h, rfl⟩

theorem Lane.moveShow_state (p : Position) (b : Bool) (l : Lane) : (l.moveShow p b).state = l.state := by
  rw [Lane.moveShow_listAfter]

theorem Lane.passOver_state (r : Option LineRef) (l : Lane) : (l.passOver r).state = l.state := by
  unfold Lane.passOver
  split
  · split
    · exact Lane.moveShow_state _ _ _
    · rfl
  · rfl

theorem Lane.swapIn_slot (l : Lane) : l.swapIn.slot = l.slot := by
  unfold Lane.swapIn
  split
  · exact (Lane.makeCurrent_slot _ _).slot
  · rfl

theorem Lane.swapIn_state (l : Lane) : l.swapIn.state = l.state := by
  unfold Lane.swapIn
  split
  · rw [Lane.makeCurrent_listAfter]
  · rfl

/-! ### What an event at a lane leaves of its slot and tag -/

variable (s : State) (n : LaneId)

theorem State.modLane_self (f : Lane → Lane) : (s.modLane n f).lane n = f (s.lane n) := by
  rw [State.modLane_lane, if_pos rfl]

theorem State.setLane_lane_self (l : Lane) : (s.setLane n l).lane n = l := by
  rw [State.setLane_lane, if_pos rfl]

/-- A lane without a request asks for the next line: a line with a row is PENDING with its LOAD in the slot (R76). -/
theorem State.requestNext_paired (h : (s.lane n).slot = none) :
    ((s.requestNext n).lane n).Paired ∧ ((s.requestNext n).lane n).state = (s.lane n).state := by
  unfold State.requestNext
  dsimp only
  split
  · rw [State.setLane_lane_self]
    exact ⟨Lane.paired_of_none h rfl, rfl⟩
  · split
    · rw [State.raise_lane, State.setLane_lane_self]
      exact ⟨rfl, rfl⟩
    · rw [State.setLane_lane_self]
      exact ⟨Lane.paired_of_none h rfl, rfl⟩

theorem State.requestNext_works (h : (s.lane n).slot = none) (w : (s.lane n).Works) :
    ((s.requestNext n).lane n).Works := by
  unfold Lane.Works
  rw [(State.requestNext_paired s n h).2]
  exact w

theorem State.laneDone_matches (h : (s.lane n).Free) : ((s.laneDone n).lane n).SlotMatchesTag := by
  unfold State.laneDone
  rw [State.modLane_self, State.lanePost_lane]
  exact ((Lane.enterIdle_slot _).free h).matches

theorem State.immediateStop_matches : ((s.immediateStop n).lane n).SlotMatchesTag := by
  rw [State.immediateStop_eq]
  have stopped : State.lane { s.setLane n (s.lane n).stopped with array := s.givenUp n } n = (s.lane n).stopped :=
    State.setLane_lane_self s n _
  rw [stopped]
  exact Lane.Free.matches ⟨rfl, rfl⟩

/-- A lane in a given state that works, its slot and tag in agreement. -/
theorem Lane.Paired.running {l : Lane} (h : l.Paired) (hs : l.state = .running) : l.SlotMatchesTag :=
  h.matches (by unfold Lane.Works; rw [hs]; exact ⟨nofun, nofun, nofun⟩)

theorem State.showStaged_matches (h : (s.lane n).slot = none) : ((s.showStaged n).lane n).SlotMatchesTag := by
  unfold State.showStaged
  obtain ⟨paired, state⟩ := State.requestNext_paired (s.modLane n fun l => { l.swapIn with state := .running }) n
    (by rw [State.modLane_self]; exact (Lane.swapIn_slot _).trans h)
  exact paired.running (state.trans (by rw [State.modLane_self]))

theorem State.starve_matches (h : (s.lane n).Paired) : ((s.modLane n Lane.starve).lane n).SlotMatchesTag := by
  rw [State.modLane_self]
  exact (Lane.SlotStands.of_eq rfl rfl).matches h ⟨nofun, nofun, nofun⟩

/-- The cases of Table 4-4 after the pause case (R78). -/
theorem State.continueOut_matches (h : (s.lane n).Paired) : ((s.continueOut n).lane n).SlotMatchesTag := by
  unfold State.continueOut
  split
  · exact State.showStaged_matches s n (h.slot_none_of_full ‹_›)
  · exact State.starve_matches s n h
  · have paired := (State.requestNext_paired s n (h.free ‹_›).1).1
    dsimp only
    split
    · exact State.showStaged_matches _ n (paired.slot_none_of_full ‹_›)
    · exact State.starve_matches _ n paired
    · exact State.laneDone_matches _ n (paired.free ‹_›)

theorem State.pause_matches (i : Nat) (h : (s.lane n).Paired) : ((s.pause n i).lane n).SlotMatchesTag := by
  unfold State.pause
  rw [State.modLane_self, State.lanePost_lane]
  exact (Lane.SlotStands.of_eq rfl rfl).matches h ⟨nofun, nofun, nofun⟩

/-- A lane whose finished line is counted (R78, R81). -/
theorem State.countLine_paired (h : (s.lane n).Paired) :
    ((s.setLane n ({ s.lane n with lines := (s.lane n).lines + 1 }).completeLine).lane n).Paired := by
  rw [State.setLane_lane_self]
  exact (Lane.moveShow_slot _ _ { s.lane n with lines := (s.lane n).lines + 1 }).paired h

theorem State.outBoundary_matches (h : (s.lane n).Paired) : ((s.outBoundary n).lane n).SlotMatchesTag := by
  unfold State.outBoundary
  dsimp only
  split
  · exact State.immediateStop_matches _ n
  · split
    · exact State.pause_matches _ n _ (State.countLine_paired s n h)
    · exact State.continueOut_matches _ n (State.countLine_paired s n h)

theorem State.endStarved_matches (h : (s.lane n).slot = none) : ((s.endStarved n).lane n).SlotMatchesTag := by
  obtain ⟨u, hu⟩ : ∃ u, (s.modLane n fun l => { l.swapIn with state := .running }).lanePost n .lineStarved
    ((s.lane n).tag.line.bind LineRef.row) (some (s.lane n).episode) none = u := ⟨_, rfl⟩
  have lane : u.lane n = { (s.lane n).swapIn with state := .running } := by
    rw [← hu, State.lanePost_lane, State.modLane_self]
  obtain ⟨paired, state⟩ := State.requestNext_paired u n (by rw [lane]; exact (Lane.swapIn_slot _).trans h)
  unfold State.endStarved
  dsimp only
  rw [hu]
  exact paired.running (state.trans (by rw [lane]))

theorem State.endPriming_matches (h : (s.lane n).slot = none) : ((s.endPriming n).lane n).SlotMatchesTag := by
  unfold State.endPriming
  have paired := (State.requestNext_paired (s.modLane n Lane.swapIn) n
    (by rw [State.modLane_self]; exact (Lane.swapIn_slot _).trans h)).1
  rw [State.modLane_self]
  refine (Lane.SlotStands.of_eq rfl rfl).matches paired ?_
  unfold Lane.Works
  dsimp only
  split <;> exact ⟨nofun, nofun, nofun⟩

/-- Staging has become FULL, the request being done (R77, R79, R87). -/
theorem State.staged_matches (h : (s.lane n).SlotMatchesTag) (hs : (s.lane n).slot = none) :
    ((s.staged n).lane n).SlotMatchesTag := by
  unfold State.staged
  split
  · exact State.endPriming_matches s n hs
  · exact State.endStarved_matches s n hs
  · exact h

theorem State.afterSkip_matches (hs : (s.lane n).slot = none) (w : (s.lane n).Works) :
    ((s.afterSkip n).lane n).SlotMatchesTag := by
  have paired := (State.requestNext_paired s n hs).1
  have asked := paired.matches (State.requestNext_works s n hs w)
  unfold State.afterSkip
  dsimp only
  split
  · exact State.staged_matches _ n asked (paired.slot_none_of_full ‹_›)
  · exact State.laneDone_matches _ n (paired.free ‹_›)
  · exact State.laneDone_matches _ n (paired.free ‹_›)
  · exact asked

/-- The disposal of a finished line places a STORE exactly when the line becomes PENDING (R81 step 2). -/
theorem State.dispose_paired (h : (s.lane n).Paired) :
    ((s.dispose n).lane n).Paired ∧ ((s.dispose n).lane n).state = (s.lane n).state := by
  unfold State.dispose
  dsimp only
  split
  · exact ⟨h, rfl⟩
  · split
    · rw [State.setLane_lane_self]
      exact ⟨h, rfl⟩
    · rw [State.raise_lane, State.setLane_lane_self]
      exact ⟨rfl, rfl⟩
    · rw [State.setLane_lane_self]
      exact ⟨h, rfl⟩

theorem State.disposeHeld_paired (h : (s.lane n).Paired) :
    ((s.disposeHeld n).lane n).Paired ∧ ((s.disposeHeld n).lane n).state = (s.lane n).state := by
  unfold State.disposeHeld
  split
  · exact State.dispose_paired s n h
  · exact ⟨h, rfl⟩

theorem State.drainFor_matches (c : DrainCause) (h : (s.lane n).Paired) :
    ((s.modLane n (Lane.drainFor c)).lane n).SlotMatchesTag := by
  rw [State.modLane_self]
  exact (Lane.SlotStands.of_eq rfl rfl).matches h ⟨nofun, nofun, nofun⟩

theorem State.enterIdle_matches (h : (s.lane n).Free) : ((s.modLane n Lane.enterIdle).lane n).SlotMatchesTag := by
  rw [State.modLane_self]
  exact ((Lane.enterIdle_slot _).free h).matches

/-- The cases of Table 4-5 after the pause case (R81). -/
theorem State.continueIn_matches (h : (s.lane n).Paired) : ((s.continueIn n).lane n).SlotMatchesTag := by
  unfold State.continueIn
  dsimp only
  split
  · split
    · exact State.laneDone_matches s n (h.free_of_nothingToStore ‹_›)
    · exact State.drainFor_matches s n _ h
  · split
    · rw [State.setLane_lane_self]
      exact (Lane.SlotStands.of_eq rfl rfl).matches h ⟨nofun, nofun, nofun⟩
    · rw [State.setLane_lane_self]
      have current := (Lane.makeCurrent_slot ‹LineRef› (s.lane n).advanceFetch).paired h
      exact (Lane.SlotStands.of_eq rfl rfl).matches current ⟨nofun, nofun, nofun⟩

theorem State.inBoundary_matches (h : (s.lane n).Paired) : ((s.inBoundary n).lane n).SlotMatchesTag := by
  have paired := (State.dispose_paired _ n (State.countLine_paired s n h)).1
  unfold State.inBoundary
  dsimp only
  split
  · split
    · exact State.enterIdle_matches _ n (paired.free_of_nothingToStore ‹_›)
    · exact State.drainFor_matches _ n _ paired
  · split
    · exact State.pause_matches _ n _ paired
    · exact State.continueIn_matches _ n paired

theorem State.endDrain_matches (h : (s.lane n).SlotMatchesTag) : ((s.endDrain n).lane n).SlotMatchesTag := by
  unfold State.endDrain
  split
  · have free := h.paired.free_of_nothingToStore ‹_›
    split
    · exact State.laneDone_matches s n free
    · exact State.enterIdle_matches s n free
  · exact h

theorem State.endBlocked_matches (row : RowId) (h : (s.lane n).Paired) :
    ((s.endBlocked n row).lane n).SlotMatchesTag := by
  have paired := (State.disposeHeld_paired s n h).1
  unfold State.endBlocked
  rw [State.lanePost_lane, State.modLane_self]
  generalize (s.disposeHeld n).lane n = l at paired ⊢
  have shown : (l.follow.elim l fun r => l.makeCurrent r).Paired := by
    cases l.follow with
    | none => exact paired
    | some r => exact (Lane.makeCurrent_slot r l).paired paired
  exact (Lane.SlotStands.of_eq rfl rfl).matches shown ⟨nofun, nofun, nofun⟩

/-- The staging register of an IN lane is free again (R82, R94). -/
theorem State.freeStaging_matches (row : RowId) (h : (s.lane n).slot = none) :
    ((s.freeStaging n row).lane n).SlotMatchesTag := by
  obtain ⟨u, hu⟩ : ∃ u, s.modLane n (fun l => { l with tag := .empty }) = u := ⟨_, rfl⟩
  have lane : u.lane n = { s.lane n with tag := .empty } := by rw [← hu, State.modLane_self]
  have free : (u.lane n).Free := by rw [lane]; exact ⟨h, rfl⟩
  have held := State.disposeHeld_paired u n free.paired
  have stands : ∀ q : LaneState, (s.lane n).state = q → ((u.disposeHeld n).lane n).state = q := fun q hq => by
    rw [held.2, lane]
    exact hq
  unfold State.freeStaging
  dsimp only
  rw [hu]
  split
  · exact State.endBlocked_matches u n row free.paired
  · exact State.endDrain_matches _ n
      (held.1.matches (by unfold Lane.Works; rw [stands _ ‹_›]; exact ⟨nofun, nofun, nofun⟩))
  · exact held.1.matches (by unfold Lane.Works; rw [stands _ ‹_›]; exact ⟨nofun, nofun, nofun⟩)
  · exact free.matches

/-- A refused lane that works, its slot emptied, under SKIP (R93, R94). -/
theorem State.skipLane_matches (row : RowId) (hs : (s.lane n).slot = none) (w : (s.lane n).Works) :
    ((s.skipLane n row).lane n).SlotMatchesTag := by
  obtain ⟨u, hu⟩ : ∃ u, (s.modLane n fun l => { l with tag := .empty }).lanePost n .entrySkipped (some row) none none
    = u := ⟨_, rfl⟩
  have lane : u.lane n = { s.lane n with tag := .empty } := by rw [← hu, State.lanePost_lane, State.modLane_self]
  unfold State.skipLane
  dsimp only
  rw [hu]
  split
  · refine State.afterSkip_matches _ n ?_ ?_
    · rw [State.modLane_self, (Lane.passOver_slot _ _).slot, lane]
      exact hs
    · unfold Lane.Works
      rw [State.modLane_self, Lane.passOver_state, lane]
      exact w
  · exact State.freeStaging_matches u n row (by rw [lane]; exact hs)

/-- The refusal of a slot request (R46, section 4.12). -/
theorem State.refuseSlot_matches (h : (s.lane n).SlotMatchesTag) : ((s.refuseSlot n).lane n).SlotMatchesTag := by
  unfold State.refuseSlot
  split
  · exact h
  · rename_i q hq
    have lane := State.modLane_self s n fun l => { l with slot := none }
    dsimp only
    split
    · unfold State.haltLane
      rw [State.lanePost_lane, State.modLane_self, lane]
      exact Lane.Free.matches ⟨rfl, rfl⟩
    · refine State.skipLane_matches _ n _ (by rw [lane]) ?_
      rw [lane]
      exact h.works hq

/-- A LOAD report (R77). -/
theorem State.loadReport_matches (g : Half) (h : (s.lane n).SlotMatchesTag) :
    ((s.loadReport n g).lane n).SlotMatchesTag := by
  unfold State.loadReport
  refine State.staged_matches _ n ?_ (by rw [State.modLane_self])
  rw [State.modLane_self]
  cases ht : (s.lane n).tag with
  | empty => exact Lane.Free.matches ⟨rfl, rfl⟩
  | pending r =>
    have works : (s.lane n).Works := by
      obtain ⟨q, hq⟩ := Option.isSome_iff_exists.mp (h.pending.trans (by rw [ht]; rfl))
      exact h.works hq
    exact Lane.Paired.matches (Lane.paired_of_none rfl rfl) works
  | full r k =>
    refine ⟨rfl, fun rest => ?_⟩
    have := h.resting rest
    rw [ht] at this
    cases this

/-- A STORE report (R82). -/
theorem State.storeReport_matches (row : RowId) : ((s.storeReport n row).lane n).SlotMatchesTag :=
  State.freeStaging_matches _ n row (by rw [State.modLane_self])

/-- A start from IDLE (R86). -/
theorem State.startLane_matches (mode : StartMode) (h : (s.lane n).slot = none) :
    ((s.startLane n mode).lane n).SlotMatchesTag := by
  have begun := Lane.beginStart_free mode h
  unfold State.startLane
  dsimp only
  split
  · obtain ⟨u, hu⟩ : ∃ u, (s.modLane n (Lane.beginStart mode)).modLane n (fun l => { l with state := .priming }) = u :=
      ⟨_, rfl⟩
    have lane : u.lane n = { (s.lane n).beginStart mode with state := .priming } := by
      rw [← hu, State.modLane_self, State.modLane_self]
    have slot : (u.lane n).slot = none := by rw [lane]; exact begun.1
    have paired := (State.requestNext_paired u n slot).1
    have asked := paired.matches (State.requestNext_works u n slot (by rw [lane]; exact ⟨nofun, nofun, nofun⟩))
    rw [hu]
    split
    · exact State.staged_matches _ n asked (paired.slot_none_of_full ‹_›)
    · exact asked
  · rw [State.modLane_self, State.modLane_self]
    generalize (s.lane n).beginStart mode = l at begun
    have shown : (l.nextLine.elim l fun r => l.advanceFetch.makeCurrent r).Free := by
      cases l.nextLine with
      | none => exact begun
      | some r => exact (Lane.makeCurrent_slot r _).free begun
    exact Lane.Free.matches ⟨shown.1, shown.2⟩

/-- GROUP START and LANE START NOW at an ARMED lane (R86, R88). -/
theorem State.release_matches (h : (s.lane n).SlotMatchesTag) :
    ((s.modLane n Lane.release).lane n).SlotMatchesTag := by
  rw [State.modLane_self]
  unfold Lane.release
  split
  · exact (Lane.SlotStands.of_eq rfl rfl).matches h.paired ⟨nofun, nofun, nofun⟩
  · exact h

/-- LANE STOP BOUNDARY (R89). -/
theorem State.stopAtBoundary_matches (h : (s.lane n).SlotMatchesTag) :
    ((s.stopAtBoundary n).lane n).SlotMatchesTag := by
  have drains : ((s.lane n).drainFor .stop).SlotMatchesTag :=
    (Lane.SlotStands.of_eq rfl rfl).matches h.paired ⟨nofun, nofun, nofun⟩
  unfold State.stopAtBoundary
  dsimp only
  split
  · exact h
  · exact h
  · exact h
  · rw [State.setLane_lane_self]
    exact ⟨h.pending, h.resting⟩
  · rw [State.setLane_lane_self]
    exact drains
  · rw [State.setLane_lane_self]
    split
    · exact ((Lane.enterIdle_slot _).free (h.paired.free_of_nothingToStore ‹_›)).matches
    · exact drains
  · exact State.immediateStop_matches s n

theorem State.haltIfStreaming_matches (h : (s.lane n).SlotMatchesTag) :
    ((s.haltIfStreaming n).lane n).SlotMatchesTag := by
  unfold State.haltIfStreaming
  split
  · exact h
  · exact State.immediateStop_matches s n

end Sys2Proof.Machine

namespace Sys2Proof.Machine

set_option Elab.async false

/-! ### What keeps slots and tags in agreement, said once -/

/-- Every lane whose slot and staging tag agree before has them agree after. -/
def SlotsKept (s t : State) : Prop := ∀ n, (s.lane n).SlotMatchesTag → (t.lane n).SlotMatchesTag

namespace SlotsKept

variable {s t u : State}

theorem refl (s : State) : SlotsKept s s := fun _ => id

theorem trans (a : SlotsKept s t) (b : SlotsKept t u) : SlotsKept s u := fun n => b n ∘ a n

theorem foldl {α : Type} {f : State → α → State} (h : ∀ s x, SlotsKept s (f s x)) (xs : List α) (s : State) :
    SlotsKept s (xs.foldl f s) := by
  induction xs generalizing s with
  | nil => exact refl s
  | cons x xs ih => exact (h s x).trans (ih _)

/-- No lane changes. -/
theorem of_lanes (h : t.lanes = s.lanes) : SlotsKept s t := fun n => by
  unfold State.lane
  rw [h]
  exact id

/-- Events at lane n alone, which keep that lane's slot and tag in agreement. -/
theorem of_acts {n : LaneId} (h : LaneActs n s t)
    (k : (s.lane n).SlotMatchesTag → (t.lane n).SlotMatchesTag) : SlotsKept s t := fun m => by
  by_cases e : m = n
  · rw [e]; exact k
  · rw [h.other e]; exact id

/-- One lane changed. -/
theorem setLane (s : State) (n : LaneId) (l : Lane) (k : (s.lane n).SlotMatchesTag → l.SlotMatchesTag) :
    SlotsKept s (s.setLane n l) := fun m => by
  rw [State.setLane_lane]
  split
  · rename_i e; rw [e]; exact k
  · exact id

/-- Every lane is left free. -/
theorem of_free (h : ∀ n, (t.lane n).Free) : SlotsKept s t := fun n _ => (h n).matches

end SlotsKept

/-- A lane whose slot, tag and state stand, whatever the state of its request. -/
theorem Lane.SlotMatchesTag.of_requested {l k : Lane} (h : l.SlotMatchesTag) (slot : k.slot.isSome = l.slot.isSome)
    (tag : k.tag = l.tag) (state : k.state = l.state) : k.SlotMatchesTag :=
  ⟨by rw [slot, tag]; exact h.pending, by rw [tag, state]; exact h.resting⟩

variable (s : State)

/-! ### The arbiter -/

theorem slotsKept_refuseSlot (n : LaneId) : SlotsKept s (s.refuseSlot n) :=
  .of_acts (acts_refuseSlot s n) (State.refuseSlot_matches s n)

theorem slotsKept_refuseAll (qs : List QueueRequest) (ns : List LaneId) : SlotsKept s (s.refuseAll qs ns) := by
  have requests : SlotsKept s (qs.foldl State.refuseRequest s) := .of_lanes (by rw [State.refuseRequests_frame])
  exact requests.trans (SlotsKept.foldl slotsKept_refuseSlot ns _)

theorem slotsKept_markTested : SlotsKept s s.markTested := fun n h => by
  rw [State.markTested_lane]
  exact h.of_requested (Option.isSome_map ..) rfl rfl

theorem slotsKept_tickBlocked : SlotsKept s s.tickBlocked := fun n h => by
  rw [State.tickBlocked_lane]
  exact h.of_requested (Option.isSome_map ..) rfl rfl

theorem slotsKept_start (c : Choice) : SlotsKept s (s.start c) := by
  cases c with
  | refresh => exact .of_lanes rfl
  | request q => exact .of_lanes rfl
  | nothing => exact .refl s
  | slot n =>
    show SlotsKept s (s.startSlot n)
    unfold State.startSlot
    split
    · exact .refl s
    · rename_i q hq
      have active : SlotsKept s (s.modLane n fun l => { l with slot := some { q with state := .active } }) :=
        .setLane s n _ fun h => h.of_requested (by rw [hq]; rfl) rfl rfl
      exact active.trans (.of_lanes rfl)

/-- One selection (R57 to R61). -/
theorem slotsKept_select : SlotsKept s s.select :=
  ((slotsKept_markTested s).trans (slotsKept_refuseAll _ _ _)).trans
    ((slotsKept_start s.afterRefusals s.choice).trans (.of_lanes rfl))

theorem slotsKept_arbitrateFor (fuel : Nat) (s : State) : SlotsKept s (arbitrateFor fuel s) := by
  induction fuel generalizing s with
  | zero => exact .refl s
  | succ fuel ih =>
    have taken : SlotsKept s { s with occasion := false } := .of_lanes rfl
    unfold arbitrateFor
    split
    · split
      · exact (taken.trans (slotsKept_select _)).trans (ih _)
      · exact taken
    · exact .refl s

theorem slotsKept_arbitrate : SlotsKept s s.arbitrate := slotsKept_arbitrateFor _ s

/-! ### Completions -/

theorem slotsKept_deliver (x : Transfer) : SlotsKept s (s.deliver x) := by
  unfold State.deliver
  split
  · split
    · exact .setLane s _ _ fun h => h.of_requested rfl rfl rfl
    · exact .of_lanes rfl
  · exact .refl s

theorem slotsKept_laneReport (n : LaneId) (x : Transfer) : SlotsKept s (s.laneReport n x) := by
  refine .of_acts (acts_laneReport s n x) fun h => ?_
  unfold State.laneReport
  split
  · exact h
  · split
    · exact State.loadReport_matches s n _ h
    · exact State.storeReport_matches s n _

theorem State.queueReport_lanes (c : Ctl) (k : Half) (x : Transfer) : (s.queueReport c k x).lanes = s.lanes := by
  unfold State.queueReport
  split
  · rfl
  · split
    · rfl
    · split <;> simp

theorem slotsKept_report (x : Transfer) : SlotsKept s (s.report x) := by
  unfold State.report
  split
  · exact slotsKept_laneReport s _ x
  · exact .of_lanes (State.queueReport_lanes s _ _ x)
  · exact .refl s

theorem slotsKept_completeTransfer (x : Transfer) : SlotsKept s (s.completeTransfer x) := by
  have written : SlotsKept s ((s.writeEffects x).credits x) :=
    .of_lanes (by rw [State.credits_frame, State.writeEffects_frame])
  exact ((written.trans (slotsKept_deliver _ x)).trans (slotsKept_report _ x)).trans (.of_lanes rfl)

theorem slotsKept_completeOp (op : OpCode) (t : State) (h : completeOp op s = .next t) : SlotsKept s t := by
  unfold completeOp at h
  split at h
  · split at h
    · cases h
      exact (slotsKept_completeTransfer s _).trans (slotsKept_arbitrate _)
    · cases h
  · cases h

theorem slotsKept_refreshCompletion (t : State) (h : execRefreshCompletion s = .next t) : SlotsKept s t := by
  have completed : SlotsKept s s.completeRefresh := .of_lanes rfl
  unfold execRefreshCompletion at h
  split at h
  · cases h
    exact completed.trans (slotsKept_arbitrate _)
  · cases h

/-! ### Resets, the sweep and the ticks -/

theorem Lane.reset_free (l : Lane) : l.reset.Free := ⟨rfl, rfl⟩

theorem slotsKept_hardReset (t : State) (h : execHardReset s = .next t) : SlotsKept s t := by
  cases h
  refine .of_free fun n => ?_
  have lane : State.lane { State.reset with lanes := s.lanes.map Lane.reset } n = (s.lane n).reset :=
    State.lane_map _ Lane.reset s.lanes rfl n
  exact lane ▸ Lane.reset_free _

theorem slotsKept_resetPart : SlotsKept s s.resetPart := by
  refine .of_free fun n => ?_
  rw [State.lane_map s.resetPart Lane.reset s.cancelAll.lanes rfl n]
  exact Lane.reset_free _

theorem slotsKept_resetnRise (straps : Fin 8) (t : State) (h : execResetnRise straps s = .next t) :
    SlotsKept s t := by
  unfold execResetnRise at h
  split at h <;> cases h
  exact .of_lanes rfl

theorem State.sweepRow_lanes (r : RowId) : (s.sweepRow r).lanes = s.lanes := by rw [State.sweepRow_eq]

theorem State.endSweep_lanes : s.endSweep.lanes = s.lanes := by
  unfold State.endSweep
  rw [State.resetEvents_eq]

theorem slotsKept_sweepOperationCompletion (t : State) (h : execSweepOperationCompletion s = .next t) :
    SlotsKept s t := by
  unfold execSweepOperationCompletion at h
  split at h
  · split at h
    · have swept := State.sweepRow_lanes s ⟨s.swept, ‹_›⟩
      cases h
      split
      · exact .of_lanes ((State.endSweep_lanes _).trans swept)
      · exact .of_lanes swept
    · cases h
  · cases h

theorem slotsKept_refreshTick (t : State) (h : execRefreshTick s = .next t) : SlotsKept s t := by
  unfold execRefreshTick at h
  split at h
  · cases h
  · split at h
    · cases h
      have counted : SlotsKept s { s with
          refreshDebt := min (s.refreshDebt + 1) Config.urgentDebt, occasion := true } := .of_lanes rfl
      exact counted.trans (slotsKept_arbitrate _)
    · cases h
      exact .refl s

theorem slotsKept_millisecondTick (t : State) (h : execMillisecondTick s = .next t) : SlotsKept s t := by
  have counted : SlotsKept s s.countTick := .of_lanes rfl
  unfold execMillisecondTick at h
  split at h
  · cases h
  · split at h <;> cases h
    exact ((counted.trans (slotsKept_tickBlocked _)).trans (slotsKept_refuseAll _ _ _)).trans (slotsKept_arbitrate _)

theorem slotsKept_requestRefusal (who : RefusalTarget) (t : State) (h : execRequestRefusal who s = .next t) :
    SlotsKept s t := by
  cases who with
  | slot n =>
    cases h
    split
    · exact (slotsKept_refuseSlot s n).trans (slotsKept_arbitrate _)
    · exact .refl s
  | ticket k =>
    simp only [execRequestRefusal] at h
    split at h
    · rename_i q _
      have refused : SlotsKept s (s.refuseRequest q) := .of_lanes (by rw [State.refuseRequest_frame])
      cases h
      split
      · exact refused.trans (slotsKept_arbitrate _)
      · exact .refl s
    · cases h
      exact .refl s

theorem State.endClaims_lanes (which : Claim → Bool) (cause : Cause) : (s.endClaims which cause).lanes = s.lanes := by
  obtain ⟨-, frame, -⟩ := State.endClaims_spec which cause s s ⟨rfl, rfl, rfl⟩
  rw [frame]

theorem slotsKept_leaseTick (t : State) (h : execLeaseTick s = .next t) : SlotsKept s t := by
  unfold execLeaseTick at h
  split at h
  · cases h
  · split at h <;> cases h
    rename_i l _
    have expired : SlotsKept s ({ s with leaseTick := l } : State).countLeases.expireClaims :=
      .of_lanes (State.endClaims_lanes _ _ _)
    exact expired.trans (slotsKept_arbitrate _)

/-! ### Lane clock edges and group frames -/

theorem slotsKept_outEdge (n : LaneId) : SlotsKept s (s.outEdge n) := by
  have moved : SlotsKept s (s.modLane n Lane.moveCell) := .setLane s n _ fun h => h.of_requested rfl rfl rfl
  unfold State.outEdge
  dsimp only
  split
  · exact moved.trans (.of_acts (acts_outBoundary _ n) fun h => State.outBoundary_matches _ n h.paired)
  · exact moved

theorem slotsKept_inEdge (n : LaneId) (ld : Byte) : SlotsKept s (s.inEdge n ld) := by
  have moved : SlotsKept s (s.modLane n fun l => { l with active := Memory.write l.active l.pointer.val ld }.moveCell) :=
    .setLane s n _ fun h => h.of_requested rfl rfl rfl
  unfold State.inEdge
  dsimp only
  split
  · exact moved.trans (.of_acts (acts_inBoundary _ n) fun h => State.inBoundary_matches _ n h.paired)
  · exact moved

theorem slotsKept_idleEdge (n : LaneId) : SlotsKept s (s.modLane n Lane.idleEdge) := by
  refine .setLane s n _ fun h => ?_
  unfold Lane.idleEdge
  split
  · exact h.of_requested rfl rfl rfl
  · exact h

theorem slotsKept_outLaneClockEdge (n : LaneId) (t : State) (h : execOutLaneClockEdge n s = .next t) :
    SlotsKept s t := by
  unfold execOutLaneClockEdge at h
  split at h <;> cases h
  · exact (slotsKept_outEdge s n).trans (slotsKept_arbitrate _)
  · exact slotsKept_idleEdge s n

theorem slotsKept_inLaneClockEdge (n : LaneId) (ld : Byte) (t : State) (h : execInLaneClockEdge n ld s = .next t) :
    SlotsKept s t := by
  unfold execInLaneClockEdge at h
  split at h <;> cases h
  · exact (slotsKept_inEdge s n ld).trans (slotsKept_arbitrate _)
  · exact slotsKept_idleEdge s n

theorem slotsKept_laneClockEdgeOutsideRunning (n : LaneId) (t : State)
    (h : execLaneClockEdgeOutsideRunning n s = .next t) : SlotsKept s t := by
  unfold execLaneClockEdgeOutsideRunning at h
  split at h <;> cases h
  exact slotsKept_idleEdge s n

theorem slotsKept_release (n : LaneId) : SlotsKept s (s.modLane n Lane.release) :=
  .of_acts (acts_release s n) (State.release_matches s n)

theorem slotsKept_haltIfStreaming (n : LaneId) : SlotsKept s (s.haltIfStreaming n) :=
  .of_acts (acts_haltIfStreaming s n) (State.haltIfStreaming_matches s n)

theorem slotsKept_groupStart (mask : Byte) : SlotsKept s (s.groupStart mask) := SlotsKept.foldl slotsKept_release _ s

theorem slotsKept_groupHalt (mask : Byte) : SlotsKept s (s.groupHalt mask) :=
  SlotsKept.foldl slotsKept_haltIfStreaming _ s

/-! ### The control port: only a taken group frame changes a lane -/

theorem State.settleByte_lanes (flag : Bool) : (s.settleByte flag).lanes = s.lanes := by
  unfold State.settleByte
  split <;> rfl

theorem State.leaveFrame_lanes : s.leaveFrame.lanes = s.lanes := by
  unfold State.leaveFrame
  split <;> rfl

theorem State.deliverFrame_lanes : s.deliverFrame.lanes = s.lanes := by
  unfold State.deliverFrame
  split <;> rfl

theorem State.releaseRecord_lanes : s.releaseRecord.lanes = s.lanes := by
  unfold State.releaseRecord
  split <;> rfl

theorem State.endRead_lanes (flag : Bool) : (s.endRead flag).lanes = s.lanes := by
  unfold State.endRead
  split
  · rfl
  · exact State.releaseRecord_lanes s

theorem State.takeStart_lanes (flag : Bool) : (s.takeStart flag).lanes = s.lanes := by
  show (s.endPhaseByStart flag).lanes = s.lanes
  unfold State.endPhaseByStart
  split
  · exact (State.deliverFrame_lanes _).trans (State.settleByte_lanes s flag)
  · exact State.endRead_lanes s flag
  · rfl

theorem State.judgeDevice_lanes (read : Bool) : (s.judgeDevice read).lanes = s.lanes := by
  unfold State.judgeDevice
  split
  · rfl
  · split
    · rfl
    · rfl
    · rfl
    · split <;> rfl
    · split <;> rfl

theorem State.judgeGroup_lanes (read : Bool) : (s.judgeGroup read).lanes = s.lanes := by
  unfold State.judgeGroup
  split <;> rfl

theorem State.takeAddress_lanes (b : Byte) : (s.takeAddress b).lanes = s.lanes := by
  unfold State.takeAddress
  split
  · split
    · exact State.judgeDevice_lanes s true
    · exact (State.judgeDevice_lanes _ false).trans (State.leaveFrame_lanes s)
  · split
    · exact (State.judgeGroup_lanes _ _).trans (State.leaveFrame_lanes s)
    · exact State.leaveFrame_lanes s

theorem slotsKept_closeGroup : SlotsKept s s.closeGroup := by
  unfold State.closeGroup
  split
  · split
    · exact slotsKept_groupStart s _
    · exact slotsKept_groupHalt s _
  · exact .refl s

theorem slotsKept_takeStop (flag : Bool) : SlotsKept s (s.takeStop flag) := by
  refine SlotsKept.trans (t := s.endPhaseByStop flag) ?_ (.of_lanes (State.leaveFrame_lanes _))
  unfold State.endPhaseByStop
  split
  · exact .of_lanes ((State.deliverFrame_lanes _).trans (State.settleByte_lanes s flag))
  · exact .of_lanes (State.endRead_lanes s flag)
  · exact SlotsKept.trans (.of_lanes (State.settleByte_lanes s flag)) (slotsKept_closeGroup _)
  · exact .refl s

theorem slotsKept_execStart (flag : Bool) (t : State) (h : execStart flag s = .next t) : SlotsKept s t := by
  unfold execStart at h
  split at h
  · cases h; exact .refl s
  · split at h <;> cases h
    exact .of_lanes (State.takeStart_lanes s flag)

theorem slotsKept_execStop (flag : Bool) (t : State) (h : execStop flag s = .next t) : SlotsKept s t := by
  unfold execStop at h
  split at h
  · cases h; exact .refl s
  · split at h <;> cases h
    exact slotsKept_takeStop s flag

theorem slotsKept_busError (condition : Condition) (bits : Nat) (t : State)
    (h : execBusError condition bits s = .next t) : SlotsKept s t := by
  unfold execBusError at h
  split at h
  · cases h
  · split at h
    · cases h; exact .refl s
    · split at h <;> cases h
      exact .of_lanes (State.leaveFrame_lanes s)

theorem slotsKept_addressByte (b : Byte) (t : State) (h : execAddressByte b s = .next t) : SlotsKept s t := by
  unfold execAddressByte at h
  split at h
  · cases h; exact .refl s
  · split at h <;> cases h
    exact .of_lanes (State.takeAddress_lanes s b)

theorem slotsKept_writePhaseByte (b : Byte) (t : State) (h : execWritePhaseByte b s = .next t) : SlotsKept s t := by
  unfold execWritePhaseByte at h
  split at h
  · cases h; exact .refl s
  · split at h <;> cases h
    exact .of_lanes rfl

theorem slotsKept_groupPhaseByte (b : Byte) (t : State) (h : execGroupPhaseByte b s = .next t) : SlotsKept s t := by
  unfold execGroupPhaseByte at h
  split at h
  · cases h; exact .refl s
  · split at h <;> cases h
    exact .of_lanes rfl

theorem slotsKept_readByteAcknowledge (t : State) (h : execReadByteAcknowledge s = .next t) : SlotsKept s t := by
  unfold execReadByteAcknowledge at h
  split at h
  · cases h; exact .refl s
  · split at h
    · split at h <;> cases h
      exact .of_lanes rfl
    · cases h

theorem slotsKept_readPhaseEnd (how : ReadEnd) (t : State) (h : execReadPhaseEnd how s = .next t) :
    SlotsKept s t := by
  unfold execReadPhaseEnd at h
  split at h
  · cases h; exact .refl s
  · split at h
    · split at h
      · cases h
      · split at h <;> cases h
        · exact .of_lanes (State.releaseRecord_lanes s)
        · exact slotsKept_takeStop s false
        · exact .of_lanes (State.takeStart_lanes s false)
    · cases h

/-! ### Commands of the engine -/

theorem State.withdrawWaiting_lanes (c : Ctl) : (s.withdrawWaiting c).lanes = s.lanes := by
  have withdraws : ∀ (qs : List QueueRequest) (s : State),
      (qs.foldl (fun s q => (s.dequeue q.ticket).finish q .withdrawn none) s).lanes = s.lanes := by
    intro qs
    induction qs with
    | nil => intro s; rfl
    | cons q qs ih => intro s; rw [List.foldl_cons, ih, State.finish_lanes, State.dequeue_lanes]
  exact withdraws _ s

theorem State.endSession_lanes (c : Ctl) (cause : Cause) : (s.endSession c cause).lanes = s.lanes := by
  unfold State.endSession
  rw [State.orphanActive_frame]
  exact (State.withdrawWaiting_lanes _ c).trans (State.endClaims_lanes s _ _)

theorem State.takeover_lanes (c : Ctl) (tag : Byte) : (s.takeover c tag).lanes = s.lanes := by
  unfold State.takeover
  rw [State.raise_lanes, State.setBuffer_lanes, State.setSession_lanes, State.post_lanes, State.endSession_lanes]

theorem State.signOff_lanes (c : Ctl) : (s.signOff c).lanes = s.lanes := by
  unfold State.signOff
  rw [State.raise_lanes, State.setSession_lanes, State.setBuffer_lanes, State.endSession_lanes]

theorem signOnCommand_lanes (c : Ctl) (tag takeover : Byte) :
    (signOnCommand c tag takeover s).state.lanes = s.lanes := by
  unfold signOnCommand
  split
  · rfl
  · split
    · rfl
    · rfl
    · rfl
    · exact State.takeover_lanes s c tag

theorem groupEnableCommand_lanes (flag : Byte) : (groupEnableCommand flag s).state.lanes = s.lanes := by
  unfold groupEnableCommand
  split <;> rfl

theorem putBufferCommand_lanes (c : Ctl) (offset : Byte) (data : List Byte) :
    (putBufferCommand c offset data s).state.lanes = s.lanes := by
  unfold putBufferCommand
  split <;> rfl

theorem transferCommand_lanes (c : Ctl) (w : Option Work) (notify wait : Byte) :
    (transferCommand c w notify wait s).state.lanes = s.lanes := by
  unfold transferCommand
  split
  · split <;> rfl
  · rfl

theorem cancelCommand_lanes (c : Ctl) (ticket : Half) : (cancelCommand c ticket s).state.lanes = s.lanes := by
  unfold cancelCommand
  split
  · rfl
  · split
    · rfl
    · split
      · rfl
      · split
        · rfl
        · exact State.finish_lanes _ _ _ _

theorem claimCommand_lanes (c : Ctl) (holder kind : Byte) (first count lease : Half) :
    (claimCommand c holder kind first count lease s).state.lanes = s.lanes := by
  unfold claimCommand
  split
  · rfl
  · split
    · rfl
    · split <;> rfl

theorem releaseCommand_lanes (c : Ctl) (id : Byte) : (releaseCommand c id s).state.lanes = s.lanes := by
  unfold releaseCommand
  split
  · rfl
  · split
    · rfl
    · split
      · rfl
      · split <;> rfl

theorem renewCommand_lanes (c : Ctl) (id : Byte) (lease : Half) :
    (renewCommand c id lease s).state.lanes = s.lanes := by
  unfold renewCommand
  split
  · rfl
  · split
    · rfl
    · split
      · rfl
      · split
        · rfl
        · split <;> rfl

theorem takeEventsCommand_lanes (maximum : Byte) : (takeEventsCommand maximum s).state.lanes = s.lanes := by
  unfold takeEventsCommand
  split <;> rfl

theorem setAttentionCommand_lanes (mask : Half) : (setAttentionCommand mask s).state.lanes = s.lanes := by
  unfold setAttentionCommand
  split <;> rfl

/-! The commands at a lane. -/

/-- LANE SETUP of a lane that is OFF or IDLE, which is free (R72). -/
theorem slotsKept_laneSetupCommand (lane direction fill policy mode wait : Byte) :
    SlotsKept s (laneSetupCommand lane direction fill policy mode wait s).state := by
  unfold laneSetupCommand
  split
  · split
    · rename_i rests
      refine .setLane s _ _ fun h => ?_
      obtain ⟨slot, tag⟩ := h.free (rests.imp_right .inl)
      exact Lane.Free.matches ⟨slot, tag⟩
    · exact .refl s
  · exact .refl s

theorem slotsKept_laneStartCommand (lane mode : Byte) : SlotsKept s (laneStartCommand lane mode s).state := by
  unfold laneStartCommand
  split
  · split
    · rename_i idle _
      split
      · exact .refl s
      · exact .of_acts (acts_startLane s _ _) fun h => State.startLane_matches s _ _ (h.free (.inr (.inl idle))).1
    · exact slotsKept_release s _
    · exact .refl s
  · exact .refl s

theorem slotsKept_laneStopCommand (lane mode : Byte) : SlotsKept s (laneStopCommand lane mode s).state := by
  unfold laneStopCommand
  split
  · split
    · exact .refl s
    · split
      · exact slotsKept_haltIfStreaming s _
      · exact .of_acts (acts_stopAtBoundary s _) (State.stopAtBoundary_matches s _)
  · exact .refl s

theorem slotsKept_laneResumeCommand (lane : Byte) : SlotsKept s (laneResumeCommand lane s).state := by
  unfold laneResumeCommand
  split
  · split
    · split
      · exact .of_acts (acts_continueOut s _) fun h => State.continueOut_matches s _ h.paired
      · exact .of_acts (acts_continueIn s _) fun h => State.continueIn_matches s _ h.paired
    · exact .refl s
  · exact .refl s

theorem slotsKept_resetLane (n : LaneId) : SlotsKept s (s.resetLane n) := by
  have withdrawn : SlotsKept s ((s.withdrawSlot n).modLane n Lane.reset) := fun m h => by
    rw [State.modLane_lane]
    split
    · exact (Lane.reset_free _).matches
    · rename_i other
      rw [(acts_withdrawSlot s n).other other]
      exact h
  exact withdrawn.trans (.of_lanes (State.endClaims_lanes _ _ _))

theorem slotsKept_laneResetCommand (lane : Byte) : SlotsKept s (laneResetCommand lane s).state := by
  unfold laneResetCommand
  split
  · split
    · exact .refl s
    · exact slotsKept_resetLane s _
  · exact .refl s

theorem slotsKept_listAppendCommand (lane : Byte) (raw : List RawEntry) :
    SlotsKept s (listAppendCommand lane raw s).state := by
  unfold listAppendCommand
  split
  · dsimp only
    split
    · exact .refl s
    · split
      · exact .refl s
      · exact .setLane s _ _ fun h => h.of_requested rfl rfl rfl
  · exact .refl s

theorem Lane.trim_matches (k : Nat) {l : Lane} (h : l.SlotMatchesTag) : (l.trim k).SlotMatchesTag := by
  unfold Lane.trim
  dsimp only
  split <;> exact h.of_requested rfl rfl rfl

theorem slotsKept_listTrimCommand (lane maximum : Byte) : SlotsKept s (listTrimCommand lane maximum s).state := by
  unfold listTrimCommand
  split
  · exact .refl s
  · dsimp only
    split
    · exact .refl s
    · split
      · exact .refl s
      · exact .setLane s _ _ (Lane.trim_matches _)

theorem slotsKept_listClearCommand (lane : Byte) : SlotsKept s (listClearCommand lane s).state := by
  unfold listClearCommand
  split
  · exact .refl s
  · split
    · exact .setLane s _ _ fun h => h.of_requested rfl rfl rfl
    · exact .refl s

theorem Reply.finish_lanes (r : Reply) : r.finish.lanes = r.state.lanes := by
  unfold Reply.finish
  split <;> rfl

theorem slotsKept_inSession {c : Ctl} {tag : Byte} {command : State → Reply}
    (k : SlotsKept s (command s).state) : SlotsKept s (inSession c tag command s).state := by
  rcases inSession_state s c tag command with e | ⟨-, e⟩ <;> rw [e]
  · exact .refl s
  · exact k

theorem slotsKept_runFrame {i : Instr} {command : State → Reply} {t : State} (k : SlotsKept s (command s).state)
    (h : s.runFrame i command = .next t) : SlotsKept s t := by
  unfold State.runFrame at h
  split at h <;> cases h
  exact k.trans (.of_lanes (Reply.finish_lanes _))

theorem slotsKept_runOccasion {i : Instr} {command : State → Reply} {t : State} (k : SlotsKept s (command s).state)
    (h : s.runOccasion i command = .next t) : SlotsKept s t := by
  unfold State.runOccasion at h
  split at h <;> cases h
  exact (k.trans (.of_lanes (Reply.finish_lanes _))).trans (slotsKept_arbitrate _)

/-- A command in its session that changes no lane, and is no occasion for a selection. -/
theorem slotsKept_runFrame_lanes {i : Instr} {c : Ctl} {tag : Byte} {command : State → Reply} {t : State}
    (e : (command s).state.lanes = s.lanes) (h : s.runFrame i (inSession c tag command) = .next t) : SlotsKept s t :=
  slotsKept_runFrame s (slotsKept_inSession s (.of_lanes e)) h

/-- A command in its session that changes no lane before the selection it brings. -/
theorem slotsKept_runOccasion_lanes {i : Instr} {c : Ctl} {tag : Byte} {command : State → Reply} {t : State}
    (e : (command s).state.lanes = s.lanes) (h : s.runOccasion i (inSession c tag command) = .next t) :
    SlotsKept s t := slotsKept_runOccasion s (slotsKept_inSession s (.of_lanes e)) h

/-- A command in its session that only reads. -/
theorem slotsKept_read {i : Instr} {c : Ctl} {tag : Byte} {command : State → Reply} {t : State}
    (e : (command s).state = s) (h : s.runFrame i (inSession c tag command) = .next t) : SlotsKept s t :=
  slotsKept_runFrame_lanes s (by rw [e]) h

/-! ### Every command, and the step -/

/-- Every command that answers a next state keeps each lane's slot and tag in agreement. -/
theorem slotsKept_exec (i : Instr) (t : State) (h : exec i s = .next t) : SlotsKept s t := by
  cases i with
  | hardReset => exact slotsKept_hardReset s t h
  | resetnRise straps => exact slotsKept_resetnRise s straps t h
  | sweepOperationCompletion => exact slotsKept_sweepOperationCompletion s t h
  | refreshTick => exact slotsKept_refreshTick s t h
  | millisecondTick => exact slotsKept_millisecondTick s t h
  | requestRefusal who => exact slotsKept_requestRefusal s who t h
  | leaseTick => exact slotsKept_leaseTick s t h
  | claimExpiry =>
    cases h
    exact SlotsKept.trans (.of_lanes (State.endClaims_lanes s _ _)) (slotsKept_arbitrate _)
  | loadCompletion => exact slotsKept_completeOp s .load t h
  | storeCompletion => exact slotsKept_completeOp s .store t h
  | cstoreCompletion => exact slotsKept_completeOp s .cstore t h
  | fillCompletion => exact slotsKept_completeOp s .fill t h
  | copyCompletion => exact slotsKept_completeOp s .copy t h
  | refreshCompletion => exact slotsKept_refreshCompletion s t h
  | outLaneClockEdge n => exact slotsKept_outLaneClockEdge s n t h
  | inLaneClockEdge n ld => exact slotsKept_inLaneClockEdge s n ld t h
  | laneClockEdgeOutsideRunning n => exact slotsKept_laneClockEdgeOutsideRunning s n t h
  | identify c tag =>
    exact slotsKept_runFrame s (command := fun s => answer s (identifyBody s.port.strap)) (.refl s) h
  | signOn c tag takeover => exact slotsKept_runOccasion s (.of_lanes (signOnCommand_lanes s c tag takeover)) h
  | signOff c tag => exact slotsKept_runOccasion_lanes s (State.signOff_lanes s c) h
  | resetPart c tag => exact slotsKept_runOccasion s (slotsKept_inSession s (slotsKept_resetPart s)) h
  | groupEnable c tag flag => exact slotsKept_runFrame_lanes s (groupEnableCommand_lanes s flag) h
  | putBuffer c tag offset data => exact slotsKept_runFrame_lanes s (putBufferCommand_lanes s c offset data) h
  | getBuffer c tag offset length => exact slotsKept_read s (getBufferCommand_state s c offset length) h
  | rowInfo c tag first count => exact slotsKept_read s (rowInfoCommand_state s first count) h
  | load c tag row notify wait => exact slotsKept_runOccasion_lanes s (transferCommand_lanes s c _ notify wait) h
  | store c tag row tap span notify wait =>
    exact slotsKept_runOccasion_lanes s (transferCommand_lanes s c _ notify wait) h
  | cstore c tag row tap span expected notify wait =>
    exact slotsKept_runOccasion_lanes s (transferCommand_lanes s c _ notify wait) h
  | fill c tag row tap span value notify wait =>
    exact slotsKept_runOccasion_lanes s (transferCommand_lanes s c _ notify wait) h
  | copy c tag source destination tap span notify wait =>
    exact slotsKept_runOccasion_lanes s (transferCommand_lanes s c _ notify wait) h
  | cancel c tag ticket => exact slotsKept_runFrame_lanes s (cancelCommand_lanes s c ticket) h
  | queryTicket c tag ticket => exact slotsKept_read s (queryCommand_state s c ticket) h
  | claim c tag holder kind first count lease =>
    exact slotsKept_runOccasion_lanes s (claimCommand_lanes s c holder kind first count lease) h
  | release c tag id => exact slotsKept_runOccasion_lanes s (releaseCommand_lanes s c id) h
  | renew c tag id lease => exact slotsKept_runFrame_lanes s (renewCommand_lanes s c id lease) h
  | listClaims c tag startId maximum => exact slotsKept_read s (listClaimsCommand_state s startId maximum) h
  | laneSetup c tag lane direction fill policy mode wait =>
    exact slotsKept_runFrame s
      (slotsKept_inSession s (slotsKept_laneSetupCommand s lane direction fill policy mode wait)) h
  | laneStart c tag lane mode =>
    exact slotsKept_runOccasion s (slotsKept_inSession s (slotsKept_laneStartCommand s lane mode)) h
  | laneStop c tag lane mode =>
    exact slotsKept_runFrame s (slotsKept_inSession s (slotsKept_laneStopCommand s lane mode)) h
  | laneResume c tag lane =>
    exact slotsKept_runOccasion s (slotsKept_inSession s (slotsKept_laneResumeCommand s lane)) h
  | laneReset c tag lane =>
    exact slotsKept_runOccasion s (slotsKept_inSession s (slotsKept_laneResetCommand s lane)) h
  | laneStatus c tag lane => exact slotsKept_read s (laneStatusCommand_state s lane) h
  | listAppend c tag lane entries =>
    exact slotsKept_runFrame s (slotsKept_inSession s (slotsKept_listAppendCommand s lane entries)) h
  | listTrim c tag lane maximum =>
    exact slotsKept_runFrame s (slotsKept_inSession s (slotsKept_listTrimCommand s lane maximum)) h
  | listClear c tag lane =>
    exact slotsKept_runFrame s (slotsKept_inSession s (slotsKept_listClearCommand s lane)) h
  | listRead c tag lane start maximum => exact slotsKept_read s (listReadCommand_state s lane start maximum) h
  | takeEvents c tag maximum => exact slotsKept_runFrame_lanes s (takeEventsCommand_lanes s maximum) h
  | peekEvents c tag maximum => exact slotsKept_read s (peekEventsCommand_state s maximum) h
  | setAttention c tag mask => exact slotsKept_runFrame_lanes s (setAttentionCommand_lanes s mask) h
  | refusedFrame verdict bytes =>
    exact slotsKept_runFrame s (command := fun s => refuse s (admissionStatus verdict bytes)) (.refl s) h
  | start unacknowledged => exact slotsKept_execStart s unacknowledged t h
  | addressByte b => exact slotsKept_addressByte s b t h
  | stop unacknowledged => exact slotsKept_execStop s unacknowledged t h
  | readPhaseEnd how => exact slotsKept_readPhaseEnd s how t h
  | busError condition bits => exact slotsKept_busError s condition bits t h
  | groupStart mask => cases h; exact slotsKept_groupStart s mask
  | groupHalt mask => cases h; exact slotsKept_groupHalt s mask
  | writePhaseByte b => exact slotsKept_writePhaseByte s b t h
  | groupPhaseByte b => exact slotsKept_groupPhaseByte s b t h
  | readByteAcknowledge => exact slotsKept_readByteAcknowledge s t h

/-- The step keeps them in agreement; with no command waiting it makes at most a selection. -/
theorem slotsKept_step (s t : State) (h : step s = .next t) : SlotsKept s t := by
  unfold step at h
  split at h
  · cases h
    exact slotsKept_arbitrate s
  · rename_i c rest _
    have taken : SlotsKept s { s with pending := rest } := .of_lanes rfl
    exact taken.trans (slotsKept_exec _ c t h)

/-- Settles O58: a request is placed where a line becomes PENDING and taken where it ceases to be, by every event at a
lane; no other event touches slot or tag. -/
theorem stepKeepsSlots : Obligations.StepKeepsSlots := fun s t h e n => slotsKept_step s t e n (h n)

end Sys2Proof.Machine

namespace Sys2Proof.Machine

set_option Elab.async false

variable (s : State)

/-! ### What a selection has chosen, by what it leaves on the array (R58, R61) -/

theorem State.slotReady_of_choice {n : LaneId} (h : s.choice = .slot n) : s.slotReady n :=
  (State.slotRunnable_iff s n).mp (choose_slot _ _ _ _ _ n h)

theorem State.ready_of_choice {q : QueueRequest} (h : s.choice = .request q) : q ∈ s.readyRequests := by
  rw [State.readyRequests_eq]
  exact choose_request _ _ _ _ _ q h

/-- What a selection at an idle array leaves on it, by its choice. -/
theorem State.select_array (ha : s.array = none) :
    match s.choice with
    | .refresh => s.select.array = some (.refresh s.refreshPointer)
    | .slot n => ∃ x, s.select.array = some (.transfer x) ∧ x.requester = .lane n
    | .request q => ∃ x, s.select.array = some (.transfer x) ∧ x.requester = .ctl q.ctl
    | .nothing => s.select.array = none := by
  cases h : s.choice with
  | refresh => exact (State.select_refresh s h).1
  | slot n =>
    obtain ⟨q, hq, -⟩ := State.slotReady_of_choice s h
    exact ⟨_, (State.select_slot s (State.slotReady_of_choice s h) hq h).1, rfl⟩
  | request q => exact ⟨_, (State.select_request s (State.ready_of_choice s h) h).1, rfl⟩
  | nothing => exact (State.select_nothing s ha h).1

theorem State.choice_of_lane (ha : s.array = none) {x : Transfer} {n : LaneId}
    (hx : s.select.array = some (.transfer x)) (hr : x.requester = .lane n) : s.choice = .slot n := by
  have left := State.select_array s ha
  rw [hx] at left
  cases h : s.choice <;> rw [h] at left
  case slot m =>
    obtain ⟨y, hy, hm⟩ := left
    cases hy
    cases hr.symm.trans hm
    rfl
  case request q =>
    obtain ⟨y, hy, hc⟩ := left
    cases hy
    cases hr.symm.trans hc
  all_goals cases left

theorem State.choice_of_ctl (ha : s.array = none) {x : Transfer} {c : Ctl}
    (hx : s.select.array = some (.transfer x)) (hr : x.requester = .ctl c) : ∃ q, s.choice = .request q := by
  have left := State.select_array s ha
  rw [hx] at left
  cases h : s.choice <;> rw [h] at left
  case slot m =>
    obtain ⟨y, hy, hm⟩ := left
    cases hy
    cases hr.symm.trans hm
  case request q => exact ⟨q, rfl⟩
  all_goals cases left

theorem State.choice_of_refresh (ha : s.array = none) {r : RowId} (hx : s.select.array = some (.refresh r)) :
    s.choice = .refresh := by
  have left := State.select_array s ha
  rw [hx] at left
  cases h : s.choice <;> rw [h] at left
  case nothing => cases left
  all_goals
    obtain ⟨y, hy, -⟩ := left
    cases hy

/-! ### The lane streak (R60) -/

theorem State.select_streak :
    s.select.streak = streakAfter s.streak (!s.readyRequests.isEmpty) s.choice := by
  rw [State.readyRequests_eq]
  rfl

/-- Settles O17: the streak by what the selection has chosen. -/
theorem laneStreak : Obligations.LaneStreak := by
  intro s ha hb t
  refine ⟨streakAfter_le _ _ _ _ _ hb, fun empty => ?_, fun waiting => ?_⟩
  · show s.select.streak = 0
    rw [State.select_streak, empty]
    rfl
  · have runnable : s.readyRequests.isEmpty = false := by simpa using waiting
    have streak : t.streak = streakAfter s.streak true s.choice := by
      rw [State.select_streak s, runnable]
      rfl
    refine ⟨fun x n hx hr => ?_, fun x c hx hr => ?_, fun r hx => ?_⟩
    · rw [streak, State.choice_of_lane s ha hx hr]
      rfl
    · obtain ⟨q, hq⟩ := State.choice_of_ctl s ha hx hr
      rw [streak, hq]
      rfl
    · rw [streak, State.choice_of_refresh s ha hx]
      rfl

/-! ### The refusal of a slot request under HALT (R95) -/

/-- A lane whose request is refused under HALT. -/
def Lane.refusedHalt (l : Lane) : Lane :=
  { l with state := .halted, slot := none, tag := .empty, held := false, stopPending := false, startMode := none,
           follow := none, drain := none }

theorem State.refuseSlot_halt {n : LaneId} {q : SlotRequest} (hq : (s.lane n).slot = some q)
    (hp : (s.lane n).setup.policy = .halt) : s.refuseSlot n =
      (s.setLane n (s.lane n).refusedHalt).lanePost n .laneHalted (some q.work.row) none (some .claimTimeout) := by
  simp only [State.refuseSlot, hq, hp, State.haltLane, State.modLane, State.setLane_lane_self, State.setLane_setLane]
  rfl

/-! ### The tests and refusals of a selection (R57) -/

/-- A queued request as the tests of a selection leave it. -/
def State.testedRequest (s : State) (q : QueueRequest) : QueueRequest :=
  { q with state := testedState (s.conflicts (.ctl q.ctl) q.work) q.waitLimit q.state }

theorem State.markTested_frame : s.markTested = { s with
    queue := s.queue.map s.testedRequest, lanes := s.markTested.lanes } := rfl

theorem testedState_eq (conflict : Bool) (limit : Nat) (r : RequestState) : testedState conflict limit r =
    if r = .waiting ∧ conflict = true ∧ limit ≠ 0 then .blocked 0 else r := by
  cases r <;> simp [testedState]

theorem State.testedRequest_ticket (q : QueueRequest) : (s.testedRequest q).ticket = q.ticket := rfl

theorem State.refusedAtOnce_iff (q : QueueRequest) : s.refusedAtOnce q = true ↔
    q.state = .waiting ∧ q.waitLimit = 0 ∧ s.conflicts (.ctl q.ctl) q.work = true := by
  simp only [State.refusedAtOnce, Bool.and_eq_true, decide_eq_true_eq, and_assoc]

/-- A selection after its tests and the refusals of queued requests, before those of slot requests. -/
def State.queueRefused (s : State) : State := (s.queue.filter s.refusedAtOnce).foldl State.refuseRequest s.markTested

/-- The slots that a selection refuses, L0 first. -/
def State.slotsRefused (s : State) : List LaneId := (List.finRange 4).filter s.slotRefusedAtOnce

theorem State.afterRefusals_eq : s.afterRefusals = s.slotsRefused.foldl State.refuseSlot s.queueRefused := rfl

theorem State.queueRefused_frame : s.queueRefused = { s with
    lanes := s.queueRefused.lanes, queue := s.queueRefused.queue, log := s.queueRefused.log
    events := s.queueRefused.events, eventCounter := s.queueRefused.eventCounter } := by
  unfold State.queueRefused
  rw [State.refuseRequests_frame, State.markTested_frame]

theorem State.queueRefused_lane (n : LaneId) : s.queueRefused.lane n = s.markTested.lane n :=
  State.refuseRequests_lane _ _ n

/-- The queue after the tests and the refusals: every request that is not refused, as the tests leave it. -/
theorem State.queueRefused_queue (nd : (s.queue.map (·.ticket)).Nodup) :
    s.queueRefused.queue = (s.queue.filter fun q => !s.refusedAtOnce q).map s.testedRequest := by
  have refused := (State.refuseRequests_fold (s.queue.filter s.refusedAtOnce) s.markTested).2.2
  rw [← filter_not_due s.queue nd s.refusedAtOnce]
  refine (show s.queueRefused.queue = _ from refused).trans ?_
  rw [State.markTested_frame, List.filter_map]
  rfl

theorem State.afterRefusals_queue (nd : (s.queue.map (·.ticket)).Nodup) :
    s.afterRefusals.queue = (s.queue.filter fun q => !s.refusedAtOnce q).map s.testedRequest := by
  have slots := State.refuseSlots_frame s.slotsRefused s.queueRefused
  unfold LaneFrame at slots
  rw [← State.queueRefused_queue s nd, State.afterRefusals_eq, slots]

theorem State.afterRefusals_log : s.afterRefusals.log = s.queueRefused.log := by
  have slots := State.refuseSlots_frame s.slotsRefused s.queueRefused
  unfold LaneFrame at slots
  rw [State.afterRefusals_eq, slots]

/-- A lane whose request is not refused is after the refusals as the tests leave it. -/
theorem State.afterRefusals_lane_tested {n : LaneId} (h : n ∉ s.slotsRefused) :
    s.afterRefusals.lane n = s.markTested.lane n := by
  rw [State.afterRefusals_eq, State.refuseSlots_other _ _ n h, State.queueRefused_lane]

/-- Of the refusals at several lanes, those of the others leave a lane for its own. -/
theorem State.refuseSlots_lane (ns : List LaneId) (nd : ns.Nodup) (s : State) {n : LaneId} (h : n ∈ ns) :
    ∃ u : State, u.lane n = s.lane n ∧ (ns.foldl State.refuseSlot s).lane n = (u.refuseSlot n).lane n := by
  induction ns generalizing s with
  | nil => cases h
  | cons m ns ih =>
    obtain ⟨fresh, nd⟩ := List.nodup_cons.mp nd
    rw [List.foldl_cons]
    rcases List.mem_cons.mp h with rfl | h
    · exact ⟨s, rfl, State.refuseSlots_other ns _ n fresh⟩
    · obtain ⟨u, stands, last⟩ := ih nd (s.refuseSlot m) h
      have other : (s.refuseSlot m).lane n = s.lane n := (acts_refuseSlot s m).other fun e => fresh (e ▸ h)
      exact ⟨u, stands.trans other, last⟩

/-- A lane whose request is refused at a selection under HALT. -/
theorem State.afterRefusals_lane_halted {n : LaneId} {q : SlotRequest} (hn : n ∈ s.slotsRefused)
    (hq : (s.lane n).slot = some q) (hp : (s.lane n).setup.policy = .halt) :
    (s.afterRefusals.lane n).state = .halted ∧ (s.afterRefusals.lane n).slot = none ∧
      (s.afterRefusals.lane n).tag = .empty := by
  obtain ⟨u, stands, last⟩ := State.refuseSlots_lane s.slotsRefused ((List.nodup_finRange 4).filter _) s.queueRefused hn
  rw [State.queueRefused_lane, State.markTested_lane] at stands
  have slot : (u.lane n).slot.isSome = true := by rw [stands, hq]; rfl
  obtain ⟨r, hr⟩ := Option.isSome_iff_exists.mp slot
  rw [State.afterRefusals_eq, last, State.refuseSlot_halt u hr (by rw [stands]; exact hp), State.lanePost_lane,
    State.setLane_lane_self]
  exact ⟨rfl, rfl, rfl⟩

/-! ### What the start of the chosen candidate leaves of the queue and the lanes (R61) -/

/-- The queue stands, or the one request chosen is ACTIVE. -/
theorem State.select_queue : s.select.queue = s.afterRefusals.queue ∨ ∃ p ∈ s.readyRequests,
    s.select.queue = s.afterRefusals.queue.map fun r => if r.ticket = p.ticket then { r with state := .active } else r := by
  cases h : s.choice with
  | request p => exact .inr ⟨p, State.ready_of_choice s h, by rw [State.select_eq, h]; rfl⟩
  | refresh => exact .inl (by rw [State.select_eq, h]; rfl)
  | nothing => exact .inl (by rw [State.select_eq, h]; rfl)
  | slot n =>
    refine .inl ?_
    rw [State.select_eq, h]
    show (s.afterRefusals.startSlot n).queue = _
    unfold State.startSlot
    split <;> rfl

theorem State.startSlot_other {m n : LaneId} (h : m ≠ n) : (s.startSlot n).lane m = s.lane m := by
  unfold State.startSlot
  split
  · rfl
  · rename_i q _
    exact (State.modLane_lane s n (fun l => { l with slot := some { q with state := .active } }) m).trans (if_neg h)

/-- A lane whose slot request is not runnable is not started. -/
theorem State.select_lane {n : LaneId} (hn : ¬ s.slotReady n) : s.select.lane n = s.afterRefusals.lane n := by
  rw [State.select_eq]
  show (s.afterRefusals.start s.choice).lane n = _
  cases h : s.choice with
  | slot m =>
    exact State.startSlot_other _ fun e => hn (e ▸ State.slotReady_of_choice s h)
  | _ => rfl

/-- A request that conflicts is not the one started. -/
theorem State.mem_select_queue_of_conflict (nd : (s.queue.map (·.ticket)).Nodup) {q r : QueueRequest}
    (hq : q ∈ s.queue) (hc : s.conflicts (.ctl q.ctl) q.work = true) (ht : r.ticket = q.ticket)
    (hr : r ∈ s.afterRefusals.queue) : r ∈ s.select.queue := by
  rcases State.select_queue s with e | ⟨p, hp, e⟩ <;> rw [e]
  · exact hr
  · refine List.mem_map.mpr ⟨r, hr, if_neg fun same => ?_⟩
    obtain ⟨hp, ready⟩ := List.mem_filter.mp hp
    obtain rfl := List.inj_on_of_nodup_map nd hp hq (same.symm.trans ht)
    simp [hc] at ready

/-- A queued request that is not refused stands as the tests leave it, before a start. -/
theorem State.mem_afterRefusals_of_not_refused (nd : (s.queue.map (·.ticket)).Nodup) {q : QueueRequest}
    (hq : q ∈ s.queue) (hr : s.refusedAtOnce q = false) : s.testedRequest q ∈ s.afterRefusals.queue := by
  rw [State.afterRefusals_queue s nd]
  exact List.mem_map_of_mem (List.mem_filter.mpr ⟨hq, by rw [hr]; rfl⟩)

/-- What a selection makes of each queued request. -/
theorem State.select_requests (nd : (s.queue.map (·.ticket)).Nodup) {q : QueueRequest} (hq : q ∈ s.queue) :
    (q.state = .waiting → s.conflicts (.ctl q.ctl) q.work = true → q.waitLimit = 0 →
      ∀ r ∈ s.select.queue, r.ticket ≠ q.ticket) ∧
    (q.state = .waiting → s.conflicts (.ctl q.ctl) q.work = true → q.waitLimit ≠ 0 →
      { q with state := .blocked 0 } ∈ s.select.queue) ∧
    (∀ b, q.state = .blocked b → s.conflicts (.ctl q.ctl) q.work = true → q ∈ s.select.queue) ∧
    (s.conflicts (.ctl q.ctl) q.work = false → q ∈ s.select.queue ∨ { q with state := .active } ∈ s.select.queue) := by
  have stands : ∀ r : RequestState, testedState (s.conflicts (.ctl q.ctl) q.work) q.waitLimit q.state = r →
      s.refusedAtOnce q = false → { q with state := r } ∈ s.afterRefusals.queue := fun r e h =>
    e ▸ State.mem_afterRefusals_of_not_refused s nd hq h
  have not_refused : ¬ (q.state = .waiting ∧ q.waitLimit = 0 ∧ s.conflicts (.ctl q.ctl) q.work = true) →
      s.refusedAtOnce q = false := fun h => Bool.eq_false_iff.mpr (mt (State.refusedAtOnce_iff s q).mp h)
  refine ⟨fun waits conflict zero r hr same => ?_, fun waits conflict limit => ?_, fun b blocked conflict => ?_,
    fun passes => ?_⟩
  · have left : ∃ p ∈ s.queue, s.refusedAtOnce p = false ∧ p.ticket = q.ticket := by
      have of_left : ∀ p ∈ s.afterRefusals.queue, p.ticket = q.ticket →
          ∃ p ∈ s.queue, s.refusedAtOnce p = false ∧ p.ticket = q.ticket := fun p hp e => by
        rw [State.afterRefusals_queue s nd] at hp
        obtain ⟨before, hb, rfl⟩ := List.mem_map.mp hp
        obtain ⟨hb, kept⟩ := List.mem_filter.mp hb
        exact ⟨before, hb, by simpa using kept, e⟩
      rcases State.select_queue s with e | ⟨p, -, e⟩ <;> rw [e] at hr
      · exact of_left r hr same
      · obtain ⟨before, hb, rfl⟩ := List.mem_map.mp hr
        refine of_left before hb ?_
        split at same <;> exact same
    obtain ⟨p, hp, kept, e⟩ := left
    obtain rfl := List.inj_on_of_nodup_map nd hp hq e
    rw [(State.refusedAtOnce_iff s p).mpr ⟨waits, zero, conflict⟩] at kept
    cases kept
  · refine State.mem_select_queue_of_conflict s nd hq conflict rfl (stands _ ?_ (not_refused fun h => limit h.2.1))
    rw [testedState_eq, if_pos ⟨waits, conflict, limit⟩]
  · refine State.mem_select_queue_of_conflict s nd hq conflict rfl (stands q.state ?_ (not_refused fun h => ?_))
    · rw [blocked]; rfl
    · rw [blocked] at h; cases h.1
  · have left : q ∈ s.afterRefusals.queue := by
      refine stands q.state ?_ (not_refused fun h => ?_)
      · rw [passes, testedState_of_runnable]
      · rw [passes] at h; cases h.2.2
    rcases State.select_queue s with e | ⟨p, -, e⟩ <;> rw [e]
    · exact .inl left
    · by_cases same : q.ticket = p.ticket
      · exact .inr (List.mem_map.mpr ⟨q, left, if_pos same⟩)
      · exact .inl (List.mem_map.mpr ⟨q, left, if_neg same⟩)

/-- What a selection makes of a WAITING slot request that conflicts. -/
theorem State.select_slots {n : LaneId} {q : SlotRequest} (hq : (s.lane n).slot = some q) (waits : q.state = .waiting)
    (conflict : s.conflicts (.lane n) q.work = true) :
    (q.waitLimit ≠ 0 → (s.select.lane n).slot = some { q with state := .blocked 0 }) ∧
    (q.waitLimit = 0 → (s.lane n).setup.policy = .halt →
      (s.select.lane n).state = .halted ∧ (s.select.lane n).slot = none ∧ (s.select.lane n).tag = .empty) := by
  have not_ready : ¬ s.slotReady n := by
    rintro ⟨r, hr, -, passes⟩
    cases hq.symm.trans hr
    exact absurd (conflict.symm.trans passes) nofun
  have refused : n ∈ s.slotsRefused ↔ q.waitLimit = 0 := by
    simp [State.slotsRefused, State.slotRefusedAtOnce, hq, waits, conflict]
  rw [State.select_lane s not_ready]
  refine ⟨fun limit => ?_, fun zero halt => State.afterRefusals_lane_halted s (refused.mpr zero) hq halt⟩
  rw [State.afterRefusals_lane_tested s (mt refused.mp limit), State.markTested_lane, hq, Option.map_some,
    testedState_eq, if_pos ⟨waits, conflict, limit⟩]

/-- Settles O18: the tests, the refusals in their order, and the start of what is chosen. -/
theorem selectionTests : Obligations.SelectionTests := by
  intro s nd t
  obtain ⟨log, -, -⟩ := State.refuseRequests_fold (s.queue.filter s.refusedAtOnce) s.markTested
  have t_log : t.log = s.queueRefused.log := by
    rw [← State.afterRefusals_log]
    show (s.afterRefusals.start s.choice).log = _
    rw [State.start_frame]
  refine ⟨fun q hq => State.select_requests s nd hq, t_log.trans log,
    fun n q hq waits conflict => State.select_slots s hq waits conflict, ?_⟩
  intro tested refused lanesRefused
  have tested_eq : ∀ conflict limit r, testedState conflict limit r = tested conflict limit r := testedState_eq
  refine ⟨s.queueRefused, ?_, fun n => ?_, ?_, State.refuseRequests_events _ s.markTested s ⟨rfl, rfl, rfl⟩, ?_⟩
  · rw [t_log]
    exact State.queueRefused_frame s
  · rw [State.queueRefused_lane, State.markTested_lane]
    simp only [tested_eq]
  · rw [State.queueRefused_queue s nd]
    have kept : (s.queue.filter fun q => !s.refusedAtOnce q) = s.queue.filter fun q => q ∉ refused :=
      List.filter_congr fun q hq => by
        rw [Bool.eq_iff_iff, Bool.not_eq_true', decide_eq_true_eq, Bool.eq_false_iff]
        exact not_congr ⟨fun h => List.mem_filter.mpr ⟨hq, h⟩, fun h => (List.mem_filter.mp h).2⟩
    rw [kept]
    simp only [← tested_eq]
    rfl
  · intro w
    have w_eq : w = s.afterRefusals := rfl
    refine ⟨?_, fun ha => ?_⟩
    · rw [w_eq]
      show { s.afterRefusals.start s.choice with streak := s.select.streak } = _
      rw [State.start_frame]
      rfl
    · have ready : ∀ n, s.choice = .slot n → w.lane n = s.lane n := fun n h =>
        State.afterRefusals_lane s (State.slotReady_of_choice s h)
      have occupied : ∀ n, s.choice = .slot n → (w.lane n).slot.isSome = true := fun n h => by
        obtain ⟨q, hq, -⟩ := State.slotReady_of_choice s h
        rw [ready n h, hq]
        rfl
      obtain ⟨lanes, started, queue, active⟩ :=
        State.start_marks w s.choice (State.afterRefusals_idle s ha) occupied
      exact ⟨lanes, fun n x q hx hr hq => started n x q hx hr
        (by rw [ready n (State.choice_of_lane s ha hx hr)]; exact hq), queue, active⟩

end Sys2Proof.Machine

namespace Sys2Proof.Machine

set_option Elab.async false

/-! ### Operands of the transfer commands (R47) -/

theorem rowOf_of_val {r : RowId} {h : Half} (e : r.val = h.toNat) : rowOf h = some r := by
  have in_range : h.toNat < 512 := e ▸ r.isLt
  rw [rowOf, dif_pos in_range]
  exact congrArg some (Fin.ext e.symm)

theorem spanOf_none {tap span : Byte} (h : 127 < tap.toNat ∨ span.toNat = 0 ∨ 128 < span.toNat) :
    spanOf tap span = none := dif_neg (by omega)

theorem spanOf_of_val {sp : Span} {tap span : Byte} (ht : sp.tap.val = tap.toNat) (hl : sp.len = span.toNat)
    (low : 1 ≤ span.toNat) (high : span.toNat ≤ 128) : spanOf tap span = some sp := by
  have in_range : tap.toNat < 128 ∧ 1 ≤ span.toNat ∧ span.toNat ≤ 128 := ⟨ht ▸ sp.tap.isLt, low, high⟩
  rw [spanOf, dif_pos in_range]
  have same_tap : (⟨tap.toNat, in_range.1⟩ : CellId) = sp.tap := Fin.ext ht.symm
  rw [same_tap, ← hl]

theorem flagOf_of_le {b : Byte} (h : b.toNat ≤ 1) : flagOf b = some (decide (b = 1)) := by
  rcases flag_cases h with rfl | rfl <;> rfl

/-- An operation of one row and a span asks for nothing when one of the two is out of range. -/
theorem rowSpan_none {α : Type} {row : Half} {tap span : Byte} (f : RowId → Span → α)
    (h : 511 < row.toNat ∨ 127 < tap.toNat ∨ span.toNat = 0 ∨ 128 < span.toNat) :
    (do let r ← rowOf row
        let sp ← spanOf tap span
        return f r sp : Option α) = none := by
  rcases h with h | h
  · rw [rowOf_none h]
    rfl
  · rw [spanOf_none h]
    cases rowOf row <;> rfl

theorem copyWork_none {row target : Half} {tap span : Byte}
    (h : 511 < row.toNat ∨ 511 < target.toNat ∨ 127 < tap.toNat ∨ span.toNat = 0 ∨ 128 < span.toNat) :
    copyWork row target tap span = none := by
  unfold copyWork
  rcases h with h | h
  · rw [rowOf_none h]
    rfl
  · cases rowOf row with
    | none => rfl
    | some source => exact rowSpan_none (fun destination sp => Work.copy source destination sp) h

/-! ### The ticket of an admission (R43) -/

/-- The first 65535 tickets from any on are different, from 0 on too. -/
theorem ticketAfter_iterate_inj_of_any (t : Half) {j k : Nat} (hj : j < 65535) (hk : k < 65535)
    (e : ticketAfter^[j] t = ticketAfter^[k] t) : j = k := by
  by_cases h : t = 0
  · have one : ticketAfter t ≠ 0 := by rw [h]; decide
    cases j with
    | zero =>
      cases k with
      | zero => rfl
      | succ k => exact absurd (e.symm.trans h) (ticketAfter_iterate_toNat one k).2
    | succ j =>
      cases k with
      | zero => exact absurd (e.trans h) (ticketAfter_iterate_toNat one j).2
      | succ k => exact congrArg (· + 1) (ticketAfter_iterate_inj one (by omega) (by omega) e)
  · exact ticketAfter_iterate_inj h hj hk e

/-- The search for a ticket passes over queued ones and ends at one that is not queued. -/
theorem freshTicket_spec (queue : List QueueRequest) (t : Half) (hq : queue.length < 65534) :
    ∃ m, freshTicket queue queue.length t = ticketAfter^[m] t ∧
      (∀ j, j < m → ticketAfter^[j] t ∈ queue.map (·.ticket)) ∧ ticketAfter^[m] t ∉ queue.map (·.ticket) := by
  obtain ⟨m, hm, e, passed, stop⟩ := freshTicket_search queue queue.length t
  refine ⟨m, e, passed, fun queued => ?_⟩
  have all_queued : ((List.range (m + 1)).map fun j => ticketAfter^[j] t) ⊆ queue.map (·.ticket) := by
    intro x hx
    obtain ⟨j, hj, rfl⟩ := List.mem_map.mp hx
    rcases Nat.lt_or_eq_of_le (Nat.le_of_lt_succ (List.mem_range.mp hj)) with hlt | rfl
    · exact passed j hlt
    · exact queued
  have distinct : ((List.range (m + 1)).map fun j => ticketAfter^[j] t).Nodup :=
    List.Nodup.map_on (fun i hi j hj => ticketAfter_iterate_inj_of_any t
      (by have := List.mem_range.mp hi; omega) (by have := List.mem_range.mp hj; omega)) List.nodup_range
  have count := (distinct.subperm all_queued).length_le
  simp only [List.length_map, List.length_range] at count
  exact stop (by omega) queued

/-! ### LOAD, STORE, CSTORE, FILL and COPY (R47, R48) -/

theorem State.queueFull_iff (s : State) (c : Ctl) : s.queueFull c = true ↔
    12 ≤ s.queue.length ∨ 3 ≤ (s.queue.filter fun q => q.ctl = c).length := by
  simp only [State.queueFull, Bool.or_eq_true, decide_eq_true_eq]
  rfl

theorem transferCommand_refused (s : State) (c : Ctl) {w : Option Work} {notify : Byte} (wait : Byte)
    (h : w = none ∨ 1 < notify.toNat) : transferCommand c w notify wait s = refuse s .badParameter := by
  unfold transferCommand
  rcases h with rfl | h
  · rfl
  · rw [flagOf_none h]
    cases w <;> rfl

theorem transferCommand_of_inRange (s : State) (c : Ctl) (w : Work) {notify : Byte} (wait : Byte)
    (h : notify.toNat ≤ 1) : transferCommand c (some w) notify wait s =
      if s.queueFull c then refuse s .queueFull
      else { state := s.admitRequest c w (decide (notify = 1)) wait.toNat, status := .accepted
             body := halfBytes s.ticket } := by
  unfold transferCommand
  rw [flagOf_of_le h]

section

variable {s : State} {c : Ctl} {tag notify wait : Byte} {i : Instr} {w : Option Work}

/-- The five transfer commands, in session: what their command replies, then the selection it brings. -/
theorem exec_transfer
    (he : exec i s = s.runOccasion i (inSession c tag (transferCommand c w notify wait)))
    (hs : s.session c = some tag) (h : s.executes i = true) {status : Status} {body : List Byte} {t : State}
    (r : transferCommand c w notify wait s = { state := t, status, body }) :
    exec i s = .next (t.answered status body).arbitrate := by
  rw [he, State.runOccasion_inSession s i c tag _ h hs, r]

/-- A transfer command with a parameter out of range (R47). -/
theorem exec_transfer_refused
    (he : exec i s = s.runOccasion i (inSession c tag (transferCommand c w notify wait)))
    (hs : s.session c = some tag) (bad : w = none ∨ 1 < notify.toNat) (h : s.executes i = true) :
    exec i s = .next (s.answered .badParameter []).arbitrate :=
  exec_transfer he hs h (transferCommand_refused s c wait bad)

/-- A transfer command in range: QUEUE FULL, or the request admitted under the first ticket that no queued request has
(R43, R48). -/
theorem exec_transfer_judged {v : Work}
    (he : exec i s = s.runOccasion i (inSession c tag (transferCommand c w notify wait)))
    (hs : s.session c = some tag) (hw : w = some v) (hn : notify.toNat ≤ 1) (h : s.executes i = true) :
    let full : Prop := 12 ≤ s.queue.length ∨ 3 ≤ (s.queue.filter fun q => q.ctl = c).length
    (full → exec i s = .next (s.answered .queueFull []).arbitrate) ∧
    (¬ full → ∃ m : Nat, let ticket := ticketAfter^[m] s.nextTicket
      (∀ j, j < m → ∃ q ∈ s.queue, q.ticket = ticketAfter^[j] s.nextTicket) ∧ (∀ q ∈ s.queue, q.ticket ≠ ticket) ∧
      exec i s = .next (({ s with
        queue := s.queue ++ [{ ticket, ctl := c, work := v, notify := decide (notify = 1),
                               waitLimit := wait.toNat, state := .waiting }]
        nextTicket := ticketAfter ticket, occasion := true } : State).answered .accepted
          [BitVec.ofNat 8 (ticket.toNat / 256), BitVec.ofNat 8 ticket.toNat]).arbitrate) := by
  intro full
  have command := transferCommand_of_inRange s c v wait hn
  rw [← hw] at command
  refine ⟨fun hf => ?_, fun hf => ?_⟩
  · exact exec_transfer he hs h (command.trans (if_pos ((State.queueFull_iff s c).mpr hf)))
  · obtain ⟨m, ticket, passed, fresh⟩ := freshTicket_spec s.queue s.nextTicket
      (by have := not_or.mp hf; omega)
    have admitted := exec_transfer he hs h (command.trans (if_neg (mt (State.queueFull_iff s c).mp hf)))
    have ticket : s.ticket = ticketAfter^[m] s.nextTicket := ticket
    rw [State.admitRequest, halfBytes_eq, ticket] at admitted
    exact ⟨m, fun j hj => List.mem_map.mp (passed j hj), fun q hq e => fresh (e ▸ List.mem_map_of_mem hq), admitted⟩

end

/-- Settles O47: the five commands by what their parameters ask for, then by the places of the queue. -/
theorem transferAdmission : Obligations.TransferAdmission := by
  intro s c tag tap span value notify wait row target expected hs refused after full judged noSpan
  refine ⟨fun h => ?_, fun h => ?_, fun h => ?_, fun r d hr hd hn => ⟨?_, fun sp ht hl low high => ?_⟩⟩
  · refine exec_transfer_refused rfl hs (h.imp_left fun h => ?_)
    rw [loadWork, rowOf_none h]
    rfl
  · have bad : ∀ {α : Type} (f : RowId → Span → α), (do
        let r ← rowOf row
        let sp ← spanOf tap span
        return f r sp : Option α) = none ∨ 1 < notify.toNat := fun f =>
      (or_assoc.mpr h).imp_left (rowSpan_none f)
    exact ⟨exec_transfer_refused rfl hs (bad _), exec_transfer_refused rfl hs (bad _),
      exec_transfer_refused rfl hs (bad _)⟩
  · have bad : (511 < row.toNat ∨ 511 < target.toNat ∨ noSpan) ∨ 1 < notify.toNat := by tauto
    exact exec_transfer_refused rfl hs (bad.imp_left copyWork_none)
  · refine exec_transfer_judged rfl hs ?_ hn
    rw [loadWork, rowOf_of_val hr]
    rfl
  · have source := rowOf_of_val hr
    have destination := rowOf_of_val hd
    have cells := spanOf_of_val ht hl low high
    refine ⟨exec_transfer_judged rfl hs ?_ hn, exec_transfer_judged rfl hs ?_ hn, exec_transfer_judged rfl hs ?_ hn,
      exec_transfer_judged rfl hs ?_ hn⟩
    · rw [storeWork, source, cells]; rfl
    · rw [cstoreWork, source, cells]; rfl
    · rw [fillWork, source, cells]; rfl
    · rw [copyWork, source, destination, cells]; rfl

/-! ### CANCEL and QUERY TICKET (R49, R50) -/

section

variable (s : State) {c : Ctl} {tag : Byte} {ticket : Half}

theorem exec_cancel (h : s.executes (.cancel c tag ticket) = true) (hs : s.session c = some tag) {status : Status}
    {t : State} (r : cancelCommand c ticket s = { state := t, status, body := [] }) :
    exec (.cancel c tag ticket) s = .next (t.answered status []) := by
  have run := State.runFrame_inSession s _ c tag (cancelCommand c ticket) h hs
  rw [r] at run
  exact run

theorem exec_query (h : s.executes (.queryTicket c tag ticket) = true) (hs : s.session c = some tag) {status : Status}
    {body : List Byte} (r : queryCommand c ticket s = { state := s, status, body }) :
    exec (.queryTicket c tag ticket) s = .next (s.answered status body) := by
  have run := State.runFrame_inSession s _ c tag (queryCommand c ticket) h hs
  rw [r] at run
  exact run

theorem State.request_none (h : ∀ q ∈ s.queue, q.ticket ≠ ticket) : s.request ticket = none :=
  List.find?_eq_none.mpr fun q hq => by simpa using h q hq

/-- CANCEL of a queued request, by its owner and its state (R49). -/
theorem cancelCommand_of_request (ht : ticket ≠ 0) {q : QueueRequest} (hq : s.request ticket = some q) :
    (q.ctl ≠ c → cancelCommand c ticket s = refuse s .notFound) ∧
    (q.ctl = c → q.state = .active → cancelCommand c ticket s = refuse s .wrongState) ∧
    (q.ctl = c → q.state ≠ .active →
      cancelCommand c ticket s = done ((s.dequeue ticket).record ticket c q.work .cancelled none)) := by
  have silent : (s.dequeue ticket).finish q .cancelled none =
      (s.dequeue ticket).record ticket q.ctl q.work .cancelled none := by
    unfold State.finish
    rw [State.ticket_of_request hq]
    cases q.notify <;> rfl
  have command : cancelCommand c ticket s = if q.ctl ≠ c then refuse s .notFound
      else if q.state.isActive then refuse s .wrongState
      else done ((s.dequeue ticket).finish q .cancelled none) := by
    rw [cancelCommand, if_neg ht, hq]
  refine ⟨fun other => ?_, fun own active => ?_, fun own waits => ?_⟩
  · rw [command, if_pos other]
  · rw [command, if_neg (not_not.mpr own), if_pos ((RequestState.isActive_iff _).mpr active)]
  · rw [command, if_neg (not_not.mpr own), if_neg (mt (RequestState.isActive_iff _).mp waits), silent, own]

/-- The place of a ticket, when no other request has it (R50). -/
theorem State.place_of_getElem (nd : (s.queue.map (·.ticket)).Nodup) {k : Nat} {q : QueueRequest}
    (hk : s.queue[k]? = some q) : s.place q.ticket = k + 1 := by
  obtain ⟨lt, rfl⟩ := List.getElem?_eq_some_iff.mp hk
  have index : s.queue.findIdx (fun p => p.ticket = s.queue[k].ticket) = k := by
    refine (List.findIdx_eq lt).mpr ⟨decide_eq_true rfl, fun j hj => decide_eq_false fun e => ?_⟩
    have same := (List.Nodup.getElem_inj_iff nd (i := j) (j := k) (hi := by rw [List.length_map]; omega)
      (hj := by rw [List.length_map]; omega)).mp (by simpa using e)
    omega
  rw [State.place, index]

/-- QUERY TICKET of a queued request of the sender answers with its layout (R50). -/
theorem queryCommand_of_queued (ht : ticket ≠ 0) (nd : (s.queue.map (·.ticket)).Nodup) {k : Nat} {q : QueueRequest}
    (hk : s.queue[k]? = some q) (hqt : q.ticket = ticket) (hqc : q.ctl = c) :
    queryCommand c ticket s = answer s (q.layout (k + 1)) := by
  have hq := List.mem_of_getElem? hk
  have found : (s.queue.find? fun q => q.ticket = ticket && q.ctl = c) = some q := by
    obtain ⟨p, hp⟩ := Option.isSome_iff_exists.mp (List.find?_isSome.mpr ⟨q, hq, by simp [hqt, hqc]⟩ :
      (s.queue.find? fun q => q.ticket = ticket && q.ctl = c).isSome)
    have passes := List.find?_some hp
    have same_ticket : p.ticket = ticket := of_decide_eq_true (Bool.and_eq_true_iff.mp passes).1
    rw [hp, List.inj_on_of_nodup_map nd (List.mem_of_find?_eq_some hp) hq (same_ticket.trans hqt.symm)]
  rw [queryCommand, if_neg ht, found, ← hqt, State.place_of_getElem s nd hk]

/-- QUERY TICKET of a ticket that no queued request of the sender has looks in the log (R50). -/
theorem queryCommand_of_not_queued (ht : ticket ≠ 0) (h : ∀ q ∈ s.queue, q.ticket = ticket → q.ctl ≠ c) :
    (s.outcomeOf c ticket = none → queryCommand c ticket s = refuse s .notFound) ∧
    ∀ r, s.outcomeOf c ticket = some r → queryCommand c ticket s = answer s r.layout := by
  have not_queued : (s.queue.find? fun q => q.ticket = ticket && q.ctl = c) = none :=
    List.find?_eq_none.mpr fun q hq => by simpa using h q hq
  constructor
  · intro not_logged
    rw [queryCommand, if_neg ht, not_queued, not_logged]
  · intro r logged
    rw [queryCommand, if_neg ht, not_queued, logged]

/-- The newest record of the sender's ticket: no later one is of it (R50). -/
theorem State.outcomeOf_newest {older newer : List OutcomeRecord} {r : OutcomeRecord}
    (hl : s.log = older ++ r :: newer) (ht : r.ticket = ticket) (hc : r.ctl = c)
    (later : ∀ x ∈ newer, x.ticket = ticket → x.ctl ≠ c) : s.outcomeOf c ticket = some r := by
  have none_later : (newer.reverse.find? fun r => r.ticket = ticket && r.ctl = c) = none :=
    List.find?_eq_none.mpr fun x hx => by simpa using later x (List.mem_reverse.mp hx)
  rw [State.outcomeOf, hl, List.reverse_append, List.reverse_cons, List.append_assoc, List.find?_append, none_later]
  simp [ht, hc]

end

/-- Settles O48: by the queued request and its state, and by the newest record of the sender's ticket. -/
theorem cancelAndQuery : Obligations.CancelAndQuery := by
  intro s c tag ticket hs b opCode loggedCode outcomeCode
  have word_eq : ∀ n, word n = [b (n / 256), b n] := halfBytes_ofNat
  refine ⟨fun h => ⟨fun zero => ?_, fun ht none_queued => ?_, fun q ht hq => ?_⟩,
    fun h => ⟨fun zero => ?_, fun k q ht nd hk hqt hqc => ?_, fun ht not_queued => ⟨fun not_logged => ?_,
      fun older r newer hl hrt hrc later => ?_⟩⟩⟩
  · exact exec_cancel s h hs (t := s) (if_pos zero)
  · refine exec_cancel s h hs (t := s) ?_
    rw [cancelCommand, if_neg ht, State.request_none s none_queued]
    rfl
  · obtain ⟨other, active, waits⟩ := cancelCommand_of_request s (c := c) ht hq
    refine ⟨fun hc => exec_cancel s h hs (other hc), fun hc ha => exec_cancel s h hs (active hc ha),
      fun hc ha => ?_⟩
    rw [State.ticket_of_request hq]
    exact exec_cancel s h hs (waits hc ha)
  · exact exec_query s h hs (if_pos zero)
  · have layout : q.layout (k + 1) = [0x00, opCode q.work, b (q.work.row.val / 256), b q.work.row.val,
        match q.state with
        | .waiting => 0
        | .blocked _ => 1
        | .active => 2,
        match q.state with
        | .blocked t => b t
        | _ => 0, b (k + 1)] := by
      have op : q.work.op.code = opCode q.work := by cases q.work <;> rfl
      rw [QueueRequest.layout, word_eq, op]
      cases q.state <;> rfl
    exact exec_query s h hs ((queryCommand_of_queued s ht nd hk hqt hqc).trans (congrArg (answer s) layout))
  · have none_logged : s.outcomeOf c ticket = none := List.find?_eq_none.mpr fun r hr => by
      simpa using not_logged r (List.mem_reverse.mp hr)
    exact exec_query s h hs ((queryCommand_of_not_queued s ht not_queued).1 none_logged)
  · have op : r.op.code = loggedCode r.op := by cases r.op <;> rfl
    have outcome : r.outcome.code = outcomeCode r.outcome := by cases r.outcome <;> rfl
    have layout : r.layout = [0x01, loggedCode r.op, b (r.row.val / 256), b r.row.val, outcomeCode r.outcome] ++
        (match r.generation with
          | some g => [1, b (g.toNat / 256), b g.toNat]
          | none => [0, 0, 0]) ++ [b (r.finish.toNat / 256), b r.finish.toNat] := by
      rw [OutcomeRecord.layout, word_eq, op, outcome, halfBytes_eq, halfBytes_eq]
      cases r.generation <;> rfl
    exact exec_query s h hs (((queryCommand_of_not_queued s ht not_queued).2 r
      (State.outcomeOf_newest s hl hrt hrc later)).trans (congrArg (answer s) layout))

end Sys2Proof.Machine

namespace Sys2Proof.Machine

set_option Elab.async false

/-! ### A LOAD report at a lane that waits for its line (R79, R87) -/

/-- What asked for the next line has asked, when an occasion is raised after it. -/
theorem State.AskedAt.raised {u : State} {n : LaneId} {f : Position} {slot : Option SlotRequest} {o : Bool}
    (asked : ({ u with occasion := o } : State).AskedAt n f slot) (hu : u.occasion = true) : u.AskedAt n f slot := by
  have lane : ({ u with occasion := o } : State).lane n = u.lane n := rfl
  unfold State.AskedAt at asked ⊢
  rw [lane] at asked
  dsimp only at asked ⊢
  split
  · rename_i none
    rwa [none] at asked
  · rename_i line some
    rw [some] at asked
    refine ⟨asked.1, ?_⟩
    replace asked := asked.2
    split
    · rename_i row named
      rw [named] at asked
      exact ⟨asked.1, hu, asked.2.2⟩
    · rename_i blank
      rwa [blank] at asked

/-- A lane in PRIMING or STARVED whose staged line is FULL shows it and asks for the next one; the state it goes to and
the events are those of the end of its priming or of its episode (R77, R79, R87). -/
theorem State.staged_shows (v : State) {n : LaneId} {l : Lane} {x : LineRef} {g : Option Half} {p : Position}
    (ht : l.tag = .full x g) (hp : x.position = p) (waits : l.state = .priming ∨ l.state = .starved) :
    let u := (v.setLane n l).staged n
    let k := l.retires p
    u.AskedAt n (l.list.fetch.fallen k) l.slot ∧
    u.lane n = { l with
      state := (u.lane n).state, active := l.staging, current := some (x.fallen k), pointer := x.span.tap
      count := 0, follow := l.follow.map (LineRef.fallen k)
      list := { l.listAfter p l.list.fetch true with fetch := (u.lane n).list.fetch }
      tag := (u.lane n).tag, slot := (u.lane n).slot, staging := (u.lane n).staging } ∧
    (l.state = .priming →
      (u.lane n).state = (if l.startMode = some .armed then .armed else .running) ∧ u.events = v.events) ∧
    (l.state = .starved → (u.lane n).state = .running ∧
      u.events = (v.post { kind := .lineStarved, source := .party (.lane n), row := x.row,
                           count := some l.episode }).events) := by
  subst hp
  intro u k
  have lane_of : ∀ {w : State} {z : Lane} {o : Bool}, u = { w.setLane n z with occasion := o } → u.lane n = z :=
    fun run => by
      rw [run]
      exact State.setLane_lane_self _ _ _
  rcases waits with priming | starved
  · obtain ⟨z, o, run, asked, shown⟩ := State.staged_priming v n l x g ht priming
    have lane : u.lane n = z := lane_of run
    have state : z.state = if l.startMode = some .armed then .armed else .running := by rw [shown]
    refine ⟨asked u lane (congrArg State.occasion run), ?_, fun _ => ⟨?_, by rw [show u = _ from run]; rfl⟩,
      fun h => absurd (priming.symm.trans h) nofun⟩
    · rw [lane, state]
      exact shown
    · rw [lane, state]
  · obtain ⟨z, o, run, asked, shown⟩ := State.staged_starved v n l x g ht starved
    have lane : u.lane n = z := lane_of run
    have state : z.state = .running := by rw [shown]
    refine ⟨asked u lane (congrArg State.occasion run), ?_, fun h => absurd (starved.symm.trans h) nofun,
      fun _ => ⟨?_, by rw [show u = _ from run]; rfl⟩⟩
    · rw [lane, state]
      exact shown
    · rw [lane, state]

/-- Lane l once its LOAD has delivered the row's image and is reported: its slot empty, its staged line FULL (R77). -/
def Lane.loaded (l : Lane) (image : Memory) (line : LineRef) (generation : Half) : Lane :=
  { l with staging := image, slot := none, tag := .full line (some generation) }

theorem State.loadReport_of_setLane (d : State) (n : LaneId) (l : Lane) {line : LineRef} (image : Memory) (g : Half)
    (ht : l.tag = .pending line) :
    (d.setLane n { l with staging := image }).loadReport n g = (d.setLane n (l.loaded image line g)).staged n := by
  rw [State.loadReport, State.modLane_setLane]
  simp only [ht]
  rfl

/-- A lane's LOAD that is kept and completes: what the lane does with its staged line, over a part that stands but for
the completion's credit. -/
theorem State.completeTransfer_loaded (s : State) {x : Transfer} {r : RowId} {n : LaneId} {line : LineRef}
    (hw : x.work = .load r) (hn : x.requester = .lane n) (hd : x.discard = false) (hz : x.softReset = false)
    (ht : (s.lane n).tag = .pending line) :
    ∃ d : State, (d.events = s.events ∧ d.eventCounter = s.eventCounter ∧ d.clock = s.clock) ∧
      s.completeTransfer x = { (d.setLane n ((s.lane n).loaded (s.rowImage r) line x.startGeneration)).staged n with
        occasion := true, array := none } := by
  have credits_lane : (s.credits x).lane n = s.lane n := by
    unfold State.lane
    rw [State.credits_frame]
  have report : (s.delivered x).report x = (s.delivered x).loadReport n x.startGeneration := by
    simp only [State.report, hn, State.laneReport, hd, hz, hw, Bool.false_eq_true, or_self, if_false]
  have delivered : s.delivered x = (s.credits x).setLane n { s.lane n with staging := s.rowImage r } := by
    rw [State.delivered_load_lane s hw hd hn, State.modLane, credits_lane]
  refine ⟨s.credits x, by rw [State.credits_frame]; exact ⟨rfl, rfl, rfl⟩, ?_⟩
  rw [State.completeTransfer_eq, report, delivered, State.loadReport_of_setLane _ _ _ _ _ ht]

/-- Settles O26: the completion of a lane's LOAD, its report by the end of the priming or of the episode. -/
theorem loadReportShowsLine : Obligations.LoadReportShowsLine := by
  intro s x r n line hx hw hn hd hz ht l p k
  have op : completionOf x.work.op = .loadCompletion := by rw [hw]; rfl
  obtain ⟨queue, log, orphan, buffers, others, -, -⟩ := State.completeTransfer_lane s x n hn
  obtain ⟨d, same, complete⟩ := State.completeTransfer_loaded s hw hn hd hz ht
  have shows := State.staged_shows d (n := n) (l := l.loaded (s.rowImage r) line x.startGeneration) rfl
    (p := p) rfl
  obtain ⟨t, staged⟩ : ∃ t, (d.setLane n (l.loaded (s.rowImage r) line x.startGeneration)).staged n = t := ⟨_, rfl⟩
  rw [staged] at complete shows
  have lane : (s.completeTransfer x).lane n = t.lane n := by rw [complete]; rfl
  have events : (s.completeTransfer x).events = t.events := by rw [complete]
  refine ⟨s.completeTransfer x, op ▸ exec_completionOf s x hx, others, ?_, fun waits => ?_, fun priming => ?_,
    fun starved => ?_⟩
  · have frame := State.completeTransfer_frame s x
    dsimp only at frame
    rw [queue, log, orphan, buffers, State.writeEffects_of_unwritten s (Transfer.writes_load hw)] at frame
    rw [frame]
  · obtain ⟨asked, shown, -, -⟩ := shows waits
    have asks : (s.completeTransfer x).AskedAt n (l.list.fetch.fallen k) none := by
      rw [complete]
      exact State.AskedAt.raised asked rfl
    rw [lane, shown]
    exact ⟨fun j hj => State.rowImage_read s r hj, rfl, rfl, rfl, rfl, rfl, rfl, asks⟩
  · obtain ⟨-, -, ended, -⟩ := shows (.inl priming)
    rw [lane, events, ← same.1]
    exact ended priming
  · obtain ⟨-, -, -, ended⟩ := shows (.inr starved)
    obtain ⟨state, posted⟩ := ended starved
    rw [lane, events]
    exact ⟨state, posted.trans (State.post_congr _ _ _ same).1⟩

end Sys2Proof.Machine

namespace Sys2Proof.Machine

set_option Elab.async false

variable (s : State)

/-! ### The refusal of a queued request (R46, R52 to R54) -/

theorem limitReached_iff (limit : Nat) (r : RequestState) : limitReached limit r = true ↔ r = .blocked limit :=
  decide_eq_true_iff

theorem exec_requestRefusal_ticket {q : QueueRequest} (hq : s.request q.ticket = some q) :
    exec (.requestRefusal (.ticket q.ticket)) s =
      .next (if q.state = .blocked q.waitLimit then (s.refuseRequest q).arbitrate else s) := by
  show execRequestRefusal (.ticket q.ticket) s = _
  unfold execRequestRefusal
  simp only [hq, limitReached_iff]

theorem exec_requestRefusal_slot (n : LaneId) : exec (.requestRefusal (.slot n)) s =
    .next (if s.slotLimitReached n then (s.refuseSlot n).arbitrate else s) := rfl

theorem State.slotLimitReached_iff (n : LaneId) : s.slotLimitReached n = true ↔
    ∃ q, (s.lane n).slot = some q ∧ q.state = .blocked q.waitLimit := by
  simp only [State.slotLimitReached, Option.any_eq_true, limitReached_iff]

theorem State.refuseRequest_queue (q : QueueRequest) :
    (s.refuseRequest q).queue = s.queue.filter fun r => r.ticket ≠ q.ticket := State.finish_queue _ _ _ _

theorem State.refuseRequest_log (q : QueueRequest) :
    (s.refuseRequest q).log = logAppend s.log
      { ticket := q.ticket, ctl := q.ctl, op := q.work.op, row := q.work.row, outcome := .claimTimeout,
        generation := none, finish := s.clock } :=
  State.finish_log _ _ _ _

/-- A refused request posts TRANSFER DONE exactly when its notify flag is set (R54). -/
theorem State.refuseRequest_events (q : QueueRequest) : (s.refuseRequest q).events =
    if q.notify = true then (s.post { kind := .transferDone, source := .party (.ctl q.ctl), row := some q.work.row,
                                      ticket := some q.ticket, cause := some .claimTimeout }).events
    else s.events := by
  unfold State.refuseRequest
  cases h : q.notify with
  | true =>
    rw [State.finish_notified _ _ _ _ _ h rfl]
    rw [if_pos rfl]
    exact (State.post_congr ((s.dequeue q.ticket).record q.ticket q.ctl q.work .claimTimeout none) s _
      ⟨rfl, rfl, rfl⟩).1
  | false =>
    rw [State.finish_silent _ _ _ _ h]
    rfl

/-! ### The refusal of a slot request under SKIP, at an IN lane (R94) -/

theorem State.StagingFreed.of_raised {u posted : State} {n : LaneId} {row : RowId}
    (h : s.StagingFreed { u with occasion := true } n posted row)
    (raised : ∀ c line, (s.lane n).state = .blocked ∨ (s.lane n).state = .draining ∨ (s.lane n).state = .paused →
      (s.lane n).held = true → (s.lane n).current = some c → c.row = some line → u.occasion = true) :
    s.StagingFreed u n posted row where
  streaming := h.streaming
  blocked := fun c f hs hh hc hf => by
    obtain ⟨state, held, current, follow, pointer, count, mark, setup, lines, list, stores, drops, events⟩ :=
      h.blocked c f hs hh hc hf
    exact ⟨state, held, current, follow, pointer, count, mark, setup, lines, list, fun line hr =>
      have ⟨staging, tag, _, slot⟩ := stores line hr
      ⟨staging, tag, raised c line (.inl hs) hh hc hr, slot⟩, drops, events⟩
  stored := fun c line hs hh hc hr =>
    have ⟨lane, _, events⟩ := h.stored c line hs hh hc hr
    ⟨lane, raised c line (.inr hs) hh hc hr, events⟩
  dropped := h.dropped
  waiting := h.waiting
  drained := h.drained

/-- Staging that is free again frees it whatever its tag was. -/
theorem State.freeStaging_of_setLane (n : LaneId) (l : Lane) (row : RowId) :
    (s.setLane n { l with tag := .empty }).freeStaging n row = (s.setLane n l).freeStaging n row := by
  simp only [State.freeStaging, State.modLane_setLane, State.setLane_lane_self]

/-- An IN lane whose request is refused under SKIP frees its staging as after a STORE report, ENTRY SKIPPED posted
before. -/
theorem State.refuseSlot_skip_into {n : LaneId} {q : SlotRequest} (hq : (s.lane n).slot = some q)
    (hp : (s.lane n).setup.policy = .skip) (hd : (s.lane n).setup.direction = .into) :
    s.refuseSlot n = (s.lanePost n .entrySkipped (some q.work.row) none none).storeReport n q.work.row := by
  simp only [State.refuseSlot, hq, hp, State.skipLane, State.modLane, State.setLane_lane_self, State.setLane_setLane,
    hd, State.lanePost, State.setLane_post, State.storeReport, State.post_lane]
  exact State.freeStaging_of_setLane _ n { s.lane n with slot := none } q.work.row

/-- A STORE placed by a lane whose staging is free again is an occasion (R56). -/
theorem State.storeReport_occasion {n : LaneId} {row line : RowId} {c : LineRef}
    (hs : (s.lane n).state = .blocked ∨ (s.lane n).state = .draining ∨ (s.lane n).state = .paused)
    (hh : (s.lane n).held = true) (hc : (s.lane n).current = some c) (hr : c.row = some line) :
    (s.storeReport n row).occasion = true := by
  have stores := State.disposeHeld_stores s n hh hc hr
  rcases hs with hs | hs | hs
  · rw [State.storeReport_blocked row hs]
    unfold State.endBlocked
    rw [stores, State.lanePost, State.post_frame]
    rfl
  · rw [State.storeReport_draining row hs, stores, State.endDrain_storing]
    rfl
  · rw [State.storeReport_paused row hs, stores]
    rfl

theorem State.stagingFreed_of_refuseSlot {n : LaneId} {q : SlotRequest} (hq : (s.lane n).slot = some q)
    (hp : (s.lane n).setup.policy = .skip) (hd : (s.lane n).setup.direction = .into) :
    s.StagingFreed (s.refuseSlot n) n
      (s.post { kind := .entrySkipped, source := .party (.lane n), row := some q.work.row }) q.work.row := by
  have skipped_lane : (s.lanePost n .entrySkipped (some q.work.row) none none).lane n = s.lane n :=
    State.post_lane _ _ _
  rw [State.refuseSlot_skip_into s hq hp hd]
  refine .of_raised s (State.stagingFreed_of_storeReport skipped_lane ⟨rfl, rfl, rfl⟩ rfl rfl rfl)
    fun c line hs hh hc hr => State.storeReport_occasion _ ?_ ?_ ?_ hr
  all_goals rw [skipped_lane]; assumption

/-! ### The refusal of a slot request under SKIP, at an OUT lane (R93, R105) -/

theorem LineRef.map_fallen_zero (o : Option LineRef) : o.map (LineRef.fallen 0) = o := by
  cases o <;> rfl

theorem RowList.position_of_lineAt {l : RowList} {p : Position} {r : LineRef} (h : l.lineAt p = some r) :
    r.position = p := by
  unfold RowList.lineAt at h
  split at h
  · split at h
    · cases h
      rfl
    · cases h
  · cases h

/-- Whether the refused line was the next that the lane would show (R105). -/
def Lane.passes (l : Lane) (x : LineRef) : Bool :=
  !l.list.showing && l.list.shown = { entry := x.entry, rep := x.rep }

/-- How many entries leave the list as the refused line is passed over (R105, R106). -/
def Lane.passRetires (l : Lane) (x : LineRef) : Nat := if l.passes x then l.retires l.list.fetch else 0

/-- The list of a lane whose refused line is passed over (R105). -/
def Lane.passedList (l : Lane) (x : LineRef) : RowList :=
  if l.passes x then l.listAfter l.list.fetch l.list.fetch false else l.list

/-- An OUT lane whose request is refused under SKIP, as it asks for the next line: slot and staging empty, the refused
line passed over (R93, R105). -/
def Lane.passedOver (l : Lane) (x : LineRef) : Lane :=
  { l.freed with current := l.current.map (LineRef.fallen (l.passRetires x))
                 follow := l.follow.map (LineRef.fallen (l.passRetires x)), list := l.passedList x }

theorem Lane.passOver_freed (l : Lane) (x : LineRef) : l.freed.passOver (some x) = l.passedOver x := by
  have asks : (l.list.showing = false ∧ l.list.shown = x.position) ↔ l.passes x = true := by
    simp only [Lane.passes, Bool.and_eq_true, Bool.not_eq_true', decide_eq_true_eq]
    rfl
  unfold Lane.passOver Lane.passedOver Lane.passRetires Lane.passedList
  cases h : l.passes x with
  | true =>
    refine (if_pos (asks.mpr h)).trans ?_
    rw [Lane.moveShow_listAfter]
    rfl
  | false =>
    refine (if_neg (mt asks.mp (by rw [h]; exact nofun))).trans ?_
    simp only [Bool.false_eq_true, if_false, LineRef.map_fallen_zero]
    rfl

theorem Lane.passedOver_nextLine (l : Lane) (x : LineRef) :
    (l.passedOver x).nextLine = l.nextLine.map (LineRef.fallen (l.passRetires x)) := by
  unfold Lane.passedOver Lane.passRetires Lane.passedList
  cases h : l.passes x with
  | true =>
    have before : l.retires l.list.fetch ≤ l.list.fetch.entry := by
      unfold Lane.retires
      split
      · exact le_refl _
      · exact Nat.zero_le _
    exact Lane.nextLine_retire { l with list := { l.list with shown := l.list.fetch, showing := false } } _ before
  | false =>
    simp only [Bool.false_eq_true, if_false, LineRef.map_fallen_zero]
    rfl

theorem Lane.passedOver_asks {l : Lane} {x y : LineRef} (h : l.nextLine = some y) :
    (l.passedOver x).nextLine = some (y.fallen (l.passRetires x)) := by
  rw [Lane.passedOver_nextLine, h]
  rfl

/-- An OUT lane whose request is refused under SKIP posts ENTRY SKIPPED, passes the refused line over and acts on the
answer to its request for the next one (R93). -/
theorem State.refuseSlot_skip_out {n : LaneId} {q : SlotRequest} {x : LineRef} (hq : (s.lane n).slot = some q)
    (hp : (s.lane n).setup.policy = .skip) (hd : (s.lane n).setup.direction = .out)
    (ht : (s.lane n).tag = .pending x) : s.refuseSlot n =
      ((s.lanePost n .entrySkipped (some q.work.row) none none).setLane n ((s.lane n).passedOver x)).afterSkip n := by
  have line : (s.lane n).tag.line = some x := by rw [ht]; rfl
  rw [← Lane.passOver_freed, ← line]
  simp only [State.refuseSlot, hq, hp, State.skipLane, State.modLane, State.setLane_lane_self, State.setLane_setLane,
    hd, State.lanePost, State.setLane_post]
  rfl

section

variable {v : State} {n : LaneId} {c : Lane}

/-! A lane that asks for the next line after a refusal, by the line answered (Table of R93). -/

theorem State.afterSkip_row {y : LineRef} {row : RowId} (h : c.nextLine = some y) (hr : y.row = some row) :
    (v.setLane n c).afterSkip n = (v.setLane n { c.advanceFetch with
      tag := .pending y
      slot := some { work := .load row, waitLimit := c.setup.waitLimit, state := .waiting } }).raise := by
  have lane : ∀ a : Lane, (v.setLane n a).raise.lane n = a := fun a => State.setLane_lane_self v n a
  simp only [State.afterSkip, State.requestNext_row h hr, lane]

/-- A lane that has asked for a next line that is blank: FULL with the fill value in every cell (R76). -/
def Lane.blankStaged (c : Lane) (y : LineRef) : Lane :=
  { c.advanceFetch with tag := .full y none, staging := blankLine c.setup.fill }

theorem State.afterSkip_blank {y : LineRef} (h : c.nextLine = some y) (hr : y.row = none) :
    (v.setLane n c).afterSkip n = (v.setLane n (c.blankStaged y)).staged n := by
  simp only [State.afterSkip, State.requestNext_blank h hr, State.setLane_lane_self]
  rfl

theorem State.afterSkip_none (h : c.nextLine = none) (ht : c.tag = .empty) :
    (v.setLane n c).afterSkip n = if c.state = .priming ∨ c.state = .starved then (v.setLane n c).laneDone n
      else v.setLane n c := by
  have stands : { c with tag := .empty } = c := by rw [← ht]
  simp only [State.afterSkip, State.requestNext_none h, stands, State.setLane_lane_self, ht]
  cases c.state <;> rfl

theorem LaneState.waits_not_of_goes {z : LaneState} (h : z = .running ∨ z = .armed ∨ z = .paused) :
    z ≠ .priming ∧ z ≠ .starved := by
  rcases h with rfl | rfl | rfl <;> decide

theorem State.askedAt_of_blank {u : State} {y : LineRef} (h : c.nextLine = some y) (hr : y.row = none)
    (hu : u.lane n = c.blankStaged y) : u.AskedAt n c.list.fetch c.slot := by
  obtain ⟨z, o, run, asked, -⟩ := State.requestNext_asked u n c
  rw [State.requestNext_blank h hr] at run
  have lane : c.blankStaged y = z := by
    have lanes := congrArg (fun t : State => t.lane n) run
    exact (State.setLane_lane_self u n _).symm.trans (lanes.trans (State.setLane_lane_self u n z))
  have occasion : u.occasion = o := congrArg State.occasion run
  exact asked u (hu.trans lane) occasion

end

section

variable {s} {n : LaneId} {q : SlotRequest} {x : LineRef} (hq : (s.lane n).slot = some q)
  (hp : (s.lane n).setup.policy = .skip) (hd : (s.lane n).setup.direction = .out) (ht : (s.lane n).tag = .pending x)

include hq hp hd ht

/-- The next line has a row: it is the lane's new request. -/
theorem State.refuseSlot_skip_row {y : LineRef} {row : RowId} (h : (s.lane n).nextLine = some y)
    (hr : y.row = some row) :
    let l := s.lane n
    let u := s.refuseSlot n
    u.lane n = { l.passedOver x with
      tag := .pending (y.fallen (l.passRetires x))
      slot := some { work := .load row, waitLimit := l.setup.waitLimit, state := .waiting }
      list := { l.passedList x with
        fetch := positionAfter (l.passedList x).entries l.setup.mode (l.passedList x).fetch } } ∧
    u.occasion = true ∧
    u.events = (s.post { kind := .entrySkipped, source := .party (.lane n), row := some q.work.row }).events := by
  intro l u
  have refused : u = _ := (State.refuseSlot_skip_out s hq hp hd ht).trans
    (State.afterSkip_row (Lane.passedOver_asks h) hr)
  rw [refused, positionAfter_eq]
  exact ⟨State.setLane_lane_self _ _ _, rfl, rfl⟩

/-- The next line is blank: it is FULL in staging, and what follows is by the state (R76, R77). -/
theorem State.refuseSlot_skip_blank {y : LineRef} (h : (s.lane n).nextLine = some y) (hr : y.row = none) :
    s.refuseSlot n = ((s.lanePost n .entrySkipped (some q.work.row) none none).setLane n
      (((s.lane n).passedOver x).blankStaged (y.fallen ((s.lane n).passRetires x)))).staged n :=
  (State.refuseSlot_skip_out s hq hp hd ht).trans
    (State.afterSkip_blank (Lane.passedOver_asks (x := x) h) hr)

/-- The next line is blank and the lane waits for none: the line stays FULL in staging. -/
theorem State.refuseSlot_skip_blank_staged {y : LineRef} (h : (s.lane n).nextLine = some y) (hr : y.row = none)
    (goes : (s.lane n).state = .running ∨ (s.lane n).state = .armed ∨ (s.lane n).state = .paused) :
    let l := s.lane n
    let u := s.refuseSlot n
    u.lane n = (l.passedOver x).blankStaged (y.fallen (l.passRetires x)) ∧
    u.AskedAt n (l.passedList x).fetch none ∧
    u.events = (s.post { kind := .entrySkipped, source := .party (.lane n), row := some q.work.row }).events := by
  intro l u
  have refused : u = (s.lanePost n .entrySkipped (some q.work.row) none none).setLane n
      ((l.passedOver x).blankStaged (y.fallen (l.passRetires x))) := by
    obtain ⟨not_priming, not_starved⟩ := LaneState.waits_not_of_goes goes
    refine (State.refuseSlot_skip_blank hq hp hd ht h hr).trans (State.staged_of_not_waiting _ ?_ ?_)
    · rw [State.setLane_lane_self]
      exact not_priming
    · rw [State.setLane_lane_self]
      exact not_starved
  have lane : u.lane n = (l.passedOver x).blankStaged (y.fallen (l.passRetires x)) := by
    rw [refused, State.setLane_lane_self]
  exact ⟨lane, State.askedAt_of_blank (Lane.passedOver_asks h) hr lane, by rw [refused]; rfl⟩

/-- The next line is blank and the lane waits for it: it is shown, and the line after it asked for (R79, R87). -/
theorem State.refuseSlot_skip_blank_shown {y : LineRef} (h : (s.lane n).nextLine = some y) (hr : y.row = none)
    (waits : (s.lane n).state = .priming ∨ (s.lane n).state = .starved) :
    let l := s.lane n
    let b : Lane := { l with list := l.passedList x }
    let u := s.refuseSlot n
    let p := b.list.fetch
    let skipped := s.post { kind := .entrySkipped, source := .party (.lane n), row := some q.work.row }
    (u.lane n).current = some ((y.fallen (l.passRetires x)).fallen (b.retires p)) ∧
    (u.lane n).pointer = y.span.tap ∧ (u.lane n).count = 0 ∧ (u.lane n).active = blankLine l.setup.fill ∧
    (u.lane n).lines = l.lines ∧ (u.lane n).list = { b.listAfter p p true with fetch := (u.lane n).list.fetch } ∧
    u.AskedAt n ((positionAfter b.list.entries l.setup.mode p).fallen (b.retires p)) none ∧
    (l.state = .priming → u.events = skipped.events ∧
      (u.lane n).state = if l.startMode = some .armed then .armed else .running) ∧
    (l.state = .starved → (u.lane n).state = .running ∧ u.events = (skipped.post
      { kind := .lineStarved, source := .party (.lane n), count := some l.episode }).events) := by
  intro l b u p skipped
  have refused : u = _ := State.refuseSlot_skip_blank hq hp hd ht h hr
  have position : (y.fallen (l.passRetires x)).position = p :=
    RowList.position_of_lineAt (Lane.passedOver_asks (x := x) h)
  obtain ⟨asked, shown, priming, starved⟩ := State.staged_shows (n := n)
    (s.lanePost n .entrySkipped (some q.work.row) none none)
    (l := (l.passedOver x).blankStaged (y.fallen (l.passRetires x))) rfl position waits
  rw [← refused] at asked shown priming starved
  have fetch : positionAfter b.list.entries l.setup.mode p = b.list.successor l.setup.mode p := positionAfter_eq _ _ _
  have blank : y.row = (y.fallen (l.passRetires x)).row := rfl
  refine ⟨congrArg Lane.current shown, congrArg Lane.pointer shown, congrArg Lane.count shown,
    congrArg Lane.active shown, (congrArg Lane.lines shown).trans rfl, congrArg Lane.list shown, ?_,
    fun h => ?_, fun h => ?_⟩
  · rw [fetch]
    exact asked
  · exact (priming h).symm
  · obtain ⟨state, events⟩ := starved h
    rw [← blank, hr] at events
    exact ⟨state, events⟩

/-- No line is left: staging is empty, and a lane that waits for one posts LANE DONE and is IDLE (R93, R109). -/
theorem State.refuseSlot_skip_done (h : (s.lane n).nextLine = none) :
    let l := s.lane n
    let b : Lane := { l with list := l.passedList x }
    let u := s.refuseSlot n
    let skipped := s.post { kind := .entrySkipped, source := .party (.lane n), row := some q.work.row }
    (u.lane n).slot = none ∧ (u.lane n).tag = .empty ∧
    (l.state = .running ∨ l.state = .armed ∨ l.state = .paused →
      (u.lane n).state = l.state ∧ (u.lane n).list = l.passedList x ∧ u.events = skipped.events) ∧
    (l.state = .priming ∨ l.state = .starved →
      (u.lane n).state = .idle ∧ (u.lane n).list = b.rolledBack ∧ u.events = (skipped.post
        { kind := .laneDone, source := .party (.lane n), count := some l.lines }).events) := by
  intro l b u skipped
  have asks : (l.passedOver x).nextLine = none := by
    rw [Lane.passedOver_nextLine, h]
    rfl
  have refused : u = _ := (State.refuseSlot_skip_out s hq hp hd ht).trans (State.afterSkip_none asks rfl)
  by_cases waits : l.state = .priming ∨ l.state = .starved
  · rw [if_pos (show (l.passedOver x).state = .priming ∨ (l.passedOver x).state = .starved from waits)] at refused
    have lane : u.lane n = (l.passedOver x).enterIdle := by
      rw [refused, State.laneDone, State.modLane_self, State.lanePost_lane, State.setLane_lane_self]
    have done : u.events = (skipped.post
        { kind := .laneDone, source := .party (.lane n), count := some l.lines }).events := by
      rw [refused, State.laneDone, State.modLane_events, State.setLane_lane_self]
      exact State.lanePost_events _ _ _ _ _ _ _
    rw [lane, Lane.enterIdle_eq, done]
    exact ⟨rfl, rfl, fun goes => absurd waits (not_or.mpr (LaneState.waits_not_of_goes goes)),
      fun _ => ⟨rfl, rfl, rfl⟩⟩
  · rw [if_neg (show ¬ ((l.passedOver x).state = .priming ∨ (l.passedOver x).state = .starved) from waits)] at refused
    rw [refused, State.setLane_lane_self]
    exact ⟨rfl, rfl, fun _ => ⟨rfl, rfl, rfl⟩, fun h => absurd h waits⟩

end

/-- Settles O10: the queued request by its notify flag; the lane by its policy, its direction and the line answered. -/
theorem waitLimitRefusals : Obligations.WaitLimitRefusals := by
  refine ⟨fun s q hq => ⟨fun limit => ?_, fun limit => ?_⟩, fun s n below => ?_, fun s n q hq => ?_⟩
  · refine ⟨s.refuseRequest q, ?_, State.refuseRequest_frame q s, State.refuseRequest_queue s q,
      State.refuseRequest_log s q, fun silent => ?_, fun notified => ?_⟩
    · rw [exec_requestRefusal_ticket s hq, if_pos limit]
    · rw [State.refuseRequest_events, silent]
      rfl
    · rw [State.refuseRequest_events, if_pos notified]
  · rw [exec_requestRefusal_ticket s hq, if_neg limit]
  · rw [exec_requestRefusal_slot, if_neg]
    rw [State.slotLimitReached_iff]
    exact fun ⟨q, hq, limit⟩ => below q hq limit
  intro l u skipped
  refine ⟨fun limit => ?_, ?_, fun m hm => (acts_refuseSlot s n).other hm, fun hp => ⟨?_, ?_⟩,
    fun hp hd => State.stagingFreed_of_refuseSlot s hq hp hd, fun x hp hd ht => ?_⟩
  · rw [exec_requestRefusal_slot, if_pos ((State.slotLimitReached_iff s n).mpr ⟨q, hq, limit⟩)]
  · have frame : LaneFrame s u := (acts_refuseSlot s n).frame
    rw [LaneFrame, State.refuseSlot_array] at frame
    exact frame
  · show (s.refuseSlot n).lane n = _
    rw [State.refuseSlot_halt s hq hp, State.lanePost_lane, State.setLane_lane_self]
    rfl
  · show (s.refuseSlot n).events = _
    rw [State.refuseSlot_halt s hq hp]
    exact State.lanePost_events _ _ _ _ _ _ _
  · intro passed k base b
    refine ⟨fun y row h hr => State.refuseSlot_skip_row hq hp hd ht h hr,
      fun y h hr => ⟨fun goes => ?_, fun waits => ?_⟩, State.refuseSlot_skip_done hq hp hd ht⟩
    · obtain ⟨lane, asked, events⟩ := State.refuseSlot_skip_blank_staged hq hp hd ht h hr goes
      refine ⟨(congrArg Lane.state lane).trans rfl, ?_, congrArg Lane.current lane, asked, events⟩
      show ((s.refuseSlot n).lane n).list = { base with fetch := ((s.refuseSlot n).lane n).list.fetch }
      rw [lane]
      rfl
    · obtain ⟨current, pointer, count, active, lines, list, asked, priming, starved⟩ :=
        State.refuseSlot_skip_blank_shown hq hp hd ht h hr waits
      refine ⟨current, pointer, count, fun j hj => ?_, lines, list, asked, priming, starved⟩
      show ((s.refuseSlot n).lane n).active.read j = _
      rw [active, blankLine, Memory.read_ofCells, if_pos hj]

end Sys2Proof.Machine

namespace Sys2Proof.Machine

set_option Elab.async false

variable (s : State)

/-! ### LANE SETUP and LANE STATUS (R72, R96, R180) -/

theorem exec_laneSetup {c : Ctl} {tag lane direction fill policy mode wait : Byte}
    (h : s.executes (.laneSetup c tag lane direction fill policy mode wait) = true) (hs : s.session c = some tag)
    {r : Reply} (hr : laneSetupCommand lane direction fill policy mode wait s = r) :
    exec (.laneSetup c tag lane direction fill policy mode wait) s = .next (r.state.answered r.status r.body) :=
  hr ▸ State.runFrame_inSession s _ c tag _ h hs

theorem exec_laneStatus {c : Ctl} {tag lane : Byte} (h : s.executes (.laneStatus c tag lane) = true)
    (hs : s.session c = some tag) {r : Reply} (hr : laneStatusCommand lane s = r) :
    exec (.laneStatus c tag lane) s = .next (r.state.answered r.status r.body) :=
  hr ▸ State.runFrame_inSession s _ c tag _ h hs

/-- A choice by a flag byte. -/
theorem flag_ite {α : Type} {b : Byte} (h : b.toNat ≤ 1) (x y : α) :
    (if decide (b = 1) = true then y else x) = if b = 0 then x else y := by
  rcases flag_cases h with rfl | rfl <;> rfl

/-- The setup that bytes in range name. -/
theorem setupOf_of_flags {direction policy mode : Byte} (fill wait : Byte) (hd : direction.toNat ≤ 1)
    (hp : policy.toNat ≤ 1) (hm : mode.toNat ≤ 1) : setupOf direction fill policy mode wait =
      some { direction := if direction = 0 then .out else .into, fill, waitLimit := wait.toNat
             policy := if policy = 0 then .skip else .halt
             mode := if mode = 0 then .once else .cycle } := by
  simp only [setupOf, flagOf_of_le hd, flagOf_of_le hp, flagOf_of_le hm, flag_ite hd, flag_ite hp, flag_ite hm]

theorem setupOf_none {direction policy mode : Byte} (fill wait : Byte)
    (h : 1 < direction.toNat ∨ 1 < policy.toNat ∨ 1 < mode.toNat) :
    setupOf direction fill policy mode wait = none := by
  unfold setupOf
  split
  · rename_i hd hp hm
    rcases h with h | h | h
    · exact nomatch (flagOf_none h).symm.trans hd
    · exact nomatch (flagOf_none h).symm.trans hp
    · exact nomatch (flagOf_none h).symm.trans hm
  · rfl

/-- LANE SETUP of lane n with the setup that the bytes name. -/
theorem laneSetupCommand_eq {n : LaneId} {lane direction fill policy mode wait : Byte} {setup : LaneSetup}
    (hn : n.val = lane.toNat) (named : setupOf direction fill policy mode wait = some setup) :
    laneSetupCommand lane direction fill policy mode wait s =
      if (s.lane n).state = .off ∨ (s.lane n).state = .idle then
        done (s.setLane n { s.lane n with setup, state := .idle })
      else refuse s .wrongState := by
  simp only [laneSetupCommand, laneOf_of_val hn, named]
  rfl

/-- Settles O28: by the range of the bytes and the state of the lane. -/
theorem laneSetupWritesFields : Obligations.LaneSetupWritesFields := by
  intro s c tag lane direction fill policy mode wait i h hs
  refine ⟨fun bad => exec_laneSetup s h hs (r := refuse s .badParameter) ?_, fun n hn hd hp hm => ?_⟩
  · rcases bad with bad | bad
    · simp only [laneSetupCommand, laneOf_none bad]
    · rw [laneSetupCommand, setupOf_none fill wait bad]
      cases laneOf lane <;> rfl
  · have command := laneSetupCommand_eq s hn (setupOf_of_flags fill wait hd hp hm)
    exact ⟨fun off idle => exec_laneSetup s h hs (command.trans (if_neg (not_or.mpr ⟨off, idle⟩))),
      fun rests => exec_laneSetup s h hs (command.trans (if_pos rests))⟩

/-- The ten bytes of a staging tag: its condition, its line, and its generation with whether one is there (R180). -/
def Staging.bytes (t : Staging) : List Byte :=
  [t.code] ++ lineBytes t.line ++ ([bitByte t.generation.isSome] ++ halfBytes (t.generation.getD 0))

theorem Staging.bytes_of_no_generation {t : Staging} (h : t.generation = none) :
    t.bytes = [t.code] ++ lineBytes t.line ++ [0, 0, 0] := by
  have absent : [bitByte (none : Option Half).isSome] ++ halfBytes ((none : Option Half).getD 0) = [0, 0, 0] := by
    decide
  rw [Staging.bytes, h, absent]

theorem Staging.bytes_full_some (r : LineRef) (g : Half) : (Staging.full r (some g)).bytes =
    [2] ++ lineBytes (some r) ++ [1] ++ [BitVec.ofNat 8 (g.toNat / 256), BitVec.ofNat 8 g.toNat] := by
  rw [← halfBytes_eq, List.append_assoc]
  rfl

theorem lineBytes_some (r : LineRef) : lineBytes (some r) =
    [BitVec.ofNat 8 r.entry, BitVec.ofNat 8 r.rep] ++ rowBytes r.row ++
      [BitVec.ofNat 8 r.span.tap.val, BitVec.ofNat 8 r.span.len] := rfl

theorem rowBytes_some (x : RowId) : rowBytes (some x) = [BitVec.ofNat 8 (x.val / 256), BitVec.ofNat 8 x.val] :=
  word_eq x.val

theorem rowBytes_length (o : Option RowId) : (rowBytes o).length = 2 := by cases o <;> rfl

theorem lineBytes_length (o : Option LineRef) : (lineBytes o).length = 6 := by
  cases o with
  | none => rfl
  | some r => simp only [lineBytes_some, List.length_append, rowBytes_length, List.length_cons, List.length_nil]

/-- The body of LANE STATUS in its parts: the fixed bytes, the two lines, the staging tag, the two counts. -/
theorem Lane.statusBody_eq (l : Lane) : l.statusBody =
    [l.state.code, byteOf ((if l.stopPending then 1 else 0) + (if l.held then 2 else 0)), l.setup.direction.code,
      l.setup.fill, l.setup.policy.code, l.setup.mode.code, byteOf l.setup.waitLimit, byteOf l.pointer.val,
      byteOf l.count] ++ lineBytes l.current ++ lineBytes (if l.state = .blocked then l.follow else none) ++
    l.tag.bytes ++ halfBytes l.lines ++ halfBytes l.episode := by
  simp only [Lane.statusBody, Staging.bytes, List.append_assoc]

theorem Lane.statusBody_length (l : Lane) : l.statusBody.length = 35 := by
  simp only [Lane.statusBody, List.length_append, lineBytes_length, halfBytes, List.length_cons, List.length_nil]

/-- Settles O33: the body part by part, each as section 9.6 gives it. -/
theorem laneStatusLayout : Obligations.LaneStatusLayout := by
  intro s c tag lane h hs b wide stateCode ref
  refine ⟨fun bad => exec_laneStatus s h hs (r := refuse s .badParameter)
    (by simp only [laneStatusCommand, laneOf_none bad]), fun n hn => ?_⟩
  intro l body
  have line : ∀ o, lineBytes o = ref o := fun o => by
    rcases o with _ | ⟨entry, rep, row, span⟩
    · rfl
    · rw [lineBytes_some]
      cases row with
      | none => rfl
      | some x => rw [rowBytes_some]
  have layout : l.statusBody = body := by
    have state : l.state.code = stateCode l.state := by cases l.state <;> rfl
    have direction : l.setup.direction.code = if l.setup.direction = .out then 0 else 1 := by
      cases l.setup.direction <;> rfl
    have policy : l.setup.policy.code = if l.setup.policy = .skip then 0 else 1 := by cases l.setup.policy <;> rfl
    have mode : l.setup.mode.code = if l.setup.mode = .once then 0 else 1 := by cases l.setup.mode <;> rfl
    rw [Lane.statusBody_eq, state, direction, policy, mode, line, line, halfBytes_eq, halfBytes_eq]
    refine congrArg (· ++ wide l.episode) (congrArg (· ++ wide l.lines) (congrArg (HAppend.hAppend _) ?_))
    rcases l.tag with _ | r | ⟨r, _ | g⟩
    · rw [Staging.bytes_of_no_generation rfl, line]; rfl
    · rw [Staging.bytes_of_no_generation rfl, line]; rfl
    · rw [Staging.bytes_of_no_generation rfl, line]; rfl
    · rw [Staging.bytes_full_some, line]
  have command : laneStatusCommand lane s = answer s body := by
    simp only [laneStatusCommand, laneOf_of_val hn, ← layout]
    rfl
  exact ⟨exec_laneStatus s h hs command, layout ▸ Lane.statusBody_length l⟩

end Sys2Proof.Machine

namespace Sys2Proof.Machine

set_option Elab.async false

/-! ### What a lane drives (R65, R66, Table 4-2) -/

theorem Lane.ready_iff (l : Lane) : l.ready = true ↔ l.state = .running := by
  simp only [Lane.ready, decide_eq_true_eq]

theorem Lane.mark_iff (l : Lane) : l.mark = true ↔ l.state = .running ∧ l.count = 0 := by
  simp only [Lane.mark, Bool.and_eq_true, decide_eq_true_eq]

theorem Lane.ldDrive_into {l : Lane} (h : l.setup.direction = .into) : l.ldDrive = none := by
  unfold Lane.ldDrive
  rw [h]

theorem Lane.ldDrive_out {l : Lane} (h : l.setup.direction = .out) : l.ldDrive =
    match l.state with
    | .off => none
    | .idle => none
    | .running => some (l.active.read l.pointer.val)
    | _ => some l.setup.fill := by
  unfold Lane.ldDrive
  rw [h]
  cases l.state <;> rfl

theorem Lane.ldDrive_running {l : Lane} (h : l.setup.direction = .out) (hs : l.state = .running) :
    l.ldDrive = some (l.active.read l.pointer.val) := by
  rw [Lane.ldDrive_out h, hs]

/-- An OUT lane that waits drives its fill value. -/
theorem Lane.ldDrive_waiting {l : Lane} (h : l.setup.direction = .out)
    (hs : l.state = .priming ∨ l.state = .armed ∨ l.state = .starved ∨ l.state = .paused ∨ l.state = .halted) :
    l.ldDrive = some l.setup.fill := by
  rw [Lane.ldDrive_out h]
  rcases hs with hs | hs | hs | hs | hs <;> rw [hs]

/-! ### Lane clock edges (R73 to R75) -/

variable (s : State) {n : LaneId}

/-- An edge outside RUNNING, whichever row brings it (R75). -/
theorem exec_edge_outside (ld : Byte) (h : (s.lane n).state ≠ .running) :
    exec (.laneClockEdgeOutsideRunning n) s = .next (s.modLane n Lane.idleEdge) ∧
    exec (.outLaneClockEdge n) s = .next (s.modLane n Lane.idleEdge) ∧
    exec (.inLaneClockEdge n ld) s = .next (s.modLane n Lane.idleEdge) := by
  refine ⟨if_neg h, ?_, ?_⟩
  · show execOutLaneClockEdge n s = _
    unfold execOutLaneClockEdge
    split
    · exact absurd ‹_› h
    · exact absurd ‹_› h
    · rfl
  · show execInLaneClockEdge n ld s = _
    unfold execInLaneClockEdge
    split
    · exact absurd ‹_› h
    · exact absurd ‹_› h
    · rfl

theorem exec_outLaneClockEdge (h : (s.lane n).state = .running) (hd : (s.lane n).setup.direction = .out) :
    exec (.outLaneClockEdge n) s = .next (s.outEdge n).arbitrate := by
  show execOutLaneClockEdge n s = _
  simp only [execOutLaneClockEdge, h, hd]

theorem exec_inLaneClockEdge (ld : Byte) (h : (s.lane n).state = .running)
    (hd : (s.lane n).setup.direction = .into) :
    exec (.inLaneClockEdge n ld) s = .next (s.inEdge n ld).arbitrate := by
  show execInLaneClockEdge n ld s = _
  simp only [execInLaneClockEdge, h, hd]

/-- The byte on LD written at the pointer of an IN lane, a cell moved (R74). -/
def Lane.capture (ld : Byte) (l : Lane) : Lane := { l with active := l.active.write l.pointer.val ld }.moveCell

theorem Lane.span_of_current {l : Lane} {r : LineRef} (h : l.current = some r) : l.span = r.span.len := by
  unfold Lane.span
  rw [h]
  rfl

/-- An edge at an OUT lane by whether it moves the last cell of the line. -/
theorem State.outEdge_eq {r : LineRef} (h : (s.lane n).current = some r) : s.outEdge n =
    if (s.lane n).count + 1 = r.span.len then (s.setLane n (s.lane n).moveCell).outBoundary n
    else s.setLane n (s.lane n).moveCell := by
  have current : (s.lane n).moveCell.current = some r := h
  rw [← Lane.span_of_current current]
  unfold State.outEdge
  dsimp only
  rw [State.modLane_self]
  rfl

/-- An edge at an IN lane by whether it captures the last cell of the line. -/
theorem State.inEdge_eq {r : LineRef} (ld : Byte) (h : (s.lane n).current = some r) : s.inEdge n ld =
    if (s.lane n).count + 1 = r.span.len then (s.setLane n ((s.lane n).capture ld)).inBoundary n
    else s.setLane n ((s.lane n).capture ld) := by
  have current : ((s.lane n).capture ld).current = some r := h
  rw [← Lane.span_of_current current]
  unfold State.inEdge
  dsimp only
  rw [State.modLane_self]
  rfl

theorem Lane.idleEdge_eq (l : Lane) : l.idleEdge = { l with
    episode := if (l.state = .starved ∨ l.state = .blocked) ∧ l.episode ≠ 65535 then l.episode + 1
      else l.episode } := by
  unfold Lane.idleEdge saturatingSucc
  by_cases waits : l.state = .starved ∨ l.state = .blocked <;> simp [waits]

/-- A lane in RUNNING that has moved a cell, not the last of its line: MARK is low, READY high. -/
theorem Lane.moved_flags {l : Lane} (h : l.state = .running) (hc : l.count ≠ 0) : l.mark = false ∧ l.ready = true :=
  ⟨Bool.eq_false_iff.mpr fun mark => hc ((Lane.mark_iff l).mp mark).2, (Lane.ready_iff l).mpr h⟩

theorem CellId.val_succ (p : CellId) : (p + 1).val = (p.val + 1) % 128 := Fin.val_add p 1

/-- Settles O23: what a lane drives by its state, and one edge by whether the lane is RUNNING. -/
theorem edgesBeforeBoundary : Obligations.EdgesBeforeBoundary := by
  refine ⟨fun l => ⟨Lane.ldDrive_into, fun out =>
      ⟨fun rests => ?_, Lane.ldDrive_running out, Lane.ldDrive_waiting out⟩, Lane.ready_iff l, Lane.mark_iff l⟩,
    fun s n ld outside => ?_, fun s n r ld running current inside => ⟨fun out => ?_, fun into => ?_⟩⟩
  · rw [Lane.ldDrive_out out]
    rcases rests with h | h <;> rw [h]
  · obtain ⟨edge, out, into⟩ := exec_edge_outside s ld outside
    have lane : (s.modLane n Lane.idleEdge).lane n = _ := (State.modLane_self s n _).trans (Lane.idleEdge_eq _)
    refine ⟨s.modLane n Lane.idleEdge, edge, out, into, rfl, fun m hm => by rw [State.modLane_lane, if_neg hm], lane,
      fun starved hd => ?_⟩
    rw [lane]
    exact Lane.ldDrive_waiting (l := { s.lane n with episode := _ }) hd (.inr (.inr (.inl starved)))
  · have edge : s.outEdge n = s.setLane n (s.lane n).moveCell := (State.outEdge_eq s current).trans (if_neg inside)
    have drives := Lane.ldDrive_running (l := (s.lane n).moveCell) out running
    refine ⟨s.setLane n (s.lane n).moveCell, edge ▸ exec_outLaneClockEdge s running out, rfl,
      fun m hm => by rw [State.setLane_lane, if_neg hm], State.setLane_lane_self _ _ _,
      Lane.ldDrive_running out running, ?_⟩
    rw [State.setLane_lane_self, drives, ← CellId.val_succ]
    exact ⟨rfl, Lane.moved_flags running (Nat.succ_ne_zero _)⟩
  · have edge : s.inEdge n ld = s.setLane n ((s.lane n).capture ld) :=
      (State.inEdge_eq s ld current).trans (if_neg inside)
    refine ⟨s.setLane n ((s.lane n).capture ld), edge ▸ exec_inLaneClockEdge s ld running into, rfl,
      fun m hm => by rw [State.setLane_lane, if_neg hm], ?_⟩
    rw [State.setLane_lane_self]
    exact ⟨rfl, fun k => Memory.read_write _ _ _ _, Lane.moved_flags running (Nat.succ_ne_zero _)⟩

end Sys2Proof.Machine

namespace Sys2Proof.Machine

set_option Elab.async false

/-! ### Row lists whose show position stands (R103 to R109) -/

theorem LineRef.fallen_zero (r : LineRef) : r.fallen 0 = r := rfl

theorem Staging.fallen_zero (t : Staging) : t.fallen 0 = t := by cases t <;> rfl

/-- A move of the show position to where it stands retires nothing. -/
theorem Lane.retires_shown (l : Lane) : l.retires l.list.shown = 0 := if_neg fun h => lt_irrefl _ h.2

theorem Lane.retires_le (l : Lane) (p : Position) : l.retires p ≤ p.entry := by
  unfold Lane.retires
  split
  · exact le_refl _
  · exact Nat.zero_le _

theorem Lane.listAfter_shown (l : Lane) (fetch : Position) (b : Bool) :
    l.listAfter l.list.shown fetch b = { l.list with fetch, showing := b } := by
  unfold Lane.listAfter
  rw [Lane.retires_shown]
  rfl

/-- The roll-back of a lane that is between lines: its fetch position is its show position (R109). -/
theorem Lane.rolledBack_between {l : Lane} (h : l.list.showing = false) :
    l.rolledBack = { l.list with fetch := l.list.shown } := by
  have restart : l.restartsAt = l.list.shown := if_neg fun shows => Bool.false_ne_true (h.symm.trans shows.1)
  rw [Lane.rolledBack, restart, Lane.listAfter_shown, ← h]

/-- A lane that goes to IDLE between lines. -/
theorem Lane.enterIdle_between {l : Lane} (h : l.list.showing = false) : l.enterIdle = { l with
    state := .idle, stopPending := false, follow := none, drain := none
    list := { l.list with fetch := l.list.shown } } := by
  have restart : l.restartsAt = l.list.shown := if_neg fun shows => Bool.false_ne_true (h.symm.trans shows.1)
  rw [Lane.enterIdle_eq, Lane.rolledBack_between h, restart, Lane.retires_shown, Staging.fallen_zero,
    LineRef.map_fallen_zero]

/-- A line at the show position becomes current: nothing retires (R69, R103). -/
theorem Lane.makeCurrent_shown {l : Lane} {r : LineRef} (h : r.position = l.list.shown) : l.makeCurrent r = { l with
    current := some r, pointer := r.span.tap, count := 0, list := { l.list with showing := true } } := by
  have none_retires : l.retires { entry := r.entry, rep := r.rep } = 0 := by
    rw [show ({ entry := r.entry, rep := r.rep } : Position) = l.list.shown from h, Lane.retires_shown]
  have list : l.listAfter { entry := r.entry, rep := r.rep } l.list.fetch true = { l.list with showing := true } := by
    rw [show ({ entry := r.entry, rep := r.rep } : Position) = l.list.shown from h, Lane.listAfter_shown]
  rw [Lane.makeCurrent_listAfter]
  dsimp only
  rw [list, none_retires, Staging.fallen_zero, LineRef.map_fallen_zero, LineRef.fallen_zero]

/-! ### The cases of Table 4-4 after the pause case (R78, R85) -/

section

variable (v : State) {n : LaneId} {c : Lane}

theorem State.continueOut_full {x : LineRef} {g : Option Half} (ht : c.tag = .full x g) :
    (v.setLane n c).continueOut n = (v.setLane n c).showStaged n := by
  simp only [State.continueOut, State.setLane_lane_self, ht]

theorem State.continueOut_pending {x : LineRef} (ht : c.tag = .pending x) :
    (v.setLane n c).continueOut n = v.setLane n c.starve := by
  simp only [State.continueOut, State.setLane_lane_self, ht, State.modLane_setLane]

/-- The end of a list at a lane, LANE DONE posted before the lane is IDLE. -/
theorem State.laneDone_eq : (v.setLane n c).laneDone n =
    (v.post { kind := .laneDone, source := .party (.lane n), count := some c.lines }).setLane n c.enterIdle := by
  rw [State.laneDone, State.lanePost, State.setLane_post, State.modLane_setLane, State.setLane_lane_self]

theorem State.continueOut_none (ht : c.tag = .empty) (h : c.nextLine = none) :
    (v.setLane n c).continueOut n = (v.setLane n c).laneDone n := by
  have stands : { c with tag := .empty } = c := by rw [← ht]
  simp only [State.continueOut, State.setLane_lane_self, ht, State.requestNext_none h, stands]

theorem State.continueOut_row {y : LineRef} {row : RowId} (ht : c.tag = .empty) (h : c.nextLine = some y)
    (hr : y.row = some row) : (v.setLane n c).continueOut n = (v.setLane n { c with
      state := .starved, episode := 0, tag := .pending y
      list := { c.list with fetch := positionAfter c.list.entries c.setup.mode c.list.fetch }
      slot := some { work := .load row, waitLimit := c.setup.waitLimit, state := .waiting } }).raise := by
  have lane : ∀ a : Lane, (v.setLane n a).raise.lane n = a := fun a => State.setLane_lane_self v n a
  rw [positionAfter_eq]
  simp only [State.continueOut, State.setLane_lane_self, ht, State.requestNext_row h hr, lane, State.modLane]
  simp only [State.setLane_raise, State.setLane_setLane]
  rfl

theorem State.continueOut_blank {y : LineRef} (ht : c.tag = .empty) (h : c.nextLine = some y) (hr : y.row = none) :
    (v.setLane n c).continueOut n = (v.setLane n (c.blankStaged y)).showStaged n := by
  simp only [State.continueOut, State.setLane_lane_self, ht, State.requestNext_blank h hr]
  rfl

/-- A lane whose staged line is shown: RUNNING at the line's tap, the next line asked for (R68, R78). -/
theorem State.showStaged_shows {x : LineRef} {g : Option Half} {p : Position} (ht : c.tag = .full x g)
    (hp : x.position = p) :
    let u := (v.setLane n c).showStaged n
    let k := c.retires p
    u.AskedAt n (c.list.fetch.fallen k) c.slot ∧
    u.lane n = { c with
      state := .running, active := c.staging, current := some (x.fallen k), pointer := x.span.tap, count := 0
      follow := c.follow.map (LineRef.fallen k)
      list := { c.listAfter p c.list.fetch true with fetch := (u.lane n).list.fetch }
      tag := (u.lane n).tag, slot := (u.lane n).slot, staging := (u.lane n).staging } ∧
    u.events = v.events := by
  subst hp
  intro u k
  obtain ⟨z, o, run, asked, shown, -⟩ := State.showStaged_asked v n c x g ht
  have lane : u.lane n = z := by
    rw [show u = _ from run]
    exact State.setLane_lane_self v n z
  refine ⟨asked u lane (congrArg State.occasion run), ?_, (congrArg State.events run).trans rfl⟩
  rw [lane]
  exact shown

end

/-! ### What the cases of Tables 4-4 and 4-5 leave as it was -/

section

variable (s : State) (n : LaneId)

theorem State.showStaged_array : (s.showStaged n).array = s.array := State.requestNext_array _ _

theorem State.continueOut_array : (s.continueOut n).array = s.array := by
  unfold State.continueOut
  split
  · exact State.showStaged_array s n
  · rfl
  · dsimp only
    split
    · exact (State.showStaged_array _ n).trans (State.requestNext_array s n)
    · exact State.requestNext_array s n
    · exact (State.laneDone_array _ n).trans (State.requestNext_array s n)

theorem State.continueIn_array : (s.continueIn n).array = s.array := by
  unfold State.continueIn
  dsimp only
  split
  · split
    · exact State.laneDone_array s n
    · rfl
  · split <;> rfl

theorem State.pause_array (i : Nat) : (s.pause n i).array = s.array := State.lanePost_array _ _ _ _ _ _

/-! The lines completed of the lane. -/

theorem Lane.moveShow_lines (p : Position) (b : Bool) (l : Lane) : (l.moveShow p b).lines = l.lines := by
  rw [Lane.moveShow_listAfter]

theorem Lane.makeCurrent_lines (r : LineRef) (l : Lane) : (l.makeCurrent r).lines = l.lines := Lane.moveShow_lines _ _ _

theorem Lane.enterIdle_lines (l : Lane) : l.enterIdle.lines = l.lines := Lane.moveShow_lines _ _ _

theorem Lane.swapIn_lines (l : Lane) : l.swapIn.lines = l.lines := by
  unfold Lane.swapIn
  split
  · exact Lane.makeCurrent_lines _ _
  · rfl

theorem State.requestNext_lines : ((s.requestNext n).lane n).lines = (s.lane n).lines := by
  unfold State.requestNext
  dsimp only
  split
  · rw [State.setLane_lane_self]
  · split
    · rw [State.raise_lane, State.setLane_lane_self]; rfl
    · rw [State.setLane_lane_self]; rfl

theorem State.showStaged_lines : ((s.showStaged n).lane n).lines = (s.lane n).lines := by
  rw [State.showStaged, State.requestNext_lines, State.modLane_self]
  exact Lane.swapIn_lines _

theorem State.laneDone_lines : ((s.laneDone n).lane n).lines = (s.lane n).lines := by
  rw [State.laneDone, State.modLane_self, Lane.enterIdle_lines, State.lanePost_lane]

theorem State.continueOut_lines : ((s.continueOut n).lane n).lines = (s.lane n).lines := by
  unfold State.continueOut
  split
  · exact State.showStaged_lines s n
  · rw [State.modLane_self]; rfl
  · dsimp only
    split
    · exact (State.showStaged_lines _ n).trans (State.requestNext_lines s n)
    · rw [State.modLane_self]; exact State.requestNext_lines s n
    · exact (State.laneDone_lines _ n).trans (State.requestNext_lines s n)

theorem State.continueIn_lines : ((s.continueIn n).lane n).lines = (s.lane n).lines := by
  unfold State.continueIn
  dsimp only
  split
  · split
    · exact State.laneDone_lines s n
    · rw [State.modLane_self]; rfl
  · split
    · rw [State.setLane_lane_self]; rfl
    · rw [State.setLane_lane_self]; exact Lane.makeCurrent_lines _ _

end

/-! ### The cases of Table 4-5 after the pause case (R81, R85) -/

section

variable (v : State) {n : LaneId} {c : Lane}

theorem Lane.nothingToStore_iff (l : Lane) : l.nothingToStore = true ↔ l.tag = .empty ∧ l.held = false := by
  simp only [Lane.nothingToStore, Bool.and_eq_true, decide_eq_true_eq, Bool.not_eq_true']

theorem State.continueIn_none (h : c.nextLine = none) : (v.setLane n c).continueIn n =
    if c.tag = .empty ∧ c.held = false then (v.setLane n c).laneDone n else v.setLane n (c.drainFor .listEnd) := by
  simp only [State.continueIn, State.setLane_lane_self, h, Lane.nothingToStore_iff, State.modLane_setLane]

theorem State.continueIn_some {y : LineRef} (h : c.nextLine = some y) : (v.setLane n c).continueIn n =
    v.setLane n (if c.held = true then { c.advanceFetch with follow := some y, state := .blocked, episode := 0 }
      else { c.advanceFetch.makeCurrent y with state := .running }) := by
  simp only [State.continueIn, State.setLane_lane_self, h, State.setLane_setLane]
  split <;> rfl

end

end Sys2Proof.Machine

namespace Sys2Proof.Machine

set_option Elab.async false

variable (s : State)

/-! ### LANE RESUME (R85) -/

theorem exec_laneResume {c : Ctl} {tag lane : Byte} (h : s.executes (.laneResume c tag lane) = true)
    (hs : s.session c = some tag) {r : Reply} (hr : laneResumeCommand lane s = r) :
    exec (.laneResume c tag lane) s = .next (r.state.answered r.status r.body).arbitrate :=
  hr ▸ State.runOccasion_inSession s _ c tag _ h hs

theorem laneResumeCommand_out {n : LaneId} {lane : Byte} (hn : n.val = lane.toNat) (paused : (s.lane n).state = .paused)
    (out : (s.lane n).setup.direction = .out) : laneResumeCommand lane s = done (s.continueOut n) := by
  simp only [laneResumeCommand, laneOf_of_val hn, paused, out, if_true]

theorem laneResumeCommand_into {n : LaneId} {lane : Byte} (hn : n.val = lane.toNat)
    (paused : (s.lane n).state = .paused) (into : (s.lane n).setup.direction = .into) :
    laneResumeCommand lane s = done (s.continueIn n) := by
  simp only [laneResumeCommand, laneOf_of_val hn, paused, into, if_true]

/-- Events at a lane that leave the operation in flight alone. -/
theorem LaneActs.frame_of_array {s t : State} {n : LaneId} (h : LaneActs n s t) (ha : t.array = s.array) :
    t = { s with lanes := t.lanes, events := t.events, eventCounter := t.eventCounter, occasion := t.occasion } := by
  have frame : LaneFrame s t := h.frame
  rwa [LaneFrame, ha] at frame

theorem Lane.nextLine_position {l : Lane} {x : LineRef} (h : l.nextLine = some x) : x.position = l.list.fetch :=
  RowList.position_of_lineAt h

/-- Settles O31: by the direction of the lane, then by its staging tag and the line answered. -/
theorem laneResumeFromPause : Obligations.LaneResumeFromPause := by
  intro s c tag lane i h hs
  refine ⟨fun bad => exec_laneResume s h hs (r := refuse s .badParameter)
    (by simp only [laneResumeCommand, laneOf_none bad]), fun n hn => ?_⟩
  intro l next
  have self : s.setLane n l = s := State.setLane_self s n
  refine ⟨fun runs => exec_laneResume s h hs (r := refuse s .wrongState)
    (by simp only [laneResumeCommand, laneOf_of_val hn]; exact if_neg runs), fun paused => ?_⟩
  obtain out | into : l.setup.direction = .out ∨ l.setup.direction = .into := by
    cases l.setup.direction <;> simp
  · have acts := acts_continueOut s n
    have resumes : ∀ {u}, (s.setLane n l).continueOut n = u → s.continueOut n = u := by rw [self]; exact id
    have not_into : l.setup.direction ≠ .into := fun into => nomatch out.symm.trans into
    refine ⟨s.continueOut n, exec_laneResume s h hs (laneResumeCommand_out s hn paused out),
      acts.frame_of_array (State.continueOut_array s n), fun m hm => acts.other hm, State.continueOut_lines s n,
      (acts.keeps n).setup, fun x g _ ht => ?_, fun x _ ht => ?_,
      fun _ ht => ⟨fun x row hx hr => ?_, fun x hx hr => ?_, fun none => ?_⟩,
      fun _ into => absurd into not_into, fun into => absurd into not_into⟩
    · obtain ⟨asked, shown, events⟩ := State.showStaged_shows (n := n) s ht rfl
      rw [← resumes (State.continueOut_full s ht)] at asked shown events
      exact ⟨congrArg Lane.state shown, congrArg Lane.active shown, congrArg Lane.current shown,
        congrArg Lane.list shown, asked, congrArg Lane.pointer shown, congrArg Lane.count shown, events⟩
    · rw [resumes (State.continueOut_pending s ht), State.setLane_lane_self]
      exact ⟨rfl, rfl⟩
    · rw [resumes (State.continueOut_row s ht hx hr)]
      exact ⟨State.setLane_lane_self s n _, rfl, rfl⟩
    · obtain ⟨asked, shown, events⟩ := State.showStaged_shows (n := n) s (c := l.blankStaged x) rfl
        (Lane.nextLine_position hx)
      rw [← resumes (State.continueOut_blank s ht hx hr)] at asked shown events
      intro p
      refine ⟨congrArg Lane.state shown, congrArg Lane.current shown, fun j hj => ?_, congrArg Lane.pointer shown,
        congrArg Lane.count shown, congrArg Lane.list shown, ?_, events⟩
      · rw [show ((s.continueOut n).lane n).active = blankLine l.setup.fill from congrArg Lane.active shown, blankLine,
          Memory.read_ofCells, if_pos hj]
      · rw [show next = l.list.successor l.setup.mode l.list.fetch from positionAfter_eq _ _ _]
        exact asked
    · rw [resumes (State.continueOut_none s ht none), State.laneDone_eq, State.setLane_lane_self, Lane.enterIdle_eq,
        ht]
      exact ⟨rfl, rfl, rfl, rfl, rfl⟩
  · have acts := acts_continueIn s n
    have resumes : ∀ {u}, (s.setLane n l).continueIn n = u → s.continueIn n = u := by rw [self]; exact id
    have not_out : l.setup.direction ≠ .out := fun out => nomatch out.symm.trans into
    refine ⟨s.continueIn n, exec_laneResume s h hs (laneResumeCommand_into s hn paused into),
      acts.frame_of_array (State.continueIn_array s n), fun m hm => acts.other hm, State.continueIn_lines s n,
      (acts.keeps n).setup, fun _ _ out => absurd out not_out, fun _ out => absurd out not_out,
      fun out => absurd out not_out, fun x _ hx => ?_, fun _ none => ?_⟩
    · have fetch : next = l.list.successor l.setup.mode l.list.fetch := positionAfter_eq _ _ _
      have position : ({ entry := x.entry, rep := x.rep } : Position) = l.list.fetch := Lane.nextLine_position hx
      rw [resumes (State.continueIn_some s hx), State.setLane_lane_self, fetch]
      refine ⟨rfl, fun held => if_pos held, fun held => ?_⟩
      rw [if_neg (Bool.eq_false_iff.mp held), Lane.makeCurrent_listAfter]
      dsimp only
      rw [position]
      exact ⟨rfl, rfl, rfl, rfl, rfl, rfl⟩
    · rw [resumes (State.continueIn_none s none)]
      refine ⟨fun left => ?_, fun ht held => ?_⟩
      · rw [if_neg, State.setLane_lane_self]
        · exact ⟨rfl, rfl, rfl, rfl⟩
        · rintro ⟨ht, held⟩
          exact left.elim (· ht) fun holds => Bool.false_ne_true (held.symm.trans holds)
      · rw [if_pos ⟨ht, held⟩, State.laneDone_eq, State.setLane_lane_self, Lane.enterIdle_eq]
        exact ⟨rfl, rfl, rfl⟩

end Sys2Proof.Machine

namespace Sys2Proof.Machine

set_option Elab.async false

variable (s : State)

/-! ### The list and the lane at a start (R86, R103, R110) -/

/-- The fetch position past the line just answered, in the words of the row lists (R101, R102). -/
theorem Lane.advanceFetch_eq (l : Lane) : l.advanceFetch = { l with
    list := { l.list with fetch := positionAfter l.list.entries l.setup.mode l.list.fetch } } := by
  rw [positionAfter_eq]
  rfl

/-- How many entries a start retires: in ONCE mode those before the fetch position (R103). -/
def Lane.startRetires (l : Lane) : Nat := if l.setup.mode = .once then l.list.fetch.entry else 0

theorem Lane.startList_eq (l : Lane) : l.startList =
    ({ l with list := { l.list with shown := l.list.fetch, showing := false } } : Lane).retire l.startRetires := by
  unfold Lane.startList Lane.startRetires
  dsimp only
  split
  · rfl
  · rw [Lane.retire_zero]

/-- A start from IDLE before the first line: nothing staged, shown or held, both positions where the fetch position
was. -/
theorem Lane.beginStart_eq (mode : StartMode) (l : Lane) : l.beginStart mode = { l with
    lines := 0, stopPending := false, current := none, tag := .empty, held := false, follow := none
    startMode := some mode
    list := { entries := l.list.entries.drop l.startRetires, fetch := l.list.fetch.fallen l.startRetires,
              shown := l.list.fetch.fallen l.startRetires, showing := false } } := by
  unfold Lane.beginStart
  rw [Lane.startList_eq]
  rfl

theorem Lane.beginStart_nextLine (mode : StartMode) (l : Lane) :
    (l.beginStart mode).nextLine = l.nextLine.map (LineRef.fallen l.startRetires) := by
  have before : l.startRetires ≤ l.list.fetch.entry := by
    unfold Lane.startRetires
    split
    · exact le_refl _
    · exact Nat.zero_le _
  unfold Lane.beginStart
  rw [Lane.startList_eq]
  exact Lane.nextLine_retire { l with list := { l.list with shown := l.list.fetch, showing := false } } _ before

section

variable {s} {n : LaneId} {mode : StartMode} {l : Lane} {x : LineRef} (begun : (s.lane n).beginStart mode = l)
  (hx : l.nextLine = some x)

include begun hx

/-- An OUT lane whose first line has a row is PRIMING with its LOAD placed (R86). -/
theorem State.startLane_row {row : RowId} (out : (s.lane n).setup.direction = .out) (hr : x.row = some row) :
    s.startLane n mode = (s.setLane n { l with
      state := .priming, tag := .pending x
      list := { l.list with fetch := positionAfter l.list.entries l.setup.mode l.list.fetch }
      slot := some { work := .load row, waitLimit := l.setup.waitLimit, state := .waiting } }).raise := by
  have asks : ({ l with state := .priming } : Lane).nextLine = some x := hx
  have lane : ∀ a : Lane, (s.setLane n a).raise.lane n = a := fun a => State.setLane_lane_self s n a
  rw [positionAfter_eq]
  simp only [State.startLane, out, State.modLane, State.setLane_lane_self, State.setLane_setLane, begun,
    State.requestNext_row asks hr, lane]
  rfl

/-- An OUT lane whose first line is blank shows it at once (R86, R87). -/
theorem State.startLane_blank (out : (s.lane n).setup.direction = .out) (hr : x.row = none) :
    s.startLane n mode = (s.setLane n (({ l with state := .priming } : Lane).blankStaged x)).staged n := by
  have asks : ({ l with state := .priming } : Lane).nextLine = some x := hx
  simp only [State.startLane, out, State.modLane, State.setLane_lane_self, State.setLane_setLane, begun,
    State.requestNext_blank asks hr]
  rfl

/-- An IN lane has its first line current (R86). -/
theorem State.startLane_into (into : (s.lane n).setup.direction = .into) :
    s.startLane n mode = s.setLane n { l.advanceFetch.makeCurrent x with
      state := if mode = .armed then .armed else .running } := by
  simp only [State.startLane, into, State.modLane, State.setLane_lane_self, State.setLane_setLane, begun, hx,
    Option.elim]

end

/-! ### LANE START (R86) -/

theorem exec_laneStart {c : Ctl} {tag lane mode : Byte} (h : s.executes (.laneStart c tag lane mode) = true)
    (hs : s.session c = some tag) {r : Reply} (hr : laneStartCommand lane mode s = r) :
    exec (.laneStart c tag lane mode) s = .next (r.state.answered r.status r.body).arbitrate :=
  hr ▸ State.runOccasion_inSession s _ c tag _ h hs

theorem startModeOf_of_le {mode : Byte} (h : mode.toNat ≤ 1) :
    startModeOf mode = some (if mode = 0 then .now else .armed) := by
  simp only [startModeOf, flagOf_of_le h, Option.map_some, flag_ite h]

theorem laneStartCommand_badParameter {lane mode : Byte} (h : 3 < lane.toNat ∨ 1 < mode.toNat) :
    laneStartCommand lane mode s = refuse s .badParameter := by
  unfold laneStartCommand
  rcases h with h | h
  · rw [laneOf_none h]
  · rw [startModeOf, flagOf_none h]
    cases laneOf lane <;> rfl

section

variable {n : LaneId} {lane mode : Byte} (hn : n.val = lane.toNat) (hm : mode.toNat ≤ 1)

include hn hm

theorem laneStartCommand_idle (idle : (s.lane n).state = .idle) : laneStartCommand lane mode s =
    if (s.lane n).list.entries = [] then refuse s .wrongState
    else done (s.startLane n (if mode = 0 then .now else .armed)) := by
  simp only [laneStartCommand, laneOf_of_val hn, startModeOf_of_le hm, idle]

theorem laneStartCommand_armed (armed : (s.lane n).state = .armed) (now : mode = 0) :
    laneStartCommand lane mode s = done (s.setLane n { s.lane n with state := .running }) := by
  simp only [laneStartCommand, laneOf_of_val hn, startModeOf_of_le hm, armed, if_pos now, State.modLane,
    Lane.release, if_true]

theorem laneStartCommand_wrongState (idle : (s.lane n).state ≠ .idle) (h : (s.lane n).state ≠ .armed ∨ mode = 1) :
    laneStartCommand lane mode s = refuse s .wrongState := by
  simp only [laneStartCommand, laneOf_of_val hn, startModeOf_of_le hm]
  split
  · exact absurd ‹_› idle
  · rename_i armed now
    rcases h with h | rfl
    · exact absurd armed h
    · cases now
  · rfl

end

/-- What a part shows whose lane n alone has changed, with or without an occasion. -/
theorem State.only_lane {u s : State} {n : LaneId} {k : Lane} {o : Bool}
    (run : u = { s.setLane n k with occasion := o }) :
    u.lane n = k ∧ u = { s with lanes := u.lanes, occasion := u.occasion } ∧ ∀ m, m ≠ n → u.lane m = s.lane m := by
  subst run
  exact ⟨State.setLane_lane_self s n k, rfl, fun m hm => (State.setLane_lane s n k m).trans (if_neg hm)⟩

/-- The priming completion of a lane whose staged line is at its show position (R87, R103). -/
theorem State.staged_priming_shown {n : LaneId} {l : Lane} {x : LineRef} {g : Option Half} (ht : l.tag = .full x g)
    (primes : l.state = .priming) (hp : x.position = l.list.shown) :
    let u := (s.setLane n l).staged n
    ∃ (k : Lane) (o : Bool), u = { s.setLane n k with occasion := o } ∧ u.AskedAt n l.list.fetch l.slot ∧
      k = { l with
        state := if l.startMode = some .armed then .armed else .running
        active := l.staging, current := some x, pointer := x.span.tap, count := 0
        list := { l.list with showing := true, fetch := k.list.fetch }
        tag := k.tag, slot := k.slot, staging := k.staging } := by
  intro u
  obtain ⟨k, o, run, asked, shown⟩ := State.staged_priming s n l x g ht primes
  have position : ({ entry := x.entry, rep := x.rep } : Position) = l.list.shown := hp
  rw [position, Lane.retires_shown] at asked shown
  rw [Lane.listAfter_shown, LineRef.map_fallen_zero] at shown
  exact ⟨k, o, run, asked u (State.only_lane run).1 (congrArg State.occasion run), shown⟩

/-- Settles O29: by the state of the lane, and a start by the direction and the first line. -/
theorem laneStartByState : Obligations.LaneStartByState := by
  intro s c tag lane mode i h hs
  refine ⟨fun bad => exec_laneStart s h hs (laneStartCommand_badParameter s bad), fun n hn hm => ?_⟩
  intro started
  refine ⟨fun idle other => exec_laneStart s h hs (laneStartCommand_wrongState s hn hm idle other),
    fun armed now => exec_laneStart s h hs (laneStartCommand_armed s hn hm armed now),
    fun idle empty => exec_laneStart s h hs ((laneStartCommand_idle s hn hm idle).trans (if_pos empty)), ?_⟩
  intro l k shown next x idle entries hx
  have run := exec_laneStart s h hs ((laneStartCommand_idle s hn hm idle).trans (if_neg entries))
  obtain ⟨m, hmode⟩ : ∃ m : StartMode, (if mode = 0 then .now else .armed) = m := ⟨_, rfl⟩
  obtain ⟨b, hb⟩ : ∃ b, l.beginStart m = b := ⟨_, rfl⟩
  have begun : b = _ := hb.symm.trans (Lane.beginStart_eq m l)
  have asks : b.nextLine = some (x.fallen k) := by
    rw [← hb, Lane.beginStart_nextLine, show l.nextLine = some x from hx]
    rfl
  have at_shown : b.list.fetch = b.list.shown := by rw [begun]
  have position : (x.fallen k).position = b.list.shown := (Lane.nextLine_position asks).trans at_shown
  have goes : (if m = .armed then LaneState.armed else .running) = started := by
    rw [← hmode]
    rcases flag_cases hm with rfl | rfl <;> rfl
  rw [hmode] at run ⊢
  obtain out | into : l.setup.direction = .out ∨ l.setup.direction = .into := by
    cases l.setup.direction <;> simp
  · have not_into : l.setup.direction ≠ .into := fun into => nomatch out.symm.trans into
    cases hr : x.row with
    | some row =>
      have starts := State.startLane_row hb asks out hr
      obtain ⟨this_lane, frame, others⟩ := State.only_lane starts
      rw [begun] at this_lane
      refine ⟨s.startLane n m, run, frame, others, ?_⟩
      rw [this_lane]
      refine ⟨rfl, rfl, rfl, rfl, fun row' _ named => ?_, fun _ blank => (nomatch blank),
        fun into => absurd into not_into⟩
      cases named
      exact ⟨rfl, rfl, congrArg State.occasion starts, rfl, rfl, rfl, rfl, Lane.ldDrive_waiting out (.inl rfl)⟩
    | none =>
      have starts := State.startLane_blank hb asks out hr
      obtain ⟨w, hw⟩ : ∃ w, ({ b with state := .priming } : Lane).blankStaged (x.fallen k) = w := ⟨_, rfl⟩
      have staged : w = _ := hw.symm
      rw [Lane.blankStaged, Lane.advanceFetch_eq, begun] at staged
      rw [hw] at starts
      obtain ⟨z, o, shows, asked, shown_lane⟩ := State.staged_priming_shown s (n := n) (l := w) (x := x.fallen k)
        (g := none) (by rw [staged]) (by rw [staged]) (by rw [← hw]; exact position)
      rw [← starts] at shows asked
      obtain ⟨this_lane, frame, others⟩ := State.only_lane shows
      refine ⟨s.startLane n m, run, frame, others, ?_⟩
      rw [staged] at asked shown_lane
      rw [this_lane, shown_lane]
      refine ⟨rfl, rfl, rfl, rfl, fun _ _ named => (nomatch named), fun _ _ => ⟨?_, fun j hj => ?_, rfl, rfl, asked,
        rfl, rfl⟩, fun into => absurd into not_into⟩
      · simpa only [Option.some.injEq] using goes
      · exact (Memory.read_ofCells _ _ _).trans (if_pos hj)
  · have not_out : l.setup.direction ≠ .out := fun out => nomatch out.symm.trans into
    have starts := State.startLane_into hb asks into
    obtain ⟨this_lane, frame, others⟩ := State.only_lane (o := s.occasion) starts
    rw [Lane.makeCurrent_shown (l := b.advanceFetch) position, Lane.advanceFetch_eq, begun, goes] at this_lane
    refine ⟨s.startLane n m, run, frame, others, ?_⟩
    rw [this_lane]
    refine ⟨rfl, rfl, rfl, rfl, fun _ out => absurd out not_out, fun out => absurd out not_out, fun _ =>
      ⟨rfl, rfl, rfl, rfl, rfl, rfl, rfl⟩⟩

end Sys2Proof.Machine

namespace Sys2Proof.Machine

set_option Elab.async false

/-! ### A line that ends (R78, R81, R104) -/

/-- A lane whose line has ended: counted, and the show position moved to `p`, between lines (R104). -/
def Lane.ended (l : Lane) (p : Position) : Lane :=
  { l with lines := l.lines + 1, tag := l.tag.fallen (l.retires p)
           current := l.current.map (LineRef.fallen (l.retires p))
           follow := l.follow.map (LineRef.fallen (l.retires p)), list := l.listAfter p l.list.fetch false }

theorem Lane.completeLine_ended (l : Lane) :
    ({ l with lines := l.lines + 1 } : Lane).completeLine = l.ended l.nextShown := Lane.moveShow_listAfter _ _ _

/-- The next line of a lane whose line has ended with nothing staged: the same under its new index. -/
theorem Lane.ended_nextLine (l : Lane) :
    (l.ended l.list.fetch).nextLine = l.nextLine.map (LineRef.fallen (l.retires l.list.fetch)) :=
  Lane.nextLine_retire { l with list := { l.list with shown := l.list.fetch, showing := false } } _ (l.retires_le _)

/-- The line that ends is the last of an entry with the pause flag (R84, R104). -/
theorem RowList.boundaryReport_pauses (l : RowList) : l.boundaryReport.1 = true ↔
    ∃ e, l.entries[l.shown.entry]? = some e ∧ e.pause = true ∧ e.repeats ≤ l.shown.rep + 1 := by
  unfold RowList.boundaryReport
  cases l.entries[l.shown.entry]? with
  | none => exact ⟨nofun, fun ⟨_, h, _⟩ => nomatch h⟩
  | some e =>
    simp only [Bool.and_eq_true, decide_eq_true_eq, Option.some.injEq, exists_eq_left']
    exact And.comm

theorem RowList.boundaryReport_entry (l : RowList) : l.boundaryReport.2 = l.shown.entry := by
  unfold RowList.boundaryReport
  cases l.entries[l.shown.entry]? <;> rfl

section

variable (s : State) {n : LaneId} {l : Lane}

theorem State.pause_eq (i : Nat) : (s.setLane n l).pause n i =
    (s.post { kind := .lanePaused, source := .party (.lane n), count := some (BitVec.ofNat 16 i) }).setLane n
      { l with state := .paused } := by
  rw [State.pause, State.lanePost, State.setLane_post, State.modLane_setLane]

/-- The first case of Table 4-4 that applies at an OUT lane whose line has ended (R78). -/
theorem State.outBoundary_eq (out : l.setup.direction = .out) : (s.setLane n l).outBoundary n =
    if l.stopPending = true then (s.setLane n (l.ended l.showsNext)).immediateStop n
    else if l.list.boundaryReport.1 = true then (s.setLane n (l.ended l.showsNext)).pause n l.list.shown.entry
    else (s.setLane n (l.ended l.showsNext)).continueOut n := by
  unfold State.outBoundary
  dsimp only
  rw [State.setLane_lane_self, State.setLane_setLane, Lane.completeLine_ended, Lane.showsNext_eq l out,
    RowList.boundaryReport_entry]

/-- A lane whose staged line, at its show position, is shown: RUNNING at the line's tap, the next line asked for. -/
theorem State.showStaged_shown {c : Lane} {x : LineRef} {g : Option Half} (ht : c.tag = .full x g)
    (hp : x.position = c.list.shown) :
    let u := (s.setLane n c).showStaged n
    u.AskedAt n c.list.fetch c.slot ∧
    u.lane n = { c with
      state := .running, active := c.staging, current := some x, pointer := x.span.tap, count := 0
      list := { c.list with showing := true, fetch := (u.lane n).list.fetch }
      tag := (u.lane n).tag, slot := (u.lane n).slot, staging := (u.lane n).staging } ∧
    u.events = s.events := by
  intro u
  have shows := State.showStaged_shows s (n := n) ht hp
  dsimp only at shows
  rw [Lane.retires_shown, Lane.listAfter_shown, LineRef.map_fallen_zero] at shows
  exact shows

end

theorem acts_outEdge (s : State) (n : LaneId) : LaneActs n s (s.outEdge n) := by
  have moved : LaneActs n s (s.modLane n Lane.moveCell) := .mod .refl (.of_eq rfl rfl (le_refl _) rfl rfl)
  unfold State.outEdge
  dsimp only
  split
  · exact moved.trans (acts_outBoundary _ n)
  · exact moved

section

variable (s : State) (n : LaneId)

/-! A boundary counts its line. -/

theorem State.pause_lines (i : Nat) : ((s.pause n i).lane n).lines = (s.lane n).lines := by
  rw [State.pause, State.modLane_self, State.lanePost_lane]

theorem State.immediateStop_lane : (s.immediateStop n).lane n = (s.lane n).stopped := by
  rw [State.immediateStop_eq]
  exact State.setLane_lane_self s n _

/-- The lane whose line has ended, as the model counts it. -/
theorem State.counted_lines :
    ((s.setLane n ({ s.lane n with lines := (s.lane n).lines + 1 }).completeLine).lane n).lines =
      (s.lane n).lines + 1 := by
  rw [State.setLane_lane_self]
  exact Lane.moveShow_lines _ _ _

theorem State.outBoundary_lines : ((s.outBoundary n).lane n).lines = (s.lane n).lines + 1 := by
  unfold State.outBoundary
  dsimp only
  split
  · rw [State.immediateStop_lane]
    exact State.counted_lines s n
  · split
    · exact (State.pause_lines _ n _).trans (State.counted_lines s n)
    · exact (State.continueOut_lines _ n).trans (State.counted_lines s n)

theorem State.outBoundary_array (goes : (s.lane n).stopPending = false) : (s.outBoundary n).array = s.array := by
  unfold State.outBoundary
  dsimp only
  rw [if_neg (Bool.eq_false_iff.mp goes)]
  split
  · exact State.pause_array _ n _
  · exact State.continueOut_array _ n

theorem State.givenUp_of_slot {l : Lane} (h : l.slot = (s.lane n).slot) : (s.setLane n l).givenUp n = s.givenUp n := by
  unfold State.givenUp
  rw [State.setLane_lane_self, h]
  rfl

end

theorem Lane.showsNext_empty {l : Lane} (h : l.tag = .empty) : l.showsNext = l.list.fetch := by
  unfold Lane.showsNext
  rw [h]

theorem Lane.showsNext_full {l : Lane} {x : LineRef} {g : Option Half} (h : l.tag = .full x g) :
    l.showsNext = x.position := by
  unfold Lane.showsNext
  rw [h]
  rfl

theorem Lane.blankStaged_list (c : Lane) (y : LineRef) : (c.blankStaged y).list =
    { c.list with fetch := positionAfter c.list.entries c.setup.mode c.list.fetch } := by
  rw [Lane.blankStaged, Lane.advanceFetch_eq]

/-- Settles O24: the edge that moves the last cell, by the cases of Table 4-4. -/
theorem outBoundary : Obligations.OutBoundary := by
  intro s n r running out current last l p k kept
  obtain ⟨c, hc⟩ : ∃ c, l.moveCell.ended p = c := ⟨_, rfl⟩
  have edge : s.outEdge n = (s.setLane n l.moveCell).outBoundary n :=
    (State.outEdge_eq s current).trans (if_pos last)
  have moved : (s.setLane n l.moveCell).lane n = l.moveCell := State.setLane_lane_self s n _
  have first_case : s.outEdge n = if l.stopPending = true then (s.setLane n c).immediateStop n
      else if l.list.boundaryReport.1 = true then (s.setLane n c).pause n l.list.shown.entry
      else (s.setLane n c).continueOut n :=
    edge.trans (hc ▸ State.outBoundary_eq s (l := l.moveCell) out)
  have acts := acts_outEdge s n
  refine ⟨s.outEdge n, exec_outLaneClockEdge s running out, acts.frame, fun m hm => acts.other hm,
    by rw [edge, State.outBoundary_lines, moved]; rfl, (acts.keeps n).setup, fun stops => ?_, fun goes =>
    ⟨by rw [edge, State.outBoundary_array _ n (by rw [moved]; exact goes)]; rfl, ?_⟩⟩
  · rw [first_case, if_pos stops, State.immediateStop_lane, State.setLane_lane_self, State.immediateStop_eq]
    subst hc
    exact ⟨rfl, rfl, rfl, rfl, Lane.rolledBack_between rfl, State.givenUp_of_slot s n rfl, rfl⟩
  rw [if_neg (Bool.eq_false_iff.mp goes)] at first_case
  intro ends
  have pauses : l.list.boundaryReport.1 = true ↔ ends := RowList.boundaryReport_pauses l.list
  have goes_on : ¬ ends → s.outEdge n = (s.setLane n c).continueOut n := fun on =>
    first_case.trans (if_neg (mt pauses.mp on))
  refine ⟨fun ended => ?_, fun on x g ht => ?_, fun on x ht => ?_, fun on ht => ?_⟩
  · rw [first_case, if_pos (pauses.mpr ended), State.pause_eq, State.setLane_lane_self]
    subst hc
    exact ⟨rfl, rfl, rfl, rfl, rfl, rfl⟩
  · have full : c.tag = .full (x.fallen k) g := by
      rw [← hc]
      exact congrArg (Staging.fallen k) ht
    have position : (x.fallen k).position = c.list.shown := by
      rw [← hc]
      exact congrArg (Position.fallen k) (Lane.showsNext_full ht).symm
    obtain ⟨asked, shown, events⟩ := State.showStaged_shown s (n := n) full position
    rw [← (goes_on on).trans (State.continueOut_full s full)] at asked shown events
    subst hc
    have shows : ((s.outEdge n).lane n).setup.direction = .out := (congrArg (·.setup.direction) shown).trans out
    rw [Lane.mark_iff, Lane.ldDrive_running shows (congrArg Lane.state shown)]
    exact ⟨congrArg Lane.state shown, congrArg Lane.current shown, congrArg Lane.active shown,
      congrArg Lane.pointer shown, congrArg Lane.count shown, ⟨congrArg Lane.state shown, congrArg Lane.count shown⟩,
      congrArg Lane.list shown, asked, by rw [shown]; rfl, events⟩
  · have pending : c.tag = .pending (x.fallen k) := by
      rw [← hc]
      exact congrArg (Staging.fallen k) ht
    rw [goes_on on, State.continueOut_pending s pending, State.setLane_lane_self]
    subst hc
    exact ⟨rfl, rfl, rfl, pending, last, rfl, Lane.ldDrive_waiting out (.inr (.inr (.inl rfl))), rfl⟩
  · have empty : c.tag = .empty := by
      rw [← hc]
      exact congrArg (Staging.fallen k) ht
    have at_fetch : p = l.list.fetch := Lane.showsNext_empty ht
    have shows_fetch : c.list.fetch = c.list.shown := by
      rw [← hc]
      exact congrArg (Position.fallen k) at_fetch.symm
    have asks : c.nextLine = l.nextLine.map (LineRef.fallen k) := by
      rw [← hc, at_fetch, show k = l.retires l.list.fetch from congrArg l.retires at_fetch]
      exact Lane.ended_nextLine l.moveCell
    refine ⟨fun none => ?_, fun x row hx hr => ?_, fun x hx hr => ?_⟩
    · rw [none] at asks
      rw [goes_on on, State.continueOut_none s empty asks, State.laneDone_eq, State.setLane_lane_self,
        Lane.enterIdle_between (by rw [← hc]; rfl), ← shows_fetch]
      subst hc
      exact ⟨rfl, rfl, empty, congrArg (l.listAfter p · false) at_fetch.symm, rfl⟩
    · rw [hx] at asks
      rw [goes_on on, State.continueOut_row s empty asks hr, shows_fetch, State.raise_lane, State.setLane_lane_self]
      subst hc
      exact ⟨rfl, rfl, rfl, rfl, rfl, rfl, rfl⟩
    · rw [hx] at asks
      have position : (x.fallen k).position = c.list.shown := (Lane.nextLine_position asks).trans shows_fetch
      obtain ⟨asked, shown, events⟩ :=
        State.showStaged_shown s (n := n) (c := c.blankStaged (x.fallen k)) rfl position
      rw [← (goes_on on).trans (State.continueOut_blank s empty asks hr)] at asked shown events
      rw [Lane.blankStaged_list, shows_fetch] at asked
      subst hc
      rw [Lane.mark_iff]
      refine ⟨congrArg Lane.state shown, congrArg Lane.current shown, fun j hj => ?_, congrArg Lane.pointer shown,
        congrArg Lane.count shown, ⟨congrArg Lane.state shown, congrArg Lane.count shown⟩, congrArg Lane.list shown,
        asked, events⟩
      rw [shown]
      exact (Memory.read_ofCells _ _ _).trans (if_pos hj)

end Sys2Proof.Machine

namespace Sys2Proof.Machine

set_option Elab.async false

/-! ### The disposal of a finished line (R81 step 2) -/

/-- A lane whose finished line `y` has been disposed of: dropped when blank, stored from staging when staging is EMPTY,
held otherwise. -/
def Lane.disposed (l : Lane) (y : LineRef) : Lane :=
  match y.row with
  | none => { l with held := false }
  | some row => if l.tag = .empty then l.storing y row else { l with held := true }

section

variable {l : Lane} {y : LineRef}

theorem Lane.disposed_blank (h : y.row = none) : l.disposed y = { l with held := false } := by
  unfold Lane.disposed
  rw [h]

theorem Lane.disposed_store {row : RowId} (h : y.row = some row) (ht : l.tag = .empty) :
    l.disposed y = l.storing y row := by
  unfold Lane.disposed
  rw [h]
  exact if_pos ht

theorem Lane.disposed_hold {row : RowId} (h : y.row = some row) (ht : l.tag ≠ .empty) :
    l.disposed y = { l with held := true } := by
  unfold Lane.disposed
  rw [h]
  exact if_neg ht

theorem Lane.disposed_setup (l : Lane) (y : LineRef) : (l.disposed y).setup = l.setup := by
  unfold Lane.disposed
  split
  · rfl
  · split <;> rfl

theorem Lane.disposed_list (l : Lane) (y : LineRef) : (l.disposed y).list = l.list := by
  unfold Lane.disposed
  split
  · rfl
  · split <;> rfl

theorem Lane.disposed_lines (l : Lane) (y : LineRef) : (l.disposed y).lines = l.lines := by
  unfold Lane.disposed
  split
  · rfl
  · split <;> rfl

theorem Lane.disposed_nothing_left : (l.disposed y).tag = .empty ∧ (l.disposed y).held = false ↔
    y.row = none ∧ l.tag = .empty := by
  cases hr : y.row with
  | none =>
    rw [Lane.disposed_blank hr]
    exact ⟨fun h => ⟨rfl, h.1⟩, fun h => ⟨h.2, rfl⟩⟩
  | some row =>
    refine ⟨fun h => ?_, fun h => (nomatch h.1)⟩
    by_cases ht : l.tag = .empty
    · rw [Lane.disposed_store hr ht] at h
      exact nomatch h.1
    · rw [Lane.disposed_hold hr ht] at h
      exact nomatch h.2

theorem Lane.disposed_held : (l.disposed y).held = true ↔ y.row ≠ none ∧ l.tag ≠ .empty := by
  cases hr : y.row with
  | none =>
    rw [Lane.disposed_blank hr]
    exact ⟨nofun, fun h => absurd rfl h.1⟩
  | some row =>
    by_cases ht : l.tag = .empty
    · rw [Lane.disposed_store hr ht]
      exact ⟨nofun, fun h => absurd ht h.2⟩
    · rw [Lane.disposed_hold hr ht]
      exact ⟨fun _ => ⟨nofun, ht⟩, fun _ => rfl⟩

end

/-- The part when a finished line is disposed of: a STORE placed is an occasion for a selection (R56). -/
def State.storePlaced (s : State) (l : Lane) (y : LineRef) : State :=
  if y.row ≠ none ∧ l.tag = .empty then s.raise else s

section

variable (s : State) {n : LaneId} {l : Lane} {y : LineRef}

theorem State.storePlaced_frame : s.storePlaced l y = { s with occasion := (s.storePlaced l y).occasion } := by
  unfold State.storePlaced
  split <;> rfl

theorem State.dispose_eq (h : l.current = some y) :
    (s.setLane n l).dispose n = (s.storePlaced l y).setLane n (l.disposed y) := by
  unfold State.storePlaced
  cases hr : y.row with
  | none =>
    rw [if_neg fun placed => placed.1 rfl, Lane.disposed_blank hr]
    exact State.dispose_blank h hr
  | some row =>
    by_cases ht : l.tag = .empty
    · rw [if_pos ⟨nofun, ht⟩, Lane.disposed_store hr ht]
      exact State.dispose_store h hr ht
    · rw [if_neg fun placed => ht placed.2, Lane.disposed_hold hr ht]
      exact State.dispose_hold h hr ht

/-! ### The boundary of an IN lane (R81) -/

/-- The first case of Table 4-5 that applies at an IN lane whose line has ended and is disposed of (R81). -/
theorem State.inBoundary_eq {r : LineRef} (into : l.setup.direction = .into) (h : l.current = some r) :
    let c := l.ended l.list.fetch
    let line := r.fallen (l.retires l.list.fetch)
    let v := s.storePlaced c line
    let e := c.disposed line
    (s.setLane n l).inBoundary n =
      if l.stopPending = true then
        v.setLane n (if e.tag = .empty ∧ e.held = false then e.enterIdle else e.drainFor .stop)
      else if l.list.boundaryReport.1 = true then (v.setLane n e).pause n l.list.shown.entry
      else (v.setLane n e).continueIn n := by
  intro c line v e
  have disposed : (s.setLane n c).dispose n = v.setLane n e :=
    State.dispose_eq s (congrArg (Option.map _) h)
  unfold State.inBoundary
  dsimp only
  rw [State.setLane_lane_self, State.setLane_setLane, Lane.completeLine_ended, Lane.showsNext_into l into, disposed,
    State.setLane_lane_self, RowList.boundaryReport_entry]
  simp only [Lane.nothingToStore_iff, State.modLane_setLane]
  split
  · split <;> rfl
  · rfl

end

/-- What lane e has to store stands in t: its registers, tag and slot, and the line it holds. -/
structure Lane.StoresStand (e t : Lane) : Prop where
  slot : t.slot = e.slot
  tag : t.tag = e.tag
  staging : t.staging = e.staging
  active : t.active = e.active
  held : t.held = e.held
  line : e.held = true → t.count = e.count ∧ t.current = e.current

theorem Lane.storesStand_enterIdle {e : Lane} (h : e.list.showing = false) : e.StoresStand e.enterIdle := by
  rw [Lane.enterIdle_between h]
  exact ⟨rfl, rfl, rfl, rfl, rfl, fun _ => ⟨rfl, rfl⟩⟩

theorem Lane.storesStand_drainFor (e : Lane) (cause : DrainCause) : e.StoresStand (e.drainFor cause) :=
  ⟨rfl, rfl, rfl, rfl, rfl, fun _ => ⟨rfl, rfl⟩⟩

section

variable (v : State) {n : LaneId} {e : Lane}

/-- The next line of an IN lane between lines, its show position at the fetch position: it is shown there, or with a
line held the lane is BLOCKED (R81). -/
theorem State.continueIn_between {y : LineRef} (h : e.nextLine = some y) (at_fetch : e.list.fetch = e.list.shown) :
    let next := positionAfter e.list.entries e.setup.mode e.list.fetch
    (v.setLane n e).continueIn n = v.setLane n (if e.held = true then
        { e with state := .blocked, episode := 0, follow := some y, list := { e.list with fetch := next } }
      else { e with state := .running, current := some y, pointer := y.span.tap, count := 0
                    list := { e.list with fetch := next, showing := true } }) := by
  intro next
  have position : y.position = e.advanceFetch.list.shown := (Lane.nextLine_position h).trans at_fetch
  rw [State.continueIn_some v h, Lane.makeCurrent_shown position, Lane.advanceFetch_eq]

theorem State.continueIn_storesStand (between : e.list.showing = false) (at_fetch : e.list.fetch = e.list.shown) :
    e.StoresStand (((v.setLane n e).continueIn n).lane n) := by
  cases h : e.nextLine with
  | none =>
    rw [State.continueIn_none v h]
    split
    · rw [State.laneDone_eq, State.setLane_lane_self]
      exact Lane.storesStand_enterIdle between
    · rw [State.setLane_lane_self]
      exact e.storesStand_drainFor _
  | some y =>
    rw [State.continueIn_between v h at_fetch, State.setLane_lane_self]
    split
    · exact ⟨rfl, rfl, rfl, rfl, rfl, fun _ => ⟨rfl, rfl⟩⟩
    · exact ⟨rfl, rfl, rfl, rfl, rfl, fun held => absurd held ‹_›⟩

theorem State.continueIn_occasion (s : State) (n : LaneId) : (s.continueIn n).occasion = s.occasion := by
  unfold State.continueIn
  dsimp only
  split
  · split
    · exact State.lanePost_occasion _ _ _ _ _ _
    · rfl
  · split <;> rfl

end

theorem acts_inEdge (s : State) (n : LaneId) (ld : Byte) : LaneActs n s (s.inEdge n ld) := by
  have moved : LaneActs n s (s.modLane n (Lane.capture ld)) :=
    .mod .refl ⟨id, rfl, le_refl _, fun h => ⟨Memory.wf_write _ _ _ _ h.1 (s.lane n).pointer.isLt, h.2⟩⟩
  unfold State.inEdge
  dsimp only
  split
  · exact moved.trans (acts_inBoundary _ n)
  · exact moved

section

variable (s : State) (n : LaneId)

theorem State.dispose_lines : ((s.dispose n).lane n).lines = (s.lane n).lines := by
  unfold State.dispose
  dsimp only
  split
  · rfl
  · split
    · rw [State.setLane_lane_self]
    · rw [State.raise_lane, State.setLane_lane_self]
    · rw [State.setLane_lane_self]

theorem State.inBoundary_lines : ((s.inBoundary n).lane n).lines = (s.lane n).lines + 1 := by
  have disposed := (State.dispose_lines _ n).trans (State.counted_lines s n)
  unfold State.inBoundary
  dsimp only
  split
  · split
    · rw [State.modLane_self, Lane.enterIdle_lines, disposed]
    · rw [State.modLane_self]
      exact disposed
  · split
    · rw [State.pause_lines, disposed]
    · rw [State.continueIn_lines, disposed]

theorem State.inBoundary_array : (s.inBoundary n).array = s.array := by
  have disposed := fun a => State.dispose_array (s.setLane n a) n
  unfold State.inBoundary
  dsimp only
  split
  · split <;> exact disposed _
  · split
    · exact (State.pause_array _ n _).trans (disposed _)
    · exact (State.continueIn_array _ n).trans (disposed _)

end

theorem Staging.fallen_eq_empty (k : Nat) (t : Staging) : t.fallen k = .empty ↔ t = .empty := by
  cases t <;> simp [Staging.fallen]

/-- An IN lane whose last cell has been captured from LD and whose line `r` has ended and is disposed of (R74, R81). -/
def Lane.received (l : Lane) (r : LineRef) (ld : Byte) : Lane :=
  ((l.capture ld).ended l.list.fetch).disposed (r.fallen (l.retires l.list.fetch))

section

variable {l : Lane} {r : LineRef} (ld : Byte)

theorem Lane.received_setup (l : Lane) (r : LineRef) : (l.received r ld).setup = l.setup :=
  Lane.disposed_setup _ _

theorem Lane.received_lines (l : Lane) (r : LineRef) : (l.received r ld).lines = l.lines + 1 :=
  Lane.disposed_lines _ _

theorem Lane.received_list (l : Lane) (r : LineRef) :
    (l.received r ld).list = l.listAfter l.list.fetch l.list.fetch false :=
  Lane.disposed_list _ _

theorem Lane.received_nextLine (l : Lane) (r : LineRef) :
    (l.received r ld).nextLine = l.nextLine.map (LineRef.fallen (l.retires l.list.fetch)) := by
  have lists : (l.received r ld).nextLine = ((l.capture ld).ended l.list.fetch).nextLine := by
    unfold Lane.nextLine
    rw [Lane.received_list]
    rfl
  exact lists.trans (Lane.ended_nextLine (l.capture ld))

theorem Lane.received_between (l : Lane) (r : LineRef) : (l.received r ld).list.showing = false := by
  rw [Lane.received_list]
  rfl

theorem Lane.received_at_fetch (l : Lane) (r : LineRef) :
    (l.received r ld).list.fetch = (l.received r ld).list.shown := by
  rw [Lane.received_list]
  rfl

/-- A lane that goes to IDLE once its line is disposed of: its list stands as it is. -/
theorem Lane.received_enterIdle (l : Lane) (r : LineRef) : (l.received r ld).enterIdle =
    { l.received r ld with state := .idle, stopPending := false, follow := none, drain := none } := by
  rw [Lane.enterIdle_between (l.received_between ld r), ← Lane.received_at_fetch]

theorem Lane.ended_tag_empty (p : Position) : ((l.capture ld).ended p).tag = .empty ↔ l.tag = .empty :=
  Staging.fallen_eq_empty _ l.tag

theorem Lane.received_nothing_left : (l.received r ld).tag = .empty ∧ (l.received r ld).held = false ↔
    r.row = none ∧ l.tag = .empty :=
  Lane.disposed_nothing_left.trans (and_congr_right fun _ => Lane.ended_tag_empty ld _)

theorem Lane.received_held : (l.received r ld).held = true ↔ r.row ≠ none ∧ l.tag ≠ .empty := by
  rw [Ne, Ne, ← Lane.ended_tag_empty ld l.list.fetch]
  exact Lane.disposed_held

theorem Lane.received_store {row : RowId} (hr : r.row = some row) (ht : l.tag = .empty) : l.received r ld =
    ((l.capture ld).ended l.list.fetch).storing (r.fallen (l.retires l.list.fetch)) row :=
  Lane.disposed_store hr ((Lane.ended_tag_empty ld _).mpr ht)

theorem Lane.received_hold {row : RowId} (hr : r.row = some row) (ht : l.tag ≠ .empty) : l.received r ld =
    { (l.capture ld).ended l.list.fetch with held := true } :=
  Lane.disposed_hold hr (mt (Lane.ended_tag_empty ld _).mp ht)

theorem Lane.received_blank (hr : r.row = none) : l.received r ld =
    { (l.capture ld).ended l.list.fetch with held := false } :=
  Lane.disposed_blank hr

end

section

variable (s : State) {n : LaneId} {r : LineRef} (ld : Byte) (into : (s.lane n).setup.direction = .into)
  (current : (s.lane n).current = some r) (last : (s.lane n).count + 1 = r.span.len)

include into current last

/-- The edge that captures the last cell of a line: the first case of Table 4-5 that applies, over a part that has at
most an occasion more. -/
theorem State.inEdge_last : let l := s.lane n
    let e := l.received r ld
    ∃ v : State, (v.events = s.events ∧ v.eventCounter = s.eventCounter ∧ v.clock = s.clock) ∧
      (∀ row, r.row = some row → l.tag = .empty → v.occasion = true) ∧
      s.inEdge n ld =
        if l.stopPending = true then
          v.setLane n (if e.tag = .empty ∧ e.held = false then e.enterIdle else e.drainFor .stop)
        else if l.list.boundaryReport.1 = true then (v.setLane n e).pause n l.list.shown.entry
        else (v.setLane n e).continueIn n := by
  intro l e
  refine ⟨s.storePlaced ((l.capture ld).ended l.list.fetch) (r.fallen (l.retires l.list.fetch)), ?_,
    fun row hr ht => ?_, ?_⟩
  · rw [State.storePlaced_frame]
    exact ⟨rfl, rfl, rfl⟩
  · unfold State.storePlaced
    rw [if_pos ⟨by rw [LineRef.fallen, hr]; exact nofun, (Lane.ended_tag_empty ld _).mpr ht⟩]
    rfl
  · exact ((State.inEdge_eq s ld current).trans (if_pos last)).trans
      (State.inBoundary_eq s (l := l.capture ld) into current)

/-- Whatever case applies, what the lane has to store stands, and a STORE placed is an occasion. -/
theorem State.inEdge_last_stores : ((s.lane n).received r ld).StoresStand ((s.inEdge n ld).lane n) ∧
    (∀ row, r.row = some row → (s.lane n).tag = .empty → (s.inEdge n ld).occasion = true) := by
  obtain ⟨v, -, placed, first_case⟩ := State.inEdge_last s ld into current last
  have between := (s.lane n).received_between ld r
  rw [first_case]
  split
  · rw [State.setLane_lane_self]
    refine ⟨?_, placed⟩
    split
    · exact Lane.storesStand_enterIdle between
    · exact Lane.storesStand_drainFor _ _
  · split
    · rw [State.pause_eq, State.setLane_lane_self]
      exact ⟨⟨rfl, rfl, rfl, rfl, rfl, fun _ => ⟨rfl, rfl⟩⟩, fun row hr ht =>
        (State.post_occasion _ _).trans (placed row hr ht)⟩
    · exact ⟨State.continueIn_storesStand v between ((s.lane n).received_at_fetch ld r), fun row hr ht =>
        (State.continueIn_occasion _ n).trans (placed row hr ht)⟩

omit into in
theorem State.inEdge_last_lines : ((s.inEdge n ld).lane n).lines = (s.lane n).lines + 1 := by
  rw [(State.inEdge_eq s ld current).trans (if_pos last), State.inBoundary_lines, State.setLane_lane_self]
  rfl

end

theorem State.inEdge_array (s : State) (n : LaneId) (ld : Byte) : (s.inEdge n ld).array = s.array := by
  unfold State.inEdge
  dsimp only
  split
  · exact State.inBoundary_array _ n
  · rfl

/-- Settles O25: the edge that captures the last cell, by what becomes of the line and the cases of Table 4-5. -/
theorem inBoundary : Obligations.InBoundary := by
  intro s n r ld running into current last _ l p k next
  have acts := acts_inEdge s n ld
  obtain ⟨stores, placed⟩ := State.inEdge_last_stores s ld into current last
  obtain ⟨v, same, -, first_case⟩ := State.inEdge_last s ld into current last
  have list := l.received_list ld r
  have asks := l.received_nextLine ld r
  have pauses : l.list.boundaryReport.1 = true ↔ _ := RowList.boundaryReport_pauses l.list
  have left_over : r.row ≠ none ∨ l.tag ≠ .empty →
      ¬ ((l.received r ld).tag = .empty ∧ (l.received r ld).held = false) := fun left nothing =>
    have ⟨row, tag⟩ := (Lane.received_nothing_left ld).mp nothing
    left.elim (· row) (· tag)
  refine ⟨s.inEdge n ld, exec_inLaneClockEdge s ld running into, acts.frame_of_array (State.inEdge_array s n ld),
    fun m hm => acts.other hm, State.inEdge_last_lines s ld current last, (acts.keeps n).setup, ?_⟩
  intro ends captured
  refine ⟨fun row hr ht => ?_, fun row hr ht => ?_, fun hr => ?_, fun stops => ?_, fun goes ended => ?_,
    fun goes on none => ?_, fun x goes on hx => ?_⟩
  · rw [stores.staging, stores.held, stores.slot, stores.tag, Lane.received_store ld hr ht]
    exact ⟨fun j => Memory.read_write _ _ _ _, placed row hr ht, rfl, rfl, rfl⟩
  · obtain ⟨count, line⟩ := stores.line (by rw [Lane.received_hold ld hr ht])
    rw [stores.active, stores.held, stores.slot, stores.staging, count, stores.tag, line, Lane.received_hold ld hr ht]
    exact ⟨fun j => Memory.read_write _ _ _ _, rfl, rfl, rfl, last, rfl, congrArg (Option.map _) current⟩
  · rw [stores.slot, stores.staging, stores.tag, stores.held, Lane.received_blank ld hr]
    exact ⟨rfl, rfl, rfl, rfl⟩
  · rw [first_case, if_pos stops, State.setLane_lane_self]
    refine ⟨same.1, ?_, fun nothing => ?_, fun left => ?_⟩
    · rw [Lane.received_enterIdle]
      split <;> exact list
    · rw [if_pos ((Lane.received_nothing_left ld).mpr nothing), Lane.received_enterIdle]
    · rw [if_neg (left_over left)]
      exact ⟨rfl, rfl⟩
  all_goals rw [if_neg (Bool.eq_false_iff.mp goes)] at first_case
  · rw [first_case, if_pos (pauses.mpr ended), State.pause_eq, State.setLane_lane_self]
    exact ⟨rfl, list, (State.post_congr v s _ same).1⟩
  all_goals rw [if_neg (mt pauses.mp on)] at first_case
  · rw [none] at asks
    rw [first_case, State.continueIn_none v asks]
    refine ⟨?_, fun nothing => ?_, fun left => ?_⟩
    · rw [State.laneDone_eq, Lane.received_enterIdle]
      split <;> rw [State.setLane_lane_self] <;> exact list
    · rw [if_pos ((Lane.received_nothing_left ld).mpr nothing), State.laneDone_eq, State.setLane_lane_self,
        Lane.received_enterIdle, Lane.received_lines]
      exact ⟨rfl, (State.post_congr v s _ same).1⟩
    · rw [if_neg (left_over left), State.setLane_lane_self]
      exact ⟨rfl, rfl, same.1⟩
  · rw [hx] at asks
    rw [first_case, State.continueIn_between v asks (l.received_at_fetch ld r), list, Lane.received_setup,
      State.setLane_lane_self]
    refine ⟨same.1, fun held => ?_, fun free => ?_⟩
    · rw [if_pos ((Lane.received_held ld).mpr held)]
      exact ⟨rfl, rfl, rfl, rfl⟩
    · rw [if_neg (mt (Lane.received_held ld).mp fun held => free.elim held.1 held.2), Lane.mark_iff]
      exact ⟨rfl, rfl, rfl, rfl, rfl, rfl, rfl⟩

end Sys2Proof.Machine

namespace Sys2Proof.Machine

set_option Elab.async false

/-! ### The entries of LIST APPEND (R111) -/

/-- An entry of LIST APPEND in range (R111). -/
def entryInRange (e : RawEntry) : Prop :=
  (e.row.toNat ≤ 511 ∨ e.row.toNat = 65535) ∧ e.tap.toNat ≤ 127 ∧ 1 ≤ e.span.toNat ∧ e.span.toNat ≤ 128 ∧
  1 ≤ e.repeats.toNat ∧ e.repeats.toNat ≤ 16 ∧ e.pause.toNat ≤ 1

/-- The list entry with the fields of the frame's entry; row 0xFFFF is a blank one (R111). -/
def entryNames (e : RawEntry) (x : Entry) : Prop :=
  x.row.map (·.val) = (if e.row.toNat = 65535 then none else some e.row.toNat) ∧ x.span.tap.val = e.tap.toNat ∧
  x.span.len = e.span.toNat ∧ x.repeats = e.repeats.toNat ∧ x.pause = decide (e.pause = 1)

theorem blankRow_iff (h : Half) : h = 0xFFFF ↔ h.toNat = 65535 := BitVec.toNat_inj.symm

theorem entryOf_names {e : RawEntry} (h : entryInRange e) : ∃ x, entryOf e = some x ∧ entryNames e x := by
  obtain ⟨row, tap, span_low, span_high, repeats_low, repeats_high, pause⟩ := h
  let span : Span := { tap := ⟨e.tap.toNat, by omega⟩, len := e.span.toNat }
  have named : spanOf e.tap e.span = some span := spanOf_of_val rfl rfl span_low span_high
  simp only [entryOf, named, flagOf_of_le pause, if_pos (And.intro repeats_low repeats_high)]
  by_cases blank : e.row.toNat = 65535
  · exact ⟨_, if_pos ((blankRow_iff _).mpr blank), (if_pos blank).symm, rfl, rfl, rfl, rfl⟩
  · have numbered : e.row.toNat ≤ 511 := row.resolve_right blank
    rw [if_neg (mt (blankRow_iff _).mp blank), rowOf_of_le numbered]
    exact ⟨_, rfl, (if_neg blank).symm, rfl, rfl, rfl, rfl⟩

theorem entryOf_none {e : RawEntry} (h : ¬ entryInRange e) : entryOf e = none := by
  unfold entryOf
  split
  · rename_i span pause hs hp
    have tap_span : e.tap.toNat ≤ 127 ∧ 1 ≤ e.span.toNat ∧ e.span.toNat ≤ 128 := by
      by_contra out
      exact nomatch (spanOf_none (by omega)).symm.trans hs
    have flag : e.pause.toNat ≤ 1 := by
      by_contra out
      exact nomatch (flagOf_none (by omega)).symm.trans hp
    split
    · rename_i repeats
      have row : ¬ (e.row.toNat ≤ 511 ∨ e.row.toNat = 65535) := fun row =>
        h ⟨row, tap_span.1, tap_span.2.1, tap_span.2.2, repeats.1, repeats.2, flag⟩
      rw [if_neg (mt (blankRow_iff _).mp (not_or.mp row).2), rowOf_none (by omega), Option.map_none]
    · rfl
  · rfl

theorem entriesOf_cons (e : RawEntry) (raw : List RawEntry) :
    entriesOf (e :: raw) = (entryOf e).bind fun x => (entriesOf raw).map (x :: ·) := by
  rw [entriesOf, List.mapM_cons]
  cases entryOf e with
  | none => rfl
  | some x =>
    show (raw.mapM entryOf >>= fun xs => pure (x :: xs)) = (raw.mapM entryOf).map (x :: ·)
    exact bind_pure_comp _ _

theorem entriesOf_names {raw : List RawEntry} (h : ∀ e ∈ raw, entryInRange e) :
    ∃ new, entriesOf raw = some new ∧ List.Forall₂ entryNames raw new := by
  induction raw with
  | nil => exact ⟨[], rfl, .nil⟩
  | cons e raw ih =>
    obtain ⟨first, rest⟩ := List.forall_mem_cons.mp h
    obtain ⟨x, hx, named⟩ := entryOf_names first
    obtain ⟨new, hnew, all_named⟩ := ih rest
    exact ⟨x :: new, by rw [entriesOf_cons, hx, hnew]; rfl, .cons named all_named⟩

theorem entriesOf_none {e : RawEntry} {raw : List RawEntry} (mem : e ∈ raw) (bad : ¬ entryInRange e) :
    entriesOf raw = none := by
  induction mem with
  | head rest =>
    rw [entriesOf_cons, entryOf_none bad]
    rfl
  | tail first _ ih =>
    rw [entriesOf_cons, ih]
    cases entryOf first <;> rfl

variable (s : State)

/-! ### LIST APPEND (R111, R112) -/

theorem exec_listAppend {c : Ctl} {tag lane : Byte} {raw : List RawEntry}
    (h : s.executes (.listAppend c tag lane raw) = true) (hs : s.session c = some tag)
    {r : Reply} (hr : listAppendCommand lane raw s = r) :
    exec (.listAppend c tag lane raw) s = .next (r.state.answered r.status r.body) :=
  hr ▸ State.runFrame_inSession s _ c tag _ h hs

theorem listAppendCommand_badParameter {lane : Byte} {raw : List RawEntry}
    (h : 3 < lane.toNat ∨ ∃ e ∈ raw, ¬ entryInRange e) : listAppendCommand lane raw s = refuse s .badParameter := by
  unfold listAppendCommand
  rcases h with h | ⟨e, mem, bad⟩
  · rw [laneOf_none h]
  · rw [entriesOf_none mem bad]
    cases laneOf lane <;> rfl

/-- LIST APPEND to lane n of the entries that the frame names. -/
theorem listAppendCommand_eq {n : LaneId} {lane : Byte} {raw : List RawEntry} {new : List Entry}
    (hn : n.val = lane.toNat) (named : entriesOf raw = some new) : listAppendCommand lane raw s =
      if (s.lane n).state = .off then refuse s .wrongState
      else if 16 < (s.lane n).list.entries.length + new.length then refuse s .listFull
      else answer (s.modLane n (Lane.appendEntries new)) [byteOf (s.lane n).list.entries.length,
        byteOf ((s.lane n).list.entries.length + new.length)] := by
  simp only [listAppendCommand, laneOf_of_val hn, named]
  rfl

/-- Settles O35: by the range of the operands, then the lane's state and the places left in its list. -/
theorem listAppend : Obligations.ListAppend := by
  intro s c tag lane raw i h hs inRange names
  refine ⟨fun bad => exec_listAppend s h hs (listAppendCommand_badParameter s bad), fun n hn good => ?_⟩
  obtain ⟨new, named, all_named⟩ := entriesOf_names good
  have command := listAppendCommand_eq s hn named
  rw [← all_named.length_eq] at command
  refine ⟨fun off => ?_, fun on full => ?_, fun on room => ⟨new, all_named, ?_⟩⟩
  · exact exec_listAppend s h hs (command.trans (if_pos off))
  · exact exec_listAppend s h hs (command.trans ((if_neg on).trans (if_pos full)))
  · exact exec_listAppend s h hs (command.trans ((if_neg on).trans (if_neg (by omega))))

/-! ### LIST TRIM (R113, R114) -/

theorem exec_listTrim {c : Ctl} {tag lane maximum : Byte} (h : s.executes (.listTrim c tag lane maximum) = true)
    (hs : s.session c = some tag) {r : Reply} (hr : listTrimCommand lane maximum s = r) :
    exec (.listTrim c tag lane maximum) s = .next (r.state.answered r.status r.body) :=
  hr ▸ State.runFrame_inSession s _ c tag _ h hs

theorem listTrimCommand_badParameter {lane maximum : Byte}
    (h : 3 < lane.toNat ∨ maximum.toNat = 0 ∨ 16 < maximum.toNat) :
    listTrimCommand lane maximum s = refuse s .badParameter := by
  unfold listTrimCommand
  rcases h with h | h
  · rw [laneOf_none h]
  · split
    · rfl
    · exact if_pos h

/-- LIST TRIM of lane n with a maximum in range. -/
theorem listTrimCommand_eq {n : LaneId} {lane maximum : Byte} (hn : n.val = lane.toNat) (low : 1 ≤ maximum.toNat)
    (high : maximum.toNat ≤ 16) : listTrimCommand lane maximum s =
      if (s.lane n).state = .off ∨ ((s.lane n).setup.mode = .cycle ∧ (s.lane n).state ≠ .idle) then
        refuse s .wrongState
      else answer (s.setLane n ((s.lane n).trim (min maximum.toNat (s.lane n).openEntries)))
        [byteOf (min maximum.toNat (s.lane n).openEntries)] := by
  have in_range : ¬ (maximum.toNat = 0 ∨ 16 < maximum.toNat) := by omega
  simp only [listTrimCommand, laneOf_of_val hn, if_neg in_range]

/-- An entry is open: every one of an IDLE lane, and else one of which no line has been fetched or shown (R114). -/
def Lane.entryOpen (l : Lane) (e : Nat) : Prop :=
  l.state = .idle ∨ l.list.fetch.entry < e ∨ (e = l.list.fetch.entry ∧ l.list.fetch.rep = 0)

theorem Lane.openEntries_le (l : Lane) : l.openEntries ≤ l.list.entries.length := by
  unfold Lane.openEntries
  split
  · exact le_rfl
  · exact Nat.sub_le _ _

/-- The open entries are the last of the list. -/
theorem Lane.entryOpen_iff (l : Lane) {e : Nat} (h : e < l.list.entries.length) :
    l.entryOpen e ↔ l.list.entries.length - l.openEntries ≤ e := by
  unfold Lane.entryOpen Lane.openEntries
  by_cases idle : l.state = .idle
  · simp [idle]
  · by_cases first : l.list.fetch.rep = 0
    · simp only [idle, first, if_true, if_false, false_or, and_true]
      omega
    · simp only [idle, first, if_false, false_or, and_false, or_false]
      omega

theorem Lane.trim_eq (l : Lane) (k : Nat) : l.trim k = { l with list := { l.list with
    entries := l.list.entries.take (l.list.entries.length - k), fetch := (l.trim k).list.fetch,
    shown := (l.trim k).list.shown } } := by
  unfold Lane.trim
  dsimp only
  split <;> rfl

theorem Lane.trim_positions_of_idle {l : Lane} (k : Nat) (h : l.state = .idle) :
    (l.trim k).list.fetch = l.list.fetch.trimmed (l.list.entries.length - k) ∧
    (l.trim k).list.shown = l.list.shown.trimmed (l.list.entries.length - k) := by
  simp only [Lane.trim, if_pos h, and_self]

theorem Lane.trim_positions_of_not_idle {l : Lane} (k : Nat) (h : l.state ≠ .idle) :
    (l.trim k).list.fetch = l.list.fetch ∧ (l.trim k).list.shown = l.list.shown := by
  simp only [Lane.trim, if_neg h, and_self]

/-- Settles O36: the number removed is the lesser of the maximum and the open entries, which are the last of the
list. -/
theorem listTrim : Obligations.ListTrim := by
  intro s c tag lane maximum i h hs
  refine ⟨fun bad => exec_listTrim s h hs (listTrimCommand_badParameter s bad), fun n hn low high => ?_⟩
  have command := listTrimCommand_eq s hn low high
  refine ⟨fun off => ?_, fun cycle streams => ?_, fun on once_or_idle => ?_⟩
  · exact exec_listTrim s h hs (command.trans (if_pos (.inl off)))
  · exact exec_listTrim s h hs (command.trans (if_pos (.inr ⟨cycle, streams⟩)))
  · let k := min maximum.toNat (s.lane n).openEntries
    have at_most : k ≤ (s.lane n).openEntries := Nat.min_le_right _ _
    have within := (s.lane n).openEntries_le
    have allowed : ¬ ((s.lane n).state = .off ∨ ((s.lane n).setup.mode = .cycle ∧ (s.lane n).state ≠ .idle)) := by
      rintro (off | ⟨cycle, streams⟩)
      · exact on off
      · exact once_or_idle.elim (fun once => nomatch cycle.symm.trans once) streams
    have run := exec_listTrim s h hs (command.trans (if_neg allowed))
    refine ⟨k, ((s.lane n).trim k).list.fetch, ((s.lane n).trim k).list.shown, ?_, Nat.min_le_left _ _,
      at_most.trans within, fun e from_end in_list => ?_, fun below some_left opened => ?_,
      Lane.trim_positions_of_not_idle k, Lane.trim_positions_of_idle k⟩
    · rw [← Lane.trim_eq]
      exact run
    · exact ((s.lane n).entryOpen_iff in_list).mpr (by omega)
    · have all_open : k = (s.lane n).openEntries := (min_choice _ _).resolve_left (Nat.ne_of_lt below)
      have := ((s.lane n).entryOpen_iff (by omega)).mp opened
      omega

/-! ### LIST CLEAR (R115) -/

theorem exec_listClear {c : Ctl} {tag lane : Byte} (h : s.executes (.listClear c tag lane) = true)
    (hs : s.session c = some tag) {r : Reply} (hr : listClearCommand lane s = r) :
    exec (.listClear c tag lane) s = .next (r.state.answered r.status r.body) :=
  hr ▸ State.runFrame_inSession s _ c tag _ h hs

theorem listClearCommand_eq {n : LaneId} {lane : Byte} (hn : n.val = lane.toNat) : listClearCommand lane s =
    if (s.lane n).state = .idle then done (s.modLane n fun l => { l with list := .empty })
    else refuse s .wrongState := by
  simp only [listClearCommand, laneOf_of_val hn]

/-! ### LIST READ (R116, R181) -/

theorem exec_listRead {c : Ctl} {tag lane start maximum : Byte}
    (h : s.executes (.listRead c tag lane start maximum) = true) (hs : s.session c = some tag)
    {r : Reply} (hr : listReadCommand lane start maximum s = r) :
    exec (.listRead c tag lane start maximum) s = .next (r.state.answered r.status r.body) :=
  hr ▸ State.runFrame_inSession s _ c tag _ h hs

theorem listReadCommand_badParameter {lane start maximum : Byte}
    (h : 3 < lane.toNat ∨ 15 < start.toNat ∨ maximum.toNat = 0 ∨ 4 < maximum.toNat) :
    listReadCommand lane start maximum s = refuse s .badParameter := by
  unfold listReadCommand
  rcases h with h | h
  · rw [laneOf_none h]
  · split
    · rfl
    · exact if_pos h

theorem listReadCommand_eq {n : LaneId} {lane start maximum : Byte} (hn : n.val = lane.toNat)
    (hi : start.toNat ≤ 15) (low : 1 ≤ maximum.toNat) (high : maximum.toNat ≤ 4) :
    listReadCommand lane start maximum s =
      answer s (listBody (s.lane n).setup.mode (s.lane n).list start.toNat maximum.toNat) := by
  have in_range : ¬ (15 < start.toNat ∨ maximum.toNat = 0 ∨ 4 < maximum.toNat) := by omega
  simp only [listReadCommand, laneOf_of_val hn, if_neg in_range]

/-- The seven bytes of LIST READ for the entry at an index, none past the end (R181). -/
def entryRecord (entries : List Entry) (i : Nat) : List Byte :=
  match entries[i]? with
  | some e => byteOf i :: e.layout
  | none => []

theorem entryRecord_eq (entries : List Entry) (i : Nat) : entryRecord entries i =
    match entries[i]? with
    | some e => [BitVec.ofNat 8 i] ++ (match e.row with
        | some r => [BitVec.ofNat 8 (r.val / 256), BitVec.ofNat 8 r.val]
        | none => [0xFF, 0xFF]) ++
      [BitVec.ofNat 8 e.span.tap.val, BitVec.ofNat 8 e.span.len, BitVec.ofNat 8 e.repeats, if e.pause then 1 else 0]
    | none => [] := by
  unfold entryRecord
  cases entries[i]? with
  | none => rfl
  | some e =>
    obtain ⟨row, span, repeats, pause⟩ := e
    cases row with
    | none => rfl
    | some r => simp only [Entry.layout, rowBytes_some]; rfl

/-- The records of a list's entries are those of its indices from a start on. -/
theorem flatMap_zipIdx (entries : List Entry) (start count : Nat) :
    (((entries.drop start).take count).zipIdx start).flatMap (fun (e, i) => byteOf i :: e.layout) =
      (List.range (min count (entries.length - start))).flatMap fun k => entryRecord entries (start + k) := by
  induction count generalizing start with
  | zero => simp
  | succ count ih =>
    by_cases past : entries.length ≤ start
    · rw [List.drop_eq_nil_of_le past, Nat.sub_eq_zero_of_le past, Nat.min_zero]
      rfl
    · have inside : start < entries.length := Nat.lt_of_not_le past
      have one_more : min (count + 1) (entries.length - start) = min count (entries.length - (start + 1)) + 1 := by
        omega
      have first : entryRecord entries start = byteOf start :: entries[start].layout := by
        rw [entryRecord, List.getElem?_eq_getElem inside]
      rw [List.drop_eq_getElem_cons inside, List.take_succ_cons, List.zipIdx_cons, List.flatMap_cons, ih, one_more,
        List.range_succ_eq_map, List.flatMap_cons, List.flatMap_map]
      simp only [Nat.add_zero, first, Nat.succ_eq_add_one, Nat.add_assoc, Nat.add_comm 1]

theorem listBody_eq (mode : ListMode) (l : RowList) (start maximum : Nat) : listBody mode l start maximum =
    [mode.code, byteOf l.entries.length, byteOf l.fetch.entry, byteOf l.fetch.rep, byteOf l.shown.entry,
      byteOf l.shown.rep, bitByte l.showing, byteOf (min maximum (l.entries.length - start))] ++
    (List.range (min maximum (l.entries.length - start))).flatMap fun k => entryRecord l.entries (start + k) := by
  simp only [listBody, flatMap_zipIdx, List.length_take, List.length_drop]

/-- Settles O37: LIST CLEAR by the lane's state, LIST READ by its body, header and records. -/
theorem listClearAndRead : Obligations.ListClearAndRead := by
  intro s c tag lane start maximum hs
  refine ⟨fun h => ⟨fun bad => ?_, fun n hn => ⟨fun on => ?_, fun idle => ?_⟩⟩,
    fun h => ⟨fun bad => ?_, fun n hn hi low high => ?_⟩⟩
  · exact exec_listClear s h hs (r := refuse s .badParameter) (by simp only [listClearCommand, laneOf_none bad])
  · exact exec_listClear s h hs ((listClearCommand_eq s hn).trans (if_neg on))
  · exact exec_listClear s h hs ((listClearCommand_eq s hn).trans (if_pos idle))
  · exact exec_listRead s h hs (listReadCommand_badParameter s bad)
  · intro b l count record
    have mode : (s.lane n).setup.mode.code = if (s.lane n).setup.mode = .once then 0 else 1 := by
      cases (s.lane n).setup.mode <;> rfl
    have records : (fun k => entryRecord l.entries (start.toNat + k)) = record :=
      funext fun k => entryRecord_eq l.entries (start.toNat + k)
    rw [exec_listRead s h hs (listReadCommand_eq s hn hi low high), listBody_eq, mode, records]
    rfl

end Sys2Proof.Machine

namespace Sys2Proof.Machine

set_option Elab.async false

/-! ### 16-bit numbers and the entries of LIST APPEND, written and read (R176, R181) -/

theorem half_extract (h : Half) : half (h.extractLsb' 8 8) (h.extractLsb' 0 8) = h :=
  BitVec.extractLsb'_append_extractLsb' (w := 8) (len := 8)

theorem halfBytes_half (high low : Byte) : halfBytes (half high low) = [high, low] := by
  have upper : (high ++ low).extractLsb' (1 * 8) 8 = high := BitVec.extractLsb'_append_of_eq (k := 1) rfl
  have lower : (high ++ low).extractLsb' (0 * 8) 8 = low :=
    (BitVec.extractLsb'_append_of_lt (k := 1) Nat.zero_lt_one).trans BitVec.extractLsb'_eq_self
  exact congrArg₂ (fun a b => [a, b]) upper lower

theorem readEntries_flatMap (entries : List RawEntry) :
    readEntries (entries.flatMap entryBytes) = some entries := by
  induction entries with
  | nil => rfl
  | cons e entries ih =>
    show (readEntries (entries.flatMap entryBytes)).map _ = _
    rw [ih, half_extract]
    rfl

theorem flatMap_of_readEntries {bytes : List Byte} {entries : List RawEntry} (h : readEntries bytes = some entries) :
    entries.flatMap entryBytes = bytes := by
  induction bytes using readEntries.induct generalizing entries with
  | case1 => cases h; rfl
  | case2 rh rl tap span repeats pause rest ih =>
    obtain ⟨others, read, rfl⟩ := Option.map_eq_some_iff.mp h
    rw [List.flatMap_cons, ih read, entryBytes, halfBytes_half]
    rfl
  | case3 bytes nonempty short =>
    rw [readEntries] at h
    · exact nomatch h
    · exact nonempty
    · exact short

theorem flatMap_entryBytes_length (entries : List RawEntry) :
    (entries.flatMap entryBytes).length = 6 * entries.length := by
  induction entries with
  | nil => rfl
  | cons e entries ih =>
    rw [List.flatMap_cons, List.length_append, ih, List.length_cons]
    show 6 + _ = _
    omega

/-! ### Commands and their fields (R176) -/

set_option smartUnfolding false in
/-- A code of no command reads as none (R139 step 3). `readCommand` tests the codes one after another; only without
smart unfolding are these tests seen. -/
theorem readCommand_of_unknown {c : Ctl} {tag code : Byte} {ps : List Byte} (h : code ∉ knownCodes) :
    readCommand c tag code ps = none := by
  have other : ∀ k ∈ knownCodes, ¬ code.toNat = k.toNat := fun k known same =>
    h (BitVec.eq_of_toNat_eq same ▸ known)
  simp only [knownCodes, List.forall_mem_cons, BitVec.reduceToNat] at other
  iterate 32 refine (dif_neg other.1).trans ?_; replace other := other.2
  rfl

theorem readCommand_putBuffer_iff {c : Ctl} {tag : Byte} {ps : List Byte} {i : Instr} :
    readCommand c tag 0x20 ps = some i ↔ ∃ offset data, 1 ≤ data.length ∧ data.length ≤ 32 ∧ ps = offset :: data ∧
      i = .putBuffer c tag offset data := by
  constructor
  · intro h
    cases ps with
    | nil => exact nomatch h
    | cons offset data =>
      obtain ⟨fits, same⟩ := Option.ite_none_right_eq_some.mp h
      exact ⟨offset, data, fits.1, fits.2, rfl, (Option.some.inj same).symm⟩
  · rintro ⟨offset, data, low, high, rfl, rfl⟩
    exact if_pos ⟨low, high⟩

theorem readCommand_listAppend_iff {c : Ctl} {tag : Byte} {ps : List Byte} {i : Instr} :
    readCommand c tag 0x58 ps = some i ↔ ∃ (lane : Byte) (entries : List RawEntry), 1 ≤ entries.length ∧
      entries.length ≤ 4 ∧ ps = lane :: BitVec.ofNat 8 entries.length :: entries.flatMap entryBytes ∧
      i = .listAppend c tag lane entries := by
  constructor
  · intro h
    rcases ps with _ | ⟨lane, _ | ⟨k, rest⟩⟩
    · exact nomatch h
    · exact nomatch h
    · have read : readListAppend c tag lane k rest = some i := h
      unfold readListAppend at read
      split at read
      · rename_i entries rest_read
        obtain ⟨⟨low, high, count⟩, same⟩ := Option.ite_none_right_eq_some.mp read
        refine ⟨lane, entries, low, high, ?_, (Option.some.inj same).symm⟩
        rw [← count, BitVec.ofNat_toNat, BitVec.setWidth_eq, flatMap_of_readEntries rest_read]
      · exact nomatch read
  · rintro ⟨lane, entries, low, high, rfl, rfl⟩
    have count : (BitVec.ofNat 8 entries.length).toNat = entries.length := Nat.mod_eq_of_lt (by omega)
    show readListAppend c tag lane _ _ = _
    simp only [readListAppend, readEntries_flatMap]
    exact if_pos ⟨low, high, count⟩

/-- A well-formed command that a frame carries reads back from its fields. -/
theorem readCommand_of_fields {i : Instr} {c : Ctl} {tag code : Byte} {ps : List Byte} (wf : i.wellFormed = true)
    (h : commandFields i = some (c, tag, code, ps)) : readCommand c tag code ps = some i := by
  cases i with
  | putBuffer c tag offset data =>
    cases h
    simp only [Instr.wellFormed, Bool.and_eq_true, decide_eq_true_eq] at wf
    exact readCommand_putBuffer_iff.mpr ⟨offset, data, wf.1, wf.2, rfl, rfl⟩
  | listAppend c tag lane entries =>
    cases h
    simp only [Instr.wellFormed, Bool.and_eq_true, decide_eq_true_eq] at wf
    exact readCommand_listAppend_iff.mpr ⟨lane, entries, wf.1, wf.2, rfl, rfl⟩
  -- A row that no frame carries has no fields; of the others only 16-bit numbers are read from more than one byte.
  | _ => cases h <;> exact congrArg some (by simp only [half_extract])

/-- The codes by the parameters of their commands: PUT BUFFER and LIST APPEND, whose number of bytes varies, those of at
most three bytes, and those of more. -/
theorem knownCodes_by_parameters : ∀ code ∈ knownCodes, code = 0x20 ∨ code = 0x58 ∨
    code ∈ [0x01, 0x02, 0x03, 0x0A, 0x0B, 0x21, 0x2C, 0x35, 0x36, 0x41, 0x42, 0x43, 0x51, 0x52, 0x53, 0x54, 0x55, 0x59,
      0x5A, 0x5B, 0x60, 0x61, 0x62] ∨
    code ∈ [0x30, 0x31, 0x32, 0x33, 0x34, 0x40, 0x50] := by decide

/-- What the fields of a frame read as is a well-formed command with these fields; its parameters are at most
36 bytes. -/
theorem fields_of_readCommand {i : Instr} {c : Ctl} {tag code : Byte} {ps : List Byte}
    (h : readCommand c tag code ps = some i) :
    commandFields i = some (c, tag, code, ps) ∧ i.wellFormed = true ∧ ps.length ≤ 36 := by
  have known : code ∈ knownCodes := by
    by_contra unknown
    exact nomatch (readCommand_of_unknown unknown).symm.trans h
  rcases knownCodes_by_parameters code known with rfl | rfl | few | more
  · obtain ⟨offset, data, low, high, rfl, rfl⟩ := readCommand_putBuffer_iff.mp h
    refine ⟨rfl, ?_, ?_⟩
    · simp only [Instr.wellFormed, low, high, decide_true, Bool.and_self]
    · rw [List.length_cons]
      omega
  · obtain ⟨lane, entries, low, high, rfl, rfl⟩ := readCommand_listAppend_iff.mp h
    refine ⟨rfl, ?_, ?_⟩
    · simp only [Instr.wellFormed, low, high, decide_true, Bool.and_self]
    · rw [List.length_cons, List.length_cons, flatMap_entryBytes_length]
      omega
  -- The other rows have a fixed number of parameter bytes: of any other number `h` says that none is some command.
  case' inr.inr.inl => fin_cases few <;> rcases ps with _ | ⟨_, _ | ⟨_, _ | ⟨_, _ | _⟩⟩⟩ <;> cases h
  case' inr.inr.inr =>
    fin_cases more <;>
      rcases ps with _ | ⟨_, _ | ⟨_, _ | ⟨_, _ | ⟨_, _ | ⟨_, _ | ⟨_, _ | ⟨_, _ | ⟨_, _ | _⟩⟩⟩⟩⟩⟩⟩⟩ <;> cases h
  all_goals exact ⟨by simp only [commandFields, halfBytes_half, List.cons_append, List.nil_append], rfl,
    Nat.le_of_ble_eq_true rfl⟩

/-! ### Frames (R166, R176) -/

/-- A frame is GOOD when its last byte is the check value of the others, and these are three or more (R166). -/
theorem frameVerdict_good_iff (bytes : List Byte) : frameVerdict false bytes = some .good ↔
    ∃ front : List Byte, 3 ≤ front.length ∧ bytes = front ++ [checkValue front] := by
  constructor
  · intro good
    rw [frameVerdict, if_neg Bool.false_ne_true] at good
    split at good
    · exact nomatch good
    · split at good
      · exact nomatch good
      · split at good
        · rename_i long last
          have parts := List.dropLast_append_getLast? _ (Option.mem_def.mpr last)
          exact ⟨bytes.dropLast, by rw [List.length_dropLast]; omega, parts.symm⟩
        · exact nomatch good
  · rintro ⟨front, long, rfl⟩
    have length : (front ++ [checkValue front]).length = front.length + 1 := List.length_append
    have last : (front ++ [checkValue front]).getLast? = some (checkValue front) := List.getLast?_concat
    rw [frameVerdict, length, last, List.dropLast_concat, if_neg Bool.false_ne_true, if_neg (by omega),
      if_neg (by omega), if_pos rfl]

/-- The controller byte of a controller number. -/
theorem ctl_byte (c : Ctl) : (BitVec.ofNat 8 c.val).toNat = c.val := Nat.mod_eq_of_lt (by omega)

theorem readFrame_good (c : Ctl) (tag code check : Byte) (ps : List Byte) :
    readFrame .good ((BitVec.ofNat 8 c.val :: tag :: code :: ps) ++ [check]) =
      (readCommand c tag code ps).getD
        (.refusedFrame .good ((BitVec.ofNat 8 c.val :: tag :: code :: ps) ++ [check])) := by
  have number : (BitVec.ofNat 8 c.val).toNat < 8 := (ctl_byte c).trans_lt c.isLt
  have same : (⟨(BitVec.ofNat 8 c.val).toNat, number⟩ : Ctl) = c := Fin.ext (ctl_byte c)
  simp only [readFrame, List.dropLast_concat, dif_pos number, same]

/-- A frame that reads as a command is one of a controller number, and its fields read as that command. -/
theorem readCommand_of_readFrame {front : List Byte} {check : Byte}
    (h : ∀ v b, readFrame .good (front ++ [check]) ≠ .refusedFrame v b) :
    ∃ (c : Ctl) (tag code : Byte) (ps : List Byte), front = BitVec.ofNat 8 c.val :: tag :: code :: ps ∧
      readCommand c tag code ps = some (readFrame .good (front ++ [check])) := by
  rcases front with _ | ⟨cb, _ | ⟨tag, _ | ⟨code, ps⟩⟩⟩
  · exact absurd rfl (h _ _)
  · exact absurd rfl (h _ _)
  · exact absurd rfl (h _ _)
  by_cases number : cb.toNat < 8
  · obtain ⟨c, rfl⟩ : ∃ c : Ctl, cb = BitVec.ofNat 8 c.val :=
      ⟨⟨cb.toNat, number⟩, by rw [BitVec.ofNat_toNat, BitVec.setWidth_eq]⟩
    refine ⟨c, tag, code, ps, rfl, ?_⟩
    rw [readFrame_good] at h ⊢
    cases read : readCommand c tag code ps with
    | none => exact absurd (congrArg (Option.getD · _) read) (h _ _)
    | some i => rfl
  · refine absurd ?_ (h .good ((cb :: tag :: code :: ps) ++ [check]))
    simp only [readFrame, List.dropLast_concat, dif_neg number]

theorem frameOf_eq {i : Instr} {c : Ctl} {tag code : Byte} {ps : List Byte}
    (h : commandFields i = some (c, tag, code, ps)) : frameOf i = some ((BitVec.ofNat 8 c.val :: tag :: code :: ps) ++
      [checkValue (BitVec.ofNat 8 c.val :: tag :: code :: ps)]) := by
  rw [frameOf, h]
  rfl

/-- Settles O3: the fields of the command read back, and they are the frame's bytes before its check value. -/
theorem frameReadsAsItsCommand : Obligations.FrameReadsAsItsCommand := by
  intro i bytes wf framed
  obtain ⟨⟨c, tag, code, ps⟩, fields, rfl⟩ := Option.map_eq_some_iff.mp framed
  have read := readCommand_of_fields wf fields
  obtain ⟨-, -, short⟩ := fields_of_readCommand read
  refine ⟨?_, (frameVerdict_good_iff _).mpr ⟨_, ?_, rfl⟩, ?_⟩
  · simp only [List.length_append, List.length_cons, List.length_nil]
    omega
  · simp only [List.length_cons]
    omega
  · rw [readFrame_good, read, Option.getD_some]

/-- Settles O4: the bytes before the check value are the fields of the command they read as. -/
theorem commandHasOneFrame : Obligations.CommandHasOneFrame := by
  intro bytes good command
  obtain ⟨front, -, rfl⟩ := (frameVerdict_good_iff bytes).mp good
  obtain ⟨c, tag, code, ps, rfl, read⟩ := readCommand_of_readFrame command
  obtain ⟨fields, wf, -⟩ := fields_of_readCommand read
  exact ⟨frameOf_eq fields, wf⟩

end Sys2Proof.Machine

namespace Sys2Proof.Machine

set_option Elab.async false

/-! ### Posts (R121, R124, R125) -/

theorem saturatingSucc_eq (h : Half) : saturatingSucc h = if h = 65535 then 65535 else h + 1 := by
  unfold saturatingSucc
  split <;> [assumption; rfl]

theorem countNewest_concat (older : List Event) (newest : Event) :
    countNewest (older ++ [newest]) = older ++ [newest.countOne] := by
  induction older with
  | nil => rfl
  | cons e older ih => rw [List.cons_append, countNewest.eq_3 e _ (by simp), ih, List.cons_append]

variable (s : State)

theorem State.post_of_room (p : Post) (h : s.events.length ≤ 30) : s.post p = s.append p := if_pos h

theorem State.post_of_one_left (p : Post) (h : s.events.length = 31) :
    s.post p = s.append { kind := .eventsLost, source := .part, count := some 1 } := by
  rw [State.post, if_neg (by omega), if_pos h]

theorem State.post_of_full (p : Post) (h : s.events.length = 32) :
    s.post p = { s with events := countNewest s.events } := by
  rw [State.post, if_neg (by omega), if_neg (by omega)]

/-- Settles O38: by the records held; a full queue counts the post in its newest record, the marker. -/
theorem postingRule : Obligations.PostingRule := by
  intro s p
  refine ⟨s.post_of_room p, s.post_of_one_left p, fun older newest k held full _ count => ?_⟩
  have counted : newest.countOne =
      { newest with post := { newest.post with count := some (if k = 65535 then 65535 else k + 1) } } := by
    rw [Event.countOne, count, Option.getD_some, saturatingSucc_eq]
  rw [s.post_of_full p full, held, countNewest_concat, counted]

/-! ### TAKE EVENTS and PEEK EVENTS (R127, R128, R179) -/

theorem exec_takeEvents {c : Ctl} {tag maximum : Byte} (h : s.executes (.takeEvents c tag maximum) = true)
    (hs : s.session c = some tag) {r : Reply} (hr : takeEventsCommand maximum s = r) :
    exec (.takeEvents c tag maximum) s = .next (r.state.answered r.status r.body) :=
  hr ▸ State.runFrame_inSession s _ c tag _ h hs

theorem exec_peekEvents {c : Ctl} {tag maximum : Byte} (h : s.executes (.peekEvents c tag maximum) = true)
    (hs : s.session c = some tag) {r : Reply} (hr : peekEventsCommand maximum s = r) :
    exec (.peekEvents c tag maximum) s = .next (r.state.answered r.status r.body) :=
  hr ▸ State.runFrame_inSession s _ c tag _ h hs

theorem takeEventsCommand_badParameter {maximum : Byte} (h : maximum.toNat = 0 ∨ 4 < maximum.toNat) :
    takeEventsCommand maximum s = refuse s .badParameter := if_pos h

theorem peekEventsCommand_badParameter {maximum : Byte} (h : maximum.toNat = 0 ∨ 4 < maximum.toNat) :
    peekEventsCommand maximum s = refuse s .badParameter := if_pos h

theorem takeEventsCommand_eq {maximum : Byte} (low : 1 ≤ maximum.toNat) (high : maximum.toNat ≤ 4) :
    takeEventsCommand maximum s = answer { s with events := s.events.drop maximum.toNat }
      (eventsBody (s.events.take maximum.toNat) (s.events.drop maximum.toNat).length) := if_neg (by omega)

theorem peekEventsCommand_eq {maximum : Byte} (low : 1 ≤ maximum.toNat) (high : maximum.toNat ≤ 4) :
    peekEventsCommand maximum s = answer s (eventsBody (s.events.take maximum.toNat) s.events.length) :=
  if_neg (by omega)

/-- The bits of the presence byte one by one (R179). -/
theorem Post.presence_eq (p : Post) : p.presence =
    BitVec.ofNat 8 ((if p.row = none then 0 else 1) + (if p.ticket = none then 0 else 2) +
      (if p.claimId = none then 0 else 4) + (if p.count = none then 0 else 8) +
      (if p.cause = none then 0 else 16)) := by
  simp only [Post.presence, byteOf, ← Option.not_isSome_iff_eq_none, ite_not]

/-- Settles O39: the record's bytes field by field with the codes of Tables 9-1 and 9-3, then each command by its
operand's range. -/
theorem takeAndPeekEvents : Obligations.TakeAndPeekEvents := by
  intro s c tag maximum hs b wide party causeCode kindCode record taken left
  have two_bytes : halfBytes = wide := funext halfBytes_eq
  have layout : Event.layout = record := by
    funext e
    have kind : e.post.kind.code = kindCode e.post.kind := by cases e.post.kind <;> rfl
    have source : e.post.source.code = match e.post.source with
        | .party p => b (party p)
        | .part => 0x21 := by
      rcases e.post.source with (n | d) | _ <;> rfl
    have row : (e.post.row.elim [] fun r => word r.val) = match e.post.row with
        | some r => [b (r.val / 256), b r.val]
        | none => [] := by
      cases e.post.row with
      | none => rfl
      | some r => exact word_eq r.val
    have cause : Cause.code = causeCode := by
      funext x
      cases x <;> rfl
    rw [Event.layout, kind, source, row, cause, Post.presence_eq, two_bytes]
    rfl
  have body : ∀ held, eventsBody taken held = [b taken.length, b held] ++ taken.flatMap record :=
    fun held => by rw [← layout]; rfl
  refine ⟨fun bad => ⟨fun h => ?_, fun h => ?_⟩, fun low high => ⟨fun h => ?_, fun h => ?_⟩⟩
  · exact exec_takeEvents s h hs (takeEventsCommand_badParameter s bad)
  · exact exec_peekEvents s h hs (peekEventsCommand_badParameter s bad)
  · rw [← body]
    exact exec_takeEvents s h hs (takeEventsCommand_eq s low high)
  · rw [← body]
    exact exec_peekEvents s h hs (peekEventsCommand_eq s low high)

/-! ### SET ATTENTION and ATTN (R130, R131) -/

theorem exec_setAttention {c : Ctl} {tag : Byte} {mask : Half} (h : s.executes (.setAttention c tag mask) = true)
    (hs : s.session c = some tag) {r : Reply} (hr : setAttentionCommand mask s = r) :
    exec (.setAttention c tag mask) s = .next (r.state.answered r.status r.body) :=
  hr ▸ State.runFrame_inSession s _ c tag _ h hs

theorem allKinds_getLsbD_iff (k : Nat) : allKinds.getLsbD k = true ↔ 1 ≤ k ∧ k ≤ 11 := by
  have below_16 : ∀ j : Fin 16, allKinds.getLsbD j.val = true ↔ 1 ≤ j.val ∧ j.val ≤ 11 := by decide
  by_cases in_mask : k < 16
  · exact below_16 ⟨k, in_mask⟩
  · rw [BitVec.getLsbD_of_ge _ _ (by omega)]
    exact iff_of_false Bool.false_ne_true (by omega)

theorem eventsLostBit_getLsbD_iff (k : Nat) : eventsLostBit.getLsbD k = true ↔ k = 11 := by
  have only_bit : eventsLostBit = BitVec.twoPow 16 11 := by decide
  rw [only_bit, BitVec.getLsbD_twoPow]
  simp [eq_comm]

/-- The test of SET ATTENTION: a mask passes when each bit set in it names a kind. -/
theorem mask_names_kinds_iff (mask : Half) :
    mask &&& ~~~allKinds = 0 ↔ ∀ k, mask.getLsbD k = true → 1 ≤ k ∧ k ≤ 11 := by
  simp only [← allKinds_getLsbD_iff]
  refine ⟨fun nothing_else k on => ?_, fun named => BitVec.eq_of_getLsbD_eq fun k hk => ?_⟩
  · have bit := congrArg (BitVec.getLsbD · k) nothing_else
    simpa [on, BitVec.lt_of_getLsbD on] using bit
  · cases at_k : mask.getLsbD k with
    | false => simp [at_k]
    | true => simp [named k at_k]

theorem setAttentionCommand_badParameter {mask : Half} (h : ¬ ∀ k, mask.getLsbD k = true → 1 ≤ k ∧ k ≤ 11) :
    setAttentionCommand mask s = refuse s .badParameter := if_pos (mt (mask_names_kinds_iff mask).mp h)

theorem setAttentionCommand_eq {mask : Half} (h : ∀ k, mask.getLsbD k = true → 1 ≤ k ∧ k ≤ 11) :
    setAttentionCommand mask s =
      answer { s with mask := mask ||| eventsLostBit } (halfBytes (mask ||| eventsLostBit)) :=
  if_neg (not_not.mpr ((mask_names_kinds_iff mask).mpr h))

theorem State.attnLow_iff :
    s.attnLow = true ↔ ∃ e ∈ s.events, s.mask.getLsbD e.post.kind.code.toNat = true := List.any_eq_true

/-- Settles O40: SET ATTENTION by the bits of its mask, ATTN by the kind codes of R122. -/
theorem attentionMask : Obligations.AttentionMask := by
  refine ⟨fun s c tag mask => ?_, fun s => ?_⟩
  · intro i h hs named
    refine ⟨fun bad => exec_setAttention s h hs (setAttentionCommand_badParameter s bad), fun good => ?_⟩
    refine ⟨mask ||| eventsLostBit, fun k => ?_, ?_⟩
    · rw [BitVec.getLsbD_or, Bool.or_eq_true, eventsLostBit_getLsbD_iff]
    · rw [← halfBytes_eq]
      exact exec_setAttention s h hs (setAttentionCommand_eq s good)
  · intro kindBit
    have code : ∀ k : EventKind, k.code.toNat = kindBit k := by
      intro k
      cases k <;> rfl
    simp only [State.attnLow_iff, code]

end Sys2Proof.Machine

namespace Sys2Proof.Machine

set_option Elab.async false

/-! ### What reaches neither the control port nor the queue of commands that wait -/

/-- RESETn, the engine, the port and the commands that wait stand. -/
structure BusStands (s t : State) : Prop where
  resetnLow : t.resetnLow = s.resetnLow
  engine : t.engine = s.engine
  port : t.port = s.port
  pending : t.pending = s.pending

namespace BusStands

variable {s t u : State}

theorem refl (s : State) : BusStands s s := ⟨rfl, rfl, rfl, rfl⟩

theorem trans (a : BusStands s t) (b : BusStands t u) : BusStands s u :=
  ⟨b.resetnLow.trans a.resetnLow, b.engine.trans a.engine, b.port.trans a.port, b.pending.trans a.pending⟩

theorem foldl {α : Type} {f : State → α → State} (h : ∀ s x, BusStands s (f s x)) (xs : List α) (s : State) :
    BusStands s (xs.foldl f s) := by
  induction xs generalizing s with
  | nil => exact refl s
  | cons x xs ih => exact (h s x).trans (ih _)

theorem of_keeps (h : ArbiterKeeps s t) : BusStands s t := by
  rw [h.frame]
  exact ⟨rfl, rfl, rfl, rfl⟩

theorem of_acts {n : LaneId} (h : LaneActs n s t) : BusStands s t := of_keeps (.of_acts h)

end BusStands

variable (s : State)

/-! The arbiter, claims, sessions and the reset of the part. -/

theorem busStands_arbitrate : BusStands s s.arbitrate := .of_keeps (keeps_arbitrate s)

theorem busStands_post (p : Post) : BusStands s (s.post p) := .of_keeps ((ArbiterKeeps.refl s).post p)

theorem busStands_endClaims (which : Claim → Bool) (cause : Cause) : BusStands s (s.endClaims which cause) := by
  obtain ⟨-, frame, -, -⟩ := State.endClaims_spec which cause s s ⟨rfl, rfl, rfl⟩
  rw [frame]
  exact ⟨rfl, rfl, rfl, rfl⟩

theorem busStands_endSession (c : Ctl) (cause : Cause) : BusStands s (s.endSession c cause) := by
  have withdrawn : BusStands s ((s.endClaims (fun k => k.holder = .ctl c) cause).withdrawWaiting c) :=
    (busStands_endClaims s _ cause).trans (.of_keeps (keeps_withdrawWaiting _ c))
  refine withdrawn.trans (u := s.endSession c cause) ?_
  unfold State.endSession
  rw [State.orphanActive_frame]
  exact ⟨rfl, rfl, rfl, rfl⟩

theorem busStands_raise : BusStands s s.raise := ⟨rfl, rfl, rfl, rfl⟩

theorem busStands_setSession (c : Ctl) (tag : Option Byte) : BusStands s (s.setSession c tag) := ⟨rfl, rfl, rfl, rfl⟩

theorem busStands_setBuffer (c : Ctl) (m : Memory) : BusStands s (s.setBuffer c m) := ⟨rfl, rfl, rfl, rfl⟩

theorem busStands_modLane (n : LaneId) (f : Lane → Lane) : BusStands s (s.modLane n f) := ⟨rfl, rfl, rfl, rfl⟩

theorem busStands_takeover (c : Ctl) (tag : Byte) : BusStands s (s.takeover c tag) :=
  ((((busStands_endSession s c .takeover).trans (busStands_post _ _)).trans (busStands_setSession _ c _)).trans
    (busStands_setBuffer _ c _)).trans (busStands_raise _)

theorem busStands_signOff (c : Ctl) : BusStands s (s.signOff c) :=
  (((busStands_endSession s c .signOff).trans (busStands_setBuffer _ c _)).trans (busStands_setSession _ c _)).trans
    (busStands_raise _)

theorem busStands_resetPart : BusStands s s.resetPart := by
  rw [State.resetPart_frame]
  exact ⟨rfl, rfl, rfl, rfl⟩

theorem busStands_resetLane (n : LaneId) : BusStands s (s.resetLane n) :=
  ((BusStands.of_acts (acts_withdrawSlot s n)).trans (busStands_modLane _ n _)).trans (busStands_endClaims _ _ _)

/-! The sweep, ticks and completions. -/

theorem busStands_sweepOperationCompletion (t : State) (h : execSweepOperationCompletion s = .next t) :
    BusStands s t := by
  unfold execSweepOperationCompletion at h
  split at h
  · split at h
    · rename_i unswept
      have swept : BusStands s (s.sweepRow ⟨s.swept, unswept⟩) := by
        rw [State.sweepRow_eq]
        exact ⟨rfl, rfl, rfl, rfl⟩
      generalize s.sweepRow ⟨s.swept, unswept⟩ = u at h swept
      dsimp only at h
      split at h <;> cases h
      · exact swept.trans (by rw [State.endSweep_eq]; exact ⟨rfl, rfl, rfl, rfl⟩)
      · exact swept
    · cases h
  · cases h

theorem busStands_refreshTick (t : State) (h : execRefreshTick s = .next t) : BusStands s t := by
  unfold execRefreshTick at h
  split at h
  · cases h
  · split at h <;> cases h
    · have counted : BusStands s { s with
          refreshDebt := min (s.refreshDebt + 1) Config.urgentDebt, occasion := true } := ⟨rfl, rfl, rfl, rfl⟩
      exact counted.trans (busStands_arbitrate _)
    · exact .refl s

theorem busStands_millisecondTick (t : State) (h : execMillisecondTick s = .next t) : BusStands s t := by
  have counted : BusStands s s.countTick.tickBlocked := ⟨rfl, rfl, rfl, rfl⟩
  unfold execMillisecondTick at h
  split at h
  · cases h
  · split at h <;> cases h
    exact (counted.trans (.of_keeps (keeps_refuseAll _ _ _))).trans (busStands_arbitrate _)

theorem busStands_requestRefusal (who : RefusalTarget) (t : State) (h : execRequestRefusal who s = .next t) :
    BusStands s t := by
  cases who with
  | slot n =>
    cases h
    split
    · exact (BusStands.of_acts (acts_refuseSlot s n)).trans (busStands_arbitrate _)
    · exact .refl s
  | ticket k =>
    simp only [execRequestRefusal] at h
    split at h <;> cases h
    · split
      · exact (BusStands.of_keeps (keeps_refuseRequest s _)).trans (busStands_arbitrate _)
      · exact .refl s
    · exact .refl s

theorem busStands_leaseTick (t : State) (h : execLeaseTick s = .next t) : BusStands s t := by
  unfold execLeaseTick at h
  split at h
  · cases h
  · split at h <;> cases h
    rename_i l _
    have counted : BusStands s ({ s with leaseTick := l } : State).countLeases := ⟨rfl, rfl, rfl, rfl⟩
    exact (counted.trans (busStands_endClaims _ _ _)).trans (busStands_arbitrate _)

theorem busStands_report (x : Transfer) : BusStands s (s.report x) := by
  rw [State.report_frame]
  exact ⟨rfl, rfl, rfl, rfl⟩

theorem busStands_completeTransfer (x : Transfer) : BusStands s (s.completeTransfer x) := by
  have delivered : BusStands s (s.delivered x) := by
    rw [State.delivered_frame]
    exact ⟨rfl, rfl, rfl, rfl⟩
  have idle (u : State) : BusStands u { u with occasion := true, array := none } := ⟨rfl, rfl, rfl, rfl⟩
  rw [State.completeTransfer_eq]
  exact (delivered.trans (busStands_report _ x)).trans (idle _)

theorem busStands_completeOp (op : OpCode) (t : State) (h : completeOp op s = .next t) : BusStands s t := by
  unfold completeOp at h
  split at h
  · split at h <;> cases h
    exact (busStands_completeTransfer s _).trans (busStands_arbitrate _)
  · cases h

theorem busStands_refreshCompletion (t : State) (h : execRefreshCompletion s = .next t) : BusStands s t := by
  have completed : BusStands s s.completeRefresh := ⟨rfl, rfl, rfl, rfl⟩
  unfold execRefreshCompletion at h
  split at h <;> cases h
  exact completed.trans (busStands_arbitrate _)

/-! Lane clock edges and group frames. -/

theorem busStands_outLaneClockEdge (n : LaneId) (t : State) (h : execOutLaneClockEdge n s = .next t) :
    BusStands s t := by
  unfold execOutLaneClockEdge at h
  split at h <;> cases h
  · exact (BusStands.of_acts (acts_outEdge s n)).trans (busStands_arbitrate _)
  · exact ⟨rfl, rfl, rfl, rfl⟩

theorem busStands_inLaneClockEdge (n : LaneId) (ld : Byte) (t : State) (h : execInLaneClockEdge n ld s = .next t) :
    BusStands s t := by
  unfold execInLaneClockEdge at h
  split at h <;> cases h
  · exact (BusStands.of_acts (acts_inEdge s n ld)).trans (busStands_arbitrate _)
  · exact ⟨rfl, rfl, rfl, rfl⟩

theorem busStands_laneClockEdgeOutsideRunning (n : LaneId) (t : State)
    (h : execLaneClockEdgeOutsideRunning n s = .next t) : BusStands s t := by
  unfold execLaneClockEdgeOutsideRunning at h
  split at h <;> cases h
  exact ⟨rfl, rfl, rfl, rfl⟩

theorem busStands_groupStart (mask : Byte) : BusStands s (s.groupStart mask) :=
  .foldl (fun s n => .of_acts (acts_release s n)) _ s

theorem busStands_groupHalt (mask : Byte) : BusStands s (s.groupHalt mask) :=
  .foldl (fun s n => .of_acts (acts_haltIfStreaming s n)) _ s

theorem busStands_closeGroup : BusStands s s.closeGroup := by
  unfold State.closeGroup
  split
  · split
    · exact busStands_groupStart s _
    · exact busStands_groupHalt s _
  · exact .refl s

/-! The commands of the engine, before their execution ends. -/

theorem busStands_inSession {c : Ctl} {tag : Byte} {command : State → Reply}
    (h : BusStands s (command s).state) : BusStands s (inSession c tag command s).state := by
  rcases inSession_state s c tag command with e | ⟨-, e⟩
  · rw [e]; exact .refl s
  · rw [e]; exact h

theorem busStands_signOnCommand (c : Ctl) (tag takeover : Byte) : BusStands s (signOnCommand c tag takeover s).state := by
  unfold signOnCommand
  split
  · exact .refl s
  · split
    · exact .refl s
    · exact ⟨rfl, rfl, rfl, rfl⟩
    · exact .refl s
    · exact busStands_takeover s c tag

theorem busStands_groupEnableCommand (flag : Byte) : BusStands s (groupEnableCommand flag s).state := by
  unfold groupEnableCommand
  split <;> exact ⟨rfl, rfl, rfl, rfl⟩

theorem busStands_putBufferCommand (c : Ctl) (offset : Byte) (data : List Byte) :
    BusStands s (putBufferCommand c offset data s).state := by
  unfold putBufferCommand
  split <;> exact ⟨rfl, rfl, rfl, rfl⟩

theorem busStands_transferCommand (c : Ctl) (w : Option Work) (notify wait : Byte) :
    BusStands s (transferCommand c w notify wait s).state := by
  unfold transferCommand
  split
  · split <;> exact ⟨rfl, rfl, rfl, rfl⟩
  · exact .refl s

theorem busStands_cancelCommand (c : Ctl) (ticket : Half) : BusStands s (cancelCommand c ticket s).state := by
  unfold cancelCommand
  split
  · exact .refl s
  · split
    · exact .refl s
    · split
      · exact .refl s
      · split
        · exact .refl s
        · exact .of_keeps ((keeps_dequeue s _).trans (keeps_finish _ _ _ _))

theorem busStands_claimCommand (c : Ctl) (holder kind : Byte) (first count lease : Half) :
    BusStands s (claimCommand c holder kind first count lease s).state := by
  unfold claimCommand
  split
  · exact .refl s
  · split
    · exact .refl s
    · split <;> exact ⟨rfl, rfl, rfl, rfl⟩

theorem busStands_releaseCommand (c : Ctl) (id : Byte) : BusStands s (releaseCommand c id s).state := by
  unfold releaseCommand
  split
  · exact .refl s
  · split
    · exact .refl s
    · split
      · exact ⟨rfl, rfl, rfl, rfl⟩
      · split <;> exact ⟨rfl, rfl, rfl, rfl⟩

theorem busStands_renewCommand (c : Ctl) (id : Byte) (lease : Half) : BusStands s (renewCommand c id lease s).state := by
  unfold renewCommand
  split
  · exact .refl s
  · split
    · exact .refl s
    · split
      · exact .refl s
      · split
        · exact .refl s
        · split <;> exact ⟨rfl, rfl, rfl, rfl⟩

theorem busStands_laneSetupCommand (lane direction fill policy mode wait : Byte) :
    BusStands s (laneSetupCommand lane direction fill policy mode wait s).state := by
  unfold laneSetupCommand
  split
  · split <;> exact ⟨rfl, rfl, rfl, rfl⟩
  · exact .refl s

theorem busStands_laneStartCommand (lane mode : Byte) : BusStands s (laneStartCommand lane mode s).state := by
  unfold laneStartCommand
  split
  · split
    · split
      · exact .refl s
      · exact .of_acts (acts_startLane s _ _)
    · exact .of_acts (acts_release s _)
    · exact .refl s
  · exact .refl s

theorem busStands_laneStopCommand (lane mode : Byte) : BusStands s (laneStopCommand lane mode s).state := by
  unfold laneStopCommand
  split
  · split
    · exact .refl s
    · split
      · exact .of_acts (acts_haltIfStreaming s _)
      · exact .of_acts (acts_stopAtBoundary s _)
  · exact .refl s

theorem busStands_laneResumeCommand (lane : Byte) : BusStands s (laneResumeCommand lane s).state := by
  unfold laneResumeCommand
  split
  · split
    · split
      · exact .of_acts (acts_continueOut s _)
      · exact .of_acts (acts_continueIn s _)
    · exact .refl s
  · exact .refl s

theorem busStands_laneResetCommand (lane : Byte) : BusStands s (laneResetCommand lane s).state := by
  unfold laneResetCommand
  split
  · split
    · exact .refl s
    · exact busStands_resetLane s _
  · exact .refl s

theorem busStands_listAppendCommand (lane : Byte) (raw : List RawEntry) :
    BusStands s (listAppendCommand lane raw s).state := by
  unfold listAppendCommand
  split
  · dsimp only
    split
    · exact .refl s
    · split <;> exact ⟨rfl, rfl, rfl, rfl⟩
  · exact .refl s

theorem busStands_listTrimCommand (lane maximum : Byte) : BusStands s (listTrimCommand lane maximum s).state := by
  unfold listTrimCommand
  split
  · exact .refl s
  · dsimp only
    split
    · exact .refl s
    · split <;> exact ⟨rfl, rfl, rfl, rfl⟩

theorem busStands_listClearCommand (lane : Byte) : BusStands s (listClearCommand lane s).state := by
  unfold listClearCommand
  split
  · exact .refl s
  · split <;> exact ⟨rfl, rfl, rfl, rfl⟩

theorem busStands_takeEventsCommand (maximum : Byte) : BusStands s (takeEventsCommand maximum s).state := by
  unfold takeEventsCommand
  split <;> exact ⟨rfl, rfl, rfl, rfl⟩

theorem busStands_setAttentionCommand (mask : Half) : BusStands s (setAttentionCommand mask s).state := by
  unfold setAttentionCommand
  split <;> exact ⟨rfl, rfl, rfl, rfl⟩

end Sys2Proof.Machine

namespace Sys2Proof.Machine

set_option Elab.async false

variable (s : State)

/-! ### The frame of a transaction at the end of a phase (R166, R167, R171) -/

theorem Port.unmarked {p : Port} (h : p.frameInTx = false) : { p with frameInTx := false } = p := by
  rw [← h]

theorem State.leaveFrame_eq : s.leaveFrame = { s with
    engine := if s.port.frameInTx = true then s.engine.leave else s.engine
    port := { s.port with frameInTx := false } } := by
  unfold State.leaveFrame
  by_cases h : s.port.frameInTx = true
  · rw [if_pos h, if_pos h]
  · rw [if_neg h, if_neg h, Port.unmarked (Bool.eq_false_of_not_eq_true h)]

theorem State.releaseRecord_eq : s.releaseRecord = { s with
    engine := if s.port.frameInTx = true then .idle else s.engine
    port := { s.port with frameInTx := false } } := by
  unfold State.releaseRecord
  by_cases h : s.port.frameInTx = true
  · rw [if_pos h, if_pos h]
  · rw [if_neg h, if_neg h, Port.unmarked (Bool.eq_false_of_not_eq_true h)]

theorem State.deliverFrame_of_none (h : frameVerdict s.port.overlong s.port.frameBytes = none) :
    s.deliverFrame = s := by
  unfold State.deliverFrame
  rw [h]

theorem State.deliverFrame_of_some {v : Verdict} (h : frameVerdict s.port.overlong s.port.frameBytes = some v) :
    s.deliverFrame = { s with engine := .executing { verdict := v, bytes := s.port.frameBytes } false
                              port := { s.port with frameInTx := true } } := by
  unfold State.deliverFrame
  rw [h]

/-- The bytes of a write phase that a START or STOP finds taken: not the one it leaves unacknowledged (R159). -/
def Port.written (p : Port) (flag : Bool) : List Byte :=
  if p.unacknowledged flag = true ∧ p.overlong = false then p.frameBytes.dropLast else p.frameBytes

/-- The same of a group phase. -/
def Port.grouped (p : Port) (flag : Bool) : List Byte :=
  if p.unacknowledged flag = true ∧ p.groupOverlong = false then p.groupBytes.dropLast else p.groupBytes

theorem Port.dropUnacknowledged_write {p : Port} (h : p.phase = .write) : p.dropUnacknowledged =
    { p with frameBytes := if p.overlong = false then p.frameBytes.dropLast else p.frameBytes } := by
  simp only [Port.dropUnacknowledged, h]
  by_cases ho : p.overlong = true
  · rw [if_pos ho, if_neg (by rw [ho]; nofun), ← h]
  · rw [if_neg ho, if_pos (Bool.eq_false_of_not_eq_true ho)]

theorem Port.dropUnacknowledged_group {p : Port} (h : p.phase = .group) : p.dropUnacknowledged =
    { p with groupBytes := if p.groupOverlong = false then p.groupBytes.dropLast else p.groupBytes } := by
  simp only [Port.dropUnacknowledged, h]
  by_cases ho : p.groupOverlong = true
  · rw [if_pos ho, if_neg (by rw [ho]; nofun), ← h]
  · rw [if_neg ho, if_pos (Bool.eq_false_of_not_eq_true ho)]

theorem State.settleByte_write (flag : Bool) (h : s.port.phase = .write) :
    s.settleByte flag = { s with port := { s.port with frameBytes := s.port.written flag } } := by
  unfold State.settleByte State.modPort Port.written
  by_cases hu : s.port.unacknowledged flag = true
  · simp only [hu, if_true, true_and, Port.dropUnacknowledged_write h]
  · rw [if_neg hu, if_neg fun e => hu e.1]

theorem State.settleByte_group (flag : Bool) (h : s.port.phase = .group) :
    s.settleByte flag = { s with port := { s.port with groupBytes := s.port.grouped flag } } := by
  unfold State.settleByte State.modPort Port.grouped
  by_cases hu : s.port.unacknowledged flag = true
  · simp only [hu, if_true, true_and, Port.dropUnacknowledged_group h]
  · rw [if_neg hu, if_neg fun e => hu e.1]

theorem State.endPhaseByStart_write (flag : Bool) (h : s.port.phase = .write) : s.endPhaseByStart flag =
    ({ s with port := { s.port with frameBytes := s.port.written flag } } : State).deliverFrame := by
  simp only [State.endPhaseByStart, h, State.settleByte_write]

theorem State.endPhaseByStart_read (flag : Bool) (h : s.port.phase = .read) : s.endPhaseByStart flag =
    if s.port.unacknowledged flag = true then s else s.releaseRecord := by
  simp only [State.endPhaseByStart, h, State.endRead]

theorem State.endPhaseByStart_other (flag : Bool) (hw : s.port.phase ≠ .write) (hr : s.port.phase ≠ .read) :
    s.endPhaseByStart flag = s := by
  unfold State.endPhaseByStart
  split
  · exact absurd ‹_› hw
  · exact absurd ‹_› hr
  · rfl

theorem State.endPhaseByStop_group (flag : Bool) (h : s.port.phase = .group) : s.endPhaseByStop flag =
    ({ s with port := { s.port with groupBytes := s.port.grouped flag } } : State).closeGroup := by
  simp only [State.endPhaseByStop, h, State.settleByte_group]

theorem State.endPhaseByStop_other (flag : Bool) (h : s.port.phase ≠ .group) :
    s.endPhaseByStop flag = s.endPhaseByStart flag := by
  unfold State.endPhaseByStop State.endPhaseByStart
  cases hp : s.port.phase with
  | group => exact absurd hp h
  | _ => rfl

theorem State.deliverFrame_frame : s.deliverFrame = { s with
    engine := s.deliverFrame.engine, port := { s.port with frameInTx := s.deliverFrame.port.frameInTx } } := by
  cases h : frameVerdict s.port.overlong s.port.frameBytes with
  | none => rw [State.deliverFrame_of_none s h]
  | some v => rw [State.deliverFrame_of_some s h]

/-- The end of a phase by START changes the engine, the mark and what is left of the frame assembly. -/
theorem State.endPhaseByStart_frame (flag : Bool) : s.endPhaseByStart flag = { s with
    engine := (s.endPhaseByStart flag).engine
    port := { s.port with frameBytes := (s.endPhaseByStart flag).port.frameBytes
                          frameInTx := (s.endPhaseByStart flag).port.frameInTx } } := by
  by_cases hw : s.port.phase = .write
  · rw [State.endPhaseByStart_write s flag hw, State.deliverFrame_frame]
  · by_cases hr : s.port.phase = .read
    · rw [State.endPhaseByStart_read s flag hr]
      split
      · rfl
      · rw [State.releaseRecord_eq]
    · rw [State.endPhaseByStart_other s flag hw hr]

/-- A taken group frame changes lanes and the operation in flight (R88, R91). -/
theorem State.groupStart_frame (mask : Byte) :
    s.groupStart mask = { s with lanes := (s.groupStart mask).lanes } :=
  (State.foldl_modLane Lane.release (maskedLanes mask) (nodup_maskedLanes mask) s).1

theorem State.groupHalt_frame (mask : Byte) :
    s.groupHalt mask = { s with lanes := (s.groupHalt mask).lanes, array := (s.groupHalt mask).array } :=
  (State.foldl_haltIfStreaming (maskedLanes mask) (nodup_maskedLanes mask) s).1

theorem State.closeGroup_frame :
    s.closeGroup = { s with lanes := s.closeGroup.lanes, array := s.closeGroup.array } := by
  unfold State.closeGroup
  split
  · split
    · rw [State.groupStart_frame]
    · rw [State.groupHalt_frame]
  · rfl

/-- The end of a phase by STOP differs from that by START in a group phase alone. -/
theorem State.endPhaseByStop_frame (flag : Bool) : s.endPhaseByStop flag = { s.endPhaseByStart flag with
    port := { (s.endPhaseByStart flag).port with groupBytes := (s.endPhaseByStop flag).port.groupBytes }
    lanes := (s.endPhaseByStop flag).lanes, array := (s.endPhaseByStop flag).array } := by
  by_cases hg : s.port.phase = .group
  · rw [State.endPhaseByStop_group s flag hg, State.closeGroup_frame,
      State.endPhaseByStart_other s flag (by rw [hg]; nofun) (by rw [hg]; nofun)]
  · rw [State.endPhaseByStop_other s flag hg]

/-! ### The frame in transaction mark and the engine (R136, R160) -/

/-- Whether the frame that the engine executes, or whose result it holds, is one of the transaction (R136). -/
def Engine.inTx : Engine → Bool
  | .executing _ discard => !discard
  | .holding _ => true
  | .idle => false

theorem Engine.inTx_iff (e : Engine) :
    e.inTx = true ↔ (∃ r, e = .holding r) ∨ ∃ f, e = .executing f false := by
  cases e with
  | idle => simp [Engine.inTx]
  | executing f discard => cases discard <;> simp [Engine.inTx]
  | holding r => simp [Engine.inTx]

theorem Engine.leave_inTx (e : Engine) : e.leave.inTx = false := by cases e <;> rfl

/-- The port's mark is set exactly while the engine has a frame of the transaction. -/
def State.Marked (s : State) : Prop := s.port.frameInTx = s.engine.inTx

theorem State.PortMatchesEngine.marked {s : State} (h : s.PortMatchesEngine) : s.Marked :=
  Bool.eq_iff_iff.mpr (h.mark.trans s.engine.inTx_iff.symm)

theorem State.Marked.mark {s : State} (h : s.Marked) :
    s.port.frameInTx = true ↔ (∃ r, s.engine = .holding r) ∨ ∃ f, s.engine = .executing f false := by
  rw [h, Engine.inTx_iff]

theorem State.Marked.leaveFrame {s : State} (h : s.Marked) : s.leaveFrame.Marked := by
  rw [State.leaveFrame_eq]
  show false = (if s.port.frameInTx = true then s.engine.leave else s.engine).inTx
  split
  · exact s.engine.leave_inTx.symm
  · rename_i unmarked
    rw [← h, Bool.eq_false_of_not_eq_true unmarked]

theorem State.Marked.releaseRecord {s : State} (h : s.Marked) : s.releaseRecord.Marked := by
  rw [State.releaseRecord_eq]
  show false = (if s.port.frameInTx = true then Engine.idle else s.engine).inTx
  split
  · rfl
  · rename_i unmarked
    rw [← h, Bool.eq_false_of_not_eq_true unmarked]

theorem State.Marked.deliverFrame {s : State} (h : s.Marked) : s.deliverFrame.Marked := by
  cases hv : frameVerdict s.port.overlong s.port.frameBytes with
  | none => rw [State.deliverFrame_of_none s hv]; exact h
  | some v => rw [State.deliverFrame_of_some s hv]; rfl

theorem State.Marked.endPhaseByStart {s : State} (h : s.Marked) (flag : Bool) : (s.endPhaseByStart flag).Marked := by
  by_cases hw : s.port.phase = .write
  · rw [State.endPhaseByStart_write s flag hw]
    exact State.Marked.deliverFrame h
  · by_cases hr : s.port.phase = .read
    · rw [State.endPhaseByStart_read s flag hr]
      split
      · exact h
      · exact h.releaseRecord
    · rw [State.endPhaseByStart_other s flag hw hr]
      exact h

theorem State.Marked.endPhaseByStop {s : State} (h : s.Marked) (flag : Bool) : (s.endPhaseByStop flag).Marked := by
  rw [State.endPhaseByStop_frame]
  exact h.endPhaseByStart flag

/-! ### Port and engine in agreement -/

/-- A port that has ended its phase: nothing is assembled, sent or acknowledged. -/
theorem State.Marked.matches_ended {s : State} (m : s.Marked) (high : s.resetnLow = false) {phase : Phase}
    {isOpen : Bool} (bitCount : Nat) (hw : phase ≠ .write) (hr : phase ≠ .read)
    (closed : isOpen = false ↔ phase = .watching) :
    (s.modPort fun p => { p.clear with phase, isOpen, bitCount }).PortMatchesEngine where
  mark := m.mark
  write h := absurd h hw
  reset low := absurd (high.symm.trans low) nofun
  hold held := absurd (of_decide_eq_true (Bool.and_eq_true_iff.mp held).1) hr
  frame := Nat.zero_le _
  group := Nat.zero_le _
  closed := closed
  acknowledged ack := nomatch ack

/-- A port that has acknowledged an address byte: a write phase with the engine IDLE, or a read phase with its record
unless the frame of the transaction executes (R162, R169). -/
theorem State.Marked.matches_accepted {s : State} (m : s.Marked) (high : s.resetnLow = false)
    (opened : s.port.isOpen = true) {phase : Phase} {record : Option (List Byte)}
    (opens : phase = .write ∨ phase = .read ∨ phase = .group) (write : phase = .write → s.engine = .idle)
    (hold : record = none → phase = .read → ∃ f, s.engine = .executing f false) :
    (s.modPort fun p => p.accept phase record).PortMatchesEngine where
  mark := m.mark
  write := write
  reset low := absurd (high.symm.trans low) nofun
  hold held := by
    obtain ⟨reading, waits⟩ := Bool.and_eq_true_iff.mp held
    exact hold (Option.isNone_iff_eq_none.mp waits) (of_decide_eq_true reading)
  frame := Nat.zero_le _
  group := Nat.zero_le _
  closed := ⟨fun shut => absurd (opened.symm.trans shut) nofun, fun watching => by
    have watching : phase = .watching := watching
    rcases opens with h | h | h <;> exact absurd (h.symm.trans watching) nofun⟩
  acknowledged _ := ⟨rfl, opens⟩

/-- A port that has taken or refused a byte of a write or group phase, within the limits of the assemblies (R165,
R172). -/
theorem State.PortMatchesEngine.byte_settled {s : State} (h : s.PortMatchesEngine)
    (phase : s.port.phase = .write ∨ s.port.phase = .group) {frameBytes groupBytes : List Byte}
    (frame : frameBytes.length ≤ 40) (group : groupBytes.length ≤ 3) (overlong groupOverlong ack : Bool) :
    State.PortMatchesEngine { s with
      port := { s.port with frameBytes, overlong, groupBytes, groupOverlong, bitCount := 8, ack } } where
  mark := h.mark
  write := h.write
  reset := h.reset
  hold := h.hold
  frame := frame
  group := group
  closed := h.closed
  acknowledged _ := ⟨rfl, phase.imp_right .inr⟩

end Sys2Proof.Machine

namespace Sys2Proof.Machine

set_option Elab.async false

variable (s : State)

/-! ### The judgement of an address byte (R162 to R164) -/

/-- The part whose address byte is judged: a frame of the transaction has been left, unless the byte is the device's
read address (R162). -/
def State.settled (s : State) (b : Byte) : State :=
  if addressOf b = s.port.device ∧ isRead b = true then s else s.leaveFrame

/-- The part after a judgement that changed only what the port does next. -/
def State.judgedTo (s : State) (phase : Phase) (ack : Bool) (record : Option (List Byte)) : State :=
  { s with port := { phase, isOpen := s.port.isOpen, bitCount := 8, frameBytes := [], overlong := false,
                     groupBytes := [], groupOverlong := false, frameInTx := s.port.frameInTx, record, nextByte := 0,
                     strap := s.port.strap, ack } }

theorem State.pass_eq : s.modPort Port.pass = s.judgedTo .passed false none := rfl

theorem State.accept_eq (phase : Phase) (record : Option (List Byte)) :
    s.modPort (fun p => p.accept phase record) = s.judgedTo phase true record := rfl

theorem State.settled_device_read {b : Byte} (hd : addressOf b = s.port.device) (hr : isRead b = true) :
    s.settled b = s := if_pos ⟨hd, hr⟩

theorem State.settled_other {b : Byte} (h : ¬ (addressOf b = s.port.device ∧ isRead b = true)) :
    s.settled b = s.leaveFrame := if_neg h

theorem State.settled_frame (b : Byte) : s.settled b = { s with
    engine := (s.settled b).engine, port := { s.port with frameInTx := (s.settled b).port.frameInTx } } := by
  unfold State.settled
  split
  · rfl
  · rw [State.leaveFrame_eq]

theorem State.settled_leaves {b : Byte} (marked : s.port.frameInTx = true)
    (h : ¬ (addressOf b = s.port.device ∧ isRead b = true)) :
    (s.settled b).engine = s.engine.leave ∧ (s.settled b).port.frameInTx = false := by
  rw [State.settled_other s h, State.leaveFrame_eq]
  exact ⟨if_pos marked, rfl⟩

theorem State.settled_stays {b : Byte}
    (h : ¬ (s.port.frameInTx = true ∧ ¬ (addressOf b = s.port.device ∧ isRead b = true))) :
    (s.settled b).engine = s.engine ∧ (s.settled b).port.frameInTx = s.port.frameInTx := by
  by_cases marked : s.port.frameInTx = true
  · obtain ⟨hd, hr⟩ := not_not.mp (not_and.mp h marked)
    rw [State.settled_device_read s hd hr]
    exact ⟨rfl, rfl⟩
  · unfold State.settled
    split
    · exact ⟨rfl, rfl⟩
    · rw [State.leaveFrame_eq]
      exact ⟨if_neg marked, (Bool.eq_false_of_not_eq_true marked).symm⟩

/-! The device address. -/

theorem State.takeAddress_device {b : Byte} (hd : addressOf b = s.port.device) :
    s.takeAddress b = (s.settled b).judgeDevice (isRead b) := by
  unfold State.takeAddress
  rw [if_pos hd]
  cases hr : isRead b with
  | true => rw [State.settled_device_read s hd hr]; rfl
  | false => rw [State.settled_other s fun h => absurd (hr.symm.trans h.2) nofun]; rfl

theorem State.takeAddress_device_write {b : Byte} (hd : addressOf b = s.port.device) (hw : isRead b = false) :
    s.takeAddress b = (s.settled b).judgeDevice false := by rw [State.takeAddress_device s hd, hw]

theorem State.takeAddress_device_read {b : Byte} (hd : addressOf b = s.port.device) (hr : isRead b = true) :
    s.takeAddress b = s.judgeDevice true := by rw [State.takeAddress_device s hd, State.settled_device_read s hd hr, hr]

theorem State.judgeDevice_starting (read : Bool) (h : s.partState = .starting) :
    s.judgeDevice read = s.judgedTo .passed false none := if_pos h

section

variable (h : s.partState = .operating)
include h

theorem State.judgeDevice_write_idle (idle : s.engine = .idle) :
    s.judgeDevice false = s.judgedTo .write true none := by
  simp only [State.judgeDevice, h, reduceCtorEq, if_false, idle, State.accept_eq]

theorem State.judgeDevice_write_busy (busy : s.engine ≠ .idle) :
    s.judgeDevice false = s.judgedTo .passed false none := by
  cases e : s.engine with
  | idle => exact absurd e busy
  | holding r => simp only [State.judgeDevice, h, reduceCtorEq, if_false, e, State.pass_eq]
  | executing f d => simp only [State.judgeDevice, h, reduceCtorEq, if_false, e, State.pass_eq]

theorem State.judgeDevice_read_idle (idle : s.engine = .idle) : s.judgeDevice true =
    s.judgedTo .read true (some (Result.bytes { status := .ok, body := s.summaryBody })) := by
  simp only [State.judgeDevice, h, reduceCtorEq, if_false, idle, State.accept_eq]

theorem State.judgeDevice_read_holding {r : Result} (holding : s.engine = .holding r)
    (marked : s.port.frameInTx = true) : s.judgeDevice true = s.judgedTo .read true (some r.bytes) := by
  simp only [State.judgeDevice, h, reduceCtorEq, if_false, holding, marked, if_true, State.accept_eq]

theorem State.judgeDevice_read_executing {f : Frame} {d : Bool} (executing : s.engine = .executing f d)
    (marked : s.port.frameInTx = true) : s.judgeDevice true = s.judgedTo .read true none := by
  simp only [State.judgeDevice, h, reduceCtorEq, if_false, executing, marked, if_true, State.accept_eq]

theorem State.judgeDevice_read_unmarked (busy : s.engine ≠ .idle) (unmarked : s.port.frameInTx = false) :
    s.judgeDevice true = s.judgedTo .passed false none := by
  cases e : s.engine with
  | idle => exact absurd e busy
  | holding r =>
    simp only [State.judgeDevice, h, reduceCtorEq, if_false, e, unmarked, Bool.false_eq_true, State.pass_eq]
  | executing f d =>
    simp only [State.judgeDevice, h, reduceCtorEq, if_false, e, unmarked, Bool.false_eq_true, State.pass_eq]

end

/-- A judgement of the device address changes only what the port does next. -/
theorem State.judgeDevice_judges (read : Bool) :
    ∃ phase ack record, s.judgeDevice read = s.judgedTo phase ack record := by
  cases h : s.partState with
  | starting => exact ⟨_, _, _, State.judgeDevice_starting s read h⟩
  | operating =>
    unfold State.judgeDevice
    rw [if_neg (by rw [h]; nofun)]
    split
    · exact ⟨_, _, _, rfl⟩
    · exact ⟨_, _, _, rfl⟩
    · exact ⟨_, _, _, rfl⟩
    · split <;> exact ⟨_, _, _, rfl⟩
    · split <;> exact ⟨_, _, _, rfl⟩

/-! The group address, and every other. -/

/-- The group address is none of the device addresses (R161). -/
theorem Port.device_ne_group (p : Port) : p.device ≠ groupAddress := by
  unfold Port.device groupAddress
  omega

theorem State.takeAddress_group {b : Byte} (hg : addressOf b = groupAddress) :
    s.takeAddress b = (s.settled b).judgeGroup (isRead b) := by
  have other : addressOf b ≠ s.port.device := fun hd => s.port.device_ne_group (hd.symm.trans hg)
  unfold State.takeAddress
  rw [if_neg other, if_pos hg, State.settled_other s fun h => other h.1]

theorem State.takeAddress_other {b : Byte} (hd : addressOf b ≠ s.port.device) (hg : addressOf b ≠ groupAddress) :
    s.takeAddress b = (s.settled b).judgedTo .passed false none := by
  unfold State.takeAddress
  rw [if_neg hd, if_neg hg, State.settled_other s fun h => hd h.1, State.pass_eq]

theorem State.judgeGroup_taken (enabled : s.groupEnable = true) (h : s.partState = .operating) :
    s.judgeGroup false = s.judgedTo .group true none := if_pos ⟨rfl, enabled, h⟩

theorem State.judgeGroup_refused {read : Bool}
    (h : read = true ∨ s.groupEnable = false ∨ s.partState = .starting) :
    s.judgeGroup read = s.judgedTo .passed false none := by
  refine if_neg fun ⟨write, enabled, operating⟩ => ?_
  rcases h with h | h | h
  · exact absurd (h.symm.trans write) nofun
  · exact absurd (h.symm.trans enabled) nofun
  · exact absurd (h.symm.trans operating) nofun

/-- Every judgement of an address byte changes only what the port does next. -/
theorem State.takeAddress_judges (b : Byte) :
    ∃ phase ack record, s.takeAddress b = (s.settled b).judgedTo phase ack record := by
  by_cases hd : addressOf b = s.port.device
  · rw [State.takeAddress_device s hd]
    exact State.judgeDevice_judges _ _
  · by_cases hg : addressOf b = groupAddress
    · rw [State.takeAddress_group s hg]
      unfold State.judgeGroup
      split <;> exact ⟨_, _, _, rfl⟩
    · exact ⟨_, _, _, State.takeAddress_other s hd hg⟩

theorem isRead_iff (b : Byte) : isRead b = true ↔ b.toNat % 2 = 1 := decide_eq_true_iff

end Sys2Proof.Machine

namespace Sys2Proof.Machine

set_option Elab.async false

/-! ### What every command keeps of the port and of the commands that wait -/

/-- Port and engine agree after as before, and the commands that wait stand. -/
structure BusKept (s t : State) : Prop where
  agree : s.PortMatchesEngine → t.PortMatchesEngine
  pending : t.pending = s.pending

theorem BusKept.refl (s : State) : BusKept s s := ⟨id, rfl⟩

theorem BusKept.trans {s t u : State} (a : BusKept s t) (b : BusKept t u) : BusKept s u :=
  ⟨b.agree ∘ a.agree, b.pending.trans a.pending⟩

theorem BusStands.kept {s t : State} (h : BusStands s t) : BusKept s t := by
  refine ⟨fun m => ?_, h.pending⟩
  have held : t.sckHeld = s.sckHeld := by unfold State.sckHeld; rw [h.port]
  have acknowledges : t.acknowledges = s.acknowledges := by unfold State.acknowledges; rw [h.port]
  exact ⟨by rw [h.port, h.engine]; exact m.mark, by rw [h.port, h.engine]; exact m.write,
    by rw [h.resetnLow, h.engine]; exact m.reset, by rw [held, h.engine]; exact m.hold,
    by rw [h.port]; exact m.frame, by rw [h.port]; exact m.group, by rw [h.port]; exact m.closed,
    by rw [h.port, acknowledges]; exact m.acknowledged⟩

variable (s : State)

/-! START, STOP, bus errors and the end of a read phase. -/

theorem busKept_takeStart (flag : Bool) (high : s.resetnLow = false) : BusKept s (s.takeStart flag) := by
  have frame := State.endPhaseByStart_frame s flag
  refine ⟨fun h => ?_, ?_⟩
  · exact (h.marked.endPhaseByStart flag).matches_ended (by rw [frame]; exact high) 0 nofun nofun (by simp)
  · show (s.endPhaseByStart flag).pending = s.pending
    rw [frame]

theorem busKept_takeStop (flag : Bool) (high : s.resetnLow = false) : BusKept s (s.takeStop flag) := by
  have frame : (s.endPhaseByStop flag).leaveFrame.resetnLow = s.resetnLow ∧
      (s.endPhaseByStop flag).leaveFrame.pending = s.pending := by
    rw [State.leaveFrame_eq, State.endPhaseByStop_frame, State.endPhaseByStart_frame]
    exact ⟨rfl, rfl⟩
  refine ⟨fun h => ?_, frame.2⟩
  exact (h.marked.endPhaseByStop flag).leaveFrame.matches_ended (frame.1.trans high) 0 nofun nofun (by simp)

theorem busKept_execStart (flag : Bool) (t : State) (h : execStart flag s = .next t) : BusKept s t := by
  unfold execStart at h
  split at h
  · cases h; exact .refl s
  · rename_i high
    split at h <;> cases h
    exact busKept_takeStart s flag (Bool.eq_false_of_not_eq_true high)

theorem busKept_execStop (flag : Bool) (t : State) (h : execStop flag s = .next t) : BusKept s t := by
  unfold execStop at h
  split at h
  · cases h; exact .refl s
  · rename_i high
    split at h <;> cases h
    exact busKept_takeStop s flag (Bool.eq_false_of_not_eq_true high)

theorem busKept_busError (condition : Condition) (bits : Nat) (t : State)
    (h : execBusError condition bits s = .next t) : BusKept s t := by
  unfold execBusError at h
  split at h
  · cases h
  · split at h
    · cases h; exact .refl s
    · rename_i high
      split at h <;> cases h
      have left : s.leaveFrame.resetnLow = s.resetnLow ∧ s.leaveFrame.pending = s.pending := by
        rw [State.leaveFrame_eq]
        exact ⟨rfl, rfl⟩
      have high : s.leaveFrame.resetnLow = false := left.1.trans (Bool.eq_false_of_not_eq_true high)
      refine ⟨fun m => ?_, left.2⟩
      cases condition with
      | start => exact m.marked.leaveFrame.matches_ended high 0 nofun nofun (by simp)
      | stop => exact m.marked.leaveFrame.matches_ended high 0 nofun nofun (by simp)

theorem busKept_readPhaseEnd (how : ReadEnd) (t : State) (h : execReadPhaseEnd how s = .next t) : BusKept s t := by
  unfold execReadPhaseEnd at h
  split at h
  · cases h; exact .refl s
  · rename_i high
    have high : s.resetnLow = false := Bool.eq_false_of_not_eq_true high
    split at h
    · rename_i reading
      split at h
      · cases h
      · cases how with
        | stop => cases h; exact busKept_takeStop s false high
        | repeatedStart => cases h; exact busKept_takeStart s false high
        | nack =>
          cases h
          have released : s.releaseRecord.resetnLow = s.resetnLow ∧ s.releaseRecord.pending = s.pending ∧
              s.releaseRecord.port.isOpen = s.port.isOpen := by
            rw [State.releaseRecord_eq]
            exact ⟨rfl, rfl, rfl⟩
          obtain ⟨low, pending, isOpen⟩ := released
          refine ⟨fun m => ?_, pending⟩
          have opened : s.releaseRecord.port.isOpen ≠ false := by
            rw [isOpen, ne_eq, m.closed, reading]
            nofun
          exact m.marked.releaseRecord.matches_ended (low.trans high) 0 nofun nofun
            ⟨fun e => absurd e opened, nofun⟩
    · cases h

/-! Address bytes. -/

/-- A part that has judged an address byte goes on with its transaction. -/
structure State.Judges (s : State) : Prop where
  marked : s.Marked
  high : s.resetnLow = false
  opened : s.port.isOpen = true

theorem State.Judges.leaveFrame {s : State} (h : s.Judges) : s.leaveFrame.Judges where
  marked := h.marked.leaveFrame
  high := by rw [State.leaveFrame_eq]; exact h.high
  opened := by rw [State.leaveFrame_eq]; exact h.opened

theorem State.Judges.passed {s : State} (h : s.Judges) : (s.modPort Port.pass).PortMatchesEngine :=
  h.marked.matches_ended h.high 8 nofun nofun ⟨fun shut => absurd (h.opened.symm.trans shut) nofun, nofun⟩

theorem State.Judges.judgeDevice {s : State} (h : s.Judges) (read : Bool) :
    (s.judgeDevice read).PortMatchesEngine := by
  unfold State.judgeDevice
  split
  · exact h.passed
  · split
    · rename_i idle
      exact h.marked.matches_accepted h.high h.opened (.inl rfl) (fun _ => idle) nofun
    · exact h.passed
    · exact h.marked.matches_accepted h.high h.opened (.inr (.inl rfl)) nofun nofun
    · split
      · exact h.marked.matches_accepted h.high h.opened (.inr (.inl rfl)) nofun nofun
      · exact h.passed
    · rename_i executing
      split
      · rename_i marked
        refine h.marked.matches_accepted h.high h.opened (.inr (.inl rfl)) nofun fun _ _ => ?_
        rcases h.marked.mark.mp marked with ⟨r, holding⟩ | kept
        · exact absurd (executing.symm.trans holding) nofun
        · exact kept
      · exact h.passed

theorem State.Judges.judgeGroup {s : State} (h : s.Judges) (read : Bool) : (s.judgeGroup read).PortMatchesEngine := by
  unfold State.judgeGroup
  split
  · exact h.marked.matches_accepted h.high h.opened (.inr (.inr rfl)) nofun nofun
  · exact h.passed

theorem State.Judges.takeAddress {s : State} (h : s.Judges) (b : Byte) : (s.takeAddress b).PortMatchesEngine := by
  unfold State.takeAddress
  split
  · split
    · exact h.judgeDevice true
    · exact h.leaveFrame.judgeDevice false
  · split
    · exact h.leaveFrame.judgeGroup _
    · exact h.leaveFrame.passed

theorem busKept_addressByte (b : Byte) (t : State) (h : execAddressByte b s = .next t) : BusKept s t := by
  unfold execAddressByte at h
  split at h
  · cases h; exact .refl s
  · rename_i listens
    obtain ⟨high, -⟩ := not_or.mp listens
    split at h <;> cases h
    rename_i addressed
    obtain ⟨phase, ack, record, judged⟩ := State.takeAddress_judges s b
    refine ⟨fun m => ?_, by rw [judged, State.settled_frame]; rfl⟩
    have opened : s.port.isOpen ≠ false := by
      rw [ne_eq, m.closed, addressed]
      nofun
    exact State.Judges.takeAddress ⟨m.marked, Bool.eq_false_of_not_eq_true high, Bool.eq_true_of_not_eq_false opened⟩ b

/-! Bytes of a phase. -/

theorem busKept_writePhaseByte (b : Byte) (t : State) (h : execWritePhaseByte b s = .next t) : BusKept s t := by
  unfold execWritePhaseByte at h
  split at h
  · cases h; exact .refl s
  · split at h <;> cases h
    rename_i writing
    refine ⟨fun m => ?_, rfl⟩
    unfold State.modPort Port.takeWriteByte
    dsimp only
    split
    · rename_i room
      exact m.byte_settled (.inl writing) (by rw [List.length_append]; exact room) m.group _ _ _
    · exact m.byte_settled (.inl writing) m.frame m.group _ _ _

theorem busKept_groupPhaseByte (b : Byte) (t : State) (h : execGroupPhaseByte b s = .next t) : BusKept s t := by
  unfold execGroupPhaseByte at h
  split at h
  · cases h; exact .refl s
  · split at h <;> cases h
    rename_i grouping
    refine ⟨fun m => ?_, rfl⟩
    unfold State.modPort Port.takeGroupByte
    dsimp only
    split
    · rename_i room
      exact m.byte_settled (.inr grouping) m.frame (by rw [List.length_append]; exact room) _ _ _
    · exact m.byte_settled (.inr grouping) m.frame m.group _ _ _

theorem busKept_readByteAcknowledge (t : State) (h : execReadByteAcknowledge s = .next t) : BusKept s t := by
  unfold execReadByteAcknowledge at h
  split at h
  · cases h; exact .refl s
  · split at h
    · split at h <;> cases h
      exact ⟨fun m => ⟨m.mark, m.write, m.reset, m.hold, m.frame, m.group, m.closed, nofun⟩, rfl⟩
    · cases h

/-! Reset and the end of an execution. -/

theorem State.matches_fresh {t : State} {strap : Fin 8} (idle : t.engine = .idle) (port : t.port = Port.fresh strap) :
    t.PortMatchesEngine where
  mark := by rw [port, idle]; simp [Port.fresh]
  write _ := idle
  reset _ := idle
  hold := by unfold State.sckHeld; rw [port]; nofun
  frame := by rw [port]; exact Nat.zero_le _
  group := by rw [port]; exact Nat.zero_le _
  closed := by rw [port]; exact ⟨fun _ => rfl, fun _ => rfl⟩
  acknowledged := by unfold State.acknowledges; rw [port]; nofun

theorem busKept_hardReset (t : State) (h : execHardReset s = .next t) : BusKept s t := by
  cases h
  exact ⟨fun _ => State.matches_fresh rfl rfl, rfl⟩

theorem busKept_resetnRise (straps : Fin 8) (t : State) (h : execResetnRise straps s = .next t) : BusKept s t := by
  unfold execResetnRise at h
  split at h <;> cases h
  exact ⟨fun m => State.matches_fresh (m.reset ‹_›) rfl, rfl⟩

/-- An engine that executes a frame with a discard noted becomes IDLE, and the port has no frame of it (R136). -/
theorem State.PortMatchesEngine.discarded {s : State} (m : s.PortMatchesEngine) {f : Frame}
    (executing : s.engine = .executing f true) : State.PortMatchesEngine { s with engine := .idle } where
  mark := m.marked.mark.trans (by rw [executing]; simp)
  write _ := rfl
  reset _ := rfl
  hold held := by
    obtain ⟨g, kept⟩ := m.hold held
    exact absurd (executing.symm.trans kept) nofun
  frame := m.frame
  group := m.group
  closed := m.closed
  acknowledged := m.acknowledged

/-- The result of a frame of the transaction is held, and a read phase that waits for it has its record (R136,
R169). -/
theorem State.PortMatchesEngine.held {s : State} (m : s.PortMatchesEngine) {f : Frame}
    (executing : s.engine = .executing f false) (r : Result) :
    State.PortMatchesEngine { s with engine := .holding r, port := s.port.load r } := by
  have marked : s.port.frameInTx = true := m.mark.mpr (.inr ⟨f, executing⟩)
  have writes : s.port.phase ≠ .write := fun h => absurd (executing.symm.trans (m.write h)) nofun
  have high : s.resetnLow ≠ true := fun h => absurd (executing.symm.trans (m.reset h)) nofun
  unfold Port.load
  split
  · exact ⟨⟨fun _ => .inl ⟨r, rfl⟩, fun _ => marked⟩, fun h => absurd h writes, fun h => absurd h high,
      fun held => absurd (Bool.and_eq_true_iff.mp held).2 nofun, m.frame, m.group, m.closed, m.acknowledged⟩
  · rename_i loaded
    refine ⟨⟨fun _ => .inl ⟨r, rfl⟩, fun _ => marked⟩, fun h => absurd h writes, fun h => absurd h high,
      fun held => ?_, m.frame, m.group, m.closed, m.acknowledged⟩
    obtain ⟨reading, waits⟩ := Bool.and_eq_true_iff.mp held
    exact absurd ⟨of_decide_eq_true reading, marked, Option.isNone_iff_eq_none.mp waits⟩ loaded

theorem busKept_finishReply (r : Reply) : BusKept r.state r.finish := by
  unfold Reply.finish
  split
  · rename_i executing
    exact ⟨fun m => m.discarded executing, rfl⟩
  · rename_i executing
    exact ⟨fun m => m.held executing _, rfl⟩
  · exact .refl _

theorem busKept_runFrame {i : Instr} {command : State → Reply} {t : State} (k : BusStands s (command s).state)
    (h : s.runFrame i command = .next t) : BusKept s t := by
  unfold State.runFrame at h
  split at h <;> cases h
  exact k.kept.trans (busKept_finishReply _)

theorem busKept_runOccasion {i : Instr} {command : State → Reply} {t : State} (k : BusStands s (command s).state)
    (h : s.runOccasion i command = .next t) : BusKept s t := by
  unfold State.runOccasion at h
  split at h <;> cases h
  exact (k.kept.trans (busKept_finishReply _)).trans (busStands_arbitrate _).kept

/-- A command that is no occasion for a selection, in its session. -/
theorem busKept_inFrame {i : Instr} {c : Ctl} {tag : Byte} {command : State → Reply} {t : State}
    (k : BusStands s (command s).state) (h : s.runFrame i (inSession c tag command) = .next t) : BusKept s t :=
  busKept_runFrame s (busStands_inSession s k) h

/-- A command that can be an occasion for a selection, in its session. -/
theorem busKept_inOccasion {i : Instr} {c : Ctl} {tag : Byte} {command : State → Reply} {t : State}
    (k : BusStands s (command s).state) (h : s.runOccasion i (inSession c tag command) = .next t) : BusKept s t :=
  busKept_runOccasion s (busStands_inSession s k) h

/-- A command that only reads, in its session. -/
theorem busKept_read {i : Instr} {c : Ctl} {tag : Byte} {command : State → Reply} {t : State}
    (e : (command s).state = s) (h : s.runFrame i (inSession c tag command) = .next t) : BusKept s t :=
  busKept_inFrame s (by rw [e]; exact .refl s) h

/-! ### Every command and the step -/

/-- Every command that answers a next state keeps port and engine in agreement and the commands that wait. -/
theorem busKept_exec (i : Instr) (t : State) (h : exec i s = .next t) : BusKept s t := by
  cases i with
  | hardReset => exact busKept_hardReset s t h
  | resetnRise straps => exact busKept_resetnRise s straps t h
  | sweepOperationCompletion => exact (busStands_sweepOperationCompletion s t h).kept
  | refreshTick => exact (busStands_refreshTick s t h).kept
  | millisecondTick => exact (busStands_millisecondTick s t h).kept
  | requestRefusal who => exact (busStands_requestRefusal s who t h).kept
  | leaseTick => exact (busStands_leaseTick s t h).kept
  | claimExpiry => cases h; exact ((busStands_endClaims s _ _).trans (busStands_arbitrate _)).kept
  | loadCompletion => exact (busStands_completeOp s .load t h).kept
  | storeCompletion => exact (busStands_completeOp s .store t h).kept
  | cstoreCompletion => exact (busStands_completeOp s .cstore t h).kept
  | fillCompletion => exact (busStands_completeOp s .fill t h).kept
  | copyCompletion => exact (busStands_completeOp s .copy t h).kept
  | refreshCompletion => exact (busStands_refreshCompletion s t h).kept
  | outLaneClockEdge n => exact (busStands_outLaneClockEdge s n t h).kept
  | inLaneClockEdge n ld => exact (busStands_inLaneClockEdge s n ld t h).kept
  | laneClockEdgeOutsideRunning n => exact (busStands_laneClockEdgeOutsideRunning s n t h).kept
  | identify c tag => exact busKept_runFrame s (command := fun s => answer s (identifyBody s.port.strap)) (.refl s) h
  | signOn c tag takeover => exact busKept_runOccasion s (busStands_signOnCommand s c tag takeover) h
  | signOff c tag => exact busKept_inOccasion s (busStands_signOff s c) h
  | resetPart c tag => exact busKept_inOccasion s (busStands_resetPart s) h
  | groupEnable c tag flag => exact busKept_inFrame s (busStands_groupEnableCommand s flag) h
  | putBuffer c tag offset data => exact busKept_inFrame s (busStands_putBufferCommand s c offset data) h
  | getBuffer c tag offset length => exact busKept_read s (getBufferCommand_state s c offset length) h
  | rowInfo c tag first count => exact busKept_read s (rowInfoCommand_state s first count) h
  | load c tag row notify wait => exact busKept_inOccasion s (busStands_transferCommand s c _ notify wait) h
  | store c tag row tap span notify wait => exact busKept_inOccasion s (busStands_transferCommand s c _ notify wait) h
  | cstore c tag row tap span expected notify wait =>
    exact busKept_inOccasion s (busStands_transferCommand s c _ notify wait) h
  | fill c tag row tap span value notify wait =>
    exact busKept_inOccasion s (busStands_transferCommand s c _ notify wait) h
  | copy c tag source destination tap span notify wait =>
    exact busKept_inOccasion s (busStands_transferCommand s c _ notify wait) h
  | cancel c tag ticket => exact busKept_inFrame s (busStands_cancelCommand s c ticket) h
  | queryTicket c tag ticket => exact busKept_read s (queryCommand_state s c ticket) h
  | claim c tag holder kind first count lease =>
    exact busKept_inOccasion s (busStands_claimCommand s c holder kind first count lease) h
  | release c tag id => exact busKept_inOccasion s (busStands_releaseCommand s c id) h
  | renew c tag id lease => exact busKept_inFrame s (busStands_renewCommand s c id lease) h
  | listClaims c tag startId maximum => exact busKept_read s (listClaimsCommand_state s startId maximum) h
  | laneSetup c tag lane direction fill policy mode wait =>
    exact busKept_inFrame s (busStands_laneSetupCommand s lane direction fill policy mode wait) h
  | laneStart c tag lane mode => exact busKept_inOccasion s (busStands_laneStartCommand s lane mode) h
  | laneStop c tag lane mode => exact busKept_inFrame s (busStands_laneStopCommand s lane mode) h
  | laneResume c tag lane => exact busKept_inOccasion s (busStands_laneResumeCommand s lane) h
  | laneReset c tag lane => exact busKept_inOccasion s (busStands_laneResetCommand s lane) h
  | laneStatus c tag lane => exact busKept_read s (laneStatusCommand_state s lane) h
  | listAppend c tag lane entries => exact busKept_inFrame s (busStands_listAppendCommand s lane entries) h
  | listTrim c tag lane maximum => exact busKept_inFrame s (busStands_listTrimCommand s lane maximum) h
  | listClear c tag lane => exact busKept_inFrame s (busStands_listClearCommand s lane) h
  | listRead c tag lane start maximum => exact busKept_read s (listReadCommand_state s lane start maximum) h
  | takeEvents c tag maximum => exact busKept_inFrame s (busStands_takeEventsCommand s maximum) h
  | peekEvents c tag maximum => exact busKept_read s (peekEventsCommand_state s maximum) h
  | setAttention c tag mask => exact busKept_inFrame s (busStands_setAttentionCommand s mask) h
  | refusedFrame verdict bytes =>
    exact busKept_runFrame s (command := fun s => refuse s (admissionStatus verdict bytes)) (.refl s) h
  | start unacknowledged => exact busKept_execStart s unacknowledged t h
  | addressByte b => exact busKept_addressByte s b t h
  | stop unacknowledged => exact busKept_execStop s unacknowledged t h
  | readPhaseEnd how => exact busKept_readPhaseEnd s how t h
  | busError condition bits => exact busKept_busError s condition bits t h
  | groupStart mask => cases h; exact (busStands_groupStart s mask).kept
  | groupHalt mask => cases h; exact (busStands_groupHalt s mask).kept
  | writePhaseByte b => exact busKept_writePhaseByte s b t h
  | groupPhaseByte b => exact busKept_groupPhaseByte s b t h
  | readByteAcknowledge => exact busKept_readByteAcknowledge s t h

/-- Settles O59: the invariant does not speak of the commands that wait, and every command and selection keeps it. -/
theorem stepKeepsPort : Obligations.StepKeepsPort := by
  intro s t m h
  unfold step at h
  split at h
  · cases h
    exact (busStands_arbitrate s).kept.agree m
  · rename_i c rest _
    have taken : State.PortMatchesEngine { s with pending := rest } :=
      ⟨m.mark, m.write, m.reset, m.hold, m.frame, m.group, m.closed, m.acknowledged⟩
    exact (busKept_exec _ c t h).agree taken

/-- Settles O2: no command reaches the commands that wait. -/
theorem commandsLeaveTheQueue : Obligations.CommandsLeaveTheQueue := fun c s t h => (busKept_exec s c t h).pending

/-- Settles O1: by the queue; without an occasion the arbiter has no selection to make. -/
theorem stepRunsFrontCommand : Obligations.StepRunsFrontCommand := by
  refine ⟨fun s c rest waiting => ?_, fun s empty settled => ?_⟩
  · rw [step, waiting]
  · rw [step, empty]
    exact congrArg _ (State.arbitrate_of_no_occasion s settled)

end Sys2Proof.Machine

namespace Sys2Proof.Machine

set_option Elab.async false

variable (s : State)

/-! ### START and STOP (R157, R167) -/

theorem State.takeStart_eq (flag : Bool) : s.takeStart flag = { s with
    engine := (s.endPhaseByStart flag).engine
    port := { phase := .address, isOpen := true, bitCount := 0, frameBytes := [], overlong := false, groupBytes := [],
              groupOverlong := false, frameInTx := (s.endPhaseByStart flag).port.frameInTx, record := none,
              nextByte := 0, strap := s.port.strap, ack := false } } := by
  unfold State.takeStart State.modPort
  rw [State.endPhaseByStart_frame]
  rfl

theorem State.takeStop_eq (flag : Bool) : s.takeStop flag = { s with
    engine := if (s.endPhaseByStart flag).port.frameInTx = true then (s.endPhaseByStart flag).engine.leave
      else (s.endPhaseByStart flag).engine
    port := { phase := .watching, isOpen := false, bitCount := 0, frameBytes := [], overlong := false,
              groupBytes := [], groupOverlong := false, frameInTx := false, record := none, nextByte := 0,
              strap := s.port.strap, ack := false }
    lanes := (s.endPhaseByStop flag).lanes, array := (s.endPhaseByStop flag).array } := by
  unfold State.takeStop State.modPort
  rw [State.leaveFrame_eq, State.endPhaseByStop_frame, State.endPhaseByStart_frame]
  rfl

/-! The engine and the mark that the end of a phase leaves. -/

theorem State.endPhaseByStart_undelivered {flag : Bool} (h : s.port.phase = .write)
    (hv : frameVerdict s.port.overlong (s.port.written flag) = none) :
    (s.endPhaseByStart flag).engine = s.engine ∧ (s.endPhaseByStart flag).port.frameInTx = s.port.frameInTx := by
  rw [State.endPhaseByStart_write s flag h, State.deliverFrame_of_none _ hv]
  exact ⟨rfl, rfl⟩

theorem State.endPhaseByStart_delivered {flag : Bool} {v : Verdict} (h : s.port.phase = .write)
    (hv : frameVerdict s.port.overlong (s.port.written flag) = some v) :
    (s.endPhaseByStart flag).engine = .executing { verdict := v, bytes := s.port.written flag } false ∧
    (s.endPhaseByStart flag).port.frameInTx = true := by
  rw [State.endPhaseByStart_write s flag h, State.deliverFrame_of_some _ hv]
  exact ⟨rfl, rfl⟩

theorem State.endPhaseByStart_released {flag : Bool} (h : s.port.phase = .read)
    (begun : s.port.unacknowledged flag ≠ true) (marked : s.port.frameInTx = true) :
    (s.endPhaseByStart flag).engine = .idle ∧ (s.endPhaseByStart flag).port.frameInTx = false := by
  rw [State.endPhaseByStart_read s flag h, if_neg begun, State.releaseRecord_eq]
  exact ⟨if_pos marked, rfl⟩

theorem State.endPhaseByStart_unreleased {flag : Bool} (h : s.port.phase = .read)
    (keeps : s.port.unacknowledged flag = true ∨ s.port.frameInTx = false) :
    (s.endPhaseByStart flag).engine = s.engine ∧ (s.endPhaseByStart flag).port.frameInTx = s.port.frameInTx := by
  rw [State.endPhaseByStart_read s flag h]
  split
  · exact ⟨rfl, rfl⟩
  · have unmarked := keeps.resolve_left ‹_›
    rw [State.releaseRecord_eq]
    exact ⟨if_neg (by rw [unmarked]; nofun), unmarked.symm⟩

/-! The bytes that a START or STOP finds taken, and the byte it cuts. -/

theorem Port.unacknowledged_iff (p : Port) (flag : Bool) :
    p.unacknowledged flag = true ↔ flag = true ∧ p.bitCount = 8 := by
  simp [Port.unacknowledged]

theorem Port.written_eq {p : Port} {flag : Bool} {bytes : List Byte}
    (cut : flag = true ∧ p.bitCount = 8 → p.overlong = false → bytes = p.frameBytes.dropLast)
    (whole : ¬ (flag = true ∧ p.bitCount = 8) ∨ p.overlong = true → bytes = p.frameBytes) :
    p.written flag = bytes := by
  unfold Port.written
  simp only [Port.unacknowledged_iff]
  split
  · rename_i h
    exact (cut h.1 h.2).symm
  · rename_i h
    exact (whole ((not_and_or.mp h).imp_right Bool.eq_true_of_not_eq_false)).symm

theorem Port.grouped_eq (p : Port) (flag : Bool) : p.grouped flag =
    if flag = true ∧ p.bitCount = 8 ∧ p.groupOverlong = false then p.groupBytes.dropLast else p.groupBytes := by
  simp only [Port.grouped, Port.unacknowledged_iff, and_assoc]

/-! ### A group frame at the STOP (R172, R173) -/

theorem State.foldl_port {α : Type} {f : State → α → State}
    (h : ∀ (s : State) p x, f { s with port := p } x = { f s x with port := p }) (xs : List α) (s : State) (p : Port) :
    xs.foldl f { s with port := p } = { xs.foldl f s with port := p } := by
  induction xs generalizing s with
  | nil => rfl
  | cons x xs ih => rw [List.foldl_cons, h, ih, List.foldl_cons]

/-- The lanes take a group command whatever the port. -/
theorem State.groupStart_port (mask : Byte) (p : Port) :
    ({ s with port := p } : State).groupStart mask = { s.groupStart mask with port := p } :=
  State.foldl_port (fun _ _ _ => rfl) _ s p

theorem State.groupHalt_port (mask : Byte) (p : Port) :
    ({ s with port := p } : State).groupHalt mask = { s.groupHalt mask with port := p } := by
  refine State.foldl_port (fun s p n => ?_) _ s p
  by_cases h : (s.lane n).streams
  · rw [State.haltIfStreaming_of_streams h,
      State.haltIfStreaming_of_streams (s := { s with port := p }) (n := n) h]
    rfl
  · rw [State.haltIfStreaming_of_rests h,
      State.haltIfStreaming_of_rests (s := { s with port := p }) (n := n) h]

theorem Port.groupFrame_eq_some_iff (p : Port) (code mask : Byte) : p.groupFrame = some (code, mask) ↔
    p.groupOverlong = false ∧ p.groupBytes = [code, mask, checkValue [code, mask]] ∧
      (code = 0x70 ∨ code = 0x71) := by
  unfold Port.groupFrame
  split
  · rename_i c m check intact bytes
    simp only [intact, bytes, true_and, Option.ite_none_right_eq_some, Option.some.injEq, Prod.mk.injEq,
      List.cons.injEq, and_true]
    constructor
    · rintro ⟨⟨rfl, known⟩, rfl, rfl⟩
      exact ⟨⟨rfl, rfl, rfl⟩, known⟩
    · rintro ⟨⟨rfl, rfl, rfl⟩, known⟩
      exact ⟨⟨rfl, known⟩, rfl, rfl⟩
  · rename_i other
    exact ⟨nofun, fun ⟨intact, bytes, _⟩ => absurd bytes (other _ _ _ intact)⟩

/-- What a STOP leaves of the lanes and of the operation in flight, by the group frame it finds. -/
theorem State.endPhaseByStop_taken {flag : Bool} {code mask : Byte} (h : s.port.phase = .group)
    (intact : s.port.groupOverlong = false) (bytes : s.port.grouped flag = [code, mask, checkValue [code, mask]])
    (known : code = 0x70 ∨ code = 0x71) :
    (code = 0x70 → (s.endPhaseByStop flag).lanes = (s.groupStart mask).lanes ∧
      (s.endPhaseByStop flag).array = (s.groupStart mask).array) ∧
    (code = 0x71 → (s.endPhaseByStop flag).lanes = (s.groupHalt mask).lanes ∧
      (s.endPhaseByStop flag).array = (s.groupHalt mask).array) := by
  have frame : Port.groupFrame { s.port with groupBytes := s.port.grouped flag } = some (code, mask) :=
    (Port.groupFrame_eq_some_iff _ _ _).mpr ⟨intact, bytes, known⟩
  rw [State.endPhaseByStop_group s flag h]
  unfold State.closeGroup
  rw [frame]
  refine ⟨fun start => ?_, fun halt => ?_⟩
  · simp only [start, if_true, State.groupStart_port, and_self]
  · subst halt
    simp only [if_neg (by decide : ¬ (0x71 : Byte) = 0x70), State.groupHalt_port, and_self]

theorem State.endPhaseByStop_untaken {flag : Bool}
    (h : s.port.phase ≠ .group ∨ s.port.groupOverlong = true ∨ ∀ code mask, code = 0x70 ∨ code = 0x71 →
      s.port.grouped flag ≠ [code, mask, checkValue [code, mask]]) :
    (s.endPhaseByStop flag).lanes = s.lanes ∧ (s.endPhaseByStop flag).array = s.array := by
  by_cases hg : s.port.phase = .group
  · rw [State.endPhaseByStop_group s flag hg]
    have frame : Port.groupFrame { s.port with groupBytes := s.port.grouped flag } = none := by
      refine Option.eq_none_iff_forall_ne_some.mpr fun ⟨code, mask⟩ taken => ?_
      obtain ⟨intact, bytes, known⟩ := (Port.groupFrame_eq_some_iff _ _ _).mp taken
      rcases h with h | h | h
      · exact h hg
      · exact absurd (h.symm.trans intact) nofun
      · exact h code mask known bytes
    unfold State.closeGroup
    rw [frame]
    exact ⟨rfl, rfl⟩
  · rw [State.endPhaseByStop_other s flag hg, State.endPhaseByStart_frame]
    exact ⟨rfl, rfl⟩

theorem State.holdsClock_iff (flag : Bool) :
    s.holdsClock flag = true ↔ s.sckHeld = true ∧ ¬ (flag = true ∧ s.port.bitCount = 8) := by
  rw [← Port.unacknowledged_iff, State.holdsClock, Bool.and_eq_true, Bool.not_eq_true', Bool.not_eq_true]

/-- Settles O49: by the hold of SCK, then the engine and the mark by the phase that ends, and the lanes by the group
frame. -/
theorem startAndStop : Obligations.StartAndStop := by
  intro s flag high p cut left
  have leaves : left = Engine.leave := funext fun e => by cases e <;> rfl
  have high : ¬ s.resetnLow = true := by rw [high]; nofun
  refine ⟨fun held whole => ?_, fun free => ?_⟩
  · have holds := (State.holdsClock_iff s flag).mpr ⟨held, whole⟩
    simp only [exec, execStart, execStop, if_neg high, if_pos holds, and_self]
  · have free : ¬ s.holdsClock flag = true := fun holds => by
      obtain ⟨held, whole⟩ := (State.holdsClock_iff s flag).mp holds
      rcases free with free | cuts
      · exact absurd (held.symm.trans free) nofun
      · exact whole cuts
    refine ⟨s.takeStart flag, s.takeStop flag, (s.endPhaseByStart flag).engine,
      (s.endPhaseByStart flag).port.frameInTx, ?_, ?_, State.takeStart_eq s flag, ?_, ?_, ?_, ?_, ?_, ?_⟩
    · simp only [exec, execStart, if_neg high, if_neg free]
    · simp only [exec, execStop, if_neg high, if_neg free]
    · rw [leaves, State.takeStop_eq]
    · intro bytes writing cuts wholes
      rw [← Port.written_eq cuts wholes]
      exact ⟨State.endPhaseByStart_undelivered s writing, fun x => State.endPhaseByStart_delivered s writing⟩
    · exact fun reading whole => State.endPhaseByStart_released s reading
        (mt (Port.unacknowledged_iff p flag).mp whole)
    · exact fun reading keeps => State.endPhaseByStart_unreleased s reading
        (keeps.imp_left (Port.unacknowledged_iff p flag).mpr)
    · intro hw hr
      rw [State.endPhaseByStart_other s flag hw hr]
      exact ⟨rfl, rfl⟩
    · intro taken
      have taken_eq : p.grouped flag = taken := Port.grouped_eq p flag
      rw [State.takeStop_eq, ← taken_eq]
      refine ⟨fun code mask grouping intact bytes => ?_, State.endPhaseByStop_untaken s⟩
      refine ⟨fun start => ⟨_, rfl, ?_⟩, fun halt => ⟨_, rfl, ?_⟩⟩
      · exact (State.endPhaseByStop_taken s grouping intact bytes (.inl start)).1 start
      · exact (State.endPhaseByStop_taken s grouping intact bytes (.inr halt)).2 halt

/-! ### Bus errors and RESETn (R159, R175) -/

/-- Settles O52: a bus error leaves the frame of the transaction and clears the port; a low RESETn is seen first. -/
theorem busErrorAndReset : Obligations.BusErrorAndReset := by
  intro s bits condition low up left
  have leaves : left = Engine.leave := funext fun e => by cases e <;> rfl
  have counted : ¬ (bits = 0 ∨ 7 < bits) := by omega
  refine ⟨fun high free => ?_, fun reset => ?_⟩
  · have high : ¬ s.resetnLow = true := by rw [high]; nofun
    have free : ¬ s.sckHeld = true := by rw [free]; nofun
    simp only [exec, execBusError, if_neg counted, if_neg high, if_neg free, State.leaveFrame_eq, State.modPort, leaves]
    cases condition <;> rfl
  · refine ⟨?_, ?_, fun byte flag how => ⟨?_, ?_, ?_, ?_, ?_, ?_⟩⟩
    · simp only [exec, execBusError, if_neg counted, if_pos reset]
    · simp only [exec, execReadByteAcknowledge, reset, true_or, if_true]
    · simp only [exec, execStart, if_pos reset]
    · simp only [exec, execStop, if_pos reset]
    · simp only [exec, execAddressByte, reset, true_or, if_true]
    · simp only [exec, execWritePhaseByte, reset, true_or, if_true]
    · simp only [exec, execGroupPhaseByte, reset, true_or, if_true]
    · simp only [exec, execReadPhaseEnd, if_pos reset]

end Sys2Proof.Machine

namespace Sys2Proof.Machine

set_option Elab.async false

variable (s : State)

/-! ### PUT BUFFER and GET BUFFER (R147, R148) -/

theorem exec_putBuffer {c : Ctl} {tag offset : Byte} {data : List Byte}
    (h : s.executes (.putBuffer c tag offset data) = true) (hs : s.session c = some tag) {r : Reply}
    (hr : putBufferCommand c offset data s = r) :
    exec (.putBuffer c tag offset data) s = .next (r.state.answered r.status r.body) :=
  hr ▸ State.runFrame_inSession s _ c tag _ h hs

theorem exec_getBuffer {c : Ctl} {tag offset length : Byte}
    (h : s.executes (.getBuffer c tag offset length) = true) (hs : s.session c = some tag) {r : Reply}
    (hr : getBufferCommand c offset length s = r) :
    exec (.getBuffer c tag offset length) s = .next (r.state.answered r.status r.body) :=
  hr ▸ State.runFrame_inSession s _ c tag _ h hs

/-- Bytes numbered in their order are the cells of their numbers. -/
theorem zipIdx_cells (data : List Byte) :
    (data.zipIdx.map fun (b, i) => (i, b)) = (List.range data.length).map fun k => (k, data.getD k 0) := by
  refine List.ext_getElem (by simp) fun k h _ => ?_
  have inside : k < data.length := by simpa using h
  simp [inside]

/-- A memory into which bytes have been written from an offset on. -/
theorem Memory.read_writeAll_zipIdx (m : Memory) (offset : Nat) (data : List Byte) (k : Nat) :
    (m.writeAll offset (data.zipIdx.map fun (b, i) => (i, b))).read k =
      if offset ≤ k ∧ k < offset + data.length then data.getD (k - offset) 0 else m.read k := by
  rw [zipIdx_cells]
  by_cases below : offset ≤ k
  · obtain ⟨j, rfl⟩ := Nat.exists_eq_add_of_le below
    rw [Memory.read_writeAll_map]
    simp only [List.mem_range, Nat.le_add_right, Nat.add_lt_add_iff_left, true_and, Nat.add_sub_cancel_left]
  · rw [if_neg fun h => below h.1]
    refine Memory.read_writeAll_of_not_mem _ _ _ _ fun p hp e => below ?_
    rw [← e]
    exact Nat.le_add_right _ _

/-- Settles O46: by the range of the operands; what the buffer then holds, cell by cell. -/
theorem bufferCommands : Obligations.BufferCommands := by
  refine fun s c tag offset length data hs => ⟨fun h => ⟨fun bad => ?_, fun low fits => ?_⟩,
    fun h => ⟨fun bad => ?_, fun low least most fits => ?_⟩⟩
  · exact exec_putBuffer s h hs (if_pos bad)
  · refine ⟨_, exec_putBuffer s h hs (if_neg (by omega)), rfl, fun d other => ?_, fun k => ?_⟩
    · exact (State.setBuffer_buffer s c _ d).trans (if_neg other)
    · show ((s.setBuffer c _).buffer c).read k = _
      rw [State.setBuffer_buffer, if_pos rfl]
      exact Memory.read_writeAll_zipIdx _ _ _ _
  · exact exec_getBuffer s h hs (if_pos bad)
  · exact exec_getBuffer s h hs (if_neg (by omega))

/-! ### Admission (R139) -/

/-- One command of each code, in the order of the codes. -/
def commandOfEachCode : List Instr :=
  [.identify 0 0, .signOn 0 0 0, .signOff 0 0, .resetPart 0 0, .groupEnable 0 0 0, .putBuffer 0 0 0 [],
   .getBuffer 0 0 0 0, .rowInfo 0 0 0 0, .load 0 0 0 0 0, .store 0 0 0 0 0 0 0, .cstore 0 0 0 0 0 0 0 0,
   .fill 0 0 0 0 0 0 0 0, .copy 0 0 0 0 0 0 0 0, .cancel 0 0 0, .queryTicket 0 0 0, .claim 0 0 0 0 0 0 0,
   .release 0 0 0, .renew 0 0 0 0, .listClaims 0 0 0 0, .laneSetup 0 0 0 0 0 0 0 0, .laneStart 0 0 0 0,
   .laneStop 0 0 0 0, .laneResume 0 0 0, .laneReset 0 0 0, .laneStatus 0 0 0, .listAppend 0 0 0 [], .listTrim 0 0 0 0,
   .listClear 0 0 0, .listRead 0 0 0 0 0, .takeEvents 0 0 0, .peekEvents 0 0 0, .setAttention 0 0 0]

theorem knownCodes_eq : knownCodes = commandOfEachCode.filterMap fun i => (commandFields i).map fun x => x.2.2.1 := rfl

theorem exists_command_of_known {code : Byte} (h : code ∈ knownCodes) :
    ∃ i d t x, commandFields i = some (d, t, code, x) := by
  rw [knownCodes_eq] at h
  obtain ⟨i, -, carried⟩ := List.mem_filterMap.mp h
  obtain ⟨⟨d, t, code, x⟩, fields, rfl⟩ := Option.map_eq_some_iff.mp carried
  exact ⟨i, d, t, x, fields⟩

theorem known_of_commandFields {i : Instr} {c : Ctl} {tag code : Byte} {ps : List Byte}
    (h : commandFields i = some (c, tag, code, ps)) : code ∈ knownCodes := by
  -- A row that no frame carries has no fields; the code of every other is a literal of the list.
  cases i <;> cases h <;> decide

theorem admissionStatus_good (controller tag code check : Byte) (ps : List Byte) :
    admissionStatus .good (controller :: tag :: code :: (ps ++ [check])) =
      if 8 ≤ controller.toNat then .badFrame else if code ∉ knownCodes then .unknownCommand else .badParameter := rfl

/-- The row of every command but IDENTIFY and SIGN ON runs its frame in the session of its sender. -/
theorem exec_inSession {i : Instr} {c : Ctl} {tag code : Byte} {ps : List Byte}
    (h : commandFields i = some (c, tag, code, ps)) (identify : code ≠ 0x01) (signOn : code ≠ 0x02) :
    ∃ command, exec i s = s.runFrame i (inSession c tag command) ∨
      exec i s = s.runOccasion i (inSession c tag command) := by
  cases i
  case identify => cases h; exact absurd rfl identify
  case signOn => cases h; exact absurd rfl signOn
  case signOff | resetPart | load | store | cstore | fill | copy | claim | release | laneStart | laneResume |
    laneReset => cases h; exact ⟨_, .inr rfl⟩
  case groupEnable | putBuffer | getBuffer | rowInfo | cancel | queryTicket | renew | listClaims | laneSetup |
    laneStop | laneStatus | listAppend | listTrim | listClear | listRead | takeEvents | peekEvents | setAttention =>
    cases h; exact ⟨_, .inl rfl⟩
  all_goals exact nomatch h

theorem inSession_refused {c : Ctl} {tag : Byte} {status : Status} (command : State → Reply)
    (h : (s.session c = none ∧ status = .noSession) ∨ ((∃ t, s.session c = some t ∧ t ≠ tag) ∧ status = .wrongTag)) :
    inSession c tag command s = refuse s status := by
  unfold inSession
  rcases h with ⟨absent, rfl⟩ | ⟨⟨t, present, other⟩, rfl⟩
  · rw [absent]
  · rw [present]
    exact if_neg other

theorem State.answered_occasion (status : Status) (body : List Byte) :
    (s.answered status body).occasion = s.occasion := by
  unfold State.answered
  split
  · rfl
  · split <;> rfl
  · rfl

/-- Settles O41: the status by the frame's bytes, and the session check of every command but the two sessionless. -/
theorem admission : Obligations.Admission := by
  refine ⟨fun s verdict bytes h => ⟨admissionStatus verdict bytes, ?_, ?_, ?_, ?_⟩, ?_⟩
  · show execRefusedFrame verdict bytes s = _
    rw [execRefusedFrame, State.runFrame, if_pos h]
    exact congrArg _ (Reply.finish_eq s _ [])
  · rintro (rfl | rfl) <;> rfl
  · rintro rfl
    rfl
  · rintro controller tag code check ps rfl rfl
    rw [admissionStatus_good]
    refine ⟨fun beyond => if_pos beyond, fun within unknown => ?_, fun within known => ?_⟩
    · have absent : code ∉ knownCodes := fun known => by
        obtain ⟨i, d, t, x, fields⟩ := exists_command_of_known known
        exact unknown i d t x fields
      rw [if_neg (by omega), if_pos absent]
    · obtain ⟨i, d, t, x, fields⟩ := known
      rw [if_neg (by omega), if_neg (not_not.mpr (known_of_commandFields fields))]
  · intro s i c tag code ps fields identify signOn h status refused
    obtain ⟨command, row⟩ := exec_inSession s fields identify signOn
    have reply : (inSession c tag command s).finish = s.answered status [] := by
      rw [inSession_refused s command refused]
      exact Reply.finish_eq s status []
    rcases row with row | row
    · refine ⟨s.answered status [], ?_, .inl rfl, fun _ => rfl⟩
      rw [row, State.runFrame, if_pos h, reply]
    · refine ⟨(s.answered status []).arbitrate, ?_, .inr rfl, fun settled => ?_⟩
      · rw [row, State.runOccasion, if_pos h, reply]
      · exact State.arbitrate_of_no_occasion _ ((State.answered_occasion s status []).trans settled)

end Sys2Proof.Machine

namespace Sys2Proof.Machine

set_option Elab.async false

variable (s : State)

/-! ### The summary status and a result as they are sent (R177) -/

/-- A number given bit by bit is the sum of the powers of its bits. -/
theorem sum_two_pow_eq_ofBits {n : Nat} (f : Fin n → Bool) :
    ((List.finRange n).map fun c => if f c then 2 ^ c.val else 0).sum = Nat.ofBits f := by
  induction n with
  | zero => rfl
  | succ n ih =>
    have doubled : (fun c : Fin n => if f c.succ then 2 ^ (c.val + 1) else 0) =
        fun c => 2 * if (f ∘ Fin.succ) c then 2 ^ c.val else 0 := by
      funext c
      rw [mul_ite, mul_zero, Nat.pow_succ']
      rfl
    have lowest : (if f 0 then 2 ^ 0 else 0) = (f 0).toNat := by cases f 0 <;> rfl
    rw [List.finRange_succ, List.map_cons, List.sum_cons, List.map_map, Nat.ofBits_succ, ← ih, Nat.add_comm,
      ← List.sum_map_mul_left]
    exact congrArg₂ (· + ·) (congrArg (fun g => ((List.finRange n).map g).sum) doubled) lowest

theorem State.presentMask_getLsbD (c : Ctl) : s.presentMask.getLsbD c.val = (s.session c).isSome := by
  unfold State.presentMask byteOf
  rw [sum_two_pow_eq_ofBits, BitVec.getLsbD_ofNat, Nat.testBit_ofBits_lt _ _ c.isLt, decide_eq_true c.isLt,
    Bool.true_and]

/-! ### The judgement of an address byte, with what a read phase sends (R162 to R164, R177) -/

/-- Settles O50: by the address named and the direction, then by the part state, the engine and the mark. -/
theorem addressJudged : Obligations.AddressJudged := by
  intro s byte high addressed b statusCode laneCode named read device left leaves
  have status_code : ∀ r, statusCode r = r.code := fun r => by cases r <;> rfl
  have lane_code : ∀ l, laneCode l = l.code := fun l => by cases l <;> rfl
  have left_eq : left = Engine.leave := funext fun e => by cases e <;> rfl
  have reads : isRead byte = true ↔ read := isRead_iff byte
  have writes : ¬ read → isRead byte = false := fun h => Bool.eq_false_of_not_eq_true (mt reads.mp h)
  have leaves_iff : leaves ↔ s.port.frameInTx = true ∧ ¬ (addressOf byte = s.port.device ∧ isRead byte = true) := by
    rw [reads]
    exact Iff.rfl
  have frame := State.settled_frame s byte
  obtain ⟨phase, ack, record, judged⟩ := State.takeAddress_judges s byte
  have engine : (s.takeAddress byte).engine = (s.settled byte).engine := by rw [judged]; rfl
  have part : (s.settled byte).partState = s.partState := by rw [frame]
  have group : (s.settled byte).groupEnable = s.groupEnable := by rw [frame]
  refine ⟨fun r => ?_, s.takeAddress byte, (s.takeAddress byte).port.phase, (s.takeAddress byte).port.ack,
    (s.takeAddress byte).port.record, (s.takeAddress byte).port.frameInTx, ?_, ?_, fun h => ?_, fun h => ?_,
    fun hd starting => ?_, fun hd operating hw => ⟨fun idle => ?_, fun busy => ?_⟩,
    fun hd operating hr => ⟨fun idle => ?_, fun r holding marked => ?_, fun f d executing marked => ?_,
      fun busy unmarked => ?_⟩,
    fun hg => ⟨fun hw enabled operating => ?_, fun refused => ?_⟩, fun hg hd => ?_⟩
  · rw [status_code]
    rfl
  · have listens : ¬ (s.resetnLow = true ∨ s.port.phase.ignores = true) := by rw [high, addressed]; simp [Phase.ignores]
    simp only [exec, execAddressByte, if_neg listens, if_pos addressed]
  · rw [judged, frame]
    rfl
  · obtain ⟨marked, other⟩ := leaves_iff.mp h
    rw [judged, left_eq]
    exact State.settled_leaves s marked other
  · rw [judged]
    exact State.settled_stays s (mt leaves_iff.mpr h)
  · rw [State.takeAddress_device s hd, State.judgeDevice_starting _ _ (part.trans starting)]
    exact ⟨rfl, rfl⟩
  · rw [State.takeAddress_device_write s hd (writes hw),
      State.judgeDevice_write_idle _ (part.trans operating) (engine.symm.trans idle)]
    exact ⟨rfl, rfl, rfl⟩
  · rw [State.takeAddress_device_write s hd (writes hw),
      State.judgeDevice_write_busy _ (part.trans operating) (engine ▸ busy)]
    exact ⟨rfl, rfl⟩
  · rw [State.takeAddress_device_read s hd (reads.mpr hr), State.judgeDevice_read_idle _ operating idle]
    exact ⟨rfl, rfl, s.presentMask, fun n => (s.lane n).state.code, State.presentMask_getLsbD s,
      fun n => (lane_code _).symm, rfl⟩
  · rw [State.takeAddress_device_read s hd (reads.mpr hr), State.judgeDevice_read_holding _ operating holding marked]
    exact ⟨rfl, rfl, rfl⟩
  · rw [State.takeAddress_device_read s hd (reads.mpr hr), State.judgeDevice_read_executing _ operating executing marked]
    exact ⟨rfl, rfl, rfl, rfl⟩
  · rw [State.takeAddress_device_read s hd (reads.mpr hr), State.judgeDevice_read_unmarked _ operating busy unmarked]
    exact ⟨rfl, rfl⟩
  · rw [State.takeAddress_group s hg, writes hw,
      State.judgeGroup_taken _ (group.trans enabled) (part.trans operating)]
    exact ⟨rfl, rfl⟩
  · rw [State.takeAddress_group s hg,
      State.judgeGroup_refused _ (refused.imp reads.mpr (.imp group.trans part.trans))]
    exact ⟨rfl, rfl⟩
  · rw [State.takeAddress_other s hd hg]
    exact ⟨rfl, rfl⟩

end Sys2Proof.Machine

namespace Sys2Proof.Machine

set_option Elab.async false

variable (s : State)

/-! ### Bytes of a phase (R158, R160, R165, R171, R172) -/

theorem State.takesBytes {s : State} (high : s.resetnLow = false) (taking : s.port.phase.ignores = false) :
    ¬ (s.resetnLow = true ∨ s.port.phase.ignores = true) := by
  rw [high, taking]
  nofun

theorem exec_writePhaseByte_of_write (high : s.resetnLow = false) (writing : s.port.phase = .write) (b : Byte) :
    exec (.writePhaseByte b) s = .next (s.modPort fun p => p.takeWriteByte b) := by
  have taking := State.takesBytes high (by rw [writing]; rfl)
  simp only [exec, execWritePhaseByte, if_neg taking, if_pos writing]

theorem exec_groupPhaseByte_of_group (high : s.resetnLow = false) (grouping : s.port.phase = .group) (b : Byte) :
    exec (.groupPhaseByte b) s = .next (s.modPort fun p => p.takeGroupByte b) := by
  have taking := State.takesBytes high (by rw [grouping]; rfl)
  simp only [exec, execGroupPhaseByte, if_neg taking, if_pos grouping]

/-- In WATCHING and PASSED a byte on the bus is not the part's (R160, log entry 13). -/
theorem exec_byte_of_ignores (ignoring : s.port.phase.ignores = true) (b : Byte) :
    exec (.writePhaseByte b) s = .next s ∧ exec (.groupPhaseByte b) s = .next s ∧
    exec (.addressByte b) s = .next s ∧ exec .readByteAcknowledge s = .next s := by
  simp only [exec, execWritePhaseByte, execGroupPhaseByte, execAddressByte, execReadByteAcknowledge, ignoring, or_true,
    if_true, and_self]

theorem Port.takeWriteByte_of_lt {p : Port} (room : p.frameBytes.length < 40) (b : Byte) :
    p.takeWriteByte b = { p with frameBytes := p.frameBytes ++ [b], bitCount := 8, ack := true } := if_pos room

theorem Port.takeWriteByte_of_le {p : Port} (full : 40 ≤ p.frameBytes.length) (b : Byte) :
    p.takeWriteByte b = { p with overlong := true, bitCount := 8, ack := false } := if_neg (Nat.not_lt.mpr full)

theorem Port.takeGroupByte_of_lt {p : Port} (room : p.groupBytes.length < 3) (b : Byte) :
    p.takeGroupByte b = { p with groupBytes := p.groupBytes ++ [b], bitCount := 8, ack := true } := if_pos room

theorem Port.takeGroupByte_of_le {p : Port} (full : 3 ≤ p.groupBytes.length) (b : Byte) :
    p.takeGroupByte b = { p with groupOverlong := true, bitCount := 8, ack := false } := if_neg (Nat.not_lt.mpr full)

/-! A read phase whose record is loaded. -/

section sending

variable {s} {record : List Byte}

theorem State.not_sckHeld_of_record (loaded : s.port.record = some record) : ¬ s.sckHeld = true := by
  simp [State.sckHeld, loaded]

theorem State.sdaByte_of_record (reading : s.port.phase = .read) (loaded : s.port.record = some record) :
    s.sdaByte = some (record.getD s.port.nextByte 0xFF) := by
  simp only [State.sdaByte, reading, loaded]

theorem exec_readByteAcknowledge_of_record (high : s.resetnLow = false) (reading : s.port.phase = .read)
    (loaded : s.port.record = some record) : exec .readByteAcknowledge s =
      .next (s.modPort fun p => { p with nextByte := p.nextByte + 1, bitCount := 0, ack := false }) := by
  have taking := State.takesBytes high (by rw [reading]; rfl)
  simp only [exec, execReadByteAcknowledge, if_neg taking, if_pos reading,
    if_neg (State.not_sckHeld_of_record loaded)]

/-- The end of a read phase by its condition; STOP and repeated START are the rows of their own. -/
theorem exec_readPhaseEnd_of_record (high : s.resetnLow = false) (reading : s.port.phase = .read)
    (loaded : s.port.record = some record) :
    exec (.readPhaseEnd .nack) s =
      .next (s.releaseRecord.modPort fun p => { p.clear with phase := .passed, bitCount := 0 }) ∧
    exec (.readPhaseEnd .stop) s = exec (.stop false) s ∧
    exec (.readPhaseEnd .repeatedStart) s = exec (.start false) s := by
  have up : ¬ s.resetnLow = true := by rw [high]; nofun
  have unheld := State.not_sckHeld_of_record loaded
  have runs : ¬ s.holdsClock false = true := fun h => unheld ((State.holdsClock_iff s false).mp h).1
  simp only [exec, execReadPhaseEnd, execStart, execStop, if_neg up, if_pos reading, if_neg unheld, if_neg runs,
    and_self]

end sending

/-- Settles O51: by the phase; a read phase through its record, and its end through the release of that record. -/
theorem phaseBytes : Obligations.PhaseBytes := by
  intro s byte high p
  refine ⟨fun writing => ⟨fun room => ?_, fun full => ?_⟩, fun grouping => ⟨fun room => ?_, fun full => ?_⟩,
    fun record reading loaded => ⟨?_, ?_⟩, fun ignoring => exec_byte_of_ignores s ?_ byte⟩
  · rw [exec_writePhaseByte_of_write s high writing, State.modPort, Port.takeWriteByte_of_lt room]
  · rw [exec_writePhaseByte_of_write s high writing, State.modPort, Port.takeWriteByte_of_le full]
  · rw [exec_groupPhaseByte_of_group s high grouping, State.modPort, Port.takeGroupByte_of_lt room]
  · rw [exec_groupPhaseByte_of_group s high grouping, State.modPort, Port.takeGroupByte_of_le full]
  · exact ⟨_, exec_readByteAcknowledge_of_record high reading loaded, rfl, rfl,
      State.sdaByte_of_record reading loaded, State.sdaByte_of_record reading loaded⟩
  · obtain ⟨nack, stop, start⟩ := exec_readPhaseEnd_of_record high reading loaded
    refine ⟨?_, stop, start⟩
    rw [nack, State.releaseRecord_eq]
    rfl
  · rcases ignoring with (watching : s.port.phase = _) | (passed : s.port.phase = _)
    · rw [watching]; rfl
    · rw [passed]; rfl

end Sys2Proof.Machine
